-- ==== Sys2Proof/Word.lean ====
section
/-! DEFINITION. The word types of the Quanik Bextur (spec/00_scope.md R5: little-endian, bit 0 least significant). -/

namespace Sys2Proof

/-- One byte. -/
abbrev Byte := BitVec 8

/-- A 32-bit word: one vector lane, one instruction word. -/
abbrev W32 := BitVec 32

/-- A 64-bit word: a g or a register, an address, a system register. -/
abbrev W64 := BitVec 64

end Sys2Proof
end

