-- ==== Sys2Proof/Syntax.lean ====
section
/-! DEFINITION. The steps of the machine, one constructor of Instr per row of spec/opcode_table.json:
the instructions of the four streams (07_words.md R127 to R136 and the instruction chapters) with decoded
operands, then the events of the device, of the fabric and of its hosts, whose arguments are what the
event brings from outside or which of the pending things it acts on. -/

namespace Sys2Proof

/-- A physical core, 160·die + 8·cluster + core (R8). -/
abbrev CoreId := Fin 640

/-- The four streams of a core (R120). -/
inductive Stream
  | ctl | load | math | store
  deriving DecidableEq, Repr, Inhabited

/-- The token bits of an instruction word (R127, R128). -/
structure Tok where
  wp : Bool
  wn : Bool
  pp : Bool
  pn : Bool
  deriving DecidableEq, Repr, Inhabited

/-- A control-stream register g0–g31 (R132). -/
abbrev GReg := Fin 32
/-- A load- or store-stream register a0–a15 (R132). -/
abbrev AReg := Fin 16
/-- A math-stream register v0–v23 (R132). -/
abbrev VReg := Fin 24
/-- A queue number, iq0–iq7 or oq0–oq7 (R132). -/
abbrev QNum := Fin 8
/-- An ordering class c0–c15 (R134). -/
abbrev Cls := Fin 16

/-- A source field of the math stream: a v register or an iq, which is popped (R132, R133). -/
inductive VSrc
  | v (r : VReg)
  | iq (q : QNum)
  deriving DecidableEq, Repr, Inhabited

/-- A destination field of the math stream: a v register or an oq, which is pushed (R132, R133). -/
inductive VDst
  | v (r : VReg)
  | oq (q : QNum)
  deriving DecidableEq, Repr, Inhabited

/-- Access sizes of the scalar loads and stores (R182). -/
inductive Size
  | b1 | b2 | b4 | b8
  deriving DecidableEq, Repr, Inhabited

/-- Functions of the control-stream ALU (R179). -/
inductive AluOp
  | add | sub | and | or | xor | andn | shl | shr | sar | slt | sltu | min | max | minu | maxu
  | mul | mulh | mulhu | div | divu | rem | remu | clz | popc
  deriving DecidableEq, Repr, Inhabited

/-- Functions of the load- and store-stream AALU (R231). -/
inductive AaluOp
  | add | sub | and | or | shl | shr | mul
  deriving DecidableEq, Repr, Inhabited

/-- The forms of SHI (R180). -/
inductive ShiftOp
  | shl | shr | sar | ror
  deriving DecidableEq, Repr, Inhabited

/-- The forms of SETW and ASET (R181, R232). -/
inductive SetForm
  | signed | zero | high
  deriving DecidableEq, Repr, Inhabited

/-- The operations of AMO and RAMO (R183, R245). -/
inductive AmoOp
  | add | and | or | xor | min | max | minu | maxu | xchg | cas | fadd | fmin | fmax
  deriving DecidableEq, Repr, Inhabited

/-- Scopes (R310). -/
inductive Scope
  | core | cluster | die | device | gang
  deriving DecidableEq, Repr, Inhabited

/-- The ORDER field of AMO (R183). -/
inductive AmoOrder
  | rlx | acq | rel | ar
  deriving DecidableEq, Repr, Inhabited

/-- Kinds of FENCE (R184). -/
inductive FenceKind
  | full | acq | rel | ss
  deriving DecidableEq, Repr, Inhabited

/-- Floating-point element formats of the vector instructions (R253). -/
inductive FpFmt
  | f32 | bf16 | f16
  deriving DecidableEq, Repr, Inhabited

/-- Rounding modes of an instruction word (R50). -/
inductive Rm
  | rne | rtz | rdn | rup | rna | dyn
  deriving DecidableEq, Repr, Inhabited

/-- The f field of the rounding FP instructions (R253). -/
structure FpCtl where
  fmt : FpFmt
  rm  : Rm
  fzi : Bool
  fzo : Bool
  deriving DecidableEq, Repr, Inhabited

/-- The f field of the FP instructions that do not round (R253). -/
structure FpCtlX where
  fmt : FpFmt
  fzi : Bool
  deriving DecidableEq, Repr, Inhabited

/-- Element widths of IOP (R258). -/
inductive IWidth
  | w32 | w16 | w8
  deriving DecidableEq, Repr, Inhabited

/-- Functions of IOP (R258). -/
inductive IopOp
  | add | sub | and | or | xor | andn | shl | shr | sar | cmplt | cmpltu | min | max | minu | maxu
  | cmpeq | mul | mulh
  deriving DecidableEq, Repr, Inhabited

/-- The pairs of CVT, named destination then source (R261). -/
inductive CvtPair
  | bf16_f32 | f16_f32 | f32_bf16 | f32_f16 | fp8e4_f32 | fp8e5_f32 | f32_fp8e4 | f32_fp8e5
  | fp6e3_f32 | fp6e2_f32 | fp4_f32 | f32_fp6e3 | f32_fp6e2 | f32_fp4 | int32_f32 | f32_int32
  | int8_f32 | uint8_f32 | int8_int32 | uint8_int32 | int32_int8 | int32_uint8 | int32_int4
  deriving DecidableEq, Repr, Inhabited

/-- W2 of CVT (R260). -/
structure CvtCtl where
  rm  : Rm
  fzi : Bool
  fzo : Bool
  sat : Bool
  q   : Fin 8
  deriving DecidableEq, Repr, Inhabited

/-- Element formats of the reductions and SCANADD (R262, field W). -/
inductive RedFmt
  | f32 | bf16 | f16 | int32
  deriving DecidableEq, Repr, Inhabited

/-- The op word of CPY, CPYC, GATH, SCAT and GRED (R237). -/
structure OpWord where
  cls    : Cls
  rmask  : BitVec 16
  prio   : Fin 4
  det    : Bool
  nw     : Bool
  deriving DecidableEq, Repr, Inhabited

/-- Body of the gather family (R240). -/
structure GatherBody where
  d    : AReg
  m    : AReg
  ht   : Fin 16
  hi   : Fin 16
  togq : Bool
  bm   : Bool
  deriving DecidableEq, Repr, Inhabited

/-- Body of MMA, MMAS, MMAT and MMAL (R275); DET is not a field, since it must be 0. -/
structure MmaBody where
  z    : Fin 4
  ha   : Fin 16
  hb   : Fin 16
  fsel : Fin 32
  acc  : Bool
  ta   : Bool
  tb   : Bool
  rel  : Bool
  prio : Fin 4
  deriving DecidableEq, Repr, Inhabited

/-- FUNC of RRED and of the collective record (R246). -/
inductive RedFunc
  | fadd | fmax | fmin | iadd | imax | imin
  deriving DecidableEq, Repr, Inhabited

/-- The system registers (R190). -/
inductive SysReg
  | lcore | lclus | pcore | task | graph | tseq | rank | lmap | tstat | fctl | fstat | ftb
  | oseq (n : Fin 8) | owm (n : Fin 8) | zrp | frmc | frmode | slack | smiss | qstat | tokq
  | course | round | lc (n : Fin 4)
  deriving DecidableEq, Repr, Inhabited

/-- Timing modes of FRAME (R157, R214). -/
inductive FrameMode
  | free | elastic | strict
  deriving DecidableEq, Repr, Inhabited

/-- A bank-ALU operation of LOFT (R218, R243). -/
inductive LoftOp
  | acc | accb | max | min | scale | zero
  deriving DecidableEq, Repr, Inhabited

/-- Kinds of COLL (R247). -/
inductive CollKind
  | allgather | redscat | allred | bcast | barrier
  deriving DecidableEq, Repr, Inhabited

/-- A fabric position with its partition index: the parties of commit sequencing (R291, R300). -/
structure Party where
  pos  : Nat
  part : Nat
  deriving DecidableEq, Repr, Inhabited

/-- Where a notification of a remote op is counted (R244). -/
structure LandRef where
  lwcore : Nat
  lwoff  : Nat
  deriving DecidableEq, Repr, Inhabited

/-- What a remote op asks its destination to do (R245). The spec does not lay out how battens carry it:
the model carries it beside the payload (notes/assumptions/12.md). -/
inductive FabAct
  | write (data : List Byte)
  | read
  | amo (op : AmoOp) (size : Size) (operand compare : W64) (ret : Bool)
  deriving DecidableEq, Repr, Inhabited

/-- One remote access as its destination sees it (R244, R245, R300, R301). Which sending it comes from is the model's
(notes/assumptions/12.md). -/
structure FabReq where
  va     : Nat
  hash   : Nat
  act    : FabAct
  land   : Option LandRef
  count  : Nat
  tries  : Nat              -- how often the op had been stopped by a fault when it was sent (R301)
  deriving DecidableEq, Repr, Inhabited

/-- A message of a collective member (R248, R295): the data from a place of its source, and what must match; or the notice
that the member has failed (notes/assumptions/107.md). -/
structure CollMsg where
  hash   : Nat              -- of the sender's graph (R74)
  first  : Nat
  count  : Nat
  stride : Nat
  index  : Nat
  member : Nat
  kind   : CollKind
  func   : Nat
  bytes  : Nat
  root   : Nat
  off    : Nat
  data   : List Byte
  fcode  : Nat              -- the fault the member has met, or 0
  deriving DecidableEq, Repr, Inhabited

/-- A contribution to a reduction point (R246, R306). -/
structure RredMsg where
  hash   : Nat              -- of the sender's graph (R74)
  point  : Nat
  va     : Nat
  index  : Nat
  rank   : Nat
  func   : RedFunc
  count  : Nat
  data   : List Byte
  deriving DecidableEq, Repr, Inhabited

/-- The fault of an op that its destination reports (R301). -/
structure RecFault where
  num   : Nat
  code  : Nat
  addr  : Nat
  tries : Nat               -- the sending that met it
  deriving DecidableEq, Repr, Inhabited

/-- What a member of a gang tells the others before frame cycle 0: in the first barrier its revision and the course in which
it joined, in the second whether it holds the revision agreed (R115). -/
structure GangMsg where
  hash   : Nat              -- of the graph (R74)
  nrank  : Nat
  index  : Nat              -- which agreement of the HASH it is
  rank   : Nat              -- the member
  second : Bool
  rev    : Nat
  join   : Nat
  held   : Bool
  deriving DecidableEq, Repr, Inhabited

/-- What a batten carries, by KIND (R295). -/
inductive BattenBody
  | idle
  | data (req : FabReq)
  | commitRecord (upto : Nat) (fault : Option RecFault) (flags : Nat)
  | reply (num : Nat) (data : List Byte) (flags : Nat)
  | skip (num : Nat)
  | coll (m : CollMsg)
  | rred (m : RredMsg)
  | rredResult (m : RredMsg) (flags : Nat)
  | gang (m : GangMsg)
  | calibration (course : Nat) (ready : Bool)
  deriving DecidableEq, Repr, Inhabited

/-- One batten: its header fields (R295) and what it carries. -/
structure Batten where
  src  : Party
  dst  : Party
  cls  : Cls
  hop  : Nat
  cseq : Nat
  bidx : Nat
  body : BattenBody
  deriving DecidableEq, Repr, Inhabited

/-- What a header acknowledges: a block of 32 slots, ABLK, and a bit for each, ACK (R295). -/
structure Acks where
  block : Fin 128
  bits  : W32
  deriving DecidableEq, Repr, Inhabited

/-- A key and its salt, for one direction of a fibre (R304). -/
structure KeyGift where
  fibre : Fin 128
  rx    : Bool
  key   : BitVec 256
  salt  : W32
  deriving DecidableEq, Repr, Inhabited

/-- The steps of the machine. -/
inductive Instr
  -- all streams
  | nop (t : Tok)
  | stamp (t : Tok) (k : Fin 4194304)
  | udf (t : Tok) (v : Fin 4194304)
  -- control stream (10_control_isa.md)
  | alu (t : Tok) (f : AluOp) (d a b : GReg)
  | addi (t : Tok) (d a : GReg) (i : Fin 4096)
  | andi (t : Tok) (d a : GReg) (i : Fin 4096)
  | ori (t : Tok) (d a : GReg) (i : Fin 4096)
  | xori (t : Tok) (d a : GReg) (i : Fin 4096)
  | shi (t : Tok) (f : ShiftOp) (d a : GReg) (s : Fin 64)
  | slti (t : Tok) (d a : GReg) (i : Fin 4096)
  | sltiu (t : Tok) (d a : GReg) (i : Fin 4096)
  | setw (t : Tok) (f : SetForm) (d : GReg) (w2 : W32)
  | ld (t : Tok) (sz : Size) (d a : GReg) (c : Cls) (o : Fin 64)
  | ldu (t : Tok) (sz : Size) (d a : GReg) (c : Cls) (o : Fin 64)
  | st (t : Tok) (sz : Size) (a b : GReg) (c : Cls) (o : Fin 64)
  | amo (t : Tok) (op : AmoOp) (d a b cmp : GReg) (sz : Size) (c : Cls) (sc : Scope) (ord : AmoOrder)
  | fenceControl (t : Tok) (k : FenceKind) (sc : Scope) (m : BitVec 16)
  | beq (t : Tok) (a b : GReg) (i : Fin 4096)
  | bne (t : Tok) (a b : GReg) (i : Fin 4096)
  | blt (t : Tok) (a b : GReg) (i : Fin 4096)
  | bge (t : Tok) (a b : GReg) (i : Fin 4096)
  | bltu (t : Tok) (a b : GReg) (i : Fin 4096)
  | bgeu (t : Tok) (a b : GReg) (i : Fin 4096)
  | jal (t : Tok) (d : GReg) (i : Fin 131072)
  | jalr (t : Tok) (d a : GReg) (i : Fin 4096)
  | loopControl (t : Tok) (n : Fin 4) (a : GReg) (l : Fin 4096)
  | loopiControl (t : Tok) (n : Fin 4) (c l : Fin 1024)
  | sysr (t : Tok) (d : GReg) (r : SysReg)
  | sysw (t : Tok) (a : GReg) (r : SysReg)
  | trap (t : Tok) (c : Fin 4194304)
  | tnew (t : Tok) (d a b : GReg)
  | tsig (t : Tok) (a : GReg)
  | tsigAnswer (c : CoreId)
  | tctr (t : Tok) (d a : GReg) (k : Fin 5)
  | tyld (t : Tok)
  | tend (wp wn : Bool) (orphan : Bool)
  | successorWalk (c : CoreId)
  | guard (t : Tok) (a : GReg)
  | hnote (t : Tok) (a : GReg) (n : Fin 64)
  | tresResume (t : Tok) (a : GReg)
  | tresRetry (t : Tok) (a : GReg)
  | tkill (t : Tok) (a : GReg)
  | owait (t : Tok) (d a : GReg)
  | otest (t : Tok) (d a : GReg)
  | ocancel (t : Tok) (d a : GReg)
  | odetach (t : Tok) (d a : GReg)
  | oadopt (t : Tok) (d a : GReg)
  | oprio (t : Tok) (d a : GReg) (p : Fin 4)
  | orec (t : Tok) (d a b : GReg) (c : Cls)
  | bmake (t : Tok) (d a b : GReg)
  | bgive (t : Tok) (a b : GReg)
  | btake (t : Tok) (d a : GReg)
  | bdrop (t : Tok) (a : GReg)
  | rot (t : Tok) (prev : Bool) (a : GReg) (u : Fin 4096)
  | shape (t : Tok) (n : Fin 16) (a : GReg)
  | nest (t : Tok) (n : Fin 8) (a : GReg)
  | fmt (t : Tok) (e : Fin 32) (a : GReg) (c : Fin 64)
  | lexpControl (t : Tok) (d a : GReg) (i : Fin 4096)
  | lwaitControl (t : Tok) (d a : GReg) (i : Fin 4096)
  | frame (t : Tok) (m : FrameMode) (a : GReg) (i : Fin 4096)
  | tokwControl (t : Tok) (next : Bool) (n : Fin 64)
  | tokpControl (t : Tok) (next : Bool) (n : Fin 64)
  -- load and store streams (12_data_isa.md)
  | aalu (t : Tok) (f : AaluOp) (d a b : AReg)
  | aaddi (t : Tok) (d a : AReg) (i : Fin 4096)
  | aset (t : Tok) (f : SetForm) (d : AReg) (w2 : W32)
  | loopLoadStore (t : Tok) (n : Fin 4) (a : AReg) (l : Fin 4096)
  | loopiLoadStore (t : Tok) (n : Fin 4) (c l : Fin 1024)
  | jmpLoadStore (t : Tok) (i : Fin 131072)
  | endLoadStore (t : Tok)
  | rdq (t : Tok) (q : QNum) (a : AReg) (c : Cls) (o : Fin 256)
  | rdqs (t : Tok) (q : QNum) (a b : AReg) (c : Cls) (p : Fin 6)
  | wrq (t : Tok) (q : QNum) (a : AReg) (c : Cls) (o : Fin 256)
  | wrqs (t : Tok) (q : QNum) (a b : AReg) (c : Cls) (p : Fin 6)
  | entryLand (c : CoreId) (q : QNum)
  | cpy (t : Tok) (d a : AReg) (n : Fin 8) (ch : Fin 4) (w : OpWord) (notify : Bool)
  | cpyc (t : Tok) (d a : AReg) (n : Fin 8) (ch : Fin 4) (w : OpWord) (notify : Bool) (vreg : Fin 32)
  | gath (t : Tok) (g : GatherBody) (w : OpWord)
  | scat (t : Tok) (g : GatherBody) (w : OpWord)
  | gred (t : Tok) (g : GatherBody) (w : OpWord)
  | loftAcc (t : Tok) (d a b : AReg) (c : Cls)
  | loftAccb (t : Tok) (d a b : AReg) (c : Cls)
  | loftMax (t : Tok) (d a b : AReg) (c : Cls)
  | loftMin (t : Tok) (d a b : AReg) (c : Cls)
  | loftScale (t : Tok) (d a b : AReg) (c : Cls)
  | loftZero (t : Tok) (d b : AReg) (c : Cls)
  | rld (t : Tok) (q : QNum) (a : AReg) (i : Fin 4096)
  | rst (t : Tok) (q : QNum) (a : AReg) (i : Fin 4096)
  | ramo (t : Tok) (op : AmoOp) (d a b : AReg) (dword ret : Bool)
  | mcst (t : Tok) (q : QNum) (a b : AReg)
  | rred (t : Tok) (q : QNum) (a : AReg) (f : RedFunc)
  | collAllgather (t : Tok) (d a b : AReg) (p : Fin 4) (det nw : Bool)
  | collRedscat (t : Tok) (d a b : AReg) (p : Fin 4) (det nw : Bool)
  | collAllred (t : Tok) (d a b : AReg) (p : Fin 4) (det nw : Bool)
  | collBcast (t : Tok) (d a b : AReg) (p : Fin 4) (det nw : Bool)
  | collBarrier (t : Tok) (a : AReg) (p : Fin 4) (det nw : Bool)
  | lexpLoadStore (t : Tok) (d a : AReg) (i : Fin 4096)
  | lwaitLoadStore (t : Tok) (d a : AReg) (i : Fin 4096)
  | fenceLoadStore (t : Tok) (k : FenceKind) (sc : Scope) (m : BitVec 16)
  | tokwLoadStore (t : Tok) (next : Bool) (n : Fin 64)
  | tokpLoadStore (t : Tok) (next : Bool) (n : Fin 64)
  | tinv (t : Tok)
  | tinvComplete (n : Nat)
  | ald (t : Tok) (sz : Size) (d a : AReg) (c : Cls) (o : Fin 64)
  -- math stream: vector (13_vector_isa.md)
  | fadd (t : Tok) (d : VDst) (a b : VSrc) (f : FpCtl)
  | fsub (t : Tok) (d : VDst) (a b : VSrc) (f : FpCtl)
  | fmul (t : Tok) (d : VDst) (a b : VSrc) (f : FpCtl)
  | fmin (t : Tok) (d : VDst) (a b : VSrc) (f : FpCtlX)
  | fmax (t : Tok) (d : VDst) (a b : VSrc) (f : FpCtlX)
  | fabs (t : Tok) (d : VDst) (a : VSrc) (f : FpCtlX)
  | fneg (t : Tok) (d : VDst) (a : VSrc) (f : FpCtlX)
  | fcps (t : Tok) (d : VDst) (a b : VSrc) (f : FpCtlX)
  | fceq (t : Tok) (d : VDst) (a b : VSrc) (f : FpCtlX)
  | fclt (t : Tok) (d : VDst) (a b : VSrc) (f : FpCtlX)
  | fcle (t : Tok) (d : VDst) (a b : VSrc) (f : FpCtlX)
  | frcp (t : Tok) (d : VDst) (a : VSrc) (f : FpCtl)
  | frsq (t : Tok) (d : VDst) (a : VSrc) (f : FpCtl)
  | fexp2 (t : Tok) (d : VDst) (a : VSrc) (f : FpCtl)
  | flog2 (t : Tok) (d : VDst) (a : VSrc) (f : FpCtl)
  | fsqrt (t : Tok) (d : VDst) (a : VSrc) (f : FpCtl)
  | fma (t : Tok) (d : VReg) (a b : VSrc) (f : FpCtl)
  | fms (t : Tok) (d : VReg) (a b : VSrc) (f : FpCtl)
  | fnma (t : Tok) (d : VReg) (a b : VSrc) (f : FpCtl)
  | iop (t : Tok) (w : IWidth) (f : IopOp) (d : VDst) (a b : VSrc)
  | sel (t : Tok) (d : VDst) (a b : VSrc) (m : VReg)
  | cvt (t : Tok) (p : CvtPair) (d : VDst) (a b : VSrc) (m : CvtCtl)
  | bcast (t : Tok) (d : VDst) (a : VSrc) (lane : Fin 64)
  | perm (t : Tok) (d : VDst) (a b : VSrc)
  | redadd (t : Tok) (d : VDst) (a : VSrc) (w : RedFmt) (rm : Rm) (fzi fzo : Bool)
  | redmax (t : Tok) (d : VDst) (a : VSrc) (w : RedFmt) (fzi : Bool)
  | redmin (t : Tok) (d : VDst) (a : VSrc) (w : RedFmt) (fzi : Bool)
  | scanadd (t : Tok) (d : VDst) (a : VSrc) (w : RedFmt) (rm : Rm) (fzi fzo : Bool)
  | iota (t : Tok) (d : VDst)
  | lrot (t : Tok) (d : VDst) (a : VSrc) (s : Fin 64)
  | lpopc (t : Tok) (d : VDst) (a : VSrc)
  | movi (t : Tok) (d : VDst) (w2 : W32)
  | mov (t : Tok) (d : VDst) (a : VSrc) (peek : Bool)
  | mvq (t : Tok) (d : VDst) (gq nr : Bool)
  | kmrg (t : Tok) (d : VDst) (a b : VSrc) (h : VReg)
  | kmrgWriteback (c : CoreId)
  -- math stream: matrix (14_matrix_isa.md)
  | mma (t : Tok) (m : MmaBody)
  | mmas (t : Tok) (m : MmaBody) (hm : Fin 16)
  | mmat (t : Tok) (m : MmaBody)
  | mmal (t : Tok) (m : MmaBody) (bits : Fin 4)
  | zdrn (t : Tok) (z : Fin 4) (fsel : Fin 32) (vs : VReg) (row : Fin 64) (nblk : Fin 16)
  | zclr (t : Tok) (z : Fin 4)
  | zld (t : Tok) (z : Fin 4) (h : Fin 16) (p : Fin 4)
  | zst (t : Tok) (z : Fin 4) (h : Fin 16) (det : Bool) (p : Fin 4)
  | fidx (t : Tok) (h : Fin 16) (a : VSrc) (add : Bool)
  | loopMath (t : Tok) (n : Fin 4) (a : VSrc) (l : Fin 4096)
  | loopiMath (t : Tok) (n : Fin 4) (c l : Fin 1024)
  | jmpMath (t : Tok) (i : Fin 131072)
  | endMath (t : Tok)
  | tokwMath (t : Tok) (next : Bool) (n : Fin 64)
  | tokpMath (t : Tok) (next : Bool) (n : Fin 64)
  -- engines (09_ops.md, 12_data_isa.md, 14_matrix_isa.md); o is the model's number of a live op
  | opAccept (c : CoreId) (st : Stream)
  | copyBurst (o : Nat)
  | gatherElement (o : Nat)
  | kGroup (o : Nat)
  | accumulatorRow (o : Nat)
  | enginePush (c : CoreId) (gq : Bool)
  | opComplete (o : Nat)
  | opPull (c : CoreId) (o : Nat)
  | heldWriteRewalk (h : Nat)
  | writeHoldExpired (h : Nat)
  | scheduleMiss (c : CoreId) (st : Stream)
  | fetchRequest (c : CoreId) (st : Stream)
  | fetchFill (die : Fin 4) (k : Nat)
  -- hosts (04_launch.md, 06_yelm.md, 07_words.md, 11_memory.md)
  | launch (port : Fin 2) (ctx : Fin 64) (off : Nat) (bytes : List Byte)
  | launchProcess (port : Fin 2) (ctx : Fin 64)
  | gcan (port : Fin 2) (ctx : Fin 64) (handle : W32)
  | contextDescriptorWrite (port : Fin 2) (ctx : Fin 64) (lo : W64)
  | icinvContext (port : Fin 2) (ctx : Fin 64)
  | icinvAll (port : Fin 2) (part : Fin 4)
  | icinvComplete (port : Fin 2) (part : Fin 4)
  | xinv (port : Fin 2) (ctx : Fin 64)
  | yelmExport (port : Fin 2) (part : Fin 4) (ctx : Fin 64) (rev : Byte)
  | yelmImport (port : Fin 2) (part : Fin 4) (ctx : Fin 64)
  | yelmDelete (port : Fin 2) (part : Fin 4) (rev : Byte)
  | yelmFreeze (port : Fin 2) (part : Fin 4)
  | yelmThaw (port : Fin 2) (part : Fin 4)
  | yelmCommandDone (part : Fin 4)
  | preemptGraph (port : Fin 2) (handle : W32)
  | resumeGraph (port : Fin 2) (handle : W32)
  | cutComplete (c : CoreId)
  | handlerSpawn (slot : Nat)
  | cutResume (slot : Nat)
  | eviction (cores : List CoreId)
  | coreLost (c : CoreId)
  | graphTimeout (g : Nat)
  -- Ridge (05_ridge.md, 06_yelm.md, 18_retire.md)
  | dispatchSlot (part : Fin 4)
  | candidateReady (part : Fin 4)
  | streamsStart (c : CoreId)
  | tracedStart (lcore : Fin 640) (part : Fin 4)
  | guardStall (g : Nat)
  | gangAgreement (g : Nat) (rev : Nat) (join : Nat) (held : Bool) (timely : Bool)
  | graphRetire (g : Nat)
  | refinementPass (part : Fin 4)
  | notifierMessage (port : Fin 2) (ctx : Fin 64) (n : Fin 64)
  | hotPageMessage (port : Fin 2)
  -- the fabric (15_ettan.md)
  | battenSend (f : Fin 128)
  | battenReceive (f : Fin 128) (good : Bool) (acks : Acks) (b : Batten)
  | valleyForward (f : Fin 128)
  | battenRetransmit (f : Fin 128) (slot : Nat)
  | commit (src : Party) (part : Fin 4) (cls : Cls)
  | commitRecord (b : Batten)
  | reply (b : Batten)
  | skipRecord (b : Batten)
  | notifyHoldExpired (src : Party) (part : Fin 4) (cls : Cls)
  | fabricUnreachable (o : Nat)
  | keyInstall (k : KeyGift)
  | reductionFold (part : Fin 4)
  | wavelengthLost (f : Fin 128) (slot : Nat)
  | wavelengthRegained (f : Fin 128)
  | laserModuleRemoved (m : Fin 8)
  | laserModuleInserted (m : Fin 8)
  | laserPower (f : Fin 128)
  | cepoch (v : W64)
  | rsvWrite (part : Fin 4) (n : Fin 16) (v : W64)
  | replicaSwitchArm (part : Fin 4) (v : W64)
  | replicaSwitch (part : Fin 4)
  -- registers and service (11_memory.md, 22_service.md, 01_device.md)
  | hqdropWrite (port : Fin 2)
  | outboundWindowWrite (port : Fin 2) (n : Fin 8) (base : W64) (npg : W32) (en : Bool)
  | stkret (v : W64)
  | registerWrite (port : Fin 2) (part : Fin 4) (off : Nat) (v : BitVec 128)
  | attestationRequest (nonce : List Byte)
  | fuseRaise (v : W32)
  | firmwareUpdate (image : List Byte) (svn : W32)
  | microcodeUpdate (image : List Byte) (svn : W32)
  | recoveryImage (image : List Byte) (svn : W32)
  | partition (mode : Fin 3)
  | dieDrain (d : Fin 4)
  | dieReturn (d : Fin 4)
  | memUe (addr : Nat)
  | scrub (addr : Nat)
  | resultWrite (c : CoreId)
  | accessPerformed (c : CoreId) (st : Stream) (i : Nat)
  | hostMemoryAccess (port : Fin 2) (write : Bool) (addr : Nat) (bytes : List Byte)
  | copyOrderWaitExpired (o : Nat)
  | cutStoreMove (slot : Nat)
  | powerClamp (cores : List CoreId)
  -- events without operands, of the families above
  | counterDecrement
  | courseBoundary
  | internalDelivery
  | landingNotify
  | forcedCut
  | eccstatWrite
  | powerOn
  | thermalTrip
  | thermalRestart
  deriving DecidableEq, Repr, Inhabited

end Sys2Proof
end

