-- ==== Sys2Proof/WellFormed.lean ====
section
/-! DEFINITION. Which terms of Instr stand for an instruction: the conditions beyond the ranges of the operand
types that the entries set, and whose breach is ILLEGAL_OP (R136 order 5). An event has no such condition. -/

namespace Sys2Proof

/-- A floating-point function of AMO and RAMO, on words only (R183, R245). -/
def AmoOp.isFp : AmoOp → Bool
  | .fadd | .fmin | .fmax => true
  | _ => false

/-- CLZ and POPC, whose b field must be 0 (R179). -/
def AluOp.isUnary : AluOp → Bool
  | .clz | .popc => true
  | _ => false

/-- How many places Q of a CVT selects among (R261). -/
def CvtPair.selects : CvtPair → Nat
  | .bf16_f32 | .f16_f32 | .int32_f32 | .f32_int32 => 1
  | .f32_bf16 | .f32_f16 => 2
  | .fp4_f32 | .f32_fp4 | .int32_int4 => 8
  | _ => 4

/-- The pairs that insert into d and so read it: d must be a v register (R260, R261). -/
def CvtPair.inserts : CvtPair → Bool
  | .fp8e4_f32 | .fp8e5_f32 | .fp6e3_f32 | .fp6e2_f32 | .fp4_f32 | .int8_f32 | .uint8_f32
  | .int8_int32 | .uint8_int32 => true
  | _ => false

/-- The pairs with an integer source: FZI must be 0 (R260). -/
def CvtPair.intSource : CvtPair → Bool
  | .f32_int32 | .int8_int32 | .uint8_int32 | .int32_int8 | .int32_uint8 | .int32_int4 => true
  | _ => false

/-- The pairs with an integer destination: FZO must be 0 (R260). -/
def CvtPair.intDest : CvtPair → Bool
  | .int32_f32 | .int8_f32 | .uint8_f32 | .int8_int32 | .uint8_int32 | .int32_int8 | .int32_uint8
  | .int32_int4 => true
  | _ => false

/-- Pairs 0 and 1, which take two sources and may saturate (R260). -/
def CvtPair.packs : CvtPair → Bool
  | .bf16_f32 | .f16_f32 => true
  | _ => false

/-- d is a v register. -/
def VDst.isV : VDst → Bool
  | .v _ => true
  | .oq _ => false

/-- a is an iq. -/
def VSrc.isQ : VSrc → Bool
  | .iq _ => true
  | .v _ => false

/-- The conditions of R260 on a CVT. -/
def wfCvt (p : CvtPair) (d : VDst) (b : VSrc) (m : CvtCtl) : Bool :=
  (m.q.val < p.selects) && (!m.sat || p.packs) && (!m.fzi || !p.intSource) && (!m.fzo || !p.intDest) &&
  (p.packs || b == .v 0) && (!p.inserts || d.isV)

/-- In the reductions with W = 3 the mode bits must be 0 (R262). -/
def wfRed (w : RedFmt) (rm : Rm) (fzi fzo : Bool) : Bool :=
  w != .int32 || (rm == .rne && !fzi && !fzo)

/-- The conditions of R240 on a body: d is 0 under TOGQ, and the bitmap register is 0 without BM. -/
def wfGather (g : GatherBody) : Bool :=
  (!g.togq || g.d == 0) && (g.bm || g.m == 0)

/-- The term stands for an instruction word. -/
def Instr.WellFormed : Instr → Bool
  | .alu _ f _ _ b => !f.isUnary || b == 0
  | .ldu _ sz _ _ _ _ => sz != .b8
  | .amo _ op _ _ _ cmp sz _ sc _ =>
      (sz == .b4 || sz == .b8) && (!op.isFp || sz == .b4) && (op == .cas || cmp == 0) && sc != .gang
  | .loopControl _ _ _ l => l != 0
  | .loopiControl _ _ _ l => l != 0
  | .loopLoadStore _ _ _ l => l != 0
  | .loopiLoadStore _ _ _ l => l != 0
  | .loopMath _ _ _ l => l != 0
  | .loopiMath _ _ _ l => l != 0
  | .rot _ _ _ u => u != 0
  | .fmt _ e _ c => c != 0 && e.val + c.val ≤ 32
  | .tokwControl _ _ n => n != 0
  | .tokpControl _ _ n => n != 0
  | .tokwLoadStore _ _ n => n != 0
  | .tokpLoadStore _ _ n => n != 0
  | .tokwMath _ _ n => n != 0
  | .tokpMath _ _ n => n != 0
  | .gath _ g _ => wfGather g
  | .scat _ g _ => wfGather g && !g.togq
  | .gred _ g _ => wfGather g
  | .rld _ _ a _ => a != 15
  | .rst _ _ a _ => a != 15
  | .ramo _ op d a b dword ret =>
      a != 15 && (op != .cas || b != 15) && (!op.isFp || !dword) && (ret || d == 0)
  | .mcst _ _ a _ => a != 15
  | .rred _ _ a _ => a != 15
  | .cvt _ p d _ b m => wfCvt p d b m
  | .redadd _ _ _ w rm fzi fzo => wfRed w rm fzi fzo
  | .redmax _ _ _ w fzi => wfRed w .rne fzi false
  | .redmin _ _ _ w fzi => wfRed w .rne fzi false
  | .scanadd _ _ _ w rm fzi fzo => wfRed w rm fzi fzo
  | .mov _ _ a peek => !peek || a.isQ
  | .mmas _ m _ => !m.tb
  | .zdrn _ _ _ _ row nblk => row.val + 4 * (nblk.val + 1) ≤ 64
  | _ => true

end Sys2Proof
end

