-- ==== Sys2Proof/Decode.lean ====
section
/-! DEFINITION. From words to instructions and back (07_words.md R127 to R136, and the encoding of each entry).
decode is total: it answers an instruction, or the check of R136 that the word fails. The fields are read by
division, so that a field is its bits. encode is written from the same tables. -/

namespace Sys2Proof

/-- Why a word is no instruction, by the order of R136: 3, 4 or 5. -/
inductive Reject
  | illegalStream      -- assigned in another stream only
  | unassigned         -- 0x1F and 0x3E
  | field              -- a reserved or illegal field
  deriving DecidableEq, Repr, Inhabited

/-! ## Codes of the fields -/

/-- SIZE (R182). -/
def Size.code : Size → Nat
  | .b1 => 0
  | .b2 => 1
  | .b4 => 2
  | .b8 => 3

/-- Size of its code. -/
def Size.ofCode : Nat → Option Size
  | 0 => some .b1
  | 1 => some .b2
  | 2 => some .b4
  | 3 => some .b8
  | _ => none

/-- f of ALU (R179). -/
def AluOp.code : AluOp → Nat
  | .add => 0
  | .sub => 1
  | .and => 2
  | .or => 3
  | .xor => 4
  | .andn => 5
  | .shl => 6
  | .shr => 7
  | .sar => 8
  | .slt => 9
  | .sltu => 10
  | .min => 11
  | .max => 12
  | .minu => 13
  | .maxu => 14
  | .mul => 16
  | .mulh => 17
  | .mulhu => 18
  | .div => 20
  | .divu => 21
  | .rem => 22
  | .remu => 23
  | .clz => 24
  | .popc => 25

/-- AluOp of its code. -/
def AluOp.ofCode : Nat → Option AluOp
  | 0 => some .add
  | 1 => some .sub
  | 2 => some .and
  | 3 => some .or
  | 4 => some .xor
  | 5 => some .andn
  | 6 => some .shl
  | 7 => some .shr
  | 8 => some .sar
  | 9 => some .slt
  | 10 => some .sltu
  | 11 => some .min
  | 12 => some .max
  | 13 => some .minu
  | 14 => some .maxu
  | 16 => some .mul
  | 17 => some .mulh
  | 18 => some .mulhu
  | 20 => some .div
  | 21 => some .divu
  | 22 => some .rem
  | 23 => some .remu
  | 24 => some .clz
  | 25 => some .popc
  | _ => none

/-- f of AALU (R231). -/
def AaluOp.code : AaluOp → Nat
  | .add => 0
  | .sub => 1
  | .and => 2
  | .or => 3
  | .shl => 6
  | .shr => 7
  | .mul => 16

/-- AaluOp of its code. -/
def AaluOp.ofCode : Nat → Option AaluOp
  | 0 => some .add
  | 1 => some .sub
  | 2 => some .and
  | 3 => some .or
  | 6 => some .shl
  | 7 => some .shr
  | 16 => some .mul
  | _ => none

/-- Bits 11:10 of SHI (R180). -/
def ShiftOp.code : ShiftOp → Nat
  | .shl => 0
  | .shr => 1
  | .sar => 2
  | .ror => 3

/-- ShiftOp of its code. -/
def ShiftOp.ofCode : Nat → Option ShiftOp
  | 0 => some .shl
  | 1 => some .shr
  | 2 => some .sar
  | 3 => some .ror
  | _ => none

/-- The a field of SETW and ASET (R181, R232). -/
def SetForm.code : SetForm → Nat
  | .signed => 0
  | .zero => 1
  | .high => 2

/-- SetForm of its code. -/
def SetForm.ofCode : Nat → Option SetForm
  | 0 => some .signed
  | 1 => some .zero
  | 2 => some .high
  | _ => none

/-- f of AMO (R183) and f 6:3 of RAMO (R245). -/
def AmoOp.code : AmoOp → Nat
  | .add => 0
  | .and => 1
  | .or => 2
  | .xor => 3
  | .min => 4
  | .max => 5
  | .minu => 6
  | .maxu => 7
  | .xchg => 8
  | .cas => 9
  | .fadd => 10
  | .fmin => 11
  | .fmax => 12

/-- AmoOp of its code. -/
def AmoOp.ofCode : Nat → Option AmoOp
  | 0 => some .add
  | 1 => some .and
  | 2 => some .or
  | 3 => some .xor
  | 4 => some .min
  | 5 => some .max
  | 6 => some .minu
  | 7 => some .maxu
  | 8 => some .xchg
  | 9 => some .cas
  | 10 => some .fadd
  | 11 => some .fmin
  | 12 => some .fmax
  | _ => none

/-- Scopes of FENCE (R184) and, but for gang, of AMO (R183). -/
def Scope.code : Scope → Nat
  | .core => 0
  | .cluster => 1
  | .die => 2
  | .device => 3
  | .gang => 4

/-- Scope of its code. -/
def Scope.ofCode : Nat → Option Scope
  | 0 => some .core
  | 1 => some .cluster
  | 2 => some .die
  | 3 => some .device
  | 4 => some .gang
  | _ => none

/-- ORDER of AMO (R183). -/
def AmoOrder.code : AmoOrder → Nat
  | .rlx => 0
  | .acq => 1
  | .rel => 2
  | .ar => 3

/-- AmoOrder of its code. -/
def AmoOrder.ofCode : Nat → Option AmoOrder
  | 0 => some .rlx
  | 1 => some .acq
  | 2 => some .rel
  | 3 => some .ar
  | _ => none

/-- Kinds of FENCE (R184). -/
def FenceKind.code : FenceKind → Nat
  | .full => 0
  | .acq => 1
  | .rel => 2
  | .ss => 3

/-- FenceKind of its code. -/
def FenceKind.ofCode : Nat → Option FenceKind
  | 0 => some .full
  | 1 => some .acq
  | 2 => some .rel
  | 3 => some .ss
  | _ => none

/-- FMT (R253). -/
def FpFmt.code : FpFmt → Nat
  | .f32 => 0
  | .bf16 => 1
  | .f16 => 2

/-- FpFmt of its code. -/
def FpFmt.ofCode : Nat → Option FpFmt
  | 0 => some .f32
  | 1 => some .bf16
  | 2 => some .f16
  | _ => none

/-- RM (R50, R253). -/
def Rm.code : Rm → Nat
  | .rne => 0
  | .rtz => 1
  | .rdn => 2
  | .rup => 3
  | .rna => 4
  | .dyn => 5

/-- Rm of its code. -/
def Rm.ofCode : Nat → Option Rm
  | 0 => some .rne
  | 1 => some .rtz
  | 2 => some .rdn
  | 3 => some .rup
  | 4 => some .rna
  | 5 => some .dyn
  | _ => none

/-- f 6:5 of IOP (R258). -/
def IWidth.code : IWidth → Nat
  | .w32 => 0
  | .w16 => 1
  | .w8 => 2

/-- IWidth of its code. -/
def IWidth.ofCode : Nat → Option IWidth
  | 0 => some .w32
  | 1 => some .w16
  | 2 => some .w8
  | _ => none

/-- f 4:0 of IOP (R258). -/
def IopOp.code : IopOp → Nat
  | .add => 0
  | .sub => 1
  | .and => 2
  | .or => 3
  | .xor => 4
  | .andn => 5
  | .shl => 6
  | .shr => 7
  | .sar => 8
  | .cmplt => 9
  | .cmpltu => 10
  | .min => 11
  | .max => 12
  | .minu => 13
  | .maxu => 14
  | .cmpeq => 15
  | .mul => 16
  | .mulh => 17

/-- IopOp of its code. -/
def IopOp.ofCode : Nat → Option IopOp
  | 0 => some .add
  | 1 => some .sub
  | 2 => some .and
  | 3 => some .or
  | 4 => some .xor
  | 5 => some .andn
  | 6 => some .shl
  | 7 => some .shr
  | 8 => some .sar
  | 9 => some .cmplt
  | 10 => some .cmpltu
  | 11 => some .min
  | 12 => some .max
  | 13 => some .minu
  | 14 => some .maxu
  | 15 => some .cmpeq
  | 16 => some .mul
  | 17 => some .mulh
  | _ => none

/-- f 4:0 of CVT (R261). -/
def CvtPair.code : CvtPair → Nat
  | .bf16_f32 => 0
  | .f16_f32 => 1
  | .f32_bf16 => 2
  | .f32_f16 => 3
  | .fp8e4_f32 => 4
  | .fp8e5_f32 => 5
  | .f32_fp8e4 => 6
  | .f32_fp8e5 => 7
  | .fp6e3_f32 => 8
  | .fp6e2_f32 => 9
  | .fp4_f32 => 10
  | .f32_fp6e3 => 11
  | .f32_fp6e2 => 12
  | .f32_fp4 => 13
  | .int32_f32 => 14
  | .f32_int32 => 15
  | .int8_f32 => 16
  | .uint8_f32 => 17
  | .int8_int32 => 18
  | .uint8_int32 => 19
  | .int32_int8 => 20
  | .int32_uint8 => 21
  | .int32_int4 => 22

/-- CvtPair of its code. -/
def CvtPair.ofCode : Nat → Option CvtPair
  | 0 => some .bf16_f32
  | 1 => some .f16_f32
  | 2 => some .f32_bf16
  | 3 => some .f32_f16
  | 4 => some .fp8e4_f32
  | 5 => some .fp8e5_f32
  | 6 => some .f32_fp8e4
  | 7 => some .f32_fp8e5
  | 8 => some .fp6e3_f32
  | 9 => some .fp6e2_f32
  | 10 => some .fp4_f32
  | 11 => some .f32_fp6e3
  | 12 => some .f32_fp6e2
  | 13 => some .f32_fp4
  | 14 => some .int32_f32
  | 15 => some .f32_int32
  | 16 => some .int8_f32
  | 17 => some .uint8_f32
  | 18 => some .int8_int32
  | 19 => some .uint8_int32
  | 20 => some .int32_int8
  | 21 => some .int32_uint8
  | 22 => some .int32_int4
  | _ => none

/-- W of LANE (R262). -/
def RedFmt.code : RedFmt → Nat
  | .f32 => 0
  | .bf16 => 1
  | .f16 => 2
  | .int32 => 3

/-- RedFmt of its code. -/
def RedFmt.ofCode : Nat → Option RedFmt
  | 0 => some .f32
  | 1 => some .bf16
  | 2 => some .f16
  | 3 => some .int32
  | _ => none

/-- FUNC (R246). -/
def RedFunc.code : RedFunc → Nat
  | .fadd => 0
  | .fmax => 1
  | .fmin => 2
  | .iadd => 3
  | .imax => 4
  | .imin => 5

/-- RedFunc of its code. -/
def RedFunc.ofCode : Nat → Option RedFunc
  | 0 => some .fadd
  | 1 => some .fmax
  | 2 => some .fmin
  | 3 => some .iadd
  | 4 => some .imax
  | 5 => some .imin
  | _ => none

/-- Modes of FRAME (R214, R158). -/
def FrameMode.code : FrameMode → Nat
  | .free => 0
  | .elastic => 1
  | .strict => 2

/-- FrameMode of its code. -/
def FrameMode.ofCode : Nat → Option FrameMode
  | 0 => some .free
  | 1 => some .elastic
  | 2 => some .strict
  | _ => none

/-- Register numbers (R190). -/
def SysReg.code : SysReg → Nat
  | .lcore => 0
  | .lclus => 1
  | .pcore => 2
  | .task => 3
  | .graph => 4
  | .tseq => 5
  | .rank => 6
  | .lmap => 7
  | .tstat => 8
  | .fctl => 16
  | .fstat => 17
  | .ftb => 18
  | .zrp => 48
  | .frmc => 64
  | .frmode => 65
  | .slack => 66
  | .smiss => 67
  | .qstat => 80
  | .tokq => 81
  | .course => 96
  | .round => 97
  | .oseq n => 32 + n.val
  | .owm n => 40 + n.val
  | .lc n => 112 + n.val

/-- The register of a number; none for a number R190 does not list. -/
def SysReg.ofCode (c : Nat) : Option SysReg :=
  match c with
  | 0 => some .lcore
  | 1 => some .lclus
  | 2 => some .pcore
  | 3 => some .task
  | 4 => some .graph
  | 5 => some .tseq
  | 6 => some .rank
  | 7 => some .lmap
  | 8 => some .tstat
  | 16 => some .fctl
  | 17 => some .fstat
  | 18 => some .ftb
  | 48 => some .zrp
  | 64 => some .frmc
  | 65 => some .frmode
  | 66 => some .slack
  | 67 => some .smiss
  | 80 => some .qstat
  | 81 => some .tokq
  | 96 => some .course
  | 97 => some .round
  | _ =>
    if 32 ≤ c ∧ c < 40 then some (.oseq (Fin.ofNat 8 (c - 32)))
    else if 40 ≤ c ∧ c < 48 then some (.owm (Fin.ofNat 8 (c - 40)))
    else if 112 ≤ c ∧ c < 116 then some (.lc (Fin.ofNat 4 (c - 112)))
    else none

/-! ## Fields of a word -/

/-- Bits 31:26 (R127). -/
def opcOf (w : Nat) : Nat := w / 67108864 % 64

/-- Bits 25:22 (R127). -/
def tokOf (w : Nat) : Tok :=
  ⟨w / 33554432 % 2 == 1, w / 16777216 % 2 == 1, w / 8388608 % 2 == 1, w / 4194304 % 2 == 1⟩

/-- n bits of w from bit lo, as a number below 2^n (2^n given as k, 2^lo as p). -/
def fld (k : Nat) [NeZero k] (p w : Nat) : Fin k := Fin.ofNat k (w / p)

/-- A single bit, at 2^lo = p. -/
def bit1 (p w : Nat) : Bool := w / p % 2 == 1

/-- Bits 21:17, 16:12 and 11:7 (R129). -/
def fD (w : Nat) : Fin 32 := fld 32 131072 w
def fA (w : Nat) : Fin 32 := fld 32 4096 w
def fB (w : Nat) : Fin 32 := fld 32 128 w
/-- Bits 6:0, 11:0, 16:0 and 21:0 (R129). -/
def fF (w : Nat) : Fin 128 := fld 128 1 w
def fI (w : Nat) : Fin 4096 := fld 4096 1 w
def fJ (w : Nat) : Fin 131072 := fld 131072 1 w
def fK (w : Nat) : Fin 4194304 := fld 4194304 1 w

/-- An a register of a 5-bit code: 0–15 (R132). -/
def aReg (c : Fin 32) : Option AReg := if h : c.val < 16 then some ⟨c.val, h⟩ else none

/-- A v register of a 5-bit code: 0–23 (R132). -/
def vReg (c : Fin 32) : Option VReg := if h : c.val < 24 then some ⟨c.val, h⟩ else none

/-- A queue of a 5-bit code: 24–31 (R132). -/
def qNum (c : Fin 32) : Option QNum := if h : 24 ≤ c.val then some ⟨c.val - 24, by omega⟩ else none

/-- A math source: v0–v23, else an iq (R132). -/
def vSrc (c : Fin 32) : VSrc := if h : c.val < 24 then .v ⟨c.val, h⟩ else .iq ⟨c.val - 24, by omega⟩

/-- A math destination: v0–v23, else an oq (R132). -/
def vDst (c : Fin 32) : VDst := if h : c.val < 24 then .v ⟨c.val, h⟩ else .oq ⟨c.val - 24, by omega⟩

/-- What a field check lets through: i when it is well formed and the fields that must be zero are. -/
def keep (zeros : Bool) (i : Instr) : Option Instr := if zeros && i.WellFormed then some i else none

/-! ## The control stream -/

/-- The SIZE, CLASS and OFF of LD, LDU, ST and ALD (R182). -/
def memSize (w : Nat) : Option Size := Size.ofCode (w / 1024 % 4)
def memCls (w : Nat) : Cls := fld 16 64 w
def memOff (w : Nat) : Fin 64 := fld 64 1 w

/-- AMO (R183). -/
def decodeAmo (t : Tok) (w w2 : Nat) : Option Instr := do
  let op ← AmoOp.ofCode (fF w).val
  let sz ← Size.ofCode (w2 / 256 % 4)
  let sc ← Scope.ofCode (w2 / 65536 % 8)
  let ord ← AmoOrder.ofCode (w2 / 1048576 % 4)
  keep (w2 / 32 % 8 == 0 && w2 / 16384 % 4 == 0 && w2 / 524288 % 2 == 0 && w2 / 4194304 % 1024 == 0)
    (.amo t op (fD w) (fA w) (fB w) (fld 32 1 w2) sz (fld 16 1024 w2) sc ord)

/-- FENCE in the control stream (R184). -/
def decodeFenceC (t : Tok) (w : Nat) : Option Instr := do
  let k ← FenceKind.ofCode (w / 524288 % 8)
  let sc ← Scope.ofCode (w / 65536 % 8)
  keep true (.fenceControl t k sc (BitVec.ofNat 16 w))

/-- FENCE in the load and store streams (R249). -/
def decodeFenceLS (t : Tok) (w : Nat) : Option Instr := do
  let k ← FenceKind.ofCode (w / 524288 % 8)
  let sc ← Scope.ofCode (w / 65536 % 8)
  keep true (.fenceLoadStore t k sc (BitVec.ofNat 16 w))

/-- TRES: i bit 0 is the mode, bits 11:1 are zero (R199). -/
def decodeTres (t : Tok) (w : Nat) : Option Instr :=
  match w % 4096 with
  | 0 => keep (fD w == 0) (.tresResume t (fA w))
  | 1 => keep (fD w == 0) (.tresRetry t (fA w))
  | _ => none

/-- The control stream's map (R135): none when a field check of R136 order 5 fails. -/
def decodeC (w w2 : Nat) : Option (Option Instr) :=
  let t := tokOf w
  let o := opcOf w
  if o = 0x00 then some (keep (fK w == 0) (.nop t)) else
  if o = 0x01 then some ((AluOp.ofCode (fF w).val).bind fun f => keep true (.alu t f (fD w) (fA w) (fB w))) else
  if o = 0x02 then some (keep true (.addi t (fD w) (fA w) (fI w))) else
  if o = 0x03 then some (keep true (.andi t (fD w) (fA w) (fI w))) else
  if o = 0x04 then some (keep true (.ori t (fD w) (fA w) (fI w))) else
  if o = 0x05 then some (keep true (.xori t (fD w) (fA w) (fI w))) else
  if o = 0x06 then some ((ShiftOp.ofCode (w / 1024 % 4)).bind fun f =>
      keep (w / 64 % 16 == 0) (.shi t f (fD w) (fA w) (fld 64 1 w))) else
  if o = 0x07 then some (keep true (.slti t (fD w) (fA w) (fI w))) else
  if o = 0x08 then some (keep true (.sltiu t (fD w) (fA w) (fI w))) else
  if o = 0x09 then some ((SetForm.ofCode (fA w).val).bind fun f =>
      keep (fI w == 0) (.setw t f (fD w) (BitVec.ofNat 32 w2))) else
  if o = 0x0A then some ((memSize w).bind fun sz => keep true (.ld t sz (fD w) (fA w) (memCls w) (memOff w))) else
  if o = 0x0B then some ((memSize w).bind fun sz => keep true (.ldu t sz (fD w) (fA w) (memCls w) (memOff w))) else
  if o = 0x0C then some ((memSize w).bind fun sz => keep true (.st t sz (fD w) (fA w) (memCls w) (memOff w))) else
  if o = 0x0D then some (decodeAmo t w w2) else
  if o = 0x0E then some (decodeFenceC t w) else
  if o = 0x10 then some (keep true (.beq t (fD w) (fA w) (fI w))) else
  if o = 0x11 then some (keep true (.bne t (fD w) (fA w) (fI w))) else
  if o = 0x12 then some (keep true (.blt t (fD w) (fA w) (fI w))) else
  if o = 0x13 then some (keep true (.bge t (fD w) (fA w) (fI w))) else
  if o = 0x14 then some (keep true (.bltu t (fD w) (fA w) (fI w))) else
  if o = 0x15 then some (keep true (.bgeu t (fD w) (fA w) (fI w))) else
  if o = 0x16 then some (keep true (.jal t (fD w) (fJ w))) else
  if o = 0x17 then some (keep true (.jalr t (fD w) (fA w) (fI w))) else
  if o = 0x18 then some (keep (w / 524288 % 8 == 0) (.loopControl t (fld 4 131072 w) (fA w) (fI w))) else
  if o = 0x19 then some (keep true (.loopiControl t (fld 4 1048576 w) (fld 1024 1024 w) (fld 1024 1 w))) else
  if o = 0x1A then some ((SysReg.ofCode (w % 4096)).bind fun r => keep (fA w == 0) (.sysr t (fD w) r)) else
  if o = 0x1B then some ((SysReg.ofCode (w % 4096)).bind fun r => keep (fD w == 0) (.sysw t (fA w) r)) else
  if o = 0x1C then some (keep true (.trap t (fK w))) else
  if o = 0x20 then some (keep (fF w == 0) (.tnew t (fD w) (fA w) (fB w))) else
  if o = 0x21 then some (keep (fD w == 0 && fI w == 0) (.tsig t (fA w))) else
  if o = 0x22 then some (if h : w % 4096 < 5 then keep true (.tctr t (fD w) (fA w) ⟨w % 4096, h⟩) else none) else
  if o = 0x23 then some (keep (fK w == 0) (.tyld t)) else
  if o = 0x24 then some (keep (w / 2 % 2097152 == 0 && !t.pp && !t.pn) (.tend t.wp t.wn (bit1 1 w))) else
  if o = 0x25 then some (keep (fD w == 0 && fI w == 0) (.guard t (fA w))) else
  if o = 0x26 then some (keep (fD w == 0 && w / 64 % 64 == 0) (.hnote t (fA w) (fld 64 1 w))) else
  if o = 0x27 then some (decodeTres t w) else
  if o = 0x28 then some (keep (fD w == 0 && fI w == 0) (.tkill t (fA w))) else
  if o = 0x29 then some (keep (fI w == 0) (.owait t (fD w) (fA w))) else
  if o = 0x2A then some (keep (fI w == 0) (.otest t (fD w) (fA w))) else
  if o = 0x2B then some (keep (fI w == 0) (.ocancel t (fD w) (fA w))) else
  if o = 0x2C then some (keep (fI w == 0) (.odetach t (fD w) (fA w))) else
  if o = 0x2D then some (keep (fI w == 0) (.oadopt t (fD w) (fA w))) else
  if o = 0x2E then some (keep (w / 4 % 1024 == 0) (.oprio t (fD w) (fA w) (fld 4 1 w))) else
  if o = 0x2F then some (keep (w / 16 % 8 == 0) (.orec t (fD w) (fA w) (fB w) (fld 16 1 w))) else
  if o = 0x30 then some (keep (fF w == 0) (.bmake t (fD w) (fA w) (fB w))) else
  if o = 0x31 then some (keep (fD w == 0 && fF w == 0) (.bgive t (fA w) (fB w))) else
  if o = 0x32 then some (keep (fI w == 0) (.btake t (fD w) (fA w))) else
  if o = 0x33 then some (keep (fD w == 0 && fI w == 0) (.bdrop t (fA w))) else
  if o = 0x34 then some (keep (w / 262144 % 16 == 0) (.rot t (bit1 131072 w) (fA w) (fI w))) else
  if o = 0x35 then some (keep (w / 2097152 % 2 == 0 && fI w == 0) (.shape t (fld 16 131072 w) (fA w))) else
  if o = 0x36 then some (keep (w / 1048576 % 4 == 0 && fI w == 0) (.nest t (fld 8 131072 w) (fA w))) else
  if o = 0x37 then some (keep (w / 64 % 64 == 0) (.fmt t (fD w) (fA w) (fld 64 1 w))) else
  if o = 0x38 then some (keep true (.lexpControl t (fD w) (fA w) (fI w))) else
  if o = 0x39 then some (keep true (.lwaitControl t (fD w) (fA w) (fI w))) else
  if o = 0x3A then some ((FrameMode.ofCode (w / 131072 % 4)).bind fun m =>
      keep (w / 524288 % 8 == 0) (.frame t m (fA w) (fI w))) else
  if o = 0x3B then some (keep true (.stamp t (fK w))) else
  if o = 0x3C then some (keep (w / 256 % 16384 == 0 && w / 64 % 2 == 0) (.tokwControl t (bit1 128 w) (fld 64 1 w))) else
  if o = 0x3D then some (keep (w / 256 % 16384 == 0 && w / 64 % 2 == 0) (.tokpControl t (bit1 128 w) (fld 64 1 w))) else
  if o = 0x3F then some (keep true (.udf t (fK w))) else
  none

/-! ## The load and store streams -/

/-- The op word in W2 (R237); the NOTIFY and VREG bits are read apart. -/
def opWord (w2 : Nat) : OpWord :=
  ⟨fld 16 1 w2, BitVec.ofNat 16 (w2 / 16), fld 4 1048576 w2, bit1 4194304 w2, bit1 8388608 w2⟩

/-- Bits 31:24 of an op word that carries neither NOTIFY nor VREG are zero (R237). -/
def opWordPlain (w2 : Nat) : Bool := w2 / 16777216 % 256 == 0

/-- The body of the gather family (R240). -/
def gatherBody (w : Nat) : Option GatherBody := do
  let d ← aReg (fD w)
  let m ← aReg (fA w)
  pure ⟨d, m, fld 16 256 w, fld 16 16 w, bit1 8 w, bit1 4 w⟩

/-- CPY and CPYC share a body (R238, R239). -/
def decodeCpy (t : Tok) (w w2 : Nat) : Option Instr := do
  let d ← aReg (fD w)
  let a ← aReg (fA w)
  keep (w % 128 == 0 && w2 / 33554432 % 128 == 0)
    (.cpy t d a (fld 8 512 w) (fld 4 128 w) (opWord w2) (bit1 16777216 w2))

/-- CPYC names VREG as well (R239). -/
def decodeCpyc (t : Tok) (w w2 : Nat) : Option Instr := do
  let d ← aReg (fD w)
  let a ← aReg (fA w)
  keep (w % 128 == 0 && w2 / 1073741824 % 4 == 0)
    (.cpyc t d a (fld 8 512 w) (fld 4 128 w) (opWord w2) (bit1 16777216 w2) (fld 32 33554432 w2))

/-- LOFT (R243). -/
def decodeLoft (t : Tok) (w w2 : Nat) : Option Instr := do
  let d ← aReg (fD w)
  let a ← aReg (fA w)
  let b ← aReg (fB w)
  let c : Cls := fld 16 1 w2
  let z := w2 / 16 % 268435456 == 0
  match w % 128 with
  | 0 => keep z (.loftAcc t d a b c)
  | 1 => keep z (.loftAccb t d a b c)
  | 2 => keep z (.loftMax t d a b c)
  | 3 => keep z (.loftMin t d a b c)
  | 4 => keep z (.loftScale t d a b c)
  | 5 => keep (z && fA w == 0) (.loftZero t d b c)
  | _ => none

/-- COLL (R247). -/
def decodeColl (t : Tok) (w : Nat) : Option Instr := do
  let d ← aReg (fD w)
  let a ← aReg (fA w)
  let b ← aReg (fB w)
  let p : Fin 4 := fld 4 4 w
  let det := bit1 2 w
  let nw := bit1 1 w
  match w / 16 % 8 with
  | 0 => keep true (.collAllgather t d a b p det nw)
  | 1 => keep true (.collRedscat t d a b p det nw)
  | 2 => keep true (.collAllred t d a b p det nw)
  | 3 => keep true (.collBcast t d a b p det nw)
  | 4 => keep (fD w == 0 && fB w == 0) (.collBarrier t a p det nw)
  | _ => none

/-- A queue code, an a register and the rest of an instruction (R235, R245). -/
def withQA (w : Nat) (f : QNum → AReg → Option Instr) : Option Instr :=
  (qNum (fD w)).bind fun q => (aReg (fA w)).bind fun a => f q a

/-- Two a registers and the rest of an instruction. -/
def withDA (w : Nat) (f : AReg → AReg → Option Instr) : Option Instr :=
  (aReg (fD w)).bind fun d => (aReg (fA w)).bind fun a => f d a

/-- The piece codes of RDQS and WRQS (R236). -/
def piece (w : Nat) : Option (Fin 6) := if h : w % 8 < 6 then some ⟨w % 8, h⟩ else none

/-- RAMO (R245). -/
def decodeRamo (t : Tok) (w : Nat) : Option Instr := do
  let d ← aReg (fD w)
  let a ← aReg (fA w)
  let b ← aReg (fB w)
  let op ← AmoOp.ofCode (w / 8 % 16)
  keep (w % 2 == 0) (.ramo t op d a b (bit1 4 w) (bit1 2 w))

/-- The map of the load stream, and of the store stream (R135). -/
def decodeLS (isLoad : Bool) (w w2 : Nat) : Option (Option Instr) :=
  let t := tokOf w
  let o := opcOf w
  if o = 0x00 then some (keep (fK w == 0) (.nop t)) else
  if o = 0x01 then some ((AaluOp.ofCode (fF w).val).bind fun f => withDA w fun d a =>
      (aReg (fB w)).bind fun b => keep true (.aalu t f d a b)) else
  if o = 0x02 then some (withDA w fun d a => keep true (.aaddi t d a (fI w))) else
  if o = 0x03 then some ((SetForm.ofCode (fA w).val).bind fun f => (aReg (fD w)).bind fun d =>
      keep (fI w == 0) (.aset t f d (BitVec.ofNat 32 w2))) else
  if o = 0x04 then some ((aReg (fA w)).bind fun a =>
      keep (w / 524288 % 8 == 0) (.loopLoadStore t (fld 4 131072 w) a (fI w))) else
  if o = 0x05 then some (keep true (.loopiLoadStore t (fld 4 1048576 w) (fld 1024 1024 w) (fld 1024 1 w))) else
  if o = 0x06 then some (keep (fD w == 0) (.jmpLoadStore t (fJ w))) else
  if o = 0x07 then some (keep (fK w == 0) (.endLoadStore t)) else
  if o = 0x08 then if isLoad then some (withQA w fun q a => keep true (.rdq t q a (fld 16 256 w) (fld 256 1 w)))
      else none else
  if o = 0x09 then if isLoad then some (withQA w fun q a => (aReg (fB w)).bind fun b => (piece w).bind fun p =>
      keep true (.rdqs t q a b (fld 16 8 w) p)) else none else
  if o = 0x0A then if isLoad then none
      else some (withQA w fun q a => keep true (.wrq t q a (fld 16 256 w) (fld 256 1 w))) else
  if o = 0x0B then if isLoad then none
      else some (withQA w fun q a => (aReg (fB w)).bind fun b => (piece w).bind fun p =>
        keep true (.wrqs t q a b (fld 16 8 w) p)) else
  if o = 0x0C then some (decodeCpy t w w2) else
  if o = 0x0D then some (decodeCpyc t w w2) else
  if o = 0x0E then some ((gatherBody w).bind fun g => keep (w % 4 == 0 && opWordPlain w2) (.gath t g (opWord w2))) else
  if o = 0x0F then some ((gatherBody w).bind fun g => keep (w % 4 == 0 && opWordPlain w2) (.scat t g (opWord w2))) else
  if o = 0x10 then some ((gatherBody w).bind fun g => keep (w % 4 == 0 && opWordPlain w2) (.gred t g (opWord w2))) else
  if o = 0x11 then some (decodeLoft t w w2) else
  if o = 0x12 then if isLoad then some (withQA w fun q a => keep true (.rld t q a (fI w))) else none else
  if o = 0x13 then if isLoad then none else some (withQA w fun q a => keep true (.rst t q a (fI w))) else
  if o = 0x14 then some (decodeRamo t w) else
  if o = 0x15 then if isLoad then none
      else some (withQA w fun q a => (aReg (fB w)).bind fun b => keep (fF w == 0) (.mcst t q a b)) else
  if o = 0x16 then if isLoad then some (withQA w fun q a => (RedFunc.ofCode (w / 256 % 16)).bind fun f =>
      keep (w % 256 == 0) (.rred t q a f)) else none else
  if o = 0x17 then some (decodeColl t w) else
  if o = 0x18 then some (withDA w fun d a => keep true (.lexpLoadStore t d a (fI w))) else
  if o = 0x19 then some (withDA w fun d a => keep true (.lwaitLoadStore t d a (fI w))) else
  if o = 0x1A then some (decodeFenceLS t w) else
  if o = 0x1B then some (keep (w / 256 % 16384 == 0 && w / 64 % 2 == 0) (.tokwLoadStore t (bit1 128 w) (fld 64 1 w))) else
  if o = 0x1C then some (keep (w / 256 % 16384 == 0 && w / 64 % 2 == 0) (.tokpLoadStore t (bit1 128 w) (fld 64 1 w))) else
  if o = 0x1D then some (keep (fK w == 0) (.tinv t)) else
  if o = 0x1E then some (withDA w fun d a => (memSize w).bind fun sz => keep true (.ald t sz d a (memCls w) (memOff w))) else
  if o = 0x3B then some (keep true (.stamp t (fK w))) else
  if o = 0x3F then some (keep true (.udf t (fK w))) else
  none

/-! ## The math stream -/

/-- The f field of the rounding FP instructions (R253). -/
def fpCtl (w : Nat) : Option FpCtl := do
  let fmt ← FpFmt.ofCode (w / 32 % 4)
  let rm ← Rm.ofCode (w / 4 % 8)
  pure ⟨fmt, rm, bit1 2 w, bit1 1 w⟩

/-- The f field of the others: RM and FZO are 0 (R253). -/
def fpCtlX (w : Nat) : Option FpCtlX := do
  let fmt ← FpFmt.ofCode (w / 32 % 4)
  if w / 4 % 8 = 0 ∧ w % 2 = 0 then some ⟨fmt, bit1 2 w⟩ else none

/-- Two sources, rounding. -/
def fp2 (w : Nat) (mk : VDst → VSrc → VSrc → FpCtl → Instr) : Option Instr :=
  (fpCtl w).bind fun f => keep true (mk (vDst (fD w)) (vSrc (fA w)) (vSrc (fB w)) f)

/-- One source, rounding: b must be 0. -/
def fp1 (w : Nat) (mk : VDst → VSrc → FpCtl → Instr) : Option Instr :=
  (fpCtl w).bind fun f => keep (fB w == 0) (mk (vDst (fD w)) (vSrc (fA w)) f)

/-- Two sources, not rounding. -/
def fp2x (w : Nat) (mk : VDst → VSrc → VSrc → FpCtlX → Instr) : Option Instr :=
  (fpCtlX w).bind fun f => keep true (mk (vDst (fD w)) (vSrc (fA w)) (vSrc (fB w)) f)

/-- One source, not rounding. -/
def fp1x (w : Nat) (mk : VDst → VSrc → FpCtlX → Instr) : Option Instr :=
  (fpCtlX w).bind fun f => keep (fB w == 0) (mk (vDst (fD w)) (vSrc (fA w)) f)

/-- The FMA family, whose d is a v register (R257). -/
def fp3 (w : Nat) (mk : VReg → VSrc → VSrc → FpCtl → Instr) : Option Instr :=
  (vReg (fD w)).bind fun d => (fpCtl w).bind fun f => keep true (mk d (vSrc (fA w)) (vSrc (fB w)) f)

/-- CVT (R260, R261). -/
def decodeCvt (t : Tok) (w w2 : Nat) : Option Instr := do
  let p ← CvtPair.ofCode (w % 32)
  let rm ← Rm.ofCode (w2 % 8)
  keep (w / 32 % 4 == 0 && w2 / 512 % 8388608 == 0)
    (.cvt t p (vDst (fD w)) (vSrc (fA w)) (vSrc (fB w))
      ⟨rm, bit1 8 w2, bit1 16 w2, bit1 32 w2, fld 8 64 w2⟩)

/-- LANE (R262). In the b field rm is bits 4:2, FZI bit 1 and FZO bit 0: word bits 11:9, 8 and 7. -/
def decodeLane (t : Tok) (w : Nat) : Option Instr := do
  let d := vDst (fD w)
  let a := vSrc (fA w)
  let g := w / 32 % 4
  let x := w / 16 % 2
  let red ← RedFmt.ofCode g
  match w % 16 with
  | 0 => keep (g == 0) (.bcast t d a (Fin.ofNat 64 (32 * x + (fB w).val)))
  | 1 => keep (g == 0 && x == 0) (.perm t d a (vSrc (fB w)))
  | 2 => (Rm.ofCode (w / 512 % 8)).bind fun rm => keep (x == 0) (.redadd t d a red rm (bit1 256 w) (bit1 128 w))
  | 3 => keep (x == 0 && w / 512 % 8 == 0 && !bit1 128 w) (.redmax t d a red (bit1 256 w))
  | 4 => keep (x == 0 && w / 512 % 8 == 0 && !bit1 128 w) (.redmin t d a red (bit1 256 w))
  | 5 => (Rm.ofCode (w / 512 % 8)).bind fun rm => keep (x == 0) (.scanadd t d a red rm (bit1 256 w) (bit1 128 w))
  | 6 => keep (g == 0 && x == 0 && fA w == 0 && fB w == 0) (.iota t d)
  | 7 => keep (g == 0) (.lrot t d a (Fin.ofNat 64 (32 * x + (fB w).val)))
  | 8 => keep (g == 0 && x == 0 && fB w == 0) (.lpopc t d a)
  | _ => none

/-- The body of the MMA family (R275). -/
def mmaBody (w : Nat) : MmaBody :=
  ⟨fld 4 1048576 w, fld 16 65536 w, fld 16 4096 w, fld 32 128 w, bit1 64 w, bit1 32 w, bit1 16 w, bit1 8 w,
    fld 4 1 w⟩

/-- DET of the MMA family is 0 (R275). -/
def mmaDet0 (w : Nat) : Bool := w / 4 % 2 == 0

/-- The math stream's map (R135). -/
def decodeM (w w2 : Nat) : Option (Option Instr) :=
  let t := tokOf w
  let o := opcOf w
  if o = 0x00 then some (keep (fK w == 0) (.nop t)) else
  if o = 0x01 then some (fp2 w (.fadd t)) else
  if o = 0x02 then some (fp2 w (.fsub t)) else
  if o = 0x03 then some (fp2 w (.fmul t)) else
  if o = 0x04 then some (fp2x w (.fmin t)) else
  if o = 0x05 then some (fp2x w (.fmax t)) else
  if o = 0x06 then some (fp1x w (.fabs t)) else
  if o = 0x07 then some (fp1x w (.fneg t)) else
  if o = 0x08 then some (fp2x w (.fcps t)) else
  if o = 0x09 then some (fp2x w (.fceq t)) else
  if o = 0x0A then some (fp2x w (.fclt t)) else
  if o = 0x0B then some (fp2x w (.fcle t)) else
  if o = 0x0C then some (fp1 w (.frcp t)) else
  if o = 0x0D then some (fp1 w (.frsq t)) else
  if o = 0x0E then some (fp1 w (.fexp2 t)) else
  if o = 0x0F then some (fp1 w (.flog2 t)) else
  if o = 0x10 then some (fp1 w (.fsqrt t)) else
  if o = 0x11 then some (fp3 w (.fma t)) else
  if o = 0x12 then some (fp3 w (.fms t)) else
  if o = 0x13 then some (fp3 w (.fnma t)) else
  if o = 0x14 then some ((IWidth.ofCode (w / 32 % 4)).bind fun h => (IopOp.ofCode (w % 32)).bind fun f =>
      keep true (.iop t h f (vDst (fD w)) (vSrc (fA w)) (vSrc (fB w)))) else
  if o = 0x15 then some ((vReg (fld 32 1 w)).bind fun m =>
      keep (w / 32 % 4 == 0) (.sel t (vDst (fD w)) (vSrc (fA w)) (vSrc (fB w)) m)) else
  if o = 0x16 then some (decodeCvt t w w2) else
  if o = 0x17 then some (decodeLane t w) else
  if o = 0x18 then some (keep (fA w == 0 && fI w == 0) (.movi t (vDst (fD w)) (BitVec.ofNat 32 w2))) else
  if o = 0x19 then some (keep (w / 2 % 2048 == 0) (.mov t (vDst (fD w)) (vSrc (fA w)) (bit1 1 w))) else
  if o = 0x1A then some (keep (fA w == 0 && w / 4 % 1024 == 0) (.mvq t (vDst (fD w)) (bit1 1 w) (bit1 2 w))) else
  if o = 0x1B then some ((vReg (fld 32 1 w)).bind fun h =>
      keep (w / 32 % 4 == 0) (.kmrg t (vDst (fD w)) (vSrc (fA w)) (vSrc (fB w)) h)) else
  if o = 0x20 then some (keep (mmaDet0 w) (.mma t (mmaBody w))) else
  if o = 0x21 then some (keep (mmaDet0 w && w2 / 16 % 268435456 == 0) (.mmas t (mmaBody w) (fld 16 1 w2))) else
  if o = 0x22 then some (keep (mmaDet0 w) (.mmat t (mmaBody w))) else
  if o = 0x23 then some (keep (mmaDet0 w && w2 / 4 % 1073741824 == 0) (.mmal t (mmaBody w) (fld 4 1 w2))) else
  if o = 0x24 then some ((vReg (fld 32 1024 w)).bind fun vs =>
      keep true (.zdrn t (fld 4 1048576 w) (fld 32 32768 w) vs (fld 64 16 w) (fld 16 1 w))) else
  if o = 0x25 then some (keep (w % 1048576 == 0) (.zclr t (fld 4 1048576 w))) else
  if o = 0x26 then some (keep (w / 4 % 16384 == 0) (.zld t (fld 4 1048576 w) (fld 16 65536 w) (fld 4 1 w))) else
  if o = 0x27 then some (keep (w / 8 % 8192 == 0) (.zst t (fld 4 1048576 w) (fld 16 65536 w) (bit1 4 w) (fld 4 1 w))) else
  if o = 0x28 then some (keep (w / 2097152 % 2 == 0 && w / 2 % 2048 == 0)
      (.fidx t (fld 16 131072 w) (vSrc (fA w)) (bit1 1 w))) else
  if o = 0x30 then some (keep (w / 524288 % 8 == 0) (.loopMath t (fld 4 131072 w) (vSrc (fA w)) (fI w))) else
  if o = 0x31 then some (keep true (.loopiMath t (fld 4 1048576 w) (fld 1024 1024 w) (fld 1024 1 w))) else
  if o = 0x32 then some (keep (fD w == 0) (.jmpMath t (fJ w))) else
  if o = 0x33 then some (keep (fK w == 0) (.endMath t)) else
  if o = 0x34 then some (keep (w / 256 % 16384 == 0 && w / 64 % 2 == 0) (.tokwMath t (bit1 128 w) (fld 64 1 w))) else
  if o = 0x35 then some (keep (w / 256 % 16384 == 0 && w / 64 % 2 == 0) (.tokpMath t (bit1 128 w) (fld 64 1 w))) else
  if o = 0x3B then some (keep true (.stamp t (fK w))) else
  if o = 0x3F then some (keep true (.udf t (fK w))) else
  none

/-! ## Decoding a word -/

/-- The map of a stream: none for an opcode it does not assign. -/
def decodeMap : Stream → Nat → Nat → Option (Option Instr)
  | .ctl, w, w2 => decodeC w w2
  | .load, w, w2 => decodeLS true w w2
  | .store, w, w2 => decodeLS false w w2
  | .math, w, w2 => decodeM w w2

/-- The instruction of a word and its W2 in a stream, or the check of R136 order 3, 4 or 5 that fails. -/
def decode (st : Stream) (w w2 : Nat) : Except Reject Instr :=
  match decodeMap st w w2 with
  | none => if opcOf w == 0x1F || opcOf w == 0x3E then .error .unassigned else .error .illegalStream
  | some none => .error .field
  | some (some i) => .ok i

/-- The opcodes with a W2 in each stream (R130, R135). -/
def isLong (st : Stream) (w : Nat) : Bool :=
  match st with
  | .ctl => opcOf w == 0x09 || opcOf w == 0x0D
  | .load | .store => opcOf w == 0x03 || (0x0C ≤ opcOf w && opcOf w ≤ 0x11)
  | .math => opcOf w == 0x16 || opcOf w == 0x18 || opcOf w == 0x21 || opcOf w == 0x23

/-- The decoder on a row of the opcode table, whose word does not say its stream: the first of the control,
math, load and store streams whose map reads it. -/
def decodeTableWord (_nbits w : Nat) : Option Instr :=
  let lo := w % 4294967296
  let hi := w / 4294967296 % 4294967296
  match decode .ctl lo hi, decode .math lo hi, decode .load lo hi, decode .store lo hi with
  | .ok i, _, _, _ => some i
  | _, .ok i, _, _ => some i
  | _, _, .ok i, _ => some i
  | _, _, _, .ok i => some i
  | _, _, _, _ => none

/-! ## The encoder -/

/-- Opcode and token bits (R127). -/
def hdr (op : Nat) (t : Tok) : Nat :=
  op * 67108864 + t.wp.toNat * 33554432 + t.wn.toNat * 16777216 + t.pp.toNat * 8388608 + t.pn.toNat * 4194304

/-- R format (R129). -/
def fmtR (op : Nat) (t : Tok) (d a b f : Nat) : Nat := hdr op t + d * 131072 + a * 4096 + b * 128 + f

/-- I and B formats (R129). -/
def fmtI (op : Nat) (t : Tok) (d a i : Nat) : Nat := hdr op t + d * 131072 + a * 4096 + i

/-- K format (R129). -/
def fmtK (op : Nat) (t : Tok) (i : Nat) : Nat := hdr op t + i

/-- The immediate of LD, LDU, ST and ALD (R182). -/
def memImm (sz : Size) (c : Cls) (o : Fin 64) : Nat := sz.code * 1024 + c.val * 64 + o.val

/-- The code of a math source (R132). -/
def VSrc.code : VSrc → Nat
  | .v r => r.val
  | .iq q => 24 + q.val

/-- The code of a math destination (R132). -/
def VDst.code : VDst → Nat
  | .v r => r.val
  | .oq q => 24 + q.val

/-- The f field of the rounding FP instructions (R253). -/
def FpCtl.code (f : FpCtl) : Nat := f.fmt.code * 32 + f.rm.code * 4 + f.fzi.toNat * 2 + f.fzo.toNat

/-- The f field of the others (R253). -/
def FpCtlX.code (f : FpCtlX) : Nat := f.fmt.code * 32 + f.fzi.toNat * 2

/-- An op word (R237). -/
def OpWord.code (o : OpWord) : Nat :=
  o.cls.val + o.rmask.toNat * 16 + o.prio.val * 1048576 + o.det.toNat * 4194304 + o.nw.toNat * 8388608

/-- The body of the gather family (R240). -/
def GatherBody.code (g : GatherBody) : Nat :=
  g.d.val * 131072 + g.m.val * 4096 + g.ht.val * 256 + g.hi.val * 16 + g.togq.toNat * 8 + g.bm.toNat * 4

/-- The body of the MMA family (R275). -/
def MmaBody.code (m : MmaBody) : Nat :=
  m.z.val * 1048576 + m.ha.val * 65536 + m.hb.val * 4096 + m.fsel.val * 128 + m.acc.toNat * 64 + m.ta.toNat * 32 +
    m.tb.toNat * 16 + m.rel.toNat * 8 + m.prio.val

/-- W2 of CVT (R260). -/
def CvtCtl.code (m : CvtCtl) : Nat :=
  m.rm.code + m.fzi.toNat * 8 + m.fzo.toNat * 16 + m.sat.toNat * 32 + m.q.val * 64

/-- The mode bits in the b field of the reductions and SCANADD (R262). -/
def redMode (rm : Rm) (fzi fzo : Bool) : Nat := rm.code * 4 + fzi.toNat * 2 + fzo.toNat

/-- The body of COLL (R247). -/
def collWord (t : Tok) (kind d a b : Nat) (p : Fin 4) (det nw : Bool) : Nat :=
  fmtR 0x17 t d a b (kind * 16 + p.val * 4 + det.toNat * 2 + nw.toNat)

/-- The body of the token count instructions (R147). -/
def tokBody (next : Bool) (n : Fin 64) : Nat := next.toNat * 128 + n.val

/-- The word and W2 of an instruction of the control stream. -/
def encodeC : Instr → Option (Nat × Nat)
  | .nop t => some (fmtK 0x00 t 0, 0)
  | .stamp t k => some (fmtK 0x3B t k.val, 0)
  | .udf t v => some (fmtK 0x3F t v.val, 0)
  | .alu t f d a b => some (fmtR 0x01 t d.val a.val b.val f.code, 0)
  | .addi t d a i => some (fmtI 0x02 t d.val a.val i.val, 0)
  | .andi t d a i => some (fmtI 0x03 t d.val a.val i.val, 0)
  | .ori t d a i => some (fmtI 0x04 t d.val a.val i.val, 0)
  | .xori t d a i => some (fmtI 0x05 t d.val a.val i.val, 0)
  | .shi t f d a s => some (fmtI 0x06 t d.val a.val (f.code * 1024 + s.val), 0)
  | .slti t d a i => some (fmtI 0x07 t d.val a.val i.val, 0)
  | .sltiu t d a i => some (fmtI 0x08 t d.val a.val i.val, 0)
  | .setw t f d w2 => some (fmtI 0x09 t d.val f.code 0, w2.toNat)
  | .ld t sz d a c o => some (fmtI 0x0A t d.val a.val (memImm sz c o), 0)
  | .ldu t sz d a c o => some (fmtI 0x0B t d.val a.val (memImm sz c o), 0)
  | .st t sz a b c o => some (fmtI 0x0C t a.val b.val (memImm sz c o), 0)
  | .amo t op d a b cmp sz c sc ord =>
      some (fmtR 0x0D t d.val a.val b.val op.code,
        cmp.val + sz.code * 256 + c.val * 1024 + sc.code * 65536 + ord.code * 1048576)
  | .fenceControl t k sc m => some (fmtK 0x0E t (k.code * 524288 + sc.code * 65536 + m.toNat), 0)
  | .beq t a b i => some (fmtI 0x10 t a.val b.val i.val, 0)
  | .bne t a b i => some (fmtI 0x11 t a.val b.val i.val, 0)
  | .blt t a b i => some (fmtI 0x12 t a.val b.val i.val, 0)
  | .bge t a b i => some (fmtI 0x13 t a.val b.val i.val, 0)
  | .bltu t a b i => some (fmtI 0x14 t a.val b.val i.val, 0)
  | .bgeu t a b i => some (fmtI 0x15 t a.val b.val i.val, 0)
  | .jal t d i => some (hdr 0x16 t + d.val * 131072 + i.val, 0)
  | .jalr t d a i => some (fmtI 0x17 t d.val a.val i.val, 0)
  | .loopControl t n a l => some (fmtI 0x18 t n.val a.val l.val, 0)
  | .loopiControl t n c l => some (fmtK 0x19 t (n.val * 1048576 + c.val * 1024 + l.val), 0)
  | .sysr t d r => some (fmtI 0x1A t d.val 0 r.code, 0)
  | .sysw t a r => some (fmtI 0x1B t 0 a.val r.code, 0)
  | .trap t c => some (fmtK 0x1C t c.val, 0)
  | .tnew t d a b => some (fmtR 0x20 t d.val a.val b.val 0, 0)
  | .tsig t a => some (fmtI 0x21 t 0 a.val 0, 0)
  | .tctr t d a k => some (fmtI 0x22 t d.val a.val k.val, 0)
  | .tyld t => some (fmtK 0x23 t 0, 0)
  | .tend wp wn orphan => some (fmtK 0x24 ⟨wp, wn, false, false⟩ orphan.toNat, 0)
  | .guard t a => some (fmtI 0x25 t 0 a.val 0, 0)
  | .hnote t a n => some (fmtI 0x26 t 0 a.val n.val, 0)
  | .tresResume t a => some (fmtI 0x27 t 0 a.val 0, 0)
  | .tresRetry t a => some (fmtI 0x27 t 0 a.val 1, 0)
  | .tkill t a => some (fmtI 0x28 t 0 a.val 0, 0)
  | .owait t d a => some (fmtI 0x29 t d.val a.val 0, 0)
  | .otest t d a => some (fmtI 0x2A t d.val a.val 0, 0)
  | .ocancel t d a => some (fmtI 0x2B t d.val a.val 0, 0)
  | .odetach t d a => some (fmtI 0x2C t d.val a.val 0, 0)
  | .oadopt t d a => some (fmtI 0x2D t d.val a.val 0, 0)
  | .oprio t d a p => some (fmtI 0x2E t d.val a.val p.val, 0)
  | .orec t d a b c => some (fmtR 0x2F t d.val a.val b.val c.val, 0)
  | .bmake t d a b => some (fmtR 0x30 t d.val a.val b.val 0, 0)
  | .bgive t a b => some (fmtR 0x31 t 0 a.val b.val 0, 0)
  | .btake t d a => some (fmtI 0x32 t d.val a.val 0, 0)
  | .bdrop t a => some (fmtI 0x33 t 0 a.val 0, 0)
  | .rot t prev a u => some (fmtI 0x34 t prev.toNat a.val u.val, 0)
  | .shape t n a => some (fmtI 0x35 t n.val a.val 0, 0)
  | .nest t n a => some (fmtI 0x36 t n.val a.val 0, 0)
  | .fmt t e a c => some (fmtI 0x37 t e.val a.val c.val, 0)
  | .lexpControl t d a i => some (fmtI 0x38 t d.val a.val i.val, 0)
  | .lwaitControl t d a i => some (fmtI 0x39 t d.val a.val i.val, 0)
  | .frame t m a i => some (fmtI 0x3A t m.code a.val i.val, 0)
  | .tokwControl t next n => some (fmtK 0x3C t (tokBody next n), 0)
  | .tokpControl t next n => some (fmtK 0x3D t (tokBody next n), 0)
  | _ => none

/-- The word and W2 of an instruction of the load (or store) stream. -/
def encodeLS (isLoad : Bool) : Instr → Option (Nat × Nat)
  | .nop t => some (fmtK 0x00 t 0, 0)
  | .stamp t k => some (fmtK 0x3B t k.val, 0)
  | .udf t v => some (fmtK 0x3F t v.val, 0)
  | .aalu t f d a b => some (fmtR 0x01 t d.val a.val b.val f.code, 0)
  | .aaddi t d a i => some (fmtI 0x02 t d.val a.val i.val, 0)
  | .aset t f d w2 => some (fmtI 0x03 t d.val f.code 0, w2.toNat)
  | .loopLoadStore t n a l => some (fmtI 0x04 t n.val a.val l.val, 0)
  | .loopiLoadStore t n c l => some (fmtK 0x05 t (n.val * 1048576 + c.val * 1024 + l.val), 0)
  | .jmpLoadStore t i => some (hdr 0x06 t + i.val, 0)
  | .endLoadStore t => some (fmtK 0x07 t 0, 0)
  | .rdq t q a c o => if isLoad then some (fmtI 0x08 t (24 + q.val) a.val (c.val * 256 + o.val), 0) else none
  | .rdqs t q a b c p =>
      if isLoad then some (fmtR 0x09 t (24 + q.val) a.val b.val (c.val * 8 + p.val), 0) else none
  | .wrq t q a c o => if isLoad then none else some (fmtI 0x0A t (24 + q.val) a.val (c.val * 256 + o.val), 0)
  | .wrqs t q a b c p =>
      if isLoad then none else some (fmtR 0x0B t (24 + q.val) a.val b.val (c.val * 8 + p.val), 0)
  | .cpy t d a n ch w notify =>
      some (fmtR 0x0C t d.val a.val (n.val * 4 + ch.val) 0, w.code + notify.toNat * 16777216)
  | .cpyc t d a n ch w notify vreg =>
      some (fmtR 0x0D t d.val a.val (n.val * 4 + ch.val) 0,
        w.code + notify.toNat * 16777216 + vreg.val * 33554432)
  | .gath t g w => some (hdr 0x0E t + g.code, w.code)
  | .scat t g w => some (hdr 0x0F t + g.code, w.code)
  | .gred t g w => some (hdr 0x10 t + g.code, w.code)
  | .loftAcc t d a b c => some (fmtR 0x11 t d.val a.val b.val 0, c.val)
  | .loftAccb t d a b c => some (fmtR 0x11 t d.val a.val b.val 1, c.val)
  | .loftMax t d a b c => some (fmtR 0x11 t d.val a.val b.val 2, c.val)
  | .loftMin t d a b c => some (fmtR 0x11 t d.val a.val b.val 3, c.val)
  | .loftScale t d a b c => some (fmtR 0x11 t d.val a.val b.val 4, c.val)
  | .loftZero t d b c => some (fmtR 0x11 t d.val 0 b.val 5, c.val)
  | .rld t q a i => if isLoad then some (fmtI 0x12 t (24 + q.val) a.val i.val, 0) else none
  | .rst t q a i => if isLoad then none else some (fmtI 0x13 t (24 + q.val) a.val i.val, 0)
  | .ramo t op d a b dword ret =>
      some (fmtR 0x14 t d.val a.val b.val (op.code * 8 + dword.toNat * 4 + ret.toNat * 2), 0)
  | .mcst t q a b => if isLoad then none else some (fmtR 0x15 t (24 + q.val) a.val b.val 0, 0)
  | .rred t q a f => if isLoad then some (fmtI 0x16 t (24 + q.val) a.val (f.code * 256), 0) else none
  | .collAllgather t d a b p det nw => some (collWord t 0 d.val a.val b.val p det nw, 0)
  | .collRedscat t d a b p det nw => some (collWord t 1 d.val a.val b.val p det nw, 0)
  | .collAllred t d a b p det nw => some (collWord t 2 d.val a.val b.val p det nw, 0)
  | .collBcast t d a b p det nw => some (collWord t 3 d.val a.val b.val p det nw, 0)
  | .collBarrier t a p det nw => some (collWord t 4 0 a.val 0 p det nw, 0)
  | .lexpLoadStore t d a i => some (fmtI 0x18 t d.val a.val i.val, 0)
  | .lwaitLoadStore t d a i => some (fmtI 0x19 t d.val a.val i.val, 0)
  | .fenceLoadStore t k sc m => some (fmtK 0x1A t (k.code * 524288 + sc.code * 65536 + m.toNat), 0)
  | .tokwLoadStore t next n => some (fmtK 0x1B t (tokBody next n), 0)
  | .tokpLoadStore t next n => some (fmtK 0x1C t (tokBody next n), 0)
  | .tinv t => some (fmtK 0x1D t 0, 0)
  | .ald t sz d a c o => some (fmtI 0x1E t d.val a.val (memImm sz c o), 0)
  | _ => none

/-- The word and W2 of an instruction of the math stream. -/
def encodeM : Instr → Option (Nat × Nat)
  | .nop t => some (fmtK 0x00 t 0, 0)
  | .stamp t k => some (fmtK 0x3B t k.val, 0)
  | .udf t v => some (fmtK 0x3F t v.val, 0)
  | .fadd t d a b f => some (fmtR 0x01 t d.code a.code b.code f.code, 0)
  | .fsub t d a b f => some (fmtR 0x02 t d.code a.code b.code f.code, 0)
  | .fmul t d a b f => some (fmtR 0x03 t d.code a.code b.code f.code, 0)
  | .fmin t d a b f => some (fmtR 0x04 t d.code a.code b.code f.code, 0)
  | .fmax t d a b f => some (fmtR 0x05 t d.code a.code b.code f.code, 0)
  | .fabs t d a f => some (fmtR 0x06 t d.code a.code 0 f.code, 0)
  | .fneg t d a f => some (fmtR 0x07 t d.code a.code 0 f.code, 0)
  | .fcps t d a b f => some (fmtR 0x08 t d.code a.code b.code f.code, 0)
  | .fceq t d a b f => some (fmtR 0x09 t d.code a.code b.code f.code, 0)
  | .fclt t d a b f => some (fmtR 0x0A t d.code a.code b.code f.code, 0)
  | .fcle t d a b f => some (fmtR 0x0B t d.code a.code b.code f.code, 0)
  | .frcp t d a f => some (fmtR 0x0C t d.code a.code 0 f.code, 0)
  | .frsq t d a f => some (fmtR 0x0D t d.code a.code 0 f.code, 0)
  | .fexp2 t d a f => some (fmtR 0x0E t d.code a.code 0 f.code, 0)
  | .flog2 t d a f => some (fmtR 0x0F t d.code a.code 0 f.code, 0)
  | .fsqrt t d a f => some (fmtR 0x10 t d.code a.code 0 f.code, 0)
  | .fma t d a b f => some (fmtR 0x11 t d.val a.code b.code f.code, 0)
  | .fms t d a b f => some (fmtR 0x12 t d.val a.code b.code f.code, 0)
  | .fnma t d a b f => some (fmtR 0x13 t d.val a.code b.code f.code, 0)
  | .iop t h f d a b => some (fmtR 0x14 t d.code a.code b.code (h.code * 32 + f.code), 0)
  | .sel t d a b m => some (fmtR 0x15 t d.code a.code b.code m.val, 0)
  | .cvt t p d a b m => some (fmtR 0x16 t d.code a.code b.code p.code, m.code)
  | .bcast t d a lane => some (fmtR 0x17 t d.code a.code (lane.val % 32) (lane.val / 32 * 16), 0)
  | .perm t d a b => some (fmtR 0x17 t d.code a.code b.code 1, 0)
  | .redadd t d a w rm fzi fzo => some (fmtR 0x17 t d.code a.code (redMode rm fzi fzo) (w.code * 32 + 2), 0)
  | .redmax t d a w fzi => some (fmtR 0x17 t d.code a.code (redMode .rne fzi false) (w.code * 32 + 3), 0)
  | .redmin t d a w fzi => some (fmtR 0x17 t d.code a.code (redMode .rne fzi false) (w.code * 32 + 4), 0)
  | .scanadd t d a w rm fzi fzo => some (fmtR 0x17 t d.code a.code (redMode rm fzi fzo) (w.code * 32 + 5), 0)
  | .iota t d => some (fmtR 0x17 t d.code 0 0 6, 0)
  | .lrot t d a s => some (fmtR 0x17 t d.code a.code (s.val % 32) (s.val / 32 * 16 + 7), 0)
  | .lpopc t d a => some (fmtR 0x17 t d.code a.code 0 8, 0)
  | .movi t d w2 => some (fmtI 0x18 t d.code 0 0, w2.toNat)
  | .mov t d a peek => some (fmtI 0x19 t d.code a.code peek.toNat, 0)
  | .mvq t d gq nr => some (fmtI 0x1A t d.code 0 (gq.toNat + nr.toNat * 2), 0)
  | .kmrg t d a b h => some (fmtR 0x1B t d.code a.code b.code h.val, 0)
  | .mma t m => some (hdr 0x20 t + m.code, 0)
  | .mmas t m hm => some (hdr 0x21 t + m.code, hm.val)
  | .mmat t m => some (hdr 0x22 t + m.code, 0)
  | .mmal t m bits => some (hdr 0x23 t + m.code, bits.val)
  | .zdrn t z fsel vs row nblk =>
      some (fmtK 0x24 t (z.val * 1048576 + fsel.val * 32768 + vs.val * 1024 + row.val * 16 + nblk.val), 0)
  | .zclr t z => some (fmtK 0x25 t (z.val * 1048576), 0)
  | .zld t z h p => some (fmtK 0x26 t (z.val * 1048576 + h.val * 65536 + p.val), 0)
  | .zst t z h det p => some (fmtK 0x27 t (z.val * 1048576 + h.val * 65536 + det.toNat * 4 + p.val), 0)
  | .fidx t h a add => some (fmtI 0x28 t h.val a.code add.toNat, 0)
  | .loopMath t n a l => some (fmtI 0x30 t n.val a.code l.val, 0)
  | .loopiMath t n c l => some (fmtK 0x31 t (n.val * 1048576 + c.val * 1024 + l.val), 0)
  | .jmpMath t i => some (hdr 0x32 t + i.val, 0)
  | .endMath t => some (fmtK 0x33 t 0, 0)
  | .tokwMath t next n => some (fmtK 0x34 t (tokBody next n), 0)
  | .tokpMath t next n => some (fmtK 0x35 t (tokBody next n), 0)
  | _ => none

/-- The word and W2 of an instruction in a stream; none for an instruction of another stream, and for an event. -/
def encode : Stream → Instr → Option (Nat × Nat)
  | .ctl, i => encodeC i
  | .load, i => encodeLS true i
  | .store, i => encodeLS false i
  | .math, i => encodeM i

end Sys2Proof
end

