-- ==== Sys2Proof/Config.lean ====
section
/-! DEFINITION. What one QKB640 fixes, and the free values: constants without a body, so that no proof can
see a value that the spec leaves open. A step that needs a fresh one applies it to State.free, which it advances. -/

namespace Sys2Proof.Config

/-- FREE VALUE: the n-th 64-bit value the spec leaves open (notes/assumptions/1.md). -/
opaque freeWord : Nat → W64

/-- FREE VALUE: whether the n-th event whose moment the spec does not architect happens now
(notes/assumptions/2.md). -/
opaque mayAct : Nat → Bool

/-- FREE VALUE: whether a lane read inside a producer's latency window is already the new one (R148). -/
opaque laneNew : Nat → Bool

/-- FREE VALUE: whether a translation uses a cached leaf rather than a new walk (R222). -/
opaque useCached : Nat → Bool

/-- FREE VALUE: the signature and layout of an attestation report, which the spec leaves to the management
firmware's interface (R356). -/
opaque attest : List Byte → Vector Byte 29792

/-- FREE VALUE: whether a firmware image's signature verifies under the vendor's key (R355). -/
opaque signed : List Byte → Bool

/-- FREE VALUE: the result of a heap merge on a record whose entries form no heap (R266). -/
opaque brokenHeap : Nat → List Byte → List Byte

/-- FREE VALUE: whether the n-th health check of a core at bring-up fails (R12, R353). -/
opaque coreFails : Nat → Bool

/-- FREE VALUE: whether the n-th health check of a die at bring-up fails (R12, R353). -/
opaque dieFails : Nat → Bool

/-- FREE VALUE: how many wavelengths fail the n-th calibration of a fibre at bring-up (R303, R353). -/
opaque wavesFail : Nat → Fin 17

/-- FREE VALUE: whether the n-th training of HBM at bring-up succeeds (R353, R354). -/
opaque hbmTrains : Nat → Bool

/-- FREE VALUE: how many soft errors the reads of the n-th cycle correct in the scratchpads, in the Loft and in HBM (R228). -/
opaque softErrors : Nat → Nat × Nat × Nat

/-- FREE VALUE: how many images the yelm store holds with this many usable stacks, when they are fewer than seven
(R363). -/
opaque yelmRoom : Nat → Nat

/-- FREE VALUE: the key and the salt that management gives a fibre at its n-th rekeying (R304). -/
opaque linkKey : Nat → BitVec 256 × BitVec 32

/-- FREE VALUE: the tag of 16 bytes that AES-256-GCM gives a header and a payload under a key and an IV; a function of these, of
which the model uses nothing more (R295, R304, notes/assumptions/114.md). -/
opaque gcmTag : BitVec 256 → BitVec 96 → BitVec 128 → BattenBody → BitVec 128

/-- FREE VALUE: the encrypted payload of a slot, from the key, the IV and the payload (R295, notes/assumptions/114.md). -/
opaque gcmText : BitVec 256 → BitVec 96 → BattenBody → BitVec 1024

/-- FREE VALUE: the SHA-256 digest of an image; a function of its bytes, of which the model uses nothing more (R356,
notes/assumptions/115.md). -/
opaque sha256 : List Byte → BitVec 256

/-- The device's index in its hall, fixed by its cabling (R291). -/
opaque hallIndex : Fin 2048

/-- The device's hall, fixed by its cabling (R291). -/
opaque hall : Fin 256

/-- FREE VALUE: which fabric positions hold a device, fixed by the cabling of the halls (R294, R297). -/
opaque present : Nat → Bool

/-- HBM in bytes: 12 stacks of 48 GiB (R3, R361). -/
def hbmBytes : Nat := 618475290624

/-- One HBM stack in bytes (R361). -/
def stackBytes : Nat := 51539607552

/-- RSVSZ in bytes: each stack's reserved share (R363). -/
def rsvBytes : Nat := 4294967296

/-- Cycles of a course (R289). -/
def courseCycles : Nat := 7680

/-- Cycles a held write or a held notification waits (R227, R244). -/
def holdCycles : Nat := 2400000

/-- The grace period of a pre-emption in cycles (R331). -/
def graceCycles : Nat := 480000

/-- Cycles of one millisecond of a graph's TMO (R335). -/
def msCycles : Nat := 2400000

end Sys2Proof.Config
end

