-- ==== Sys2Proof/Machine/State.lean ====
section
/-! DEFINITION. The state of one QKB640: every piece of state the spec gives the machine, as plain data, and the
machine right after reset. A docstring gives the rule that names a field; INVENTORY.md lists the reset values. -/

namespace Sys2Proof.Machine

open Sys2Proof

/-- One 64-lane vector: a v register, a queue entry, an accumulator row (R49, R151, R270). -/
abbrev Vec := Vector W32 64

/-- One accumulator, 64 rows of 64 elements of 32 bits (R9, R270). -/
abbrev Acc := Vector Vec 64

/-- All memory: (key, byte) pairs by rising key, no byte 0 (an unlisted byte reads as 0, R353 phase 3). -/
abbrev Memory := List Host.Cell

/-! ## Records held in registers -/

/-- A shape register: the shape record (R208) and its tile origin (R272). -/
structure ShapeReg where
  base   : W64
  stride : W32
  rows   : BitVec 16
  cols   : BitVec 16
  fmt    : BitVec 4
  pad    : Bool
  sparse : Bool            -- META (R208)
  row0   : BitVec 16
  col0   : BitVec 16
  recAt  : W64             -- where the record was loaded from: ADDR of a RECORD fault (R326)
  deriving DecidableEq, Repr, Inhabited

/-- A nest register (R210). -/
structure NestReg where
  counts : Vector (BitVec 16) 6
  sstr   : Vector W32 6
  dstr   : Vector W32 6
  ebytes : BitVec 16
  lwaddr : W64
  vwaddr : W64
  recAt  : W64             -- where the record was loaded from: ADDR of a RECORD fault (R326)
  deriving DecidableEq, Repr, Inhabited

/-! ## Tokens and queues -/

/-- A place reserved for posts not yet made: n tokens, of the effect numbered id (R145, R146). -/
structure Post where
  id    : Nat
  n     : Nat
  ready : Bool
  deriving DecidableEq, Repr, Inhabited

/-- A token queue (R143): its count, how many of it were posted in cycle freshAt and so cannot be taken in
that cycle (R144), and the reserved places in program order (R146). -/
structure TokQ where
  count   : Nat
  fresh   : Nat
  freshAt : Nat
  pending : List Post
  deriving DecidableEq, Repr, Inhabited

/-- A place of an iq, oq, mq or gq: reserved while landed is none, else the cycle it landed in (R151). -/
structure QPlace where
  id     : Nat
  data   : Vec
  poison : Bool
  landed : Option Nat
  deriving DecidableEq, Repr, Inhabited

/-! ## Accesses in flight -/

/-- One unit of an access that is single-copy atomic: memory key, bytes, place in the access's data (R311). -/
structure AUnit where
  key : Nat
  len : Nat
  off : Nat
  deriving DecidableEq, Repr, Inhabited

/-- What becomes of an access of a stream when its units are performed (R145, R182, R183, R235, R243). -/
inductive AccKind
  | load (dst : Nat) (size : Nat) (signed : Bool)
  | store
  | amo (dst : Nat) (op : AmoOp) (size : Nat) (operand compare : W64) (rel acq : Bool) (scope : Scope)
  | fill (q : QNum) (place : Nat)
  | drain (q : QNum)
  | orec (dst : GReg) (value : W64)     -- a held OREC: its gD is written once the record is (R169, R227)
  | loft (op : LoftOp) (factor : W32)
  | note
  deriving DecidableEq, Repr, Inhabited

/-- An earlier access, by its number, that later accesses of its stream follow for the parties of a scope: those of the
classes of a mask, all of them or the writes only (R183, R184, R313, R314). -/
structure Behind where
  id     : Nat
  scope  : Scope
  writes : Bool
  mask   : BitVec 16
  deriving DecidableEq, Repr, Inhabited

/-- An access a stream has issued (R312). -/
structure Access where
  id     : Nat
  kind   : AccKind
  cls    : Cls
  units  : List AUnit      -- not yet performed
  all    : List AUnit      -- every unit
  data   : List Byte
  va     : W64
  pc     : W64
  size   : Nat             -- words of its instruction
  heldAt : Option Nat      -- the cycle it was held under WB (R227)
  stalls : Bool            -- its stream stands at it until it is performed (R227, R243)
  word   : W32             -- its instruction
  w2     : W32
  took   : Nat × Nat       -- tokens it took, previous and next, for a withdrawal (R227)
  poison : Bool
  posts  : Bool × Bool     -- whether it posts to the previous and to the next sequencer
  acq    : Vector Nat 4    -- accesses of each stream with a smaller number are ordered before it (R312, R314)
  after  : List Behind     -- accesses of its own stream that it follows at a scope (R313, R314)
  deriving DecidableEq, Repr, Inhabited

/-- A math-stream result not yet written (R148, R149). -/
structure PendRes where
  id    : Nat
  dst   : VDst
  place : Nat              -- the reserved place when dst is an oq
  value : Option Vec       -- none: a not-ready MVQ that writes nothing (R264)
  flags : BitVec 6
  first : Nat              -- the first cycle in which it may be written
  bound : Nat              -- the last cycle in which it is written
  deriving DecidableEq, Repr, Inhabited

/-- A KMRG in flight (R266). -/
structure PendKmrg where
  id    : Nat
  dst   : VDst
  place : Nat
  value : Vec
  key   : Nat
  bytes : List Byte
  first : Nat
  bound : Nat
  deriving DecidableEq, Repr, Inhabited

/-- A ZDRN or ZCLR in the drain queue (R280, R282). -/
structure Drain where
  id    : Nat
  z     : Fin 4
  clear : Bool
  ent   : W64              -- the format entry read at issue
  rm    : Rm
  sa    : Vec
  sb    : Vec
  bias  : Vec
  row   : Nat              -- next row
  rows  : Nat              -- rows left to read
  out   : List (Vec × BitVec 6)   -- packed entries not yet pushed, with their flags
  deriving DecidableEq, Repr, Inhabited

/-- An entry of an accumulator's order of use (R270): an op by its number, or a drain-queue entry. -/
inductive ZItem
  | op (o : Nat)
  | drain (id : Nat)
  deriving DecidableEq, Repr, Inhabited

/-- A loop counter (R188, R191). serial orders loops from outermost to innermost. -/
structure LoopCtr where
  value  : W32
  owner  : Stream
  active : Bool
  count  : W32
  b      : W64
  e      : W64
  serial : Nat
  deriving DecidableEq, Repr, Inhabited

/-! ## Ops -/

/-- A copy-order entry (R106). -/
structure CopyOrd where
  lcore : Nat
  ord   : Nat
  ch    : Nat
  tidx  : Nat
  deriving DecidableEq, Repr, Inhabited

/-- Which creating instruction of the gather family (R240). -/
inductive GatherKind
  | gath | scat | gred
  deriving DecidableEq, Repr, Inhabited

/-- Which MMA-family instruction (R275). -/
inductive MmaKind
  | mma | mmas | mmat | mmal (bits : Nat)
  deriving DecidableEq, Repr, Inhabited

/-- One destination of a fabric op (R300): its rank, its position once the rank table names one, its commit number,
whether it is acknowledged, and the battens of its reply that have arrived. -/
structure FabDest where
  rank   : Nat
  party  : Option Party
  num    : Nat
  done   : Bool
  got    : List Nat
  deriving DecidableEq, Repr, Inhabited

/-- Path policies (R297). -/
inductive Path
  | direct | valley | any
  deriving DecidableEq, Repr, Inhabited

/-- The kind of a live op with what it took at issue (R160). -/
inductive OpKind
  | copy (src dst : W64) (nest : NestReg) (notify : Bool) (expect : Option W64) (stage : Option (List Byte))
  | gather (k : GatherKind) (dst : W64) (table index : ShapeReg) (togq : Bool) (done : List (Nat × Bool))
      (out : List Vec)
  | fabric (req : FabReq) (dests : List FabDest) (path : Path) (sent : Bool) (fill : Option (QNum × Nat))
      (reg : Option AReg) (lastSent : Nat)
  | rred (m : RredMsg) (q : QNum) (place : Nat) (got : List Nat) (path : Path) (lastSent : Nat)
  | coll (m : CollMsg) (src dst : W64) (land : W64) (begun wrote : Bool)
  | mma (k : MmaKind) (z : Fin 4) (a b : ShapeReg) (hm : Option ShapeReg) (ent : W64) (rm : Rm)
      (acc ta tb : Bool) (away : Option (CoreId × Acc))
  | zld (z : Fin 4) (h : ShapeReg)
  | zst (z : Fin 4) (h : ShapeReg)
  deriving DecidableEq, Repr, Inhabited

/-- The states of an op (R166). -/
inductive OpStatus
  | queued | running | paused | faulted | done | partly | cancelled | failed
  deriving DecidableEq, Repr, Inhabited

/-- The rights an op accesses memory with (R216): the range of its task and the buffers it holds. -/
structure Rights where
  lcore  : Nat
  pcore  : Nat
  part   : Nat
  port   : Nat
  ctx    : Nat
  root   : Nat             -- PTROOT of the graph
  base   : Nat
  size   : Nat
  slot   : Nat             -- the task whose held buffers count
  live   : Bool            -- false once detached: held is then the snapshot (R216)
  held   : List (Nat × Nat × Nat)    -- of each buffer its logical core, offset and bytes
  oid    : Nat             -- the op, or 0 for a stream (the model's own)
  me     : Nat             -- the logical core of the task whose rights they are: its own position is tested (R216)
  deriving DecidableEq, Repr, Inhabited

/-- A write of an op's unit that is held under WB, kept with its data (R227). -/
structure HeldUnit where
  at_  : Nat               -- the cycle it was held
  va   : W64
  data : List Byte
  elem : Nat               -- the element of a gather-family op
  deriving DecidableEq, Repr, Inhabited

/-- A live op with its fault and progress record (R161, R167). -/
structure Op where
  oid     : Nat            -- the model's own number
  graph   : Nat            -- its graph's handle
  rights  : Rights
  chan    : Fin 8
  seq     : Nat            -- modulo 2^40 (R162)
  gen     : Nat            -- task generation (R31)
  owner   : Option Nat     -- live-task slot it is attached to; none when detached
  adopted : Bool
  prio    : Fin 4
  rel     : Bool
  opc     : Nat
  stream  : Stream
  cls     : Cls
  status  : OpStatus
  fcode   : Nat
  faddr   : W64
  cursor  : Nat
  total   : Nat
  bmap    : W64
  fflags  : BitVec 6
  accepted : Nat           -- acceptance cycle (R168)
  begun   : Bool           -- a unit of it has begun (R166)
  flying  : Bool           -- a unit of it has begun and is not finished (R168, R170)
  array   : Bool           -- a matrix op that holds the array of its engine (R269)
  elems   : Nat            -- for the gather family, how many elements have begun (R240)
  pausing : Bool           -- it becomes PAUSED once its units that have begun are finished (R173, R325)
  copyAt  : Option CopyOrd -- its entry in a recording or in a recorded copy order (R101, R110)
  copyFree : Bool          -- the recorded order is given up for it (R110)
  recAt   : W64            -- the address of a COLL's record (R326)
  cancel  : Bool           -- cancellation requested while a unit runs (R170)
  after   : List (CoreId × Stream × Nat)   -- accesses that its acceptance released and that its own follow (R314)
  held    : Option HeldUnit      -- the op's unit is held under WB (R227)
  reply   : Option (List Byte × BitVec 6)   -- a reply that has arrived and is still to be delivered (R245, R246)
  doneAt  : Option Nat     -- the cycle in which it left the live states (R166, R177)
  kind    : OpKind
  deriving DecidableEq, Repr, Inhabited

/-! ## The state of a task on a core (R94, R332) -/

/-- What an op-creating instruction will create, once it is accepted (R161). -/
structure Stall where
  kind   : OpKind
  chan   : Fin 8
  prio   : Fin 4
  rel    : Bool
  det    : Bool
  opc    : Nat
  cls    : Cls
  total  : Nat
  bmap   : W64
  pop    : Option QNum     -- the oq whose entry RST and MCST pop at acceptance (R245)
  fill   : Option QNum     -- the iq in which RLD and RRED reserve a place (R245, R246)
  reg    : Option AReg     -- the register a RAMO with RET will write (R245)
  rmask  : BitVec 16
  nw     : Bool
  recAt  : W64             -- the address of a COLL's record (R326)
  deriving DecidableEq, Repr, Inhabited

/-- One of the four streams of a core (R120). -/
structure StreamSt where
  pc       : W64
  image    : W64
  lines    : Nat            -- image size in 128-byte lines (R25)
  ended    : Bool           -- END executed, or an image of size 0
  stamp    : Option Nat     -- pending stamp (R156)
  missed   : Bool           -- the pending stamp has counted its miss (R157)
  taken    : Bool           -- the instruction at pc has issued and waits (R324)
  took     : Nat × Nat      -- tokens that waiting instruction took, previous and next (R324)
  words    : W32 × W32      -- the words of that waiting instruction (R126)
  issuedAt : Option Nat     -- the cycle of its last issue (R122)
  busy     : List Nat       -- registers whose write is still to come (R148)
  accs     : List Access    -- accesses not yet performed, in program order (R312)
  acq      : Vector Nat 4   -- what it has acquired: accesses of each stream with a smaller number (R314)
  behind   : List Behind    -- accesses that its later ones follow at a scope (R313, R314)
  stalled  : Option (Fin 8) -- the channel in which an op-creating instruction waits for a place (R161)
  miss     : Option W64     -- the line the stream waits for (R123)
  missCode : Nat            -- why the line cannot be fetched: a fault code, or 0 (R121)
  deriving DecidableEq, Repr, Inhabited

/-- A ROT that waits: its direction, its region's offset and bytes, and its word (R206). -/
structure RotWait where
  prev  : Bool
  off   : Nat
  bytes : Nat
  word  : W32
  deriving DecidableEq, Repr, Inhabited

/-- The architectural state a task has on its core: what R94 sets at its start and R332 saves at a cut. -/
structure Ctx where
  g       : Vector W64 32
  aL      : Vector W64 16
  aS      : Vector W64 16
  v       : Vector Vec 24
  z       : Vector Acc 4
  iq      : Vector (List QPlace) 8
  oq      : Vector (List QPlace) 8
  mq      : List QPlace
  gq      : List QPlace
  tok     : Vector TokQ 8
  snaps   : Vector (List (Vector Nat 4)) 8    -- for each token counted, oldest first: what its post released (R314)
  owed    : Vector (List (Nat × Vector Nat 4)) 8    -- what posts whose moment has come, and that wait behind an earlier one,
                            -- have released, by the number of their effect (R146, R314)
  lc      : Vector LoopCtr 4
  h       : Vector (Option ShapeReg) 16
  n       : Vector (Option NestReg) 8
  fmt     : Vector W64 32
  str     : Vector StreamSt 4
  fctl    : W64
  fstat   : W64
  ftb     : W64
  frmode  : BitVec 2
  fwait   : Bool            -- FRMODE.WAIT
  resumed : Bool            -- FRMODE.RESUMED
  fcourse : BitVec 48
  fbegan  : Option Nat      -- the cycle of frame cycle 0, once begun; FRMC counts from it
  slack   : BitVec 16
  smiss   : W32
  nr      : Bool            -- QSTAT.NR
  demote  : Bool            -- LMAP.DEMOTE
  tstat   : BitVec 4        -- PREQ, TRACED, HANDLER, RETRY
  task    : W32             -- TASK
  graph   : W32             -- GRAPH
  tseq    : BitVec 40       -- TSEQ
  lcore   : BitVec 10       -- LCORE; LCLUS is its upper part
  oseq    : Vector (BitVec 40) 8
  chuse   : BitVec 8
  base    : Nat             -- scratchpad base (R86)
  size    : Nat             -- scratchpad range in bytes (R30)
  fab     : Bool            -- graph launched with FAB (R68)
  priv    : Bool            -- context PRIV (R68)
  reloc   : Bool            -- RELOC of the task (R33)
  guards  : Nat             -- GUARDs executed (R107)
  tendAt  : Nat             -- TEND steps done (R38, R196)
  rot     : Option RotWait  -- a ROT that has issued and waits for its team (R206)
  pend    : List PendRes
  kmrg    : Option PendKmrg
  drains  : List Drain      -- the engine's drain queue (R280)
  zorder  : List (Fin 4 × ZItem)   -- order of use of the accumulators (R270)
  mathEnd : Bool            -- the math stream has executed END: mq and gq pushes are discarded (R153)
  serial  : Nat             -- next number for accesses, results, posts and loops (the model's own)
  deriving DecidableEq, Repr, Inhabited

/-! ## Cores -/

/-- What a physical core is doing for Ridge (R85, R93, R329). slot is a live-task slot. -/
inductive CoreRun
  | idle
  | starting (slot : Nat) (at_ : Nat)
  | running (slot : Nat)
  | cutting (slot : Nat) (at_ : Nat)
  | held (slot : Nat)
  deriving DecidableEq, Repr, Inhabited

/-- A line of an instruction cache or of a fetch buffer: key, data (R123, R124). -/
structure ILine where
  port  : Nat
  ctx   : Nat
  kobj  : Nat
  strm  : Stream
  addr  : Nat
  data  : List Byte
  ue    : List Nat          -- offsets of its poisoned 8-byte words (R229)
  deriving DecidableEq, Repr, Inhabited

/-- A cached leaf translation (R222). -/
structure TlbEntry where
  port  : Nat
  ctx   : Nat
  va    : Nat               -- first virtual address of the leaf
  span  : Nat               -- its size in bytes
  pte   : W64
  pteAt : Nat               -- where the entry lies, for its hot counter (R219)
  deriving DecidableEq, Repr, Inhabited

/-- A physical core (R9). -/
structure Core where
  ctx    : Ctx
  run    : CoreRun
  icache : Vector (List ILine) 4   -- one per stream, most recently used first (R123)
  tlb    : List TlbEntry           -- at most 256 (R222)
  last   : Option (Nat × Nat)      -- port and context of the last task; none after bring-up (R96)
  failed : Bool                    -- fails its health check (R12)
  held   : Bool                    -- issue slots withheld by the power clamp (R357)
  deriving DecidableEq, Repr, Inhabited

/-! ## Tasks, counters, graphs (02_describe.md) -/

/-- A fault record before it is laid out (R326). -/
structure FaultInfo where
  code   : Nat
  stream : Stream
  src    : Nat
  lost   : Bool
  stale  : Bool
  walk   : Bool
  skip   : Bool
  late   : Bool
  pc     : W64
  word   : W32
  w2     : W32
  addr   : W64
  optok  : W64
  widx   : Nat
  course : Nat
  at_    : Nat              -- the cycle of the fault, which orders reports (R340)
  deriving DecidableEq, Repr, Inhabited

/-- A buffer slot of a logical core (R201). -/
structure Buffer where
  orig   : Nat
  slot   : Nat
  gen    : Nat
  live   : Bool
  part   : Nat
  addr   : Nat              -- scratchpad offset
  size   : Nat
  maker  : Nat              -- live-task slot that made it
  holder : Option Nat       -- live-task slot that holds it
  offer  : Option (Nat × Nat × Nat)   -- offered to a logical core, by which position, at which serial
  deriving DecidableEq, Repr, Inhabited

/-- The image of a cut in the cut store (R332). -/
structure CutImage where
  ctx    : Ctx
  spad   : List Host.Cell   -- the nonzero bytes of the task's range, by offset in the scratchpad
  ue     : List Nat         -- the poisoned words of the range, likewise (R229)
  bufs   : List Buffer      -- the buffers of its range, held and offered
  ops    : List Nat         -- ops that do not go with its task whose held range touches its range: their bytes there are in it
  deriving DecidableEq, Repr, Inhabited

/-- Where a live task stands. -/
inductive TaskSt
  | bound                   -- published; its counter has not fired
  | ready                   -- in the ready queue
  | running                 -- dispatched
  | ending                  -- TEND step 3 done, walking (R38)
  | cutHeld                 -- cut, held in place (R329)
  | cutStored               -- cut, in the cut store (R332)
  | walkFault               -- its walk met a fault; its handler decides (R37)
  deriving DecidableEq, Repr, Inhabited

/-- A live task or handler task (R28, R31). -/
structure Task where
  slot    : Nat             -- 16384·die + slot
  gen     : Nat
  graph   : Nat
  recAddr : Nat
  kobj    : Nat
  images  : List (W64 × Nat)      -- C, L, M, S: address and lines
  args    : W64
  succ    : Nat
  nsucc   : Nat
  ctr     : Option Nat      -- its counter, 65536·die + index; none for a handler
  prio    : Nat
  team    : Nat
  tsize   : Nat
  mpos    : Nat
  size    : Nat             -- scratchpad bytes (R30)
  reloc   : Bool
  orph    : Nat
  grec    : Bool
  hint    : Option Nat
  hand    : Nat
  seq     : Nat
  chuse   : BitVec 8
  serves  : Option Nat      -- for a handler: the slot of the task it serves
  st      : TaskSt
  lcore   : Nat
  pcore   : CoreId
  base    : Nat
  fault   : Option FaultInfo
  forced  : Bool            -- its cut is a forced cut or a TYLD cut (R332)
  image   : Option CutImage
  walkAt  : Nat             -- next successor-list entry (R38)
  list    : List W32        -- the successor list, read before the first decrement (R38)
  traced  : Option Nat      -- its trace entry, when started by a trace (R108)
  started : Nat             -- the cycle its streams started
  slotAt  : Nat             -- the dispatch slot's cycle
  retry   : Bool
  tend3   : Option Nat      -- the cycle of TEND step 3
  oseqAt  : List Nat        -- OSEQ0–OSEQ7 at its start (R101)
  copyX   : Bool            -- its copy order reverted to dynamic (R110)
  logIdx : Option Nat      -- its place among its core's entries of the recording (R101)
  lateFault : Option FaultInfo   -- a RRED or COLL that failed while it was cut (R323)
  dying   : Bool            -- killed: its cut is discarded once complete (R33, R80)
  again   : Option Bool     -- it is to be dispatched again: from its cut, or from its start (true) (R199, R334)
  cutAt   : Nat             -- the cycle its cut was complete (R327)
  slip    : Int             -- SLIP of its traced start (R106)
  stall   : Nat             -- STALL of its math stream (R106)
  deriving DecidableEq, Repr, Inhabited

/-- The states of a counter (R35). -/
inductive CtrSt
  | free | opened | bound (slot : Nat) | fired (slot : Nat)
  deriving DecidableEq, Repr, Inhabited

/-- A dependence counter (R34). -/
structure Counter where
  idx   : Nat               -- 65536·die + index
  gen   : Nat               -- modulo 2^14
  st    : CtrSt
  count : Nat
  graph : Nat
  opAt  : Nat               -- the cycle after its last operation, or 0: its bank applies one a cycle (R36)
  deriving DecidableEq, Repr, Inhabited

/-- A decrement on its way to a counter bank (R36, R93, R195). -/
structure Decr where
  handle : W32
  at_    : Nat              -- the cycle it reaches the bank
  lcore  : Nat
  graph  : Nat
  core   : Option CoreId    -- the TSIG that waits for the answer
  slot   : Nat              -- the ending task, for a walk entry
  widx   : Nat
  word   : W32              -- the TSIG's word
  deriving DecidableEq, Repr, Inhabited

/-- A bank's answer to a TSIG (R195). -/
structure Answer where
  core  : CoreId
  at_   : Nat
  ok    : Bool
  stale : Bool
  handle : W32
  word  : W32
  deriving DecidableEq, Repr, Inhabited

/-- How a graph runs (R76, R102, R112). -/
inductive GMode
  | dynamic | recording (spoiled : Bool) | replay (rev : Nat) | handedBack (rev : Nat)
  deriving DecidableEq, Repr, Inhabited

/-- Pre-emption of a graph (R330). -/
inductive GPre
  | running | preempting (since : Nat) | preempted | resuming
  deriving DecidableEq, Repr, Inhabited

/-- A GUARD_FAIL notice (R113). -/
structure GuardNote where
  kind  : Nat
  gidx  : Nat
  lcore : Nat
  seq   : Nat
  fcyc  : Nat
  expv  : W64
  obsv  : W64
  deriving DecidableEq, Repr, Inhabited

/-- Measurements of a traced task (R106). -/
structure Meas where
  slip  : Int
  dur   : Nat
  stall : Nat
  miss  : Nat
  copyX : Bool
  deriving DecidableEq, Repr, Inhabited

/-- A trace entry (R106), with its guard values and measurements; start order within its core's trace. -/
structure Trace where
  lcore : Nat
  seq   : Nat
  prio  : Nat
  mpos  : Nat
  tsize : Nat
  sbase : Nat
  start : Nat
  guards : List W64
  chd   : List Nat
  meas  : Meas
  deriving DecidableEq, Repr, Inhabited

/-- A traced task's successor list names another's counter at a place, on another physical die or not: what a refinement
pass takes from the measured replay (R365). Tasks are named by logical core and place in its trace. -/
structure Dep where
  fromCore  : Nat
  fromIdx   : Nat
  toCore    : Nat
  toIdx     : Nat
  place     : Nat
  cross     : Bool
  deriving DecidableEq, Repr, Inhabited

/-- An entry of a successor list that a traced task walked (R365). -/
structure WalkLog where
  lcore  : Nat
  idx    : Nat
  place  : Nat
  handle : Nat
  cross  : Bool
  deriving DecidableEq, Repr, Inhabited

/-- States of a yelm image (R118); a free image is not listed. -/
inductive YSt
  | recording | held | discarding
  deriving DecidableEq, Repr, Inhabited

/-- A yelm (R104, R105). -/
structure Yelm where
  id     : Nat              -- the image's number in the store (the model's own)
  hash   : Nat
  rev    : Nat
  nrank  : Nat
  srank  : Nat
  strict : Bool
  frozen : Bool
  mapgen : Nat
  span   : Nat
  nrepl  : Nat
  traces : List Trace
  copies : List CopyOrd
  area   : Option (Nat × List Byte)   -- of an imported image: NGUARD, and the bytes between its header and its measurements (R119)
  st     : YSt
  users  : Nat
  deriving DecidableEq, Repr, Inhabited

/-- A resident graph (R69, R75). -/
structure Graph where
  handle  : Nat
  part    : Nat
  root    : Nat             -- PTROOT it was launched with (R68)
  fab     : Bool
  priv    : Bool
  hash    : Nat
  pcls    : Nat
  wgt     : Nat
  notif   : Nat
  tag     : W32
  tmo     : Nat
  mode    : GMode
  yid     : Nat             -- for a replay, the image it runs on (R118)
  pre     : GPre
  cancel  : Nat             -- 0 live, 3 cancelled, 4 timed out: the STATE of R340
  frame0  : Option Nat      -- cycle of frame cycle 0 (R100); none before it or for a dynamic graph
  frameAt : Option Nat      -- course in which frame cycle 0 falls, until it begins
  timed   : Nat             -- cycles counted toward TMO (R335)
  nkill   : Nat
  nfail   : Nat
  fcode   : Nat
  fkey    : Nat             -- cycle and logical core of the fault reported: 1,024 times the cycle, plus the core (R340)
  note    : Option GuardNote
  yout    : Nat             -- YOUT of R340
  log     : List Trace      -- the recording in progress (R101), in dispatch order
  logCopy : List CopyOrd
  copied  : List CopyOrd    -- for a replay: entries of the recorded copy order whose ops have begun (R110)
  strict  : Bool            -- a FRAME of the recording selected STRICT (R103)
  mapgen  : Nat             -- mapping generation at frame cycle 0
  lastEnd : Nat             -- frame cycle of the last TEND step 3 (SPAN)
  trace   : List (Nat × Nat)      -- for a replay: how many entries of each logical core have started
  meas    : List (Nat × Nat × Meas)     -- measurements of traced tasks that have ended, by core and index (R117)
  walks   : List WalkLog    -- for a replay: what its traced tasks walked (R365)
  ctrs    : List (Nat × Nat × Nat)      -- for a replay: counter handles of its traced tasks, with core and index (R365)
  firedAt : List (Nat × Nat)      -- traced tasks whose counter has fired: slot, cycle
  idle    : Nat             -- consecutive cycles of the STALL guard (R111)
  handlers : Bool           -- a handler was spawned (R102)
  joined  : Option Nat      -- the course in which it joined its gang, until the members have agreed (R115)
  gang    : Nat             -- the number of that agreement among those of its HASH (R115)
  kept    : Option (List Nat)     -- once a replay is cancelled: the logical cores that stay reserved (R109, R118)
  ended   : Option (Nat × Nat)    -- cycle and course of its retirement, while the steps of R338 are under way
  deriving DecidableEq, Repr, Inhabited

/-! ## Ridge (05_ridge.md) -/

/-- An entry of the ready queue (R81, R82). tasks are live-task slots: one, or a team by position. -/
structure QEntry where
  tasks   : List Nat
  handler : Bool
  resume  : Bool            -- a cut in the store, to be resumed (R334)
  firedAt : Nat
  cand    : Bool            -- it is a candidate (R81)
  pass    : Nat
  deriving DecidableEq, Repr, Inhabited

/-- A ring of graphs at one priority and class (R83). -/
structure Ring where
  prio  : Nat
  pcls  : Nat
  graph : Nat
  count : Nat
  deriving DecidableEq, Repr, Inhabited

/-- The yelm-store registers of a partition (R119). -/
structure YRegs where
  addr : W64
  hash : BitVec 128
  busy : Bool
  res  : Nat
  deriving DecidableEq, Repr, Inhabited

/-- A partition, or the whole device as partition 0 (R10, R20). -/
structure Part where
  used    : Bool
  dies    : List Nat
  map     : List Nat        -- P: usable physical clusters, ascending (R13)
  mapGen  : Nat
  banks   : Nat             -- m: usable Loft banks (R15)
  age     : Nat             -- RCTL.AGE
  drain   : Option (Nat × List Nat)   -- physical cluster and the tasks it is held for (R91)
  due     : Option (List Nat)         -- the entry that reached AGE in the last slot, with no drain held (R91)
  ndrain  : W32             -- RSTAT.NDRAIN
  short   : Bool            -- it has had fewer than ten usable clusters since READY (R13, R354)
  queue   : List QEntry
  rings   : List Ring
  yelms   : List Yelm
  yregs   : YRegs
  rtbase  : W64             -- RTBASE (R291)
  nrank   : Nat             -- NRANK
  ownrank : Nat             -- OWNRANK
  rsv     : Vector W64 16   -- RSV0–RSV15 (R296)
  repEn   : Bool            -- replica table (R308)
  repBase : Nat
  swc     : Nat
  cur     : Bool
  armed   : Bool
  refine  : List (Nat × List Dep)     -- refinement passes to run: image, dependences (R117, R365)
  deriving DecidableEq, Repr, Inhabited

/-! ## Hosts (04_launch.md, 11_memory.md, 18_retire.md, 22_service.md) -/

/-- A launch received (R71, R72). -/
structure Launch where
  num   : Nat
  whole : Bool
  bytes : List Byte
  deriving DecidableEq, Repr, Inhabited

/-- A context slot with its launch window and completion area registers (R68, R70, R339). -/
structure Context where
  en     : Bool
  priv   : Bool
  fab    : Bool
  gmax   : Nat
  ptroot : Nat              -- physical address of the top-level table
  lcnt   : W32
  ldone  : W32
  lref   : W32
  stat   : Vector (BitVec 128) 16
  queue  : List Launch
  gens   : Vector (BitVec 16) 64      -- GEN of each graph slot
  cbase  : W64              -- CBASE
  cerr   : Bool             -- CBASE.ERR
  oseq   : List (Nat × Nat) -- channel sequence counters not 0: 8·lcore + channel, value (R162)
  notes  : List (Nat × Nat × Bool)    -- notifiers: index, last message's cycle + 1 or 0, an event waits
  deriving DecidableEq, Repr, Inhabited

/-- An outbound window (R358). -/
structure Window where
  base : W64
  npg  : W32
  en   : Bool
  deriving DecidableEq, Repr, Inhabited

/-- A host port and its privileged page (R1, R68, R126, R224, R226, R330, R341, R358). -/
structure Port where
  ctx     : Vector Context 64
  obw     : Vector Window 8
  icinv   : Vector (Option (Option Nat × Nat)) 4   -- ICINV.BUSY of each partition: the context, none for all, and the
                            -- cycle of the write (R126)
  xinv    : Bool            -- XINV.BUSY
  hqbase  : W64
  hqhead  : BitVec 12
  hqtail  : BitVec 12
  hthr    : BitVec 16
  hqdrop  : W32
  hnvec   : W64
  hnlast  : Nat             -- cycle + 1 of the last hot-page message, or 0
  hnwait  : Bool
  pstat   : Vector (W32 × Nat) 4    -- PSTAT of each partition: GHND and STATE (R330)
  deriving DecidableEq, Repr, Inhabited

/-- An invalidation in progress (R223, R224): a TINV of a core's stream, or an XINV of a port. -/
structure Inval where
  num    : Nat
  since  : Nat              -- the cycle it issued
  port   : Nat
  ctx    : Nat
  host   : Bool
  slot   : Nat              -- the live-task slot that issued it
  stream : Stream
  post   : Nat              -- the number its posts carry
  ahead  : List Nat         -- ops ahead of the markers
  old    : List TlbEntry    -- translations that were cached: the old mapping for those ops
  accs   : List (CoreId × Stream × Nat)   -- accesses translated before it issued
  deriving DecidableEq, Repr, Inhabited

/-! ## The fabric (15_ettan.md) -/

/-- The key of one direction of a fibre, with the salt of its IVs (R304). -/
structure LinkKey where
  key  : BitVec 256
  salt : W32
  deriving DecidableEq, Repr, Inhabited

/-- What a fibre's transmitter has put into a slot: the header, the payload before its encryption, and outside calibration
courses the IV, the encrypted payload and the tag (R295, R304, notes/assumptions/114.md). -/
structure TxSlot where
  slot   : Nat
  header : BitVec 128
  body   : BattenBody
  iv     : Option (BitVec 96)
  text   : BitVec 1024
  tag    : BitVec 128
  deriving DecidableEq, Repr, Inhabited

/-- A fibre: its transmit side (R303, R304, R305), and the keys of its two directions. -/
structure Fibre where
  width   : Nat
  next    : Nat             -- the width from the next course
  spoiled : Option Nat      -- the slot from which the course is spoiled
  ctr     : Nat             -- key counter
  txKey   : LinkKey         -- the key it sends under
  rxKey   : LinkKey         -- the key it receives under
  rxCtr   : Nat             -- slots of traffic courses received under that key
  newTx   : Option LinkKey  -- a key that takes effect at the next course, for each direction
  newRx   : Option LinkKey
  hold    : Bool            -- KEY_HOLD
  slot    : Nat             -- slots of this course already used
  lit     : Bool            -- its laser module is in place (R360)
  retrain : Bool            -- it is retrained in the next flashing interval (R360)
  dark    : Bool            -- it is above its eye-safety power: width 0 at the next course, whatever is regained (R357)
  rx      : List Bool       -- what the reverse fibre acknowledges: the verdict on each slot of this course, last first
  tx      : Option TxSlot   -- what it last sent
  deriving DecidableEq, Repr, Inhabited

/-- A batten waiting in a source queue (R297). -/
structure OutB where
  oid    : Nat              -- its op, or 0 for a record or reply
  part   : Nat
  path   : Path
  prio   : Nat
  batten : Batten
  ready  : Nat              -- cycle it became ready
  rounds : Nat              -- rounds in which no path was found (R297, R303)
  path1  : Bool             -- a path was found in this round
  fresh  : Bool             -- it has not been sent yet (R303)
  deriving DecidableEq, Repr, Inhabited

/-- A batten in the replay store (R302). -/
structure SentB where
  fibre  : Nat
  slot   : Nat
  course : Nat
  out    : OutB
  relay  : Bool             -- it is forwarded for another source
  to_    : Nat              -- position it was sent to
  bad    : Bool             -- it counts as failed (R302, R303)
  deriving DecidableEq, Repr, Inhabited

/-- A batten in the valley store (R298). -/
structure HeldB where
  arrived : Nat             -- course of arrival
  since   : Nat             -- the course after which it may be forwarded: of its arrival, or of its last sending (R297, R302)
  from_   : Nat             -- source position whose region holds it
  batten  : Batten
  deriving DecidableEq, Repr, Inhabited

/-- An op as a destination's sequencer holds it (R300). -/
structure Pending where
  num   : Nat
  req   : FabReq
  got   : List Nat          -- battens arrived
  res   : Option (List Byte × Nat)  -- its access is performed: what it answers, and its flags (R244, R245)
  since : Option Nat        -- cycle from which it waits for a graph or a task (R244, R301)
  heldAt : Option Nat       -- held under WB (R227)
  deriving DecidableEq, Repr, Inhabited

/-- A commit sequencer, per source, partition and class (R300). -/
structure Sequencer where
  src     : Party
  part    : Nat
  cls     : Cls
  next    : Nat             -- number to commit next
  skips   : List Nat
  stopped : Bool            -- it stopped at a fault (R301)
  ops     : List Pending
  deriving DecidableEq, Repr, Inhabited

/-- A source's commit numbering toward one destination and class (R300). -/
structure Numbering where
  part : Nat
  dst  : Party
  cls  : Cls
  next : Nat
  deriving DecidableEq, Repr, Inhabited

/-- The fabric side of the device. -/
structure Fabric where
  index   : Nat             -- INDEX (R291)
  hall    : Nat             -- HALL
  course  : BitVec 48       -- COURSE (R191, R289)
  began   : Nat             -- cycle 0 of the course
  set     : Bool            -- COURSE has been set (R290)
  heard   : Option (Nat × Nat)    -- a READY partner's course, and the cycle 0 of the course it was heard in (R290)
  fibres  : Vector Fibre 128
  out     : List OutB       -- source queues, in commit order within one (destination, class)
  replay  : List SentB
  valley  : List HeldB
  allow   : List (Nat × Nat)      -- allowance used per intermediate index this round (R298)
  nums    : List Numbering
  skipped : List Numbering  -- numbers of ops that have ended uncommitted, by destination, until they are passed (R300, R301)
  seqs    : List Sequencer
  msgs    : List Numbering  -- message numbers of KIND 4 and 5 (R295)
  seen    : List Batten     -- battens of KIND 4 and 5 accepted, without their payload (R302)
  colls   : List (Nat × CollMsg × List Nat)   -- collective messages at each partition, with their battens (R307)
  collN   : List ((Nat × Nat × Nat × Nat × Nat) × Nat)   -- COLLs issued per partition, HASH and set (R248)
  gangs   : List (Nat × GangMsg)    -- what the members of a gang have proposed, at each partition (R115)
  gangN   : List ((Nat × Nat) × Nat)      -- agreements begun per partition and HASH (R115)
  rreds   : List (Nat × RredMsg × List Nat)   -- the reduction store, by partition (R306)
  rredN   : List ((Nat × Nat × Nat × Nat) × Nat)   -- RREDs issued per partition, HASH, reduction point and address (R246)
  rredOver : List (Nat × RredMsg)   -- matches that have been answered, by partition, without their data (R246)
  deriving DecidableEq, Repr, Inhabited

/-- The notifications on their way to landing words of this device (R317). -/
structure Notify where
  oid   : Nat               -- the op that notifies
  va    : W64               -- address of the word
  bytes : Nat
  deriving DecidableEq, Repr, Inhabited

/-- The management complex (22_service.md). -/
structure Mgmt where
  phase    : Nat            -- DSTAT.PHASE (R354)
  ready    : Bool           -- DSTAT.READY
  fail     : Nat            -- DSTAT.FAIL
  svn      : W32            -- DSTAT.SVN
  fuse     : W32            -- anti-rollback fuses (R355)
  image   : List Byte      -- the firmware image
  isvn    : W32            -- its security version (R355)
  ucode    : List Byte      -- the Ridge microcode image
  tripped  : Bool           -- clocks stopped by the thermal trip (R357)
  badDies  : List Nat       -- dies that failed their health check (R12, R353)
  retired  : List Nat       -- HBM stacks retired (R361)
  drained  : List Nat       -- dies drained (R18)
  draining : List Nat       -- dies being drained
  returning : List Nat      -- drained dies that return (R18)
  pmode    : Nat            -- LMAP.PMODE (R22)
  cesp     : BitVec 16      -- ECCSTAT (R228)
  celoft   : BitVec 16
  cehbm    : BitVec 16
  ue       : BitVec 16
  epoch    : Option (W64 × Nat)   -- CEPOCH written, and the cycle 0 of the course of the write (R290)
  updates : List (Bool × List Byte × W32)   -- verified updates that wait: of the Ridge microcode (true) or the firmware (R359)
  slotHold : Nat            -- no dispatch slot before this cycle, after a microcode update (R359)
  deriving DecidableEq, Repr, Inhabited

/-- What the device has sent to the outside (the model's own record of its outputs). -/
inductive Output
  | msix (port vec cycle : Nat)
  | report (bytes : List Byte)
  | machineCheck (addr : Nat)
  | toFirmware (what port ctx : Nat)
  | hostRead (port addr : Nat) (bytes : List Byte)
  deriving DecidableEq, Repr, Inhabited

/-! ## The whole device -/

/-- A fill pending at a die fetch agent (R124). -/
structure Fill where
  line   : ILine
  first  : Nat              -- cycle of its first request
  joined : List (CoreId × Stream)
  code   : Nat              -- fault code when the line cannot be read, or 0 (R121)
  at_    : Nat              -- where the line lies in memory
  deriving DecidableEq, Repr, Inhabited

/-- A die: its fetch agent and its second-level translation cache (R124, R222). -/
structure Die where
  buffer : List ILine       -- most recently filled first, 2,048 lines
  fills  : List Fill
  tlb    : List TlbEntry    -- at most 16,384
  deriving DecidableEq, Repr, Inhabited

/-- Saved bytes of a scratchpad: the position of its core in the cluster, their offset and number, the nonzero ones by their
place, and the poisoned words. -/
structure SavedSpan where
  pos   : Nat
  off   : Nat
  len   : Nat
  cells : List Host.Cell
  ue    : List Nat
  deriving DecidableEq, Repr, Inhabited

/-- What is saved of a paused op until it resumes where its logical core is then hosted: the bytes of its held range, in
every scratchpad of its cluster, and the accumulator of a ZST (R173, R332, R334). -/
structure OpSave where
  oid   : Nat
  spans : List SavedSpan
  acc   : Option (Fin 4 × Acc)
  deriving DecidableEq, Repr, Inhabited

/-- An access that a later one of its stream has overtaken, which follows it for the parties of a scope only: what the later
one touched shows to those parties once the earlier one is performed (R313, R314). -/
structure Debt where
  core   : CoreId
  stream : Stream
  id     : Nat              -- the earlier access
  part   : Nat
  lcore  : Nat
  scope  : Scope
  units  : List AUnit       -- what the later access touched
  deriving DecidableEq, Repr, Inhabited

/-- A publication, or the freeing at the end of a walk, that waits for its turn at a counter's bank (R36). -/
structure PubWait where
  idx   : Nat               -- the counter
  lcore : Nat               -- of the task whose operation it is
  at_   : Nat               -- the cycle it reached the bank
  seen  : Nat               -- the cycle of its last turn (the model's own)
  deriving DecidableEq, Repr, Inhabited

/-- Which stream moves now, and the words it executes (the model's own). -/
structure Focus where
  core   : CoreId
  stream : Stream
  word   : W32
  w2     : W32
  deriving DecidableEq, Repr, Inhabited

/-- Which agent moves next (the model's own). -/
inductive Turn
  | stream (c : CoreId) (st : Stream)
  | event (i : Instr)
  deriving DecidableEq, Repr, Inhabited

/-- The state of the device. -/
structure State where
  cycle    : Nat            -- cycles since reset (R2)
  free     : Nat            -- number of the next free value (the model's own)
  nextOid  : Nat            -- number of the next op (the model's own)
  focus    : Focus          -- (the model's own)
  agenda   : List Turn      -- who moves next in this cycle (the model's own)
  inputs   : List (Nat × Instr)   -- what hosts, firmware and the fabric bring, by cycle (the model's own)
  mem      : Memory
  poison   : List Nat       -- keys of poisoned aligned 8-byte words (R229)
  cores    : Vector Core 640
  dies     : Vector Die 4
  parts    : Vector Part 4
  ports    : Vector Port 2
  graphs   : List Graph
  tasks    : List Task
  slotGens : List (Nat × Nat)     -- generation of each live-task slot that is not 0 (R31)
  counters : List Counter         -- counters ever used; an unlisted one is free with generation 0 (R34)
  decrs    : List Decr
  pubs     : List PubWait
  answers  : List Answer
  ops      : List Op
  buffers  : List Buffer
  notifies : List Notify
  invals   : List Inval
  debts    : List Debt            -- accesses that others overtook for parties outside a scope (R313, R314)
  evict    : List (CoreId × Nat)  -- cores being evicted, with the cycle of the request (R330)
  saves    : List OpSave          -- ops of moved logical cores, until their place is free (R173)
  fabric   : Fabric
  mgmt     : Mgmt
  outputs  : List Output
  deriving DecidableEq, Repr, Inhabited

/-! ## Why a step may stop -/

/-- Faults of the model: the machine stops. The faults of the instruction set (R322) are not these: a task takes
them, and the step goes on. -/
inductive Fault
  /-- A host or a fault injector names a memory address that no memory of the device has. Raised by
  hostMemoryAccess, memUe and scrub. Safe: nothing is claimed of an address that does not exist. -/
  | noSuchAddress
  deriving DecidableEq, Repr, Inhabited

/-- Refusals: no meaning for the instruction. -/
inductive Refusal
  /-- The instruction has no meaning yet. Raised by exec's arms only. Safe. -/
  | notModelled (mnemonic : String)
  deriving DecidableEq, Repr, Inhabited

/-! ## Reset -/

/-- A vector of zeros: +0 in every lane (R94). -/
def Vec.zero : Vec := Vector.replicate 64 0

/-- An accumulator of zeros (R94). -/
def Acc.zero : Acc := Vector.replicate 64 Vec.zero

/-- An empty token queue (R143). -/
def TokQ.empty : TokQ := ⟨0, 0, 0, []⟩

/-- A loop counter at task start: 0 and inactive (R188). -/
def LoopCtr.reset : LoopCtr := ⟨0, .ctl, false, 0, 0, 0, 0⟩

/-- A stream with no image: it counts as having executed END (R26). -/
def StreamSt.reset : StreamSt := ⟨0, 0, 0, true, none, false, false, (0, 0), (0, 0), none, [], [], Vector.replicate 4 0, [], none, none, 0⟩

/-- A core's registers when no task has started on it: the values R94 gives a task, and no task. -/
def Ctx.reset : Ctx where
  g := Vector.replicate 32 0
  aL := Vector.replicate 16 0
  aS := Vector.replicate 16 0
  v := Vector.replicate 24 Vec.zero
  z := Vector.replicate 4 Acc.zero
  iq := Vector.replicate 8 []
  oq := Vector.replicate 8 []
  mq := []
  gq := []
  tok := Vector.replicate 8 TokQ.empty
  snaps := Vector.replicate 8 []
  owed := Vector.replicate 8 []
  lc := Vector.replicate 4 LoopCtr.reset
  h := Vector.replicate 16 none
  n := Vector.replicate 8 none
  fmt := Vector.replicate 32 0
  str := Vector.replicate 4 StreamSt.reset
  fctl := 0
  fstat := 0
  ftb := 0
  frmode := 0
  fwait := false
  resumed := false
  fcourse := 0
  fbegan := none
  slack := 0
  smiss := 0
  nr := false
  demote := false
  tstat := 0
  task := 0
  graph := 0
  tseq := 0
  lcore := 0
  oseq := Vector.replicate 8 0
  chuse := 0
  base := 0
  size := 0
  fab := false
  priv := false
  reloc := false
  guards := 0
  tendAt := 0
  rot := none
  pend := []
  kmrg := none
  drains := []
  zorder := []
  mathEnd := false
  serial := 0

/-- A core at reset: nothing runs, its caches are empty (DESIGN CHOICE, notes/assumptions/5.md). -/
def Core.reset : Core := ⟨Ctx.reset, .idle, Vector.replicate 4 [], [], none, false, false⟩

/-- A partition that is not in use. -/
def Part.reset : Part where
  used := false
  dies := []
  map := []
  mapGen := 0
  banks := 0
  age := 8
  drain := none
  due := none
  ndrain := 0
  short := false
  queue := []
  rings := []
  yelms := []
  yregs := ⟨0, 0, false, 0⟩
  rtbase := 0
  nrank := 0
  ownrank := 0
  rsv := Vector.replicate 16 0
  repEn := false
  repBase := 0
  swc := 0
  cur := false
  armed := false
  refine := []

/-- The whole device as one partition, before phase 4 of R353 builds its mapping: LMAP resets to ONE = 1 and
NCLUS = 80 (R22). -/
def Part.whole : Part :=
  { Part.reset with used := true, dies := [0, 1, 2, 3], map := List.range 80, banks := 512 }

/-- A closed context (R68). -/
def Context.reset : Context where
  en := false
  priv := false
  fab := false
  gmax := 0
  ptroot := 0
  lcnt := 0
  ldone := 0
  lref := 0
  stat := Vector.replicate 16 0
  queue := []
  gens := Vector.replicate 64 0
  cbase := 0
  cerr := false
  oseq := []
  notes := []

/-- A port's registers at reset; HTHR resets to 256 (R226). -/
def Port.reset : Port where
  ctx := Vector.replicate 64 Context.reset
  obw := Vector.replicate 8 ⟨0, 0, false⟩
  icinv := Vector.replicate 4 none
  xinv := false
  hqbase := 0
  hqhead := 0
  hqtail := 0
  hthr := 256
  hqdrop := 0
  hnvec := 0
  hnlast := 0
  hnwait := false
  pstat := Vector.replicate 4 (0, 0)

/-- A fibre at reset: WIDTH 16, counter 0 (R305); the keys before firmware installs any are 0 (DESIGN CHOICE,
notes/assumptions/108.md). -/
def Fibre.reset : Fibre where
  width := 16
  next := 16
  spoiled := none
  ctr := 0
  txKey := ⟨0, 0⟩
  rxKey := ⟨0, 0⟩
  rxCtr := 0
  newTx := none
  newRx := none
  hold := false
  slot := 0
  lit := true
  retrain := false
  dark := false
  rx := []
  tx := none

/-- The fabric at reset. -/
def Fabric.reset : Fabric where
  index := Config.hallIndex.val
  hall := Config.hall.val
  course := 0
  began := 0
  set := false
  heard := none
  fibres := Vector.replicate 128 Fibre.reset
  out := []
  replay := []
  valley := []
  allow := []
  nums := []
  skipped := []
  seqs := []
  msgs := []
  seen := []
  colls := []
  collN := []
  gangs := []
  gangN := []
  rreds := []
  rredN := []
  rredOver := []

/-- The management complex at power-on: phase 0, READY clear (R353, R354). -/
def Mgmt.reset : Mgmt where
  phase := 0
  ready := false
  fail := 0
  svn := 0
  fuse := 0
  image := []
  isvn := 0
  ucode := []
  tripped := false
  badDies := []
  retired := []
  drained := []
  draining := []
  returning := []
  pmode := 0
  cesp := 0
  celoft := 0
  cehbm := 0
  ue := 0
  epoch := none
  updates := []
  slotHold := 0

/-- The machine right after reset: phase 0 of R353, READY clear, no context open, memory zero. -/
def State.reset : State where
  cycle := 0
  free := 0
  nextOid := 1
  focus := ⟨0, .ctl, 0, 0⟩
  agenda := []
  inputs := []
  mem := []
  poison := []
  cores := Vector.replicate 640 Core.reset
  dies := Vector.replicate 4 ⟨[], [], []⟩
  parts := (Vector.replicate 4 Part.reset).set 0 Part.whole
  ports := Vector.replicate 2 Port.reset
  graphs := []
  tasks := []
  slotGens := []
  counters := []
  decrs := []
  pubs := []
  answers := []
  ops := []
  buffers := []
  notifies := []
  invals := []
  debts := []
  evict := []
  saves := []
  fabric := Fabric.reset
  mgmt := Mgmt.reset
  outputs := []

end Sys2Proof.Machine
end

