-- ==== Sys2Proof/Machine/Bits.lean ====
section
/-! DEFINITION. Bits, bytes and lists: the helpers that every other file of the machine uses.
Byte order is little-endian, bit 0 least significant (R5). -/

namespace Sys2Proof.Machine

open Sys2Proof

/-- n bits of w from bit lo. -/
def bitsOf (w lo n : Nat) : Nat := w / 2 ^ lo % 2 ^ n

/-- One bit. -/
def bitOf (w lo : Nat) : Bool := w / 2 ^ lo % 2 == 1

/-- The n low bits of w read as two's complement. -/
def signedOf (n w : Nat) : Int :=
  let x := w % 2 ^ n
  if 2 ^ (n - 1) ≤ x then (x : Int) - (2 ^ n : Nat) else x

/-- An integer modulo 2^n. -/
def wrapNat (n : Nat) (i : Int) : Nat := (i % ((2 ^ n : Nat) : Int)).toNat

/-- The n low bits of w, sign-extended to 64 bits. -/
def sext64 (n w : Nat) : W64 := BitVec.ofInt 64 (signedOf n w)

/-- n little-endian bytes of w. -/
def toBytes : Nat → Nat → List Byte
  | 0, _ => []
  | n + 1, w => BitVec.ofNat 8 w :: toBytes n (w / 256)

/-- The number that little-endian bytes hold. -/
def ofBytes : List Byte → Nat
  | [] => 0
  | b :: bs => b.toNat + 256 * ofBytes bs

/-- The 256 bytes of a vector: lane j in bytes 4j to 4j + 3 (R235). -/
def vecBytes (v : Vec) : List Byte := (v.toList.map fun w => toBytes 4 w.toNat).flatten

/-- The words of bytes, four bytes a word. -/
def wordsOf : List Byte → List W32
  | a :: b :: c :: d :: t => BitVec.ofNat 32 (ofBytes [a, b, c, d]) :: wordsOf t
  | _ => []

/-- The vector whose lane j is the j-th word of a list; a missing word is 0. -/
def vecOfWords (l : List W32) : Vec := Vector.ofFn fun j => l.getD j.val 0

/-- The vector of 256 bytes. -/
def vecOfBytes (l : List Byte) : Vec := vecOfWords (wordsOf l)

/-- The vector with one value in every lane. -/
def vecAll (w : W32) : Vec := Vector.replicate 64 w

/-- Lane by lane. -/
def vecZip (f : W32 → W32 → W32) (a b : Vec) : Vec := Vector.zipWith f a b

/-- Writes bytes over a list from a place; bytes past its end are dropped. -/
def overlay : List Byte → Nat → List Byte → List Byte
  | [], _, _ => []
  | _ :: xs, 0, b :: bs => b :: overlay xs 0 bs
  | x :: xs, 0, [] => x :: xs
  | x :: xs, n + 1, bs => x :: overlay xs n bs

/-- The first element that satisfies p, and the list without it. -/
def takeFirst {α : Type} (p : α → Bool) : List α → Option (α × List α)
  | [] => none
  | x :: xs => if p x then some (x, xs) else (takeFirst p xs).map fun r => (r.1, x :: r.2)

/-- Replaces every element that satisfies p. -/
def updWhere {α : Type} (p : α → Bool) (f : α → α) (l : List α) : List α :=
  l.map fun x => if p x then f x else x

/-- The value a list of pairs gives a key, or 0. -/
def lookupNat (l : List (Nat × Nat)) (k : Nat) : Nat :=
  match l with
  | [] => 0
  | (a, v) :: t => if a = k then v else lookupNat t k

/-- Sets the value of a key in a list of pairs; a value of 0 is not listed. -/
def assignNat (l : List (Nat × Nat)) (k v : Nat) : List (Nat × Nat) :=
  let r := l.filter fun p => p.1 != k
  if v = 0 then r else (k, v) :: r

/-- The least element of a list by a measure; the first of equals. -/
def leastBy {α : Type} (key : α → Nat) : List α → Option α
  | [] => none
  | x :: xs =>
    match leastBy key xs with
    | none => some x
    | some y => if key x ≤ key y then some x else some y

/-- The first number from a start, upward and wrapping at n, that satisfies p; tries n numbers. -/
def firstFrom (p : Nat → Bool) (n : Nat) : Nat → Nat → Option Nat
  | 0, _ => none
  | k + 1, i => if p (i % n) then some (i % n) else firstFrom p n k (i + 1)

/-- Rounds up to a multiple of k. -/
def roundUp (k n : Nat) : Nat := (n + k - 1) / k * k

end Sys2Proof.Machine
end

