-- ==== Sys2Proof/Machine/Flags.lean ====
section
/-! DEFINITION. The sticky flags of FSTAT (R52) and every flag computation: what a rounding step, an overflow,
an integer result and a format conversion raise (R44, R50, R54 to R57, R63). -/

namespace Sys2Proof.Machine

open Sys2Proof

/-- Flags raised: bits NV, OF, UF, NX, IOV, TRC of R52. -/
abbrev Flags := BitVec 6

def fNone : Flags := 0
def fNV : Flags := 1
def fOF : Flags := 2
def fUF : Flags := 4
def fNX : Flags := 8
def fIOV : Flags := 16
def fTRC : Flags := 32

/-- A rounding step within range: UF and NX when tiny and inexact, NX when inexact (R54, R55). -/
def roundFlags (tiny inexact : Bool) : Flags :=
  if inexact then (if tiny then fUF ||| fNX else fNX) else fNone

/-- A result that overflowed (R54, R55). -/
def overflowFlags : Flags := fOF ||| fNX

/-- A nonzero subnormal result that FZO flushed (R57). -/
def flushFlags : Flags := fUF ||| fNX

/-- NV for an invalid operation (R44). -/
def invalidFlags (invalid : Bool) : Flags := if invalid then fNV else fNone

/-- IOV when the exact signed result lies outside n bits (R63, R258, R262). -/
def wrapFlags (n : Nat) (exact : Int) : Flags :=
  if exact < -((2 ^ (n - 1) : Nat) : Int) ∨ ((2 ^ (n - 1) : Nat) : Int) - 1 < exact then fIOV else fNone

/-- Float to integer: NV when NaN or out of range, else NX when the rounded integer differs (R56). -/
def toIntFlags (invalid inexact : Bool) : Flags :=
  if invalid then fNV else if inexact then fNX else fNone

/-- IOV of a saturated integer narrowing (R56). -/
def satFlags (saturated : Bool) : Flags := if saturated then fIOV else fNone

/-- TRC of a TERN5 byte above 242 (R47). -/
def tern5Flags (byte : Nat) : Flags := if 243 ≤ byte then fTRC else fNone

/-- FSTAT after flags are set: they are sticky, and bits 63:6 stay zero (R52). -/
def mergeFstat (fstat : W64) (f : Flags) : W64 := fstat ||| BitVec.setWidth 64 f

/-- FSTAT after a SYSW: write 1 to clear (R6, R52). -/
def clearFstat (fstat v : W64) : W64 := fstat &&& ~~~v

end Sys2Proof.Machine
end

