-- ==== Sys2Proof/Machine/Ops.lean ====
section
/-! DEFINITION. The named operations over the state: memory, registers, tokens, queues, address translation,
taking a fault and settling a cut. Every meaning is built from these. -/

namespace Sys2Proof

/-- The place of a stream in the vectors of four: C, L, M, S. -/
def Stream.idx : Stream → Fin 4
  | .ctl => 0
  | .load => 1
  | .math => 2
  | .store => 3

/-- The previous sequencer on the ring (R128). -/
def Stream.prev : Stream → Stream
  | .ctl => .store
  | .load => .ctl
  | .math => .load
  | .store => .math

/-- The next sequencer on the ring (R128). -/
def Stream.next : Stream → Stream
  | .ctl => .load
  | .load => .math
  | .math => .store
  | .store => .ctl

end Sys2Proof

namespace Sys2Proof.Machine

open Sys2Proof

/-- The outcome of a step of this machine. -/
abbrev Out := Host.Outcome State Fault Refusal

/-! ## Memory -/

/-- The byte at a key; an unlisted one reads as 0 (R353 phase 3; notes/assumptions/3.md). -/
def Memory.read : Memory → Nat → Byte
  | [], _ => 0
  | (a, x) :: m, k => if k = a then x else if k < a then 0 else Memory.read m k

/-- Writes a byte; the value 0 is not listed. -/
def Memory.write : Memory → Nat → Byte → Memory
  | [], k, b => if b = 0 then [] else [(k, b)]
  | (a, x) :: m, k, b =>
    if k < a then (if b = 0 then (a, x) :: m else (k, b) :: (a, x) :: m)
    else if k = a then (if b = 0 then m else (a, b) :: m)
    else (a, x) :: Memory.write m k b

/-- Addresses strictly rising and no byte 0, all above a bound. -/
def Memory.wfFrom : Memory → Nat → Bool
  | [], _ => true
  | (a, x) :: m, lo => lo ≤ a && x != 0 && Memory.wfFrom m (a + 1)

/-- The canonical form. -/
def Memory.wf (m : Memory) : Bool := Memory.wfFrom m 0

/-- n bytes from a key. -/
def Memory.readN (m : Memory) : Nat → Nat → List Byte
  | _, 0 => []
  | k, n + 1 => m.read k :: Memory.readN m (k + 1) n

/-- Writes bytes from a key. -/
def Memory.writeL : Memory → Nat → List Byte → Memory
  | m, _, [] => m
  | m, k, b :: bs => Memory.writeL (m.write k b) (k + 1) bs

/-- A little-endian number of n bytes. -/
def Memory.num (m : Memory) (k n : Nat) : Nat := ofBytes (m.readN k n)

/-- Where the Loft byte off of a partition lies among the keys (R217). -/
def loftKey (part off : Nat) : Nat := 2 ^ 40 + part * 2 ^ 28 + off

/-- The logical bank of a Loft offset (R217). -/
def loftBank (off : Nat) : Nat := 128 * (off / 2 ^ 26 % 4) + off / 256 % 128

/-- The byte of a Loft offset within its logical bank (R217). -/
def loftByte (off : Nat) : Nat := off / 2 ^ 15 % 2 ^ 11 * 256 + off % 256

/-- The key is that of a Loft byte. -/
def isLoftKey (key : Nat) : Bool := 2 ^ 40 ≤ key && key < 2 ^ 40 + 2 ^ 30

/-- Where byte off of a physical core's scratchpad lies among the keys (R9). -/
def spadKey (pcore off : Nat) : Nat := 2 ^ 41 + pcore * 2 ^ 21 + off

/-- Where a host's bus address lies among the keys (R220). -/
def hostKey (port bus : Nat) : Nat := 2 ^ 65 + port * 2 ^ 64 + bus

/-! ## State accessors -/

def State.core (s : State) (c : CoreId) : Core := s.cores[c]
def State.setCore (s : State) (c : CoreId) (k : Core) : State := { s with cores := s.cores.set c k }
def State.ctx (s : State) (c : CoreId) : Ctx := (s.core c).ctx
def State.setCtx (s : State) (c : CoreId) (x : Ctx) : State := s.setCore c { s.core c with ctx := x }

def Ctx.strm (x : Ctx) (st : Stream) : StreamSt := x.str[st.idx]
def Ctx.setStrm (x : Ctx) (st : Stream) (q : StreamSt) : Ctx := { x with str := x.str.set st.idx q }

/-- A value the spec leaves open, and the state that has used it (notes/assumptions/1.md). -/
def State.takeFree (s : State) : W64 × State := (Config.freeWord s.free, { s with free := s.free + 1 })

/-- The stream whose instruction is executed. -/
def State.fcore (s : State) : CoreId := s.focus.core
def State.fstr (s : State) : Stream := s.focus.stream

def State.findTask (s : State) (slot : Nat) : Option Task := s.tasks.find? (·.slot == slot)
def State.updTask (s : State) (slot : Nat) (f : Task → Task) : State :=
  { s with tasks := updWhere (·.slot == slot) f s.tasks }
def State.findGraph (s : State) (h : Nat) : Option Graph := s.graphs.find? (·.handle == h)
def State.updGraph (s : State) (h : Nat) (f : Graph → Graph) : State :=
  { s with graphs := updWhere (·.handle == h) f s.graphs }
def State.findOp (s : State) (o : Nat) : Option Op := s.ops.find? (·.oid == o)
def State.updOp (s : State) (o : Nat) (f : Op → Op) : State :=
  { s with ops := updWhere (·.oid == o) f s.ops }
def State.updPart (s : State) (p : Fin 4) (f : Part → Part) : State :=
  { s with parts := s.parts.set p (f s.parts[p]) }
def State.updPort (s : State) (p : Fin 2) (f : Port → Port) : State :=
  { s with ports := s.ports.set p (f s.ports[p]) }
def State.updContext (s : State) (p : Fin 2) (n : Fin 64) (f : Context → Context) : State :=
  s.updPort p fun q => { q with ctx := q.ctx.set n (f q.ctx[n]) }

/-- The handle of a live task (R31). -/
def Task.handle (t : Task) : Nat := t.slot * 65536 + t.gen

/-- The parts of a graph handle (R69). -/
def portOf (h : Nat) : Fin 2 := Fin.ofNat 2 (h / 2 ^ 31)
def ctxOf (h : Nat) : Fin 64 := Fin.ofNat 64 (h / 2 ^ 25)
def gslotOf (h : Nat) : Nat := h / 2 ^ 19 % 64

/-- The die of a physical core (R8). -/
def dieOf (c : CoreId) : Fin 4 := Fin.ofNat 4 (c.val / 160)

/-- A core of its number; a number of no core is taken modulo 640. -/
def coreOfNat (n : Nat) : CoreId := Fin.ofNat 640 n

/-- The live-task slot a core works for, if any. -/
def CoreRun.slot? : CoreRun → Option Nat
  | .idle => none
  | .starting t _ => some t
  | .running t => some t
  | .cutting t _ => some t
  | .held t => some t

/-- The partition a core belongs to (R10, R20). -/
def State.partOfCore (s : State) (c : CoreId) : Fin 4 :=
  match (List.finRange 4).find? fun p => s.parts[p].used && s.parts[p].dies.contains (dieOf c).val with
  | some p => p
  | none => 0

/-- The partition that offers a context (R20, notes/assumptions/19.md). -/
def partOfCtx (s : State) (ctx : Fin 64) : Fin 4 :=
  match s.mgmt.pmode with
  | 0 => 0
  | 1 => Fin.ofNat 4 (ctx.val / 32)
  | _ => Fin.ofNat 4 (ctx.val / 16)

/-- READY of a partition: the device has come up, and the partition has had its ten usable clusters since (R13, R353,
R354). -/
def partReady (s : State) (part : Fin 4) : Bool :=
  s.mgmt.ready && !(s.parts[part]).short && 10 ≤ (s.parts[part]).map.length

/-- Some partition is READY: the registers of the whole device answer (R353). -/
def deviceReady (s : State) : Bool := (List.finRange 4).any (partReady s)

/-! ## Course and frame time -/

/-- The course number as a natural number. -/
def State.course (s : State) : Nat := s.fabric.course.toNat

/-- The frame cycle: 0 until the frame's course begins (R155, R158). -/
def frameCycle (cycle : Nat) (x : Ctx) : Nat :=
  match x.fbegan with
  | none => 0
  | some b => (cycle - b) % 2 ^ 48

/-! ## Fault codes (R322) -/

def cIllegalOp : Nat := 0x01
def cIllegalStream : Nat := 0x02
def cQueueUnderflow : Nat := 0x04
def cQueueOverflow : Nat := 0x05
def cTokenOverflow : Nat := 0x06
def cAlign : Nat := 0x07
def cPageNotPresent : Nat := 0x08
def cPagePermission : Nat := 0x09
def cSpace : Nat := 0x0A
def cOwnership : Nat := 0x0B
def cCounterUnderflow : Nat := 0x0C
def cScheduleMiss : Nat := 0x0D
def cGuardFail : Nat := 0x0E
def cUserTrap : Nat := 0x0F
def cMemUe : Nat := 0x10
def cFabricUnreachable : Nat := 0x11
def cKeyHold : Nat := 0x12
def cOpTableFull : Nat := 0x13
def cTimeout : Nat := 0x14
def cPrivilege : Nat := 0x16
def cHeapRecord : Nat := 0x17
def cWriteHoldExpired : Nat := 0x18
def cFormat : Nat := 0x19
def cRecord : Nat := 0x1A

/-- A fault of an instruction: its code, its address, and whether TRES resume skips it or a handle was stale. -/
structure Flt where
  code  : Nat
  addr  : W64 := 0
  skip  : Bool := false
  stale : Bool := false
  deriving DecidableEq, Repr, Inhabited

/-! ## Taking a fault (R323) -/

/-- A fault that cuts the task on a core. Of the faults of one cycle the one recorded is that of the first stream in
the order C, L, M, S, and a stream fault before an op fault; later ones are not (R323). A core that runs no task
takes none. -/
def raiseAt (s : State) (c : CoreId) (f : FaultInfo) : State :=
  match (s.core c).run with
  | .running slot =>
    (s.setCore c { s.core c with run := .cutting slot s.cycle }).updTask slot fun t => { t with fault := some f }
  | .cutting slot at_ =>
    if at_ = s.cycle then
      s.updTask slot fun t =>
        match t.fault with
        | none => { t with fault := some f }
        | some g =>
          if f.src = 0 ∧ (g.src ≠ 0 ∨ f.stream.idx < g.stream.idx) then { t with fault := some f } else t
    else s
  | _ => s

/-- The record of a fault in the executing instruction (R326). -/
def instrFault (s : State) (f : Flt) : FaultInfo where
  code := f.code
  stream := s.fstr
  src := 0
  lost := false
  stale := f.stale
  walk := false
  skip := f.skip
  late := false
  pc := ((s.ctx s.fcore).strm s.fstr).pc
  word := s.focus.word
  w2 := s.focus.w2
  addr := f.addr
  optok := 0
  widx := 0
  course := s.course
  at_ := s.cycle

/-- The executing instruction takes its fault: precise, so no other state changes (R136, R323). -/
def takeFault (s : State) (f : Flt) : State := raiseAt s s.fcore (instrFault s f)

/-! ## Token queues -/

/-- The queue from a sequencer to its next (true) or previous neighbour, as TOKQ orders them (R154). -/
def postQ (st : Stream) (next : Bool) : Fin 8 :=
  match st, next with
  | .ctl, true => 0
  | .load, true => 1
  | .math, true => 2
  | .store, true => 3
  | .load, false => 4
  | .math, false => 5
  | .store, false => 6
  | .ctl, false => 7

/-- The queue on which a sequencer waits for its next (true) or previous neighbour. -/
def waitQ (st : Stream) (next : Bool) : Fin 8 := if next then postQ st.next false else postQ st.prev true

/-- Tokens that can be taken in a cycle: those posted in it cannot (R144). -/
def TokQ.avail (q : TokQ) (cycle : Nat) : Nat := if q.freshAt = cycle then q.count - q.fresh else q.count

/-- Count and reserved places (R143). -/
def TokQ.occupancy (q : TokQ) : Nat := q.count + (q.pending.map (·.n)).sum

def TokQ.take (q : TokQ) (n : Nat) : TokQ := { q with count := q.count - n }

/-- Reserves places for the effect numbered id, behind the earlier ones (R145, R146). -/
def TokQ.reserve (q : TokQ) (id n : Nat) : TokQ :=
  if n = 0 then q else { q with pending := q.pending ++ [⟨id, n, false⟩] }

/-- The posts at the front of a list that are ready, and the rest (R146). -/
def readyPosts : List Post → Nat × List Post
  | [] => (0, [])
  | p :: ps => if p.ready then let r := readyPosts ps; (p.n + r.1, r.2) else (0, p :: ps)

/-- Makes the posts of the effect numbered id, once every earlier one is made (R146). -/
def TokQ.post (q : TokQ) (cycle id : Nat) : TokQ :=
  let ps := updWhere (·.id == id) (fun p => { p with ready := true }) q.pending
  let r := readyPosts ps
  if r.1 = 0 then { q with pending := r.2 }
  else { count := q.count + r.1, fresh := (if q.freshAt = cycle then q.fresh else 0) + r.1, freshAt := cycle,
         pending := r.2 }

/-- Drops the reservations of the effect numbered id whose moment has not come (R324). -/
def TokQ.unreserve (q : TokQ) (id : Nat) : TokQ := { q with pending := q.pending.filter fun p => p.id != id || p.ready }

def Ctx.modTok (x : Ctx) (i : Fin 8) (f : TokQ → TokQ) : Ctx := { x with tok := x.tok.set i (f x.tok[i]) }

/-- Joins what was acquired with what tokens released. -/
def joinAcq (a : Vector Nat 4) (l : List (Vector Nat 4)) : Vector Nat 4 := l.foldl (Vector.zipWith max) a

/-- Taking n tokens of a neighbour's queue: posts and takes pair in order, and each token acquires what its post released
(R144, R146, R314). -/
def takeFrom (x : Ctx) (st : Stream) (q : Fin 8) (n : Nat) : Ctx :=
  let z := x.strm st
  { (x.modTok q (·.take n)).setStrm st { z with acq := joinAcq z.acq (x.snaps[q].take n) } with
    snaps := x.snaps.set q (x.snaps[q].drop n) }

/-- Takes p tokens of the previous and n of the next neighbour (R144). -/
def takeTokens (x : Ctx) (st : Stream) (p n : Nat) : Ctx :=
  let x := if p = 0 then x else takeFrom x st (waitQ st false) p
  if n = 0 then x else takeFrom x st (waitQ st true) n

/-- Returns n tokens that a withdrawn instruction took to their count (R227, R324). What they acquired stays acquired. -/
def returnTokens (x : Ctx) (q : Fin 8) (n : Nat) : Ctx :=
  { x.modTok q (fun k => { k with count := k.count + n }) with
    snaps := x.snaps.set q (List.replicate n (Vector.replicate 4 0) ++ x.snaps[q]) }

/-- Reserves p places toward the previous and n toward the next neighbour. -/
def reservePosts (x : Ctx) (st : Stream) (id p n : Nat) : Ctx :=
  (x.modTok (postQ st false) (·.reserve id p)).modTok (postQ st true) (·.reserve id n)

/-- What the posts of the effect numbered id release: the accesses of its sequencer up to it, and what the sequencer has
acquired (R314). The number 0 is that of the instruction the stream stands at. -/
def released (x : Ctx) (st : Stream) (id : Nat) : Vector Nat 4 :=
  (x.strm st).acq.set st.idx (if id = 0 then x.serial + 1 else id + 1)

/-- Posts that become counted, in their order, each with what it released at its own moment; and what stays owed (R146,
R314). -/
def payOwed : List Post → List (Nat × Vector Nat 4) → List (Vector Nat 4) × List (Nat × Vector Nat 4)
  | [], l => ([], l)
  | p :: ps, l =>
    match takeFirst (·.1 == p.id) l with
    | none => let r := payOwed ps l; (List.replicate p.n (Vector.replicate 4 0) ++ r.1, r.2)
    | some (e, rest) => let r := payOwed ps rest; (List.replicate p.n e.2 ++ r.1, r.2)

/-- What is owed on a queue once the moment of an effect's posts has come there: with it, what they release (R314). -/
def owedWith (x : Ctx) (st : Stream) (id : Nat) (q : Fin 8) : List (Nat × Vector Nat 4) :=
  x.owed[q] ++ ((x.tok[q].pending.filter fun p => p.id == id && !p.ready).map fun p => (p.id, released x st id))

/-- The posts on one queue: every token that becomes counted carries what its post released, at the moment of that post,
though an earlier one has held it up (R145, R146, R314). -/
def postOn (x : Ctx) (cycle : Nat) (st : Stream) (id : Nat) (next : Bool) : Ctx :=
  let q := postQ st next
  let ps := updWhere (·.id == id) (fun p => { p with ready := true }) x.tok[q].pending
  let r := payOwed (ps.takeWhile (·.ready)) (owedWith x st id q)
  { x.modTok q (·.post cycle id) with snaps := x.snaps.set q (x.snaps[q] ++ r.1), owed := x.owed.set q r.2 }

/-- The moment of the posts of the effect numbered id (R145). -/
def makePosts (x : Ctx) (cycle : Nat) (st : Stream) (id : Nat) : Ctx := postOn (postOn x cycle st id false) cycle st id true

/-- Whether p and n tokens are there to be taken. -/
def tokensThere (x : Ctx) (cycle : Nat) (st : Stream) (p n : Nat) : Bool :=
  p ≤ x.tok[waitQ st false].avail cycle && n ≤ x.tok[waitQ st true].avail cycle

/-- Whether reserving p and n places would exceed 63 (R145). -/
def tokensOver (x : Ctx) (st : Stream) (p n : Nat) : Bool :=
  (p != 0 && 63 < x.tok[postQ st false].occupancy + p) || (n != 0 && 63 < x.tok[postQ st true].occupancy + n)

/-! ## Queue registers (R151) -/

/-- The entry can be popped in this cycle. -/
def QPlace.ripe (p : QPlace) (cycle : Nat) : Bool :=
  match p.landed with
  | none => false
  | some l => l < cycle

/-- The oldest entry, when it is poppable: entries become so in push order. -/
def oldest (q : List QPlace) (cycle : Nat) : Option QPlace :=
  match q with
  | [] => none
  | p :: _ => if p.ripe cycle then some p else none

/-- How many entries are poppable. -/
def poppable (q : List QPlace) (cycle : Nat) : Nat := (q.takeWhile (·.ripe cycle)).length

/-- Lands the reserved place numbered id. -/
def landPlace (q : List QPlace) (id cycle : Nat) (v : Vec) (poison : Bool) : List QPlace :=
  updWhere (fun p => p.id == id && p.landed == none)
    (fun p => { p with data := v, poison := poison, landed := some cycle }) q

/-- A reserved place. -/
def newPlace (id : Nat) : QPlace := ⟨id, Vec.zero, false, none⟩

/-! ## Flags and registers -/

/-- Sets flags in a task's FSTAT (R52). -/
def Ctx.flag (x : Ctx) (f : BitVec 6) : Ctx := { x with fstat := mergeFstat x.fstat f }

/-- Reads gN; g0 reads as 0 (R132). -/
def Ctx.gr (x : Ctx) (r : GReg) : W64 := if r = 0 then 0 else x.g[r]

/-- Writes gN; a write to g0 is discarded (R132). -/
def Ctx.setG (x : Ctx) (r : GReg) (v : W64) : Ctx := if r = 0 then x else { x with g := x.g.set r v }

/-- Reads aN of the load or the store stream (R132). -/
def Ctx.ar (x : Ctx) (st : Stream) (r : AReg) : W64 := if st = .store then x.aS[r] else x.aL[r]

/-- Writes aN of the load or the store stream. -/
def Ctx.setA (x : Ctx) (st : Stream) (r : AReg) (v : W64) : Ctx :=
  if st = .store then { x with aS := x.aS.set r v } else { x with aL := x.aL.set r v }

/-- Register r of the stream's own file, by number: g in the control stream, a in the others. -/
def Ctx.setReg (x : Ctx) (st : Stream) (r : Nat) (v : W64) : Ctx :=
  if st = .ctl then x.setG (Fin.ofNat 32 r) v else x.setA st (Fin.ofNat 16 r) v

/-! ## Poison (R229) -/

/-- The aligned words that bytes touch. -/
def wordsAt (key n : Nat) : List Nat :=
  (List.range ((key + n - 1) / 8 + 1 - key / 8)).map fun i => (key / 8 + i) * 8

/-- A poisoned word lies among the bytes. -/
def State.poisoned (s : State) (key n : Nat) : Bool := (wordsAt key n).any s.poison.contains

/-- A write of the bytes leaves some poisoned word written in part. -/
def State.partPoison (s : State) (key n : Nat) : Bool :=
  (wordsAt key n).any fun w => s.poison.contains w && !(key ≤ w && w + 8 ≤ key + n)

/-! ## Address translation (R219 to R222) -/

/-- A write that is performed: the bytes, and the poison of words wholly written is cleared (R229). -/
def State.store (s : State) (key : Nat) (bs : List Byte) : State :=
  { s with mem := s.mem.writeL key bs
           poison := s.poison.filter fun w => !(key ≤ w && w + 8 ≤ key + bs.length) }

/-- Where an access ends up: a memory key, held under WB (R227), or a fault code (R221). -/
inductive Reach
  | ok (key : Nat)
  | held
  | fault (code : Nat)
  deriving DecidableEq, Repr, Inhabited

/-- The levels of a walk: the lowest bit of the index, and its bits (R219). -/
def walkLevels : List (Nat × Nat) := [(36, 7), (30, 6), (21, 9), (16, 5)]

/-- A stack is retired, by itself or with its drained die (R18, R361). -/
def State.stackRetired (s : State) (k : Nat) : Bool := s.mgmt.retired.contains k || s.mgmt.drained.contains (k / 3)

/-- The physical address lies on a retired stack (R361). -/
def State.onRetired (s : State) (p : Nat) : Bool := s.stackRetired (p / Config.stackBytes)

/-- The physical address lies on a stack of another partition (R20). DESIGN CHOICE: what refers there is PAGE_PERMISSION
(notes/assumptions/91.md). -/
def State.foreignStack (s : State) (part p : Nat) : Bool :=
  !(s.parts[Fin.ofNat 4 part]).dies.contains (p / Config.stackBytes / 3)

/-- A walk for a partition: the leaf entry, its address and the bits of its page, or a fault code (R20, R219 to R221,
R361). A poisoned entry on the way is MEM_UE of the access that walks (R229). DESIGN CHOICE: a pointer to a table that ends
beyond HBM is PAGE_NOT_PRESENT, as a frame there is, and a table in reserved HBM is walked, of which R221 lists only leaf frames
(notes/assumptions/121.md). -/
def walk (s : State) (part : Nat) : List (Nat × Nat) → Nat → Nat → Except Nat (Nat × Nat × Nat)
  | [], _, _ => .error cPageNotPresent
  | (sh, nb) :: rest, table, va =>
    let at_ := table + 8 * bitsOf va sh nb
    if Config.hbmBytes < at_ + 8 then .error cPageNotPresent
    else if s.onRetired at_ || s.foreignStack part at_ then .error cPagePermission
    else if s.poisoned at_ 8 then .error cMemUe
    else
      let pte := s.mem.num at_ 8
      if !bitOf pte 0 || bitsOf pte 8 4 != 0 then .error cPageNotPresent
      else if bitOf pte 1 then .ok (pte, at_, sh)
      else if bitsOf pte 2 6 != 0 then .error cPageNotPresent
      else walk s part rest (pte / 4096 * 4096) va

/-- The bus address lies in a window the port's host has opened (R358). -/
def State.busOpen (s : State) (port : Fin 2) (bus : Nat) : Bool :=
  s.ports[port].obw.toList.any fun w =>
    w.en && w.base.toNat ≤ bus && bus < w.base.toNat + w.npg.toNat * 65536

/-- Reserved HBM: the top of each stack (R363). -/
def reservedHbm (p : Nat) : Bool := Config.stackBytes - Config.rsvBytes ≤ p % Config.stackBytes

/-- The check of a leaf for one access (R220, R221). The frame is the one the access touches. -/
def leafReach (s : State) (pte sh va : Nat) (write fetch : Bool) : Reach :=
  let frame := pte / 4096 * 4096
  let p := frame + va % 2 ^ sh
  if frame % 2 ^ sh != 0 then .fault cPageNotPresent
  else if !bitOf pte 4 && Config.hbmBytes ≤ p then .fault cPageNotPresent
  else if !bitOf pte 4 && (reservedHbm p || s.onRetired p) then .fault cPagePermission
  else if write && !bitOf pte 2 then .fault cPagePermission
  else if fetch && !bitOf pte 3 then .fault cPagePermission
  else if bitOf pte 4 && !s.busOpen (Fin.ofNat 2 (bitsOf pte 5 1)) p then .fault cPagePermission
  else if write && bitOf pte 7 then .held
  else if bitOf pte 4 then .ok (hostKey (bitsOf pte 5 1) p)
  else .ok p

/-- A cached translation that covers the address, of this core or of its die (R222). -/
def State.tlbHit (s : State) (c : CoreId) (r : Rights) (va : Nat) : Option TlbEntry :=
  ((s.core c).tlb ++ s.dies[dieOf c].tlb).find? fun t =>
    t.port == r.port && t.ctx == r.ctx && t.va ≤ va && va < t.va + t.span

/-- The leaf of an address: a cached one, when there is one and the free value keeps it, else a new walk, which
the caches then hold (R222, notes/assumptions/4.md). DESIGN CHOICE: a leaf that is misaligned or names a frame beyond HBM is
cached, since its V is set; one with reserved bits set is not (notes/assumptions/122.md). An op ahead of an invalidation's marker keeps a translation that
was cached when the invalidation issued (R223). -/
def leafOf (s : State) (c : CoreId) (r : Rights) (va : Nat) : State × Except Nat (Nat × Nat × Nat) :=
  let fresh (s : State) : State × Except Nat (Nat × Nat × Nat) :=
    match walk s r.part walkLevels r.root va with
    | .error e => (s, .error e)
    | .ok (pte, at_, sh) =>
      let t : TlbEntry := ⟨r.port, r.ctx, va / 2 ^ sh * 2 ^ sh, 2 ^ sh, BitVec.ofNat 64 pte, at_⟩
      let k := s.core c
      let d := s.dies[dieOf c]
      let s := s.setCore c { k with tlb := (t :: k.tlb.filter (· != t)).take 256 }
      ({ s with dies := s.dies.set (dieOf c) { d with tlb := (t :: d.tlb.filter (· != t)).take 16384 } },
        .ok (pte, at_, sh))
  let old := (s.invals.find? fun v => v.ahead.contains r.oid).bind fun v =>
    v.old.find? fun t => t.port == r.port && t.ctx == r.ctx && t.va ≤ va && va < t.va + t.span
  match old, s.tlbHit c r va with
  | some t, _ => (s, .ok (t.pte.toNat, t.pteAt, Nat.log2 t.span))
  | none, none => fresh s
  | none, some t =>
    let s' := { s with free := s.free + 1 }
    if Config.useCached s.free then (s', .ok (t.pte.toNat, t.pteAt, Nat.log2 t.span)) else fresh s'

/-- One hot-page notice: written at HQTAIL, or dropped when the queue is full (R226). A queue that is not in HBM is not written
(DESIGN CHOICE, notes/assumptions/75.md). -/
def hotNotice (s : State) (port : Fin 2) (ctx va count : Nat) : State :=
  let p := s.ports[port]
  if p.hqtail + 1 = p.hqhead then s.updPort port fun p => { p with hqdrop := p.hqdrop + 1 }
  else
    let n := ctx % 64 + count * 2 ^ 16 + bitsOf va 16 27 * 2 ^ 32 + s.course % 2 ^ 32 * 2 ^ 96
    let at_ := p.hqbase.toNat + 16 * p.hqtail.toNat
    (if at_ + 16 ≤ Config.hbmBytes then s.store at_ (toBytes 16 n) else s).updPort port
      fun p => { p with hqtail := p.hqtail + 1, hnwait := p.hnwait || p.hnvec.getLsbD 11 }

/-- A leaf whose accesses are counted: one of level 3 with HOST and HC (R225). -/
def hotLeaf (pte sh : Nat) : Bool := sh = 16 && bitOf pte 4 && bitOf pte 6

/-- Where the counter of the leaf at an address lies (R219). -/
def hotAt (at_ : Nat) : Nat := at_ / 4096 * 4096 + 256 + 2 * (at_ / 8 % 32)

/-- Counts the blocks an access touches on a hot leaf (R225). -/
def hotCount (s : State) (r : Rights) (pte at_ sh va blocks : Nat) : State :=
  if hotLeaf pte sh then
    let cAt := hotAt at_
    let old := s.mem.num cAt 2
    let new := min 65535 (old + blocks)
    let s := s.store cAt (toBytes 2 new)
    let port := Fin.ofNat 2 r.port
    let h := s.ports[port].hthr.toNat
    if h != 0 && s.ports[port].hqbase != 0 && old < h && h ≤ new then hotNotice s port r.ctx va new else s
  else s

/-- The aligned 256-byte blocks that n bytes at va touch (R225). -/
def blocksOf (va n : Nat) : Nat := (va + n - 1) / 256 - va / 256 + 1

/-- The frame of an HBM leaf that an access reaches lies on a stack of another partition (R20). -/
def foreignFrame (s : State) (r : Rights) : Reach → Bool
  | .ok key => key < Config.hbmBytes && s.foreignStack r.part key
  | _ => false

/-- Translates a piece of an access at a device virtual address, with its count on a hot page. The count is a read and a write of
two bytes: in a poisoned word it is MEM_UE, and the word stays (R229). -/
def translate (s : State) (c : CoreId) (r : Rights) (va blocks : Nat) (write fetch : Bool) : State × Reach :=
  match leafOf s c r va with
  | (s, .error e) => (s, .fault e)
  | (s, .ok (pte, at_, sh)) =>
    match leafReach s pte sh va write fetch with
    | .fault e => (s, .fault e)
    | r' =>
      if foreignFrame s r r' then (s, .fault cPagePermission)
      else if blocks != 0 && hotLeaf pte sh && s.poisoned (hotAt at_) 2 then (s, .fault cMemUe)
      else (hotCount s r pte at_ sh va blocks, r')

/-! ## Space tags and ownership (R215, R216, R205) -/

/-- A place in one of the spaces a task can address locally. -/
inductive Place
  | dv (va : Nat)
  | own (off : Nat)
  | window (p off : Nat)
  | loft (off : Nat)
  deriving DecidableEq, Repr, Inhabited

/-- The place an address names; none is SPACE (R215). Gang space is no place here (R178). -/
def placeOf (a : Nat) : Option Place :=
  let low := a % 2 ^ 56
  match a / 2 ^ 56 with
  | 0 => if low < 2 ^ 43 then some (.dv low) else none
  | 1 => if low < 2 ^ 21 then some (.own low) else none
  | 2 => if low < 2 ^ 24 then some (.window (low / 2 ^ 21) (low % 2 ^ 21)) else none
  | 3 => if low < 2 ^ 28 then some (.loft low) else none
  | _ => none

/-- The address space tag. -/
def tagOf (a : W64) : Nat := a.toNat / 2 ^ 56

/-- The rights hold a buffer: as its task's live holdings, or as the snapshot of a detached op (R216). -/
def Rights.holds (r : Rights) (b : Buffer) : Bool :=
  if r.live then b.holder == some r.slot else r.held.contains (b.orig, b.addr, b.size)

/-- Bytes [a, a + n) and [b, b + m) overlap. -/
def overlaps (a n b m : Nat) : Bool := a < b + m && b < a + n

/-- Regions, each an offset and its bytes, cover n bytes from off: the first that holds off, then those that hold the
rest. -/
def coveredBy (l : List (Nat × Nat)) : Nat → Nat → Nat → Bool
  | 0, _, n => n == 0
  | k + 1, off, n =>
    n == 0 || match l.find? fun b => b.1 ≤ off && off < b.1 + b.2 with
    | none => false
    | some b => coveredBy l k (b.1 + b.2) (n - (b.1 + b.2 - off))

/-- The regions of a logical core that the rights hold: the live buffers their task holds, or those that were held when
the op was detached (R205, R216). -/
def heldRegions (s : State) (r : Rights) (orig : Nat) : List (Nat × Nat) :=
  if r.live then
    (s.buffers.filter fun b => b.live && b.part == r.part && b.orig == orig && r.holds b).map fun b => (b.addr, b.size)
  else (r.held.filter (·.1 == orig)).map (·.2)

/-- Every byte lies in a region of a core that the rights hold (R205, R216). -/
def inHeld (s : State) (r : Rights) (orig off n : Nat) : Bool :=
  let l := heldRegions s r orig
  n != 0 && coveredBy l l.length off n

/-- Some byte lies in a live buffer of a core that the rights do not hold. -/
def inForeign (s : State) (r : Rights) (orig off n : Nat) : Bool :=
  s.buffers.any fun b => b.live && b.part == r.part && b.orig == orig && !r.holds b && overlaps off n b.addr b.size

/-- Where the replica table of a partition lies in the Loft (R308). -/
def State.replicaAt (s : State) (part : Nat) : Nat := (s.parts[Fin.ofNat 4 part]).repBase * 32768

/-- Bytes of the Loft touch the read-only alias of the replica table (R308). -/
def State.inAlias (s : State) (part off n : Nat) : Bool :=
  (s.parts[Fin.ofNat 4 part]).repEn && overlaps off n (s.replicaAt part + 32768) 16384

/-- The key that a read of a key is performed at: the alias of the replica table reads the current buffer (R308). -/
def State.readKey (s : State) (key : Nat) : Nat :=
  if !isLoftKey key then key
  else
    let part := (key - 2 ^ 40) / 2 ^ 28
    let off := key % 2 ^ 28
    if s.inAlias part off 1 then
      loftKey part (off - 32768 + (if (s.parts[Fin.ofNat 4 part]).cur then 16384 else 0))
    else key

/-- An access of n bytes at a place: checked in the order of R178, then reached. -/
def reach (s : State) (c : CoreId) (r : Rights) (p : Place) (n blocks : Nat) (write : Bool) :
    State × Reach :=
  match p with
  | .dv va =>
    if 2 ^ 43 < va + n then (s, .fault cSpace) else translate s c r va blocks write false
  | .own off =>
    if off < r.base || r.base + r.size < off + n then (s, .fault cSpace)
    else if inForeign s r r.lcore off n then (s, .fault cOwnership)
    else (s, .ok (spadKey r.pcore off))
  | .window q off =>
    let orig := r.lcore / 8 * 8 + q
    let own := orig == r.me && r.base ≤ off && off + n ≤ r.base + r.size && !inForeign s r orig off n
    if off + n ≤ 2 ^ 21 && (own || inHeld s r orig off n) then (s, .ok (spadKey (r.pcore / 8 * 8 + q) off))
    else (s, .fault cOwnership)
  | .loft off =>
    if 2 ^ 28 < off + n || (write && s.inAlias r.part off n) then (s, .fault cSpace) else (s, .ok (loftKey r.part off))

/-- The rights of the task on a core (R216). -/
def rightsOf (s : State) (c : CoreId) : Rights :=
  let x := s.ctx c
  let h := x.graph.toNat
  let (part, root) : Nat × Nat :=
    match s.findGraph h with
    | some g => (g.part, g.root)
    | none => ((s.partOfCore c).val, 0)
  { lcore := x.lcore.toNat, pcore := c.val, part := part, port := (portOf h).val, ctx := (ctxOf h).val,
    root := root, base := x.base, size := x.size,
    slot := ((s.core c).run.slot?).getD (x.task.toNat / 65536), live := true, held := [], oid := 0, me := x.lcore.toNat }


/-! ## Reads -/

/-- A read that is performed. -/
def State.load (s : State) (key n : Nat) : List Byte := s.mem.readN (s.readKey key) n

/-! ## A whole access at a virtual address -/

/-- One piece of an access: its virtual address, its bytes and its place in the data. -/
structure Piece where
  va  : Nat
  len : Nat
  off : Nat
  deriving DecidableEq, Repr, Inhabited

/-- n bytes from va cut at the boundaries of aligned units (R311). -/
def cutAligned (unit : Nat) : Nat → Nat → Nat → Nat → List Piece
  | 0, _, _, _ => []
  | _, _, 0, _ => []
  | k + 1, va, n, off =>
    let l := min n (unit - va % unit)
    ⟨va, l, off⟩ :: cutAligned unit k (va + l) (n - l) (off + l)

/-- The end of the run of adjoining pieces that starts at p, within its 64 KiB page. -/
def runEnd (p : Piece) : List Piece → Nat
  | [] => p.va + p.len
  | q :: qs => if q.va = p.va + p.len ∧ q.va % 65536 ≠ 0 then runEnd q qs else p.va + p.len

/-- The blocks that a piece adds to its page's count (R225): an access counts once for each page, with all the
blocks of its adjoining pieces there, and a block it has just touched is not counted again. -/
def pieceBlocks (p : Piece) (ps : List Piece) : Option Nat → Nat
  | none => blocksOf p.va (runEnd p ps - p.va)
  | some e =>
    if p.va = e ∧ p.va % 65536 ≠ 0 then 0
    else blocksOf p.va (runEnd p ps - p.va) - (if (e - 1) / 256 = p.va / 256 then 1 else 0)

/-- The outcome of checking an access at issue. -/
inductive Checked
  | ok (units : List AUnit)
  | held
  | fault (code : Nat) (va : Nat)
  deriving DecidableEq, Repr, Inhabited

/-- Checks and translates each piece in order; the first failure decides (R178, R230). A read of a poisoned word is
a fault unless its poison travels with the data (R229, R235). An access counts on hot pages at its translation, and a held
write that walks again does not count again (R225). -/
def checkPieces (c : CoreId) (r : Rights) (write ueFaults count : Bool) :
    State → List Piece → List AUnit → Option Nat → Bool → State × Checked
  | s, [], acc, _, held => (s, if held then .held else .ok acc)
  | s, p :: ps, acc, last, held =>
    match placeOf p.va with
    | none => (s, .fault cSpace p.va)
    | some pl =>
      let last' := some (p.va + p.len)
      match reach s c r pl p.len (if count then pieceBlocks p ps last else 0) write with
      | (s, .fault e) => (s, .fault e p.va)
      | (s, .held) => checkPieces c r write ueFaults count s ps acc last' true
      | (s, .ok key) =>
        if ueFaults && ((!write && s.poisoned (s.readKey key) p.len) || (write && s.partPoison key p.len)) then
          (s, .fault cMemUe p.va)
        else checkPieces c r write ueFaults count s ps (acc ++ [⟨key, p.len, p.off⟩]) last' held

/-- Reads n bytes at once, unit by unit, as an engine or Ridge does: the data, or a fault code. -/
def readVaAt (count : Bool) (s : State) (c : CoreId) (r : Rights) (va n : Nat) : State × Except (Nat × Nat) (List Byte) :=
  match checkPieces c r false true count s (cutAligned 16 (n + 1) va n 0) [] none false with
  | (s, .ok us) => (s, .ok ((us.map fun u => s.load u.key u.len).flatten))
  | (s, .held) => (s, .error (cPagePermission, va))
  | (s, .fault e a) => (s, .error (e, a))

/-- The same, of an access that has not been translated before. -/
def readVa (s : State) (c : CoreId) (r : Rights) (va n : Nat) : State × Except (Nat × Nat) (List Byte) :=
  readVaAt true s c r va n

/-- What became of a write. -/
inductive Wrote
  | done
  | held
  | fault (code : Nat) (va : Nat)
  deriving DecidableEq, Repr, Inhabited

/-- Writes each unit in turn. -/
def storeUnits (s : State) (data : List Byte) : List AUnit → State
  | [] => s
  | u :: us => storeUnits (s.store u.key ((data.drop u.off).take u.len)) data us

/-- Writes bytes at a virtual address: all, none when some of it is held, or a fault. -/
def writeVaAt (count : Bool) (s : State) (c : CoreId) (r : Rights) (va : Nat) (bs : List Byte) : State × Wrote :=
  match checkPieces c r true true count s (cutAligned 16 (bs.length + 1) va bs.length 0) [] none false with
  | (s, .ok us) => (storeUnits s bs us, .done)
  | (s, .held) => (s, .held)
  | (s, .fault e a) => (s, .fault e a)

/-- The same, of an access that has not been translated before. -/
def writeVa (s : State) (c : CoreId) (r : Rights) (va : Nat) (bs : List Byte) : State × Wrote :=
  writeVaAt true s c r va bs

/-! ## Names of tasks, ops and ranks -/

/-- The token of an op (R163). -/
def opToken (chan seq gen : Nat) : Nat := chan * 2 ^ 56 + seq % 2 ^ 40 * 2 ^ 16 + gen % 2 ^ 16

/-- The orphan name of an op (R163). -/
def orphanName (lc chan seq : Nat) : Nat := 2 ^ 63 + lc * 2 ^ 53 + chan * 2 ^ 50 + seq % 2 ^ 40 * 2 ^ 10

/-- The live states (R166). -/
def OpStatus.isLive : OpStatus → Bool
  | .queued | .running | .paused | .faulted => true
  | _ => false

/-- State codes (R166). -/
def OpStatus.code : OpStatus → Nat
  | .queued => 1
  | .running => 2
  | .paused => 3
  | .faulted => 4
  | .done => 8
  | .partly => 9
  | .cancelled => 10
  | .failed => 11

/-- A fault of an op, raised in the task it is attached to (R172, R326). -/
def opFaultInfo (s : State) (o : Op) (code : Nat) (addr : W64) : FaultInfo where
  code := code
  stream := o.stream
  src := 1
  lost := false
  stale := false
  walk := false
  skip := false
  late := false
  pc := 0
  word := 0
  w2 := 0
  addr := addr
  optok := BitVec.ofNat 64 (opToken o.chan.val o.seq o.gen)
  widx := 0
  course := s.course
  at_ := s.cycle

/-- The core on which a live-task slot runs, or stands cut in place. -/
def State.coreOfSlot (s : State) (slot : Nat) : Option CoreId :=
  (s.findTask slot).bind fun t =>
    if (s.core t.pcore).run.slot? = some slot then some t.pcore else none

/-- The physical core that hosts a logical core of a partition (R12, R13): usable clusters in ascending order. -/
def Part.hosts (p : Part) (lcore : Nat) : CoreId :=
  let n := p.map.length
  if n = 0 then 0 else coreOfNat (p.map.getD (lcore / 8 % n) 0 * 8 + lcore % 8)

end Sys2Proof.Machine
end

