-- ==== Sys2Proof/Machine/Operands.lean ====
section
/-! DEFINITION. Every operand form: immediates and branch offsets (R129, R131, R182), addresses (R182, R212,
R230, R235), v registers inside a latency window (R148), queue sources and destinations of the math stream
(R132, R133, R151), and the format table entry of an fsel (R60). -/

namespace Sys2Proof.Machine

open Sys2Proof

/-- i 11:0, sign-extended to 64 bits (R129). -/
def imm12 (i : Fin 4096) : W64 := sext64 12 i.val

/-- i 11:0 as a B-format word offset, in bytes (R131). -/
def branch12 (i : Fin 4096) : W64 := sext64 12 i.val <<< 2

/-- i 16:0 as a J-format word offset, in bytes (R131). -/
def branch17 (i : Fin 131072) : W64 := sext64 17 i.val <<< 2

/-- Access sizes in bytes (R182). -/
def sizeBytes : Size → Nat
  | .b1 => 1
  | .b2 => 2
  | .b4 => 4
  | .b8 => 8

/-- The address of a scalar access: base + OFF × size, OFF signed (R182, R233). -/
def memAddr (base : W64) (o : Fin 64) (sz : Size) : W64 := base + sext64 6 o.val * BitVec.ofNat 64 (sizeBytes sz)

/-- The address of a landing word: base + 16 × sign-extended i (R212). -/
def landAddr (base : W64) (i : Fin 4096) : W64 := base + imm12 i * 16

/-- Base plus an unsigned offset in units of 256 bytes (R235, R245). -/
def entryAddr (base : W64) (o : Nat) : W64 := base + BitVec.ofNat 64 (o * 256)

/-- The lowest bit that an address's space tag requires to be zero (R215); 56 where it requires none. -/
def zeroFrom (tag : Nat) : Nat :=
  match tag with
  | 0 => 43
  | 1 => 21
  | 2 => 24
  | 3 => 28
  | _ => 56

/-- A sum that changes a bit its base's tag requires to be zero: SPACE (R230). A gang address may not carry out of
bit 42 (R245). -/
def addrSpills (base sum : W64) : Bool :=
  if tagOf base < 0x80 then base.toNat / 2 ^ zeroFrom (tagOf base) != sum.toNat / 2 ^ zeroFrom (tagOf base)
  else base.toNat / 2 ^ 43 != sum.toNat / 2 ^ 43

/-- The address is a multiple of n. -/
def aligned (a : W64) (n : Nat) : Bool := a.toNat % n == 0

/-! ## Math-stream operands -/

/-- One pending write seen by a reader in a cycle: past its bound it is the value, and before it each lane is
old or new by a free value (R148). -/
def seeWrite (cycle free : Nat) (old : Vec) (p : PendRes) : Vec :=
  match p.value with
  | none => old
  | some n => Vector.ofFn fun j => if p.bound ≤ cycle || Config.laneNew (free + j.val) then n[j] else old[j]

/-- A v register as an instruction that issues now reads it (R148). -/
def readV (s : State) (c : CoreId) (r : VReg) : Vec × State :=
  let x := s.ctx c
  (x.pend.filter (·.dst == .v r)).foldl
    (fun (v, s) p => (seeWrite s.cycle s.free v p, { s with free := s.free + 64 })) (x.v[r], s)

/-- A source read at issue. -/
inductive SrcRes
  | ok (v : Vec) (s : State)
  | empty
  | poison
  deriving Inhabited

/-- Reads a source: a v register, or the oldest poppable entry of an iq (R133, R151, R235). The pop itself is
popQueues, made once for an iq that two fields name. -/
def readSrc (s : State) (c : CoreId) (a : VSrc) : SrcRes :=
  match a with
  | .v r => let (v, s) := readV s c r; .ok v s
  | .iq q =>
    match oldest (s.ctx c).iq[q] s.cycle with
    | none => .empty
    | some p => if p.poison then .poison else .ok p.data s

/-- The queues that source fields name, each once (R133). -/
def srcQueues (l : List VSrc) : List QNum :=
  (l.filterMap fun a => match a with
    | .iq q => some q
    | .v _ => none).eraseDups

/-- Pops one entry of each queue (R151). -/
def popQueues (x : Ctx) (l : List QNum) : Ctx :=
  l.foldl (fun (x : Ctx) (q : QNum) => { x with iq := x.iq.set q (x.iq[q].drop 1) }) x

/-- Whether a destination has room: a queue with four entries or reservations has none (R151). -/
def dstFull (x : Ctx) (d : VDst) : Bool :=
  match d with
  | .v _ => false
  | .oq q => 4 ≤ x.oq[q].length

/-- Reserves the place of a destination queue (R151). -/
def reserveDst (x : Ctx) (d : VDst) (id : Nat) : Ctx :=
  match d with
  | .v _ => x
  | .oq q => { x with oq := x.oq.set q (x.oq[q] ++ [newPlace id]) }

/-- The format table entry of an fsel, resolved at issue (R60). -/
def fmtEntry (x : Ctx) (fsel : Fin 32) : W64 :=
  if fsel.val = 31 then
    let ctr : Fin 4 := Fin.ofNat 4 (bitsOf x.ftb.toNat 5 2)
    x.fmt[Fin.ofNat 32 (bitsOf x.ftb.toNat 0 5 + x.lc[ctr].value.toNat)]
  else x.fmt[fsel]

/-- The dynamic rounding mode of FCTL (R51). -/
def fctlRm (x : Ctx) : Rm := (Rm.ofCode (bitsOf x.fctl.toNat 0 3)).getD .rne

/-- A rounding mode resolved at issue (R50, R51). -/
def resolveRm (x : Ctx) (rm : Rm) : Rm := if rm = .dyn then fctlRm x else rm

end Sys2Proof.Machine
end

