-- ==== Sys2Proof/Machine/Issue.lean ====
section
/-! DEFINITION. The issue of an instruction: what every meaning of an instruction shares. The checks of R136
order 6 and 7, the stamp (R157), the interlock (R148), the tokens (R144 to R146), the operands' own checks, then
the effect, the posts, the pc and the loops (R188). -/

namespace Sys2Proof.Machine

open Sys2Proof

/-- Where a stream goes after an instruction. -/
inductive PcUpd
  | seq
  | jump (t : W64)
  | past (t : W64)         -- not a branch, but the next word is at t: a loop with count 0 (R188)
  | stay
  deriving DecidableEq, Repr, Inhabited

/-- What an instruction knows at its issue: the number of its effect, and whether a stamp makes it wait for what it
is not ready for (R157). -/
structure Ix where
  id   : Nat
  must : Bool
  deriving DecidableEq, Repr, Inhabited

/-- What an instruction does at its turn. late says that its posts come with a later effect (R145);
waits, that it has issued and its wait is not satisfied; stall, that it does not issue for want of a place in a channel
(R161); turn, that it does not issue before its turn at a counter's bank (R36). -/
inductive Try
  | wait
  | fault (f : Flt)
  | go (s : State) (late : Bool) (pc : PcUpd)
  | waits (s : State)
  | stall (chan : Fin 8)
  | turn (idx : Nat)
  deriving Inhabited

/-- What an instruction needs to issue, and its effect. early says that one which waits makes its posts as it issues all the
same: its moment of R145 is its issue cycle. -/
structure Plan where
  regs  : List Nat := []
  takeP : Nat := 0
  takeN : Nat := 0
  postP : Nat := 0
  postN : Nat := 0
  pre   : Option Flt := none
  early : Bool := false
  body  : Ix → State → Try

/-! ## The pc and the loops (R188) -/

/-- The innermost active loop of a stream that ends at an address. -/
def loopAt (x : Ctx) (st : Stream) (e : W64) : Option (Fin 4) :=
  leastBy (fun i => x.serial + 1 - x.lc[i].serial)
    ((List.finRange 4).filter fun i => x.lc[i].active && x.lc[i].owner == st && x.lc[i].e == e)

/-- The loop-end test of an instruction whose last word is at e: innermost first (R188). -/
def loopEnd : Nat → Ctx → Stream → W64 → Ctx × Option W64
  | 0, x, _, _ => (x, none)
  | n + 1, x, st, e =>
    match loopAt x st e with
    | none => (x, none)
    | some i =>
      let l := x.lc[i]
      if l.value.toNat + 1 < l.count.toNat then
        ({ x with lc := x.lc.set i { l with value := l.value + 1 } }, some l.b)
      else loopEnd n { x with lc := x.lc.set i { l with value := l.count, active := false } } st e

/-- A taken branch out of a loop makes it inactive (R188). -/
def leaveLoops (x : Ctx) (st : Stream) (t : W64) : Ctx :=
  { x with lc := x.lc.map fun l =>
      if l.active && l.owner == st && !(l.b.toNat ≤ t.toNat && t.toNat ≤ l.e.toNat) then
        { l with active := false } else l }

/-- The pc after an instruction of n words. -/
def advance (x : Ctx) (st : Stream) (words : Nat) (p : PcUpd) : Ctx :=
  let q := x.strm st
  match p with
  | .stay => x
  | .jump t => (leaveLoops x st t).setStrm st { q with pc := t }
  | .past n =>
    let (x, t) := loopEnd 4 x st (q.pc + BitVec.ofNat 64 (4 * words) - 4)
    x.setStrm st { x.strm st with pc := t.getD n }
  | .seq =>
    let next := q.pc + BitVec.ofNat 64 (4 * words)
    let (x, t) := loopEnd 4 x st (next - 4)
    x.setStrm st { x.strm st with pc := t.getD next }

/-- Words of the executing instruction (R130). -/
def State.words (s : State) : Nat := if isLong s.fstr s.focus.word.toNat then 2 else 1

/-- A loop of the stream that ends on the first word of a long form: ILLEGAL_OP as that word issues (R188). -/
def loopSplits (s : State) : Bool :=
  let x := s.ctx s.fcore
  isLong s.fstr s.focus.word.toNat && (loopAt x s.fstr (x.strm s.fstr).pc).isSome

/-! ## The stamp (R157) -/

/-- A pending stamp against the frame. -/
inductive Gate
  | pass
  | early
  | missed
  | strictMiss
  deriving DecidableEq, Repr, Inhabited

/-- The stamp of a stream in this cycle (R157, R159): FREE ignores it; a frame that has not begun counts as before
k; after k + SLACK an ELASTIC frame counts one miss and a STRICT frame faults. -/
def gate (cycle : Nat) (x : Ctx) (q : StreamSt) : Gate :=
  match q.stamp with
  | none => .pass
  | some k =>
    if x.frmode = 0 then .pass
    else if x.fbegan = none ∨ frameCycle cycle x < k then .early
    else if frameCycle cycle x ≤ k + x.slack.toNat then .pass
    else if x.frmode = 2 then .strictMiss
    else if q.missed then .pass else .missed

/-- One schedule miss: SMISS saturates (R157, R158). -/
def countMiss (x : Ctx) (st : Stream) : Ctx :=
  { x with smiss := if x.smiss = -1 then x.smiss else x.smiss + 1 }.setStrm st { x.strm st with missed := true }

/-! ## Issue -/

/-- The stream can issue nothing: an instruction of it is held (R227), or is a KMRG in flight (R266). -/
def blocked (x : Ctx) (st : Stream) : Bool :=
  let q := x.strm st
  q.accs.any (·.stalls) || (st == .math && x.kmrg.isSome)

/-- The instruction passes everything that comes before its operands: nothing blocks its stream, its registers are
not interlocked and its tokens are there. -/
def canIssue (t : Tok) (p : Plan) (s : State) : Bool :=
  let x := s.ctx s.fcore
  !p.regs.any (x.strm s.fstr).busy.contains &&
    tokensThere x s.cycle s.fstr (t.wp.toNat + p.takeP) (t.wn.toNat + p.takeN)

/-- What the instruction knows at issue. -/
def ixOf (s : State) : Ix :=
  let x := s.ctx s.fcore
  ⟨x.serial + 1, (x.strm s.fstr).stamp.isSome && x.frmode != 0⟩

/-- The state its operands and effect see: its tokens are taken, its stamp is used and its effect has a number. -/
def enter (t : Tok) (p : Plan) (s : State) : State :=
  let x := s.ctx s.fcore
  let x := takeTokens { x with serial := x.serial + 1 } s.fstr (t.wp.toNat + p.takeP) (t.wn.toNat + p.takeN)
  s.setCtx s.fcore
    (x.setStrm s.fstr { x.strm s.fstr with stamp := none, missed := false, stalled := none, issuedAt := some s.cycle })

/-- Its posts and its pc, after its effect: places are reserved, and the posts made now unless they come later. -/
def commitIssue (t : Tok) (p : Plan) (s s' : State) (late : Bool) (pc : PcUpd) : State :=
  let x := reservePosts (s'.ctx s.fcore) s.fstr (ixOf s).id (t.pp.toNat + p.postP) (t.pn.toNat + p.postN)
  let x := if late then x else makePosts x s'.cycle s.fstr (ixOf s).id
  s'.setCtx s.fcore (advance x s.fstr s.words pc)

/-- It has issued and waits: its posts carry the number 0, and come with its completion, or now where the table of R145 has
them come with its issue. -/
def commitWait (t : Tok) (p : Plan) (s s' : State) : State :=
  let x := reservePosts (s'.ctx s.fcore) s.fstr 0 (t.pp.toNat + p.postP) (t.pn.toNat + p.postN)
  let x := if p.early then makePosts x s'.cycle s.fstr 0 else x
  s'.setCtx s.fcore (x.setStrm s.fstr
    { x.strm s.fstr with taken := true, words := (s.focus.word, s.focus.w2), took := (t.wp.toNat + p.takeP, t.wn.toNat + p.takeN) })

/-- Its posts would exceed a token queue (R145). -/
def postsOver (t : Tok) (p : Plan) (s : State) : Bool :=
  tokensOver (s.ctx s.fcore) s.fstr (t.pp.toNat + p.postP) (t.pn.toNat + p.postN)

/-- When an operation of a logical core's task on a counter reached the bank: now, or since it waits there (R36). -/
def bankArrival (s : State) (idx lcore : Nat) : Nat :=
  ((s.pubs.find? fun p => p.idx == idx && p.lcore == lcore).map (·.at_)).getD s.cycle

/-- The operation waits at the bank, where it keeps the cycle of its arrival (R36). -/
def queueAtBank (idx lcore : Nat) (s : State) : State :=
  { s with pubs := ⟨idx, lcore, bankArrival s idx lcore, s.cycle⟩ :: s.pubs.filter fun p => !(p.idx == idx && p.lcore == lcore) }

/-- The issue of an instruction whose stamp lets it pass (R144, R145, R148). A fault leaves the state as it was. -/
def issuePassed (t : Tok) (p : Plan) (s : State) : State :=
  if canIssue t p s then
    match p.body (ixOf s) (enter t p s) with
    | .wait => s
    | .stall k =>
      s.setCtx s.fcore ((s.ctx s.fcore).setStrm s.fstr { (s.ctx s.fcore).strm s.fstr with stalled := some k })
    | .turn idx => queueAtBank idx (s.ctx s.fcore).lcore.toNat s
    | .fault f => takeFault s f
    | .go s' late pc =>
      if postsOver t p s then takeFault s { code := cTokenOverflow } else commitIssue t p s s' late pc
    | .waits s' =>
      if postsOver t p s then takeFault s { code := cTokenOverflow } else commitWait t p s s'
  else s

/-- The issue of an instruction (R136 order 6 and 7, R157, R188). -/
def issue (t : Tok) (p : Plan) (s : State) : State :=
  let x := s.ctx s.fcore
  if blocked x s.fstr then s
  else if loopSplits s then takeFault s { code := cIllegalOp }
  else
    match p.pre with
    | some f => takeFault s f
    | none =>
      match gate s.cycle x (x.strm s.fstr) with
      | .early => s
      | .strictMiss => takeFault s { code := cScheduleMiss }
      | .missed => issuePassed t p (s.setCtx s.fcore (countMiss x s.fstr))
      | .pass => issuePassed t p s

/-- What a waiting instruction finds at its turn (R324). -/
inductive Waited
  | wait (s : State)
  | fault (f : Flt)
  | done (s : State) (pc : PcUpd)
  deriving Inhabited

/-- Withdraws the waiting instruction of a stream: the tokens it took return to their counts and its reserved places
are released (R324). Its posts carry the number 0; those that have been made stay made. -/
def withdraw (x : Ctx) (st : Stream) : Ctx :=
  let q := x.strm st
  if q.taken then
    let x := returnTokens (returnTokens x (waitQ st false) q.took.1) (waitQ st true) q.took.2
    let x := (x.modTok (postQ st false) (·.unreserve 0)).modTok (postQ st true) (·.unreserve 0)
    x.setStrm st { x.strm st with taken := false, took := (0, 0) }
  else x

/-- The turn of an instruction that may issue and then wait: it issues as any other does, taking its tokens and
reserving its places, and completes, posting them, when its wait is satisfied (R145, R324). start is made once, at
issue; ready is asked at every turn. -/
def issueWaiting (t : Tok) (p : Plan) (ready : State → Waited) (s : State) : State :=
  let c := s.fcore
  let st := s.fstr
  let finish (s : State) (pc : PcUpd) : State :=
    let x := s.ctx c
    let x := makePosts (x.setStrm st { x.strm st with taken := false, took := (0, 0) }) s.cycle st 0
    s.setCtx c (advance x st s.words pc)
  if ((s.ctx c).strm st).taken then
    match ready s with
    | .wait s => s
    | .fault f => takeFault (s.setCtx c (withdraw (s.ctx c) st)) f
    | .done s pc => finish s pc
  else
    let body : Ix → State → Try := fun ix s0 =>
      match p.body ix s0 with
      | .go s1 _ _ =>
        match ready s1 with
        | .fault f => .fault f
        | .done s2 pc => .go s2 false pc
        | .wait s2 => .waits s2
      | r => r
    issue t { p with body := body } s

/-- The plan of an instruction: the registers it reads or writes under interlock, and what it does. -/
def planOf (regs : List Nat) (body : Ix → State → Try) : Plan := { regs := regs, body := body }

/-- The plan of an instruction with no operand check: its effect on the state. -/
def plain (regs : List Nat) (f : State → State) : Plan := { regs := regs, body := fun _ s => .go (f s) false .seq }

/-- The access is still to be performed. -/
def Access.open_ (a : Access) : Bool := a.units != [] || a.heldAt.isSome

/-- The accesses of the stream, and those it has acquired, that are still to be performed (R314). -/
def releasePending (x : Ctx) (st : Stream) : Bool :=
  (x.strm st).accs.any (·.open_) ||
  [Stream.ctl, .load, .math, .store].any fun p =>
    (x.strm p).accs.any fun a => a.open_ && a.id < (x.strm st).acq[p.idx]

/-! ## Parties and scopes (R310) -/

/-- A party of this device: a sequencer or an op of a logical core, the ALU of a logical bank, the commit logic of a
partition, a host (R310). -/
inductive Agent
  | task (part lcore : Nat)
  | bank (part b : Nat)
  | commit (part : Nat)
  | host
  deriving DecidableEq, Repr, Inhabited

/-- The parties of a scope, named from a logical core of a partition (R310). -/
def scopeHas (sc : Scope) (part lcore : Nat) (who : Agent) : Bool :=
  match sc, who with
  | .gang, _ => true
  | .device, .host => true
  | .device, .task p _ | .device, .bank p _ | .device, .commit p => p == part
  | .die, .task p l => p == part && l / 160 == lcore / 160
  | .die, .bank p b => p == part && b / 128 == lcore / 160
  | .cluster, .task p l => p == part && l / 8 == lcore / 8
  | .core, .task p l => p == part && l == lcore
  | _, _ => false

/-- An order at the scope is one for every party of the device: a sequencer's own accesses are ordered by gang scope as by
device scope (R313). -/
def wideScope (sc : Scope) : Bool := sc == .device || sc == .gang

/-- The parties to which performing a unit of a stream's access shows what it touches: a bank ALU performs LOFT operations
and AMOs in the Loft, and an AMO gives its sequencer the value it has read (R183, R218, R310). -/
def unitAgents (r : Rights) (k : AccKind) (u : AUnit) : List Agent :=
  let bank : Agent := .bank r.part (loftBank (u.key % 2 ^ 28))
  match k with
  | .loft _ _ => [bank]
  | .amo _ _ _ _ _ _ _ _ => if isLoftKey u.key then [bank, .task r.part r.lcore] else [.task r.part r.lcore]
  | _ => [.task r.part r.lcore]

/-! ## What an access follows (R312 to R314) -/

/-- Two lists of units touch a common byte. -/
def unitsMeet (l m : List AUnit) : Bool := l.any fun u => m.any fun v => overlaps u.key u.len v.key v.len

/-- What an access touches: its units, and the source of a LOFT. -/
def Access.touches (a : Access) : List AUnit := a.units ++ a.all

/-- The access that was overtaken is still to be performed. -/
def Debt.live (s : State) (d : Debt) : Bool :=
  ((s.ctx d.core).strm d.stream).accs.any fun a => a.id == d.id && a.open_

/-- A party may touch bytes: none of them shows it that an access of another sequencer has been overtaken in a scope it
belongs to (R313, R314). -/
def debtsLet (s : State) (who : Agent) (c : CoreId) (st : Stream) (us : List AUnit) : Bool :=
  s.debts.all fun d =>
    (d.core == c && d.stream == st) || !d.live s || !scopeHas d.scope d.part d.lcore who || !unitsMeet d.units us

/-- The ops of a logical core may begin a unit: no access has been overtaken in a scope they belong to (R313, R314). -/
def debtsLetOp (s : State) (part lcore : Nat) : Bool :=
  s.debts.all fun d => !d.live s || !scopeHas d.scope d.part d.lcore (.task part lcore)

/-- The executing instruction reads or writes bytes at its issue and is to be ordered after an access that is still to be
performed: one that touches a byte of them, one it follows by an acquire, or one that was overtaken (R312 to R314). -/
def mustFollow (s : State) (us : List AUnit) : Bool :=
  let x := s.ctx s.fcore
  let q := x.strm s.fstr
  let r := rightsOf s s.fcore
  q.accs.any (fun a => a.open_ && (unitsMeet us a.touches || q.behind.any fun b => b.id == a.id && wideScope b.scope)) ||
  ([Stream.ctl, .load, .math, .store].any fun p => (x.strm p).accs.any fun a => a.open_ && a.id < q.acq[p.idx]) ||
  !debtsLet s (.task r.part r.lcore) s.fcore s.fstr us

/-- The same, of n bytes at an address of the task's own scratchpad. -/
def mustFollowAt (s : State) (a : W64) (n : Nat) : Bool :=
  match placeOf a.toNat with
  | some (.own off) => mustFollow s [⟨spadKey s.fcore.val off, n, 0⟩]
  | _ => false

/-- The base whose carries an address is checked for: in a load or store stream the register it starts from; the control
stream names only the sum, and has no such rule (R178, R182, R212, R230). -/
def spillBase (s : State) (base va : W64) : W64 := if s.fstr = .ctl then va else base

/-- An instruction that reads bytes of its scratchpad as it issues waits for the accesses that this read follows (R312,
R314). -/
def following (addr : Ctx → W64) (n : Nat) (p : Plan) : Plan :=
  { p with body := fun ix s => if mustFollowAt s (addr (s.ctx s.fcore)) n then .wait else p.body ix s }

/-- A sequencer that releases everything waits until its accesses are performed (R39, R194, R198, R203, R206;
notes/assumptions/6.md). -/
def releasing (p : Plan) : Plan :=
  { p with body := fun ix s => if releasePending (s.ctx s.fcore) s.fstr then .wait else p.body ix s }

end Sys2Proof.Machine
end

