-- ==== Sys2Proof/Machine/Num.lean ====
section
/-! DEFINITION. The numbers of 03_numbers.md: formats, exact values, rounding, conversions, and the exact
functions of R256. A finite value is an integer times a power of two, so every sum and product is exact and
each rounding step is one call of roundVal. -/

namespace Sys2Proof.Machine

open Sys2Proof

/-! ## Formats -/

/-- A floating-point format (R43). -/
structure Format where
  ebits : Nat
  mbits : Nat
  bias  : Nat
  wide  : Bool             -- FP32, BF16, FP16: infinities, NaNs, −0 (R44)
  fp8   : Bool             -- 0x80 is the NaN and there is no −0 (R45)
  deriving DecidableEq, Repr, Inhabited

def fmtF32 : Format := ⟨8, 23, 127, true, false⟩
def fmtBF16 : Format := ⟨8, 7, 127, true, false⟩
def fmtF16 : Format := ⟨5, 10, 15, true, false⟩
def fmtFP8e4 : Format := ⟨4, 3, 8, false, true⟩
def fmtFP8e5 : Format := ⟨5, 2, 16, false, true⟩
def fmtFP6e3 : Format := ⟨3, 2, 4, false, false⟩
def fmtFP6e2 : Format := ⟨2, 3, 2, false, false⟩
def fmtFP4 : Format := ⟨2, 1, 2, false, false⟩

/-- The floating-point format of a code (R43); none for an integer code (R47). -/
def formatOf : Nat → Option Format
  | 0 => some fmtF32
  | 1 => some fmtBF16
  | 2 => some fmtF16
  | 3 => some fmtFP8e4
  | 4 => some fmtFP8e5
  | 5 => some fmtFP6e3
  | 6 => some fmtFP6e2
  | 7 => some fmtFP4
  | _ => none

/-- Bits of an element of a format code; TERN5 has none of its own (R43, R47). -/
def elemBits : Nat → Nat
  | 0 => 32
  | 1 => 16
  | 2 => 16
  | 3 => 8
  | 4 => 8
  | 5 => 6
  | 6 => 6
  | 7 => 4
  | 8 => 8
  | 9 => 8
  | 10 => 4
  | 11 => 8
  | 12 => 32
  | _ => 0

/-- Bits of a code of the format. -/
def Format.width (f : Format) : Nat := 1 + f.ebits + f.mbits

/-- The exponent of the last place of a subnormal: 1 − bias − M (R43). -/
def Format.qmin (f : Format) : Int := 1 - (f.bias : Int) - f.mbits

/-- The largest exponent field of a finite value (R43). -/
def Format.emax (f : Format) : Nat := if f.wide then 2 ^ f.ebits - 2 else 2 ^ f.ebits - 1

/-- The code of the largest finite magnitude. -/
def Format.maxCode (f : Format) : Nat := f.emax * 2 ^ f.mbits + (2 ^ f.mbits - 1)

/-- The sign bit. -/
def Format.signBit (f : Format) : Nat := 2 ^ (f.ebits + f.mbits)

/-- The code of +∞ in a wide format. -/
def Format.infCode (f : Format) : Nat := (2 ^ f.ebits - 1) * 2 ^ f.mbits

/-- The canonical NaN (R44). -/
def Format.nanCode (f : Format) : Nat := f.infCode + 2 ^ (f.mbits - 1)

/-! ## Exact values -/

/-- A value: NaN, an infinity, or (−1)^neg · m · 2^e. -/
inductive Val
  | nan
  | inf (neg : Bool)
  | fin (neg : Bool) (m : Nat) (e : Int)
  deriving DecidableEq, Repr, Inhabited

/-- The value of a code (R43 to R46). -/
def unpack (f : Format) (w : Nat) : Val :=
  let m := w % 2 ^ f.mbits
  let e := w / 2 ^ f.mbits % 2 ^ f.ebits
  let neg := w / f.signBit % 2 == 1
  if f.wide && e == 2 ^ f.ebits - 1 then (if m == 0 then .inf neg else .nan)
  else if f.fp8 && neg && e == 0 && m == 0 then .nan
  else if e == 0 then .fin neg m f.qmin
  else .fin neg (m + 2 ^ f.mbits) (f.qmin + (e - 1))

/-- FZI: a subnormal becomes a zero of its sign; an FP8 zero is always +0 (R45, R57). -/
def flushIn (f : Format) (fzi : Bool) (v : Val) : Val :=
  match v with
  | .fin neg m e => if fzi && m < 2 ^ f.mbits then .fin (neg && !f.fp8) 0 e else .fin neg m e
  | v => v

/-- Bits that a number needs; 0 for 0. -/
def bitLen (m : Nat) : Nat := if m = 0 then 0 else Nat.log2 m + 1

/-- Whether rounding adds one to the truncated magnitude hi, the remainder being rem2 of 2·half. -/
def roundsUp (rm : Rm) (neg : Bool) (hi rem2 half : Nat) : Bool :=
  match rm with
  | .rne | .dyn => half < rem2 || (rem2 == half && hi % 2 == 1)
  | .rtz => false
  | .rdn => neg && rem2 != 0
  | .rup => !neg && rem2 != 0
  | .rna => half ≤ rem2

/-- A magnitude rounded to multiples of 2^q, and whether that was inexact. sticky says that the exact magnitude
lies strictly above m · 2^e, by less than 2^e. -/
def roundAt (rm : Rm) (neg : Bool) (m : Nat) (e : Int) (sticky : Bool) (q : Int) : Nat × Bool :=
  let m4 := if sticky then m * 4 + 1 else m * 4
  let e4 := e - 2
  if q ≤ e4 then (m4 * 2 ^ (e4 - q).toNat, false)
  else
    let d := (q - e4).toNat
    let hi := m4 / 2 ^ d
    let rem2 := m4 % 2 ^ d * 2
    (if roundsUp rm neg hi rem2 (2 ^ d) then hi + 1 else hi, rem2 != 0)

/-- Rounds a nonzero magnitude to the format, no overflow considered: (multiple, exponent, inexact, tiny).
Tininess is detected before rounding (R50). -/
def roundMag (f : Format) (rm : Rm) (neg : Bool) (m : Nat) (e : Int) (sticky : Bool) : Nat × Int × Bool × Bool :=
  let top : Int := bitLen m + e
  let q := max f.qmin (top - (f.mbits + 1))
  let r := roundAt rm neg m e sticky q
  (r.1, q, r.2, top ≤ 1 - (f.bias : Int))

/-- The code of the magnitude h · 2^q, on the format's grid and within its range. -/
def packMag (f : Format) (h : Nat) (q : Int) : Nat :=
  if h < 2 ^ f.mbits then h
  else if h < 2 ^ (f.mbits + 1) then ((q - f.qmin).toNat + 1) * 2 ^ f.mbits + (h - 2 ^ f.mbits)
  else ((q - f.qmin).toNat + 2) * 2 ^ f.mbits

/-- A magnitude code with its sign; an FP8 zero is +0 (R45). -/
def withSign (f : Format) (neg : Bool) (c : Nat) : Nat :=
  if neg && !(f.fp8 && c == 0) then f.signBit + c else c

/-- The overflowed result (R54, R55). -/
def overflowCode (f : Format) (rm : Rm) (neg sat : Bool) : Nat :=
  if f.wide && !sat then
    match rm with
    | .rtz => f.maxCode
    | .rdn => if neg then f.infCode else f.maxCode
    | .rup => if neg then f.maxCode else f.infCode
    | _ => f.infCode
  else f.maxCode

/-- FZO on a code (R57). -/
def flushOut (f : Format) (fzo : Bool) (c : Nat) : Nat × Flags :=
  if fzo && c % f.signBit != 0 && c % f.signBit < 2 ^ f.mbits then
    (withSign f (f.signBit ≤ c) 0, flushFlags)
  else (c, fNone)

/-- A rounding step: an exact value to a code, with its flags (R50, R54, R55, R57). -/
def roundVal (f : Format) (rm : Rm) (fzo sat : Bool) (v : Val) (sticky : Bool := false) : Nat × Flags :=
  match v with
  | .nan =>
    if f.wide then (f.nanCode, fNone)
    else if f.fp8 then (f.signBit, fNone)
    else (f.signBit + f.maxCode, fNV)
  | .inf neg =>
    if f.wide && !sat then (withSign f neg f.infCode, fNone)
    else if f.wide then (withSign f neg f.maxCode, fOF)
    else (withSign f neg f.maxCode, overflowFlags)
  | .fin neg m e =>
    if m = 0 ∧ sticky = false then (withSign f neg 0, fNone)
    else
      let (h, q, inexact, tiny) := roundMag f rm neg m e sticky
      let c := packMag f h q
      if f.maxCode < c then (withSign f neg (overflowCode f rm neg sat), overflowFlags)
      else
        let (c', fl) := flushOut f fzo (withSign f neg c)
        (c', roundFlags tiny inexact ||| fl)

/-! ## Exact arithmetic -/

/-- Whether a value is negative, a NaN not. -/
def Val.isNeg : Val → Bool
  | .nan => false
  | .inf n => n
  | .fin n _ _ => n

/-- −x. -/
def Val.neg : Val → Val
  | .nan => .nan
  | .inf n => .inf (!n)
  | .fin n m e => .fin (!n) m e

/-- The value as an integer multiple of 2^q, where q is at most its exponent. -/
def Val.scaled (q : Int) : Val → Int
  | .fin n m e => let k : Int := (m * 2 ^ (e - q).toNat : Nat); if n then -k else k
  | _ => 0

/-- The exponent of a finite value; a zero has none of its own. -/
def Val.expo : Val → Option Int
  | .fin _ m e => if m = 0 then none else some e
  | _ => none

/-- An integer times 2^q as a value; zero as given. -/
def ofScaled (i q : Int) (zneg : Bool) : Val :=
  if i = 0 then .fin zneg 0 0 else .fin (i < 0) i.natAbs q

/-- x · y, exactly; the flag says 0 × ∞ (R44). -/
def mulVal (x y : Val) : Val × Bool :=
  match x, y with
  | .nan, _ => (.nan, false)
  | _, .nan => (.nan, false)
  | .inf a, .inf b => (.inf (a != b), false)
  | .inf a, .fin b m _ => if m = 0 then (.nan, true) else (.inf (a != b), false)
  | .fin a m _, .inf b => if m = 0 then (.nan, true) else (.inf (a != b), false)
  | .fin a m e, .fin b n k => (.fin (a != b) (m * n) (e + k), false)

/-- The least exponent of the nonzero finite terms. -/
def minExpo : List Val → Option Int
  | [] => none
  | v :: vs =>
    match v.expo, minExpo vs with
    | none, r => r
    | some e, none => some e
    | some e, some k => some (min e k)

/-- The exact sum of terms, with the sign of a zero by R50; the flag says ∞ − ∞ (R44, R62). -/
def sumVals (rm : Rm) (l : List Val) : Val × Bool :=
  if l.contains .nan then (.nan, l.contains (.inf false) && l.contains (.inf true))
  else if l.contains (.inf false) && l.contains (.inf true) then (.nan, true)
  else if l.contains (.inf false) then (.inf false, false)
  else if l.contains (.inf true) then (.inf true, false)
  else
    match minExpo l with
    | none =>
      let neg := if l.all (·.isNeg) then true else if l.all (!·.isNeg) then false else rm == .rdn
      (.fin neg 0 0, false)
    | some q => (ofScaled ((l.map (Val.scaled q)).sum) q (rm == .rdn), false)

/-- Order of two values that are not NaN: −1, 0 or 1, with −0 equal to +0. -/
def cmpVal (x y : Val) : Int :=
  match x, y with
  | .inf a, .inf b => if a = b then 0 else if a then -1 else 1
  | .inf a, _ => if a then -1 else 1
  | _, .inf b => if b then 1 else -1
  | x, y =>
    match minExpo [x, y] with
    | none => 0
    | some q =>
      let i := if x.expo = none then 0 else x.scaled q
      let j := if y.expo = none then 0 else y.scaled q
      if i < j then -1 else if j < i then 1 else 0

/-- x is below y, with −0 below +0 (R255). -/
def belowVal (x y : Val) : Bool :=
  let c := cmpVal x y
  c < 0 || (c == 0 && x.isNeg && !y.isNeg)

/-- An integer as a value. -/
def Val.ofInt (i : Int) : Val := ofScaled i 0 false

/-! ## FP32 steps -/

/-- The value of an FP32 word. -/
def f32 (w : W32) : Val := unpack fmtF32 w.toNat

/-- round_fp32, with the flush of fzo. -/
def roundF32 (rm : Rm) (fzo : Bool) (v : Val) : W32 × Flags :=
  let r := roundVal fmtF32 rm fzo false v
  (BitVec.ofNat 32 r.1, r.2)

/-- round(x + y) in FP32. -/
def addF32 (rm : Rm) (fzo : Bool) (x y : W32) : W32 × Flags :=
  let s := sumVals rm [f32 x, f32 y]
  let r := roundF32 rm fzo s.1
  (r.1, r.2 ||| invalidFlags s.2)

/-- round(x × y) in FP32. -/
def mulF32 (rm : Rm) (fzo : Bool) (x y : W32) : W32 × Flags :=
  let s := mulVal (f32 x) (f32 y)
  let r := roundF32 rm fzo s.1
  (r.1, r.2 ||| invalidFlags s.2)

/-- The lesser (or greater) operand by R255: a NaN operand gives the canonical NaN, and no flag is set. -/
def minMaxCode (f : Format) (fzi big : Bool) (x y : Nat) : Nat :=
  let vx := flushIn f fzi (unpack f x)
  let vy := flushIn f fzi (unpack f y)
  match vx, vy with
  | .nan, _ => f.nanCode
  | _, .nan => f.nanCode
  | vx, vy =>
    let takeY := if big then belowVal vx vy else belowVal vy vx
    (roundVal f .rne false false (if takeY then vy else vx)).1

/-- FMIN and FMAX on FP32 words, with no flush (R183, R218, R246). -/
def minMaxF32 (big : Bool) (x y : W32) : W32 := BitVec.ofNat 32 (minMaxCode fmtF32 false big x.toNat y.toNat)

/-! ## Conversions with integers (R56) -/

/-- A value rounded to an integer, and whether that was inexact. -/
def roundInt (rm : Rm) : Val → Int × Bool
  | .fin neg m e =>
    let r := roundAt rm neg m e false 0
    (if neg then -(r.1 : Int) else r.1, r.2)
  | _ => (0, false)

/-- Float to an integer of the range lo to hi (R56). -/
def toIntSat (rm : Rm) (lo hi : Int) (v : Val) : Int × Flags :=
  match v with
  | .nan => (0, fNV)
  | .inf neg => (if neg then lo else hi, fNV)
  | v =>
    let (i, inexact) := roundInt rm v
    if i < lo then (lo, fNV) else if hi < i then (hi, fNV) else (i, toIntFlags false inexact)

/-- An integer saturated to a range, with IOV (R56). -/
def satInt (lo hi i : Int) : Int × Flags :=
  if i < lo then (lo, satFlags true) else if hi < i then (hi, satFlags true) else (i, fNone)

/-! ## The functions of R256 and the square root -/

/-- The integer square root, one bit of the root at a time. -/
def isqrtBits : Nat → Nat → Nat → Nat
  | 0, _, r => r
  | b + 1, n, r => if (r + 2 ^ b) * (r + 2 ^ b) ≤ n then isqrtBits b n (r + 2 ^ b) else isqrtBits b n r

/-- The integer square root. -/
def isqrt (n : Nat) : Nat := isqrtBits (bitLen n / 2 + 1) n 0

/-- A magnitude truncated to 17 significant bits, and whether that lost anything (R256). -/
def trunc17 (m : Nat) (e : Int) (sticky : Bool) : Nat × Int × Bool :=
  let l := bitLen m
  if l ≤ 17 then (m, e, sticky)
  else
    let d := l - 17
    (m / 2 ^ d, e + d, sticky || m % 2 ^ d != 0)

/-- The result of R256 from y as m · 2^e with a sticky rest: y′ is rounded to the format, and NX is set when y
differs from the result, UF when it is also tiny. -/
def finish17 (f : Format) (rm : Rm) (fzo : Bool) (neg : Bool) (m : Nat) (e : Int) (sticky : Bool) : Nat × Flags :=
  let (h, q, lost) := trunc17 m e sticky
  let r := roundVal f rm fzo false (.fin neg h q)
  if lost then
    let tiny : Bool := (bitLen h : Int) + q ≤ 1 - (f.bias : Int)
    (r.1, r.2 ||| roundFlags tiny true)
  else r

/-- 1/x (R256). -/
def rcpCode (f : Format) (rm : Rm) (fzo : Bool) (v : Val) : Nat × Flags :=
  match v with
  | .nan => (f.nanCode, fNone)
  | .inf neg => (withSign f neg 0, fNone)
  | .fin neg m e =>
    if m = 0 then (withSign f neg f.infCode, fNone)
    else
      let k := bitLen m + 20
      finish17 f rm fzo neg (2 ^ k / m) (-e - k) (2 ^ k % m != 0)

/-- 1/√x (R256). -/
def rsqCode (f : Format) (rm : Rm) (fzo : Bool) (v : Val) : Nat × Flags :=
  match v with
  | .nan => (f.nanCode, fNone)
  | .inf neg => if neg then (f.nanCode, fNV) else (0, fNone)
  | .fin neg m e =>
    if m = 0 then (withSign f neg f.infCode, fNone)
    else if neg then (f.nanCode, fNV)
    else
      let m' := if e % 2 = 0 then m else 2 * m
      let e' := if e % 2 = 0 then e else e - 1
      let k := bitLen m' + 20
      let r := isqrt (2 ^ (2 * k) / m')
      finish17 f rm fzo false r (-(e' / 2) - k) (r * r * m' != 2 ^ (2 * k))

/-- √x, correctly rounded (R254). -/
def sqrtCode (f : Format) (rm : Rm) (fzo : Bool) (v : Val) : Nat × Flags :=
  match v with
  | .nan => (f.nanCode, fNone)
  | .inf neg => if neg then (f.nanCode, fNV) else (f.infCode, fNone)
  | .fin neg m e =>
    if m = 0 then (withSign f neg 0, fNone)
    else if neg then (f.nanCode, fNV)
    else
      let m' := if e % 2 = 0 then m else 2 * m
      let e' := if e % 2 = 0 then e else e - 1
      let n := m' * 2 ^ 60
      let r := isqrt n
      roundVal f rm fzo false (.fin false r (e' / 2 - 30)) (r * r != n)

/-- Bits of the fixed-point numbers of the exponential and the logarithm. A finite input has at most 24 significant
bits above 2^-149, so its exact result differs from every 17-bit number by far more than 2^-320. -/
def fxBits : Nat := 360

/-- 2^fxBits. -/
def fxOne : Nat := 2 ^ fxBits

/-- The sum of w^(2k+1)/(2k+1), w and the sum being fixed-point: the inverse hyperbolic tangent of w. -/
def atanhFx : Nat → Nat → Nat → Nat → Nat
  | 0, _, _, _ => 0
  | n + 1, k, p, w2 => p / (2 * k + 1) + atanhFx n (k + 1) (p * w2 / fxOne) w2

/-- ln 2 = 2 · atanh(1/3). -/
def ln2Fx : Nat := 2 * atanhFx 120 0 (fxOne / 3) (fxOne / 9)

/-- The sum of t^k/k! from k on, p being the k-th term. -/
def expFx : Nat → Nat → Nat → Nat → Nat
  | 0, _, _, _ => 0
  | n + 1, k, p, t => p + expFx n (k + 1) (p * t / fxOne / (k + 1)) t

/-- 2^x (R256). An integer x is exact; any other has an irrational result. Beyond ±1,024 the result lies beyond
every format, so the bound stands for it. -/
def exp2Code (f : Format) (rm : Rm) (fzo : Bool) (v : Val) : Nat × Flags :=
  match v with
  | .nan => (f.nanCode, fNone)
  | .inf neg => if neg then (0, fNone) else (f.infCode, fNone)
  | .fin neg m e =>
    if m = 0 then roundVal f rm fzo false (.fin false 1 0)
    else if 10 < (bitLen m : Int) + e then
      finish17 f rm fzo false 1 (if neg then -1024 else 1024) true
    else
      let x : Int := if fxBits + e < 0 then 0 else m * (2 ^ (fxBits + e).toNat : Nat)
      let x := if neg then -x else x
      let n := x / (fxOne : Int)
      let fr := (x % (fxOne : Int)).toNat
      if fr = 0 then finish17 f rm fzo false 1 n false
      else finish17 f rm fzo false (expFx 90 0 fxOne (fr * ln2Fx / fxOne)) (n - fxBits) true

/-- log2 x (R256). A power of two is exact; any other has an irrational result. -/
def log2Code (f : Format) (rm : Rm) (fzo : Bool) (v : Val) : Nat × Flags :=
  match v with
  | .nan => (f.nanCode, fNone)
  | .inf neg => if neg then (f.nanCode, fNV) else (f.infCode, fNone)
  | .fin neg m e =>
    if m = 0 then (withSign f true f.infCode, fNone)
    else if neg then (f.nanCode, fNV)
    else
      let l := bitLen m - 1
      let n : Int := l + e
      if m = 2 ^ l then roundVal f rm fzo false (Val.ofInt n)
      else
        let w := (m - 2 ^ l) * fxOne / (m + 2 ^ l)
        let frac := 2 * atanhFx 130 0 w (w * w / fxOne) * fxOne / ln2Fx
        let y : Int := n * fxOne + frac
        finish17 f rm fzo (y < 0) y.natAbs (-(fxBits : Int)) true

end Sys2Proof.Machine
end

