-- ==== Sys2Proof/Machine/Scalar.lean ====
section
/-! DEFINITION. NOP, STAMP, UDF and the token count instructions (R135, R147, R156), and the integer
instructions of the control, load and store streams (R179 to R181, R231, R232). -/

namespace Sys2Proof.Machine

open Sys2Proof

/-- Changes the registers of the executing core's task. -/
def onCtx (f : Ctx → Ctx) (s : State) : State := s.setCtx s.fcore (f (s.ctx s.fcore))

/-- Changes the executing stream. -/
def onStrm (f : StreamSt → StreamSt) (s : State) : State :=
  onCtx (fun x => x.setStrm s.fstr (f (x.strm s.fstr))) s

/-! ## All streams -/

/-- NOP does nothing but honour its token bits (R135). -/
def execNop (t : Tok) (s : State) : Out := .next (issue t (plain [] id) s)

/-- STAMP: the next instruction of the stream issues at frame cycle k (R156). -/
def execStamp (t : Tok) (k : Fin 4194304) (s : State) : Out :=
  .next (issue t (plain [] (onStrm fun q => { q with stamp := some k.val })) s)

/-- UDF raises ILLEGAL_OP at once; its token bits are ignored (R128, R136 order 2). -/
def execUdf (_t : Tok) (_v : Fin 4194304) (s : State) : Out := .next (takeFault s { code := cIllegalOp })

/-- TOKW takes N tokens of a neighbour (R147). -/
def tokw (t : Tok) (next : Bool) (n : Fin 64) (s : State) : State :=
  issue t { plain [] id with takeP := if next then 0 else n.val, takeN := if next then n.val else 0 } s

/-- TOKP posts N tokens to a neighbour (R147). -/
def tokp (t : Tok) (next : Bool) (n : Fin 64) (s : State) : State :=
  issue t { plain [] id with postP := if next then 0 else n.val, postN := if next then n.val else 0 } s

def execTokwControl (t : Tok) (next : Bool) (n : Fin 64) (s : State) : Out := .next (tokw t next n s)
def execTokpControl (t : Tok) (next : Bool) (n : Fin 64) (s : State) : Out := .next (tokp t next n s)
def execTokwLoadStore (t : Tok) (next : Bool) (n : Fin 64) (s : State) : Out := .next (tokw t next n s)
def execTokpLoadStore (t : Tok) (next : Bool) (n : Fin 64) (s : State) : Out := .next (tokp t next n s)
def execTokwMath (t : Tok) (next : Bool) (n : Fin 64) (s : State) : Out := .next (tokw t next n s)
def execTokpMath (t : Tok) (next : Bool) (n : Fin 64) (s : State) : Out := .next (tokp t next n s)

/-! ## The control stream's integers -/

/-- 1 or 0. -/
def bool64 (b : Bool) : W64 := if b then 1 else 0

/-- The functions of ALU (R179). -/
def aluFn (f : AluOp) (a b : W64) : W64 :=
  match f with
  | .add => a + b
  | .sub => a - b
  | .and => a &&& b
  | .or => a ||| b
  | .xor => a ^^^ b
  | .andn => a &&& ~~~b
  | .shl => a <<< (b.toNat % 64)
  | .shr => a >>> (b.toNat % 64)
  | .sar => a.sshiftRight (b.toNat % 64)
  | .slt => bool64 (a.slt b)
  | .sltu => bool64 (a.ult b)
  | .min => if b.slt a then b else a
  | .max => if a.slt b then b else a
  | .minu => if b.ult a then b else a
  | .maxu => if a.ult b then b else a
  | .mul => a * b
  | .mulh => BitVec.ofInt 64 (a.toInt * b.toInt / 2 ^ 64)
  | .mulhu => BitVec.ofNat 64 (a.toNat * b.toNat / 2 ^ 64)
  | .div => if b = 0 then -1 else a.sdiv b
  | .divu => if b = 0 then -1 else a / b
  | .rem => if b = 0 then a else a.srem b
  | .remu => if b = 0 then a else a % b
  | .clz => BitVec.ofNat 64 (64 - bitLen a.toNat)
  | .popc => BitVec.ofNat 64 ((List.range 64).countP fun i => a.getLsbD i)

/-- A control-stream instruction that writes gD from gA and gB. -/
def gPlan (d : GReg) (srcs : List GReg) (f : Ctx → W64) : Plan :=
  plain (d.val :: srcs.map (·.val)) (onCtx fun x => x.setG d (f x))

/-- ALU (R179). -/
def execAlu (t : Tok) (f : AluOp) (d a b : GReg) (s : State) : Out :=
  .next (issue t (gPlan d [a, b] fun x => aluFn f (x.gr a) (x.gr b)) s)

/-- ADDI (R180). -/
def execAddi (t : Tok) (d a : GReg) (i : Fin 4096) (s : State) : Out :=
  .next (issue t (gPlan d [a] fun x => x.gr a + imm12 i) s)

/-- ANDI (R180). -/
def execAndi (t : Tok) (d a : GReg) (i : Fin 4096) (s : State) : Out :=
  .next (issue t (gPlan d [a] fun x => x.gr a &&& imm12 i) s)

/-- ORI (R180). -/
def execOri (t : Tok) (d a : GReg) (i : Fin 4096) (s : State) : Out :=
  .next (issue t (gPlan d [a] fun x => x.gr a ||| imm12 i) s)

/-- XORI (R180). -/
def execXori (t : Tok) (d a : GReg) (i : Fin 4096) (s : State) : Out :=
  .next (issue t (gPlan d [a] fun x => x.gr a ^^^ imm12 i) s)

/-- The forms of SHI (R180). -/
def shiftFn (f : ShiftOp) (a : W64) (n : Fin 64) : W64 :=
  match f with
  | .shl => a <<< n.val
  | .shr => a >>> n.val
  | .sar => a.sshiftRight n.val
  | .ror => a.rotateRight n.val

/-- SHI (R180). -/
def execShi (t : Tok) (f : ShiftOp) (d a : GReg) (n : Fin 64) (s : State) : Out :=
  .next (issue t (gPlan d [a] fun x => shiftFn f (x.gr a) n) s)

/-- SLTI (R180). -/
def execSlti (t : Tok) (d a : GReg) (i : Fin 4096) (s : State) : Out :=
  .next (issue t (gPlan d [a] fun x => bool64 ((x.gr a).slt (imm12 i))) s)

/-- SLTIU (R180). -/
def execSltiu (t : Tok) (d a : GReg) (i : Fin 4096) (s : State) : Out :=
  .next (issue t (gPlan d [a] fun x => bool64 ((x.gr a).ult (imm12 i))) s)

/-- The value of SETW and ASET (R181, R232). -/
def setFn (f : SetForm) (old : W64) (w2 : W32) : W64 :=
  match f with
  | .signed => w2.signExtend 64
  | .zero => w2.setWidth 64
  | .high => (w2.setWidth 64 <<< 32) ||| (old &&& 0xFFFFFFFF)

/-- SETW (R181). -/
def execSetw (t : Tok) (f : SetForm) (d : GReg) (w2 : W32) (s : State) : Out :=
  .next (issue t (gPlan d [d] fun x => setFn f (x.gr d) w2) s)

/-! ## The integers of the load and store streams -/

/-- The functions of AALU (R231). -/
def aaluFn (f : AaluOp) (a b : W64) : W64 :=
  match f with
  | .add => a + b
  | .sub => a - b
  | .and => a &&& b
  | .or => a ||| b
  | .shl => a <<< (b.toNat % 64)
  | .shr => a >>> (b.toNat % 64)
  | .mul => a * b

/-- A load- or store-stream instruction that writes aD from a registers. -/
def aPlan (st : Stream) (d : AReg) (srcs : List AReg) (f : Ctx → W64) : Plan :=
  plain (d.val :: srcs.map (·.val)) (onCtx fun x => x.setA st d (f x))

/-- AALU (R231). -/
def execAalu (t : Tok) (f : AaluOp) (d a b : AReg) (s : State) : Out :=
  .next (issue t (aPlan s.fstr d [a, b] fun x => aaluFn f (x.ar s.fstr a) (x.ar s.fstr b)) s)

/-- AADDI (R232). -/
def execAaddi (t : Tok) (d a : AReg) (i : Fin 4096) (s : State) : Out :=
  .next (issue t (aPlan s.fstr d [a] fun x => x.ar s.fstr a + imm12 i) s)

/-- ASET (R232). -/
def execAset (t : Tok) (f : SetForm) (d : AReg) (w2 : W32) (s : State) : Out :=
  .next (issue t (aPlan s.fstr d [d] fun x => setFn f (x.ar s.fstr d) w2) s)

end Sys2Proof.Machine
end

