-- ==== Sys2Proof/Machine/Access.lean ====
section
/-! DEFINITION. Accesses that are not ops: scalar loads and stores, AMO, FENCE, the queue moves and LOFT, and the
events that perform them (R182 to R184, R218, R227, R229, R233, R235, R236, R243, R249, R311 to R313). An access is
checked and translated at issue, and its units are performed one by one by ACCESS_PERFORMED. -/

namespace Sys2Proof.Machine

open Sys2Proof

/-! ## Issuing an access -/

/-- Whether an access reads, and whether it writes (R184). -/
def AccKind.reads : AccKind → Bool
  | .load _ _ _ | .amo _ _ _ _ _ _ _ _ | .fill _ _ => true
  | _ => false
def AccKind.writes : AccKind → Bool
  | .store | .amo _ _ _ _ _ _ _ _ | .drain _ | .loft _ _ | .orec _ _ => true
  | _ => false

/-- An access of the executing stream, not yet performed. -/
def mkAccess (s : State) (id : Nat) (kind : AccKind) (cls : Cls) (units : List AUnit) (data : List Byte)
    (va : W64) : Access :=
  let q := (s.ctx s.fcore).strm s.fstr
  { id := id, kind := kind, cls := cls, units := units, all := units, data := data, va := va, pc := q.pc,
    size := s.words, heldAt := none, stalls := false, word := s.focus.word, w2 := s.focus.w2, took := (0, 0),
    poison := false, posts := (false, false), acq := q.acq
    after := q.behind.filter fun b => b.mask.getLsbD cls.val && (!b.writes || kind.writes) }

/-- Adds an access to the executing stream. -/
def addAccess (a : Access) (s : State) : State := onStrm (fun q => { q with accs := q.accs ++ [a] }) s

/-- A register of the executing stream whose write is still to come (R148). g0 has none. -/
def markBusy (r : Nat) (s : State) : State :=
  if s.fstr = .ctl ∧ r = 0 then s else onStrm (fun q => { q with busy := r :: q.busy }) s

/-- The pieces of a held access: their virtual addresses stand in the place of keys (R227). -/
def heldUnits (l : List Piece) : List AUnit := l.map fun p => ⟨p.va, p.len, p.off⟩

/-- Holds an access under WB (R227): it performs nothing, and its tokens come with its release. Its stream stands at it
and issues nothing more until it is performed. -/
def hold (t : Tok) (s : State) (a : Access) (l : List Piece) : State :=
  addAccess { a with units := [], all := heldUnits l, heldAt := some s.cycle, stalls := true, took := (t.wp.toNat, t.wn.toNat),
                     posts := (t.pp, t.pn) } s

/-- The fault of a scalar address: alignment, then the tag (R178, R230). For the control stream base is the address itself
(spillBase). -/
def addrFault (base a : W64) (n : Nat) : Option Flt :=
  if !aligned a n then some { code := cAlign, addr := a }
  else if addrSpills base a || (placeOf a.toNat).isNone then some { code := cSpace, addr := a }
  else none

/-- A poisoned word among the bytes of an access faults as it issues (R229). Where an access of the stream is still to be
performed, or one that it has acquired, the word may yet be written whole: the instruction waits for it (R312, R314). -/
def checkFault (s : State) (code : Nat) (va : W64) : Try :=
  if code = cMemUe ∧ releasePending (s.ctx s.fcore) s.fstr = true then .wait else .fault { code := code, addr := va }

/-- A scalar load of n bytes into register d of the executing stream (R182, R233). -/
def issueLoad (t : Tok) (n : Nat) (signed : Bool) (d a : Nat) (c : Cls) (base addr : Ctx → W64) (s : State) : State :=
  issue t (planOf [d, a] fun ix s =>
    let x := s.ctx s.fcore
    let va := addr x
    match addrFault (spillBase s (base x) va) va n with
    | some f => .fault f
    | none =>
      match checkPieces s.fcore (rightsOf s s.fcore) false true true s [⟨va.toNat, n, 0⟩] [] none false with
      | (_, .fault e v) => checkFault s e (BitVec.ofNat 64 v)
      | (s, .held) => .go s false .seq
      | (s, .ok us) =>
        .go (addAccess (mkAccess s ix.id (.load d n signed) c us (List.replicate n 0) va) (markBusy d s)) true .seq) s

/-- LD: sign-extended (R182). -/
def execLd (t : Tok) (sz : Size) (d a : GReg) (c : Cls) (o : Fin 64) (s : State) : Out :=
  .next (issueLoad t (sizeBytes sz) true d.val a.val c (·.gr a) (fun x => memAddr (x.gr a) o sz) s)

/-- LDU: zero-extended (R182). -/
def execLdu (t : Tok) (sz : Size) (d a : GReg) (c : Cls) (o : Fin 64) (s : State) : Out :=
  .next (issueLoad t (sizeBytes sz) false d.val a.val c (·.gr a) (fun x => memAddr (x.gr a) o sz) s)

/-- ALD: zero-extended into an a register (R233). -/
def execAld (t : Tok) (sz : Size) (d a : AReg) (c : Cls) (o : Fin 64) (s : State) : Out :=
  .next (issueLoad t (sizeBytes sz) false d.val a.val c (·.ar s.fstr a)
    (fun x => memAddr (x.ar s.fstr a) o sz) s)

/-- ST (R182). The memory pipeline accepts a store as it issues (notes/assumptions/7.md), unless it is held. -/
def execSt (t : Tok) (sz : Size) (a b : GReg) (c : Cls) (o : Fin 64) (s : State) : Out :=
  .next (issue t (planOf [a.val, b.val] fun ix s =>
    let x := s.ctx s.fcore
    let n := sizeBytes sz
    let va := memAddr (x.gr a) o sz
    let l : List Piece := [⟨va.toNat, n, 0⟩]
    match addrFault va va n with
    | some f => .fault f
    | none =>
      match checkPieces s.fcore (rightsOf s s.fcore) true true true s l [] none false with
      | (_, .fault e v) => checkFault s e (BitVec.ofNat 64 v)
      | (s, .held) => .go (hold t s (mkAccess s ix.id .store c [] (toBytes n (x.gr b).toNat) va) l) true .stay
      | (s, .ok us) => .go (addAccess (mkAccess s ix.id .store c us (toBytes n (x.gr b).toNat) va) s) false .seq) s)

/-! ## AMO -/

/-- The new value of an AMO at a location of n bytes, and the flags of amofadd (R183). -/
def amoFn (op : AmoOp) (n old y cmp : Nat) : Nat × Flags :=
  let m := 2 ^ (8 * n)
  let y := y % m
  let so := signedOf (8 * n) old
  let sy := signedOf (8 * n) y
  match op with
  | .add => ((old + y) % m, fNone)
  | .and => (old &&& y, fNone)
  | .or => (old ||| y, fNone)
  | .xor => (old ^^^ y, fNone)
  | .min => (if sy < so then y else old, fNone)
  | .max => (if so < sy then y else old, fNone)
  | .minu => (min old y, fNone)
  | .maxu => (max old y, fNone)
  | .xchg => (y, fNone)
  | .cas => (if old = cmp % m then y else old, fNone)
  | .fadd => let r := addF32 .rne false (BitVec.ofNat 32 old) (BitVec.ofNat 32 y); (r.1.toNat, r.2)
  | .fmin => ((minMaxF32 false (BitVec.ofNat 32 old) (BitVec.ofNat 32 y)).toNat, fNone)
  | .fmax => ((minMaxF32 true (BitVec.ofNat 32 old) (BitVec.ofNat 32 y)).toNat, fNone)

/-- The old value as a register receives it: sign-extended, but for amominu, amomaxu and the FP forms (R183). -/
def amoOld (op : AmoOp) (n old : Nat) : W64 :=
  if op = .minu ∨ op = .maxu ∨ op.isFp = true then BitVec.ofNat 64 old else sext64 (8 * n) old

/-- The accesses of a stream that are still to be performed and pass a test, as later ones follow them at a scope. -/
def openBehind (sc : Scope) (writes : Bool) (f : Access → Bool) (q : StreamSt) : List Behind :=
  (q.accs.filter fun a => a.open_ && f a).map fun a => ⟨a.id, sc, writes, -1⟩

/-- AMO (R183, R314). amocas writes gB when the old value equals gC. One that releases follows the earlier accesses of its
sequencer at its scope; later accesses follow one that acquires, for every party (R312). -/
def execAmo (t : Tok) (op : AmoOp) (d a b cmp : GReg) (sz : Size) (c : Cls) (sc : Scope) (ord : AmoOrder)
    (s : State) : Out :=
  .next (issue t (planOf [d.val, a.val, b.val, cmp.val] fun ix s =>
    let x := s.ctx s.fcore
    let n := sizeBytes sz
    let va := x.gr a
    let rel := ord = .rel ∨ ord = .ar
    let acq := ord = .acq ∨ ord = .ar
    let kind : AccKind := .amo d.val op n (x.gr b) (x.gr cmp) rel acq sc
    let l : List Piece := [⟨va.toNat, n, 0⟩]
    match addrFault va va n with
    | some f => .fault f
    | none =>
      match checkPieces s.fcore (rightsOf s s.fcore) true true true s l [] none false with
      | (_, .fault e v) => checkFault s e (BitVec.ofNat 64 v)
      | (s, r) =>
        let m : Access := mkAccess s ix.id kind c [] (List.replicate n 0) va
        let m : Access := if rel then { m with after := m.after ++ openBehind sc false (fun _ => true) (x.strm s.fstr) } else m
        let s' := match r with
          | .ok us => if us.any fun u => s.poisoned u.key u.len then s
              else addAccess { m with units := us, all := us } (markBusy d.val s)
          | _ => hold t (markBusy d.val s) m l
        let bad := match r with
          | .ok us => us.any fun u => s.poisoned u.key u.len
          | _ => false
        let pc := if r == .held then PcUpd.stay else .seq
        if bad then checkFault s cMemUe va
        else if acq then .go (onStrm (fun q => { q with behind := q.behind ++ [⟨ix.id, .device, false, -1⟩] }) s') true pc
        else .go s' true pc) s)

/-! ## FENCE -/

/-- A FENCE covers an earlier access: of its earlier type, in its mask (R184). -/
def fenceCovers (k : FenceKind) (m : BitVec 16) (a : Access) : Bool :=
  a.open_ && m.getLsbD a.cls.val &&
  match k with
  | .full | .rel => true
  | .acq => a.kind.reads
  | .ss => a.kind.writes

/-- What later accesses follow after a FENCE that completes before its covered accesses are performed for every party. -/
def fenceBehind (k : FenceKind) (sc : Scope) (m : BitVec 16) (q : StreamSt) : List Behind :=
  (openBehind sc (k == .rel || k == .ss) (fenceCovers k m) q).map fun b => { b with mask := m }

/-- FENCE: the stream issues nothing more until every covered access is performed (R184, R249, R313). One at a scope within
the device may complete sooner, as the free value says: later accesses of its mask then follow the covered ones for the
parties of the scope only (notes/assumptions/92.md). -/
def fence (t : Tok) (k : FenceKind) (sc : Scope) (m : BitVec 16) (s : State) : State :=
  issueWaiting t (plain [] id)
    (fun s =>
      if !((s.ctx s.fcore).strm s.fstr).accs.any (fenceCovers k m) then .done s .seq
      else if wideScope sc then .wait s
      else if Config.mayAct s.free then
        .done (onStrm (fun q => { q with behind := q.behind ++ fenceBehind k sc m q }) { s with free := s.free + 1 }) .seq
      else .wait { s with free := s.free + 1 }) s

def execFenceControl (t : Tok) (k : FenceKind) (sc : Scope) (m : BitVec 16) (s : State) : Out :=
  .next (fence t k sc m s)
def execFenceLoadStore (t : Tok) (k : FenceKind) (sc : Scope) (m : BitVec 16) (s : State) : Out :=
  .next (fence t k sc m s)

/-! ## Queue moves -/

/-- The aligned 16-byte units of 256 bytes (R311). -/
def entryPieces (va : Nat) : List Piece := cutAligned 16 17 va 256 0

/-- P bytes of each piece code (R236). -/
def pieceBytes (p : Fin 6) : Nat := 4 * 2 ^ p.val

/-- The pieces of RDQS and WRQS: piece k at base + k × stride, each cut at 16 bytes (R236). -/
def stridedPieces (base stride : W64) (p : Nat) : List Piece :=
  (((List.range (256 / p)).map fun k =>
    (cutAligned 16 (p + 1) (base + BitVec.ofNat 64 k * stride).toNat p 0).map fun q =>
      { q with off := q.off + k * p })).flatten

/-- A queue move into iq q: the place is reserved at issue, and the entry lands later (R151, R235). -/
def queueFill (q : QNum) (c : Cls) (va : W64) (l : List Piece) (bad : Option Flt) (ix : Ix) (s : State) : Try :=
  match bad with
  | some f => .fault f
  | none =>
    match checkPieces s.fcore (rightsOf s s.fcore) false false true s l [] none false with
    | (_, .fault e v) => .fault { code := e, addr := BitVec.ofNat 64 v }
    | (_, .held) => .wait
    | (s, .ok us) =>
      if 4 ≤ (s.ctx s.fcore).iq[q].length then (if ix.must then .wait else .fault { code := cQueueOverflow })
      else
        .go (addAccess (mkAccess s ix.id (.fill q ix.id) c us (List.replicate 256 0) va)
          (onCtx (fun x => { x with iq := x.iq.set q (x.iq[q] ++ [newPlace ix.id]) }) s)) true .seq

/-- A queue move out of oq q: the entry is popped at issue, and the store path holds it (R151, R235). -/
def queueDrain (t : Tok) (q : QNum) (c : Cls) (va : W64) (l : List Piece) (bad : Option Flt) (ix : Ix) (s : State) :
    Try :=
  match bad with
  | some f => .fault f
  | none =>
    match checkPieces s.fcore (rightsOf s s.fcore) true true true s l [] none false with
    | (_, .fault e v) => checkFault s e (BitVec.ofNat 64 v)
    | (s, r) =>
      match oldest (s.ctx s.fcore).oq[q] s.cycle with
      | none => if ix.must then .wait else .fault { code := cQueueUnderflow }
      | some p =>
        let s := onCtx (fun x => { x with oq := x.oq.set q (x.oq[q].drop 1) }) s
        let a := mkAccess s ix.id (.drain q) c [] (vecBytes p.data) va
        match r with
        | .ok us => .go (addAccess { a with units := us, all := us } s) false .seq
        | _ => .go (hold t s a l) true .stay

/-- The address checks of RDQ and WRQ (R235). -/
def entryFault (base va : W64) : Option Flt := addrFault base va 16

/-- The address checks of RDQS and WRQS: both registers multiples of P; tags piece by piece (R236). -/
def stridedFault (base stride : W64) (p : Nat) : Option Flt :=
  if !aligned base p || !aligned stride p then some { code := cAlign, addr := base } else none

/-- RDQ (R235). -/
def execRdq (t : Tok) (q : QNum) (a : AReg) (c : Cls) (o : Fin 256) (s : State) : Out :=
  .next (issue t (planOf [a.val] fun ix s =>
    let base := (s.ctx s.fcore).ar s.fstr a
    let va := entryAddr base o.val
    queueFill q c va (entryPieces va.toNat) (entryFault base va) ix s) s)

/-- RDQS (R236). -/
def execRdqs (t : Tok) (q : QNum) (a b : AReg) (c : Cls) (p : Fin 6) (s : State) : Out :=
  .next (issue t (planOf [a.val, b.val] fun ix s =>
    let base := (s.ctx s.fcore).ar s.fstr a
    let stride := (s.ctx s.fcore).ar s.fstr b
    queueFill q c base (stridedPieces base stride (pieceBytes p)) (stridedFault base stride (pieceBytes p)) ix s) s)

/-- WRQ (R235). -/
def execWrq (t : Tok) (q : QNum) (a : AReg) (c : Cls) (o : Fin 256) (s : State) : Out :=
  .next (issue t (planOf [a.val] fun ix s =>
    let base := (s.ctx s.fcore).ar s.fstr a
    let va := entryAddr base o.val
    queueDrain t q c va (entryPieces va.toNat) (entryFault base va) ix s) s)

/-- WRQS (R236). -/
def execWrqs (t : Tok) (q : QNum) (a b : AReg) (c : Cls) (p : Fin 6) (s : State) : Out :=
  .next (issue t (planOf [a.val, b.val] fun ix s =>
    let base := (s.ctx s.fcore).ar s.fstr a
    let stride := (s.ctx s.fcore).ar s.fstr b
    queueDrain t q c base (stridedPieces base stride (pieceBytes p)) (stridedFault base stride (pieceBytes p)) ix s)
    s)

/-- ENTRY_LAND: the data of an RDQ-class or RLD entry lands in its iq, and its token is posted (R145, R151). -/
def execEntryLand (c : CoreId) (q : QNum) (s : State) : Out :=
  let x := s.ctx c
  let z := x.strm .load
  match takeFirst (fun a => !a.open_ && match a.kind with
      | .fill q' _ => q' == q
      | _ => false) z.accs with
  | none => .next s
  | some (a, rest) =>
    let place := match a.kind with
      | .fill _ p => p
      | _ => 0
    let x := { x with iq := x.iq.set q (landPlace x.iq[q] place s.cycle (vecOfBytes a.data) a.poison) }
    let x := x.setStrm .load { x.strm .load with accs := rest }
    .next (s.setCtx c (makePosts x s.cycle .load a.id))

/-! ## LOFT -/

/-- A bank-ALU operation on an element (R218). -/
def loftFn (op : LoftOp) (factor : W32) (x : W32) (src : List Byte) : W32 :=
  let y : W32 := BitVec.ofNat 32 (ofBytes src)
  match op with
  | .acc => (addF32 .rne false x y).1
  | .accb => (addF32 .rne false x (y <<< 16)).1
  | .max => minMaxF32 true x y
  | .min => minMaxF32 false x y
  | .scale => (mulF32 .rne false x factor).1
  | .zero => 0

/-- Bytes of source per element (R243). -/
def loftSrc : LoftOp → Nat
  | .acc | .max | .min => 4
  | .accb => 2
  | .scale | .zero => 0

/-- The keys of n elements of sz bytes from an address in one space, by the units of a check. -/
def elemUnits (key sz n : Nat) : List AUnit := (List.range n).map fun j => ⟨key + sz * j, sz, 4 * j⟩

/-- One element of a LOFT, in memory. -/
def loftElem (op : LoftOp) (factor : W32) (m : Memory) (at_ src : Nat) : Memory :=
  m.writeL at_ (toBytes 4 (loftFn op factor (BitVec.ofNat 32 (m.num at_ 4)) (m.readN src (loftSrc op))).toNat)

/-- The first key of units, or 0. -/
def firstKey (us : List AUnit) : Nat :=
  match us with
  | [] => 0
  | u :: _ => u.key

/-- LOFT (R218, R243). The Loft range, then the source, are checked at issue. A poisoned element raises MEM_UE at the
LOFT as it is performed, with the elements before it updated: the stream stands at a LOFT that has one (DEDUCED,
notes/assumptions/112.md). -/
def loft (t : Tok) (op : LoftOp) (d a b : AReg) (c : Cls) (s : State) : State :=
  let regs := if loftSrc op = 0 ∧ op ≠ .scale then [d.val, b.val] else [d.val, a.val, b.val]
  issue t (planOf regs fun ix s =>
    let x := s.ctx s.fcore
    let st := s.fstr
    let dst := x.ar st d
    let n := (x.ar st b).toNat
    let src := x.ar st a
    let r := rightsOf s s.fcore
    if !aligned dst 16 then .fault { code := cAlign, addr := dst }
    else if loftSrc op != 0 && !aligned src 16 then .fault { code := cAlign, addr := src }
    else if tagOf dst != 3 || (placeOf dst.toNat).isNone then .fault { code := cSpace, addr := dst }
    else if loftSrc op != 0 && (tagOf src != 1 && tagOf src != 2 || (placeOf src.toNat).isNone) then
      .fault { code := cSpace, addr := src }
    else if n % 16 != 0 || n < 16 || 1048576 < n then .fault { code := cRecord, addr := dst }
    else if 2 ^ 28 < dst.toNat % 2 ^ 28 + n || s.inAlias r.part (dst.toNat % 2 ^ 28) n then .fault { code := cSpace, addr := dst }
    else
      let ne := n / 4
      let key := loftKey r.part (dst.toNat % 2 ^ 28)
      let sb := loftSrc op * ne
      let chk : State × Checked :=
        if sb = 0 then (s, .ok [])
        else checkPieces s.fcore r false true true s [⟨src.toNat, sb, 0⟩] [] none false
      match chk with
      | (_, .fault e v) => checkFault s e (BitVec.ofNat 64 v)
      | (_, .held) => .wait
      | (s, .ok us) =>
        let srcKey := firstKey us
        let factor : W32 := src.setWidth 32
        let bad := s.poisoned key n
        let m := mkAccess s ix.id (.loft op factor) c (elemUnits key 4 ne) [] dst
        let m := { m with all := elemUnits srcKey (loftSrc op) (if sb = 0 then 0 else ne), stalls := bad
                          took := if bad then (t.wp.toNat, t.wn.toNat) else (0, 0) }
        .go (addAccess m s) true (if bad then .stay else .seq)) s

def execLoftAcc (t : Tok) (d a b : AReg) (c : Cls) (s : State) : Out := .next (loft t .acc d a b c s)
def execLoftAccb (t : Tok) (d a b : AReg) (c : Cls) (s : State) : Out := .next (loft t .accb d a b c s)
def execLoftMax (t : Tok) (d a b : AReg) (c : Cls) (s : State) : Out := .next (loft t .max d a b c s)
def execLoftMin (t : Tok) (d a b : AReg) (c : Cls) (s : State) : Out := .next (loft t .min d a b c s)
def execLoftScale (t : Tok) (d a b : AReg) (c : Cls) (s : State) : Out := .next (loft t .scale d a b c s)
def execLoftZero (t : Tok) (d b : AReg) (c : Cls) (s : State) : Out := .next (loft t .zero d d b c s)

/-! ## Performing an access (R311, R312) -/

/-- An earlier access of the same stream must be performed first: same class, a common byte, an acquire between, or an
order for every party (R312 to R314). -/
def before (a b : Access) (own : Nat) : Bool :=
  b.open_ && (b.cls == a.cls || unitsMeet a.touches b.touches || b.id < own ||
    a.after.any fun e => e.id == b.id && wideScope e.scope)

/-- An access may be performed, with the earlier ones of its stream: every access ordered before it has been (R312, R314). -/
def follows (x : Ctx) (st : Stream) (earlier : List Access) (a : Access) : Bool :=
  !earlier.any (fun b => before a b a.acq[st.idx]) &&
  [Stream.ctl, .load, .math, .store].all fun p =>
    p == st || !((x.strm p).accs.any fun b => b.open_ && b.id < a.acq[p.idx])

/-- The i-th access of a stream may be performed. -/
def mayPerform (x : Ctx) (st : Stream) (i : Nat) (a : Access) : Bool := follows x st ((x.strm st).accs.take i) a

/-- The orders at a narrower scope that performing the i-th access breaks for parties outside it (R313, R314). -/
def overtaken (x : Ctx) (st : Stream) (i : Nat) (a : Access) : List Behind :=
  a.after.filter fun e => !wideScope e.scope && ((x.strm st).accs.take i).any fun b => b.id == e.id && b.open_

/-- What a unit of an access touches: with it, the source of a LOFT element. -/
def unitTouches (a : Access) (u : AUnit) : List AUnit :=
  match a.kind with
  | .loft _ _ => u :: a.all.filter (·.off == u.off)
  | _ => [u]

/-- No order at a scope keeps a unit of the i-th access of a stream from its parties (R313, R314). -/
def debtsLetUnit (s : State) (c : CoreId) (st : Stream) (a : Access) (u : AUnit) : Bool :=
  (unitAgents (rightsOf s c) a.kind u).all fun who => debtsLet s who c st (unitTouches a u)

/-- An access that has been overtaken could be performed at once: everything ordered before it has been, and no order of
another sequencer stands in its way. -/
def couldPerform (s : State) (c : CoreId) (st : Stream) (b : Access) : Bool :=
  let q := (s.ctx c).strm st
  b.units != [] && follows (s.ctx c) st (q.accs.takeWhile (·.id != b.id)) b && b.units.all (debtsLetUnit s c st b)

/-- The access that a debt waits for. -/
def Debt.access (s : State) (d : Debt) : Option Access :=
  ((s.ctx d.core).strm d.stream).accs.find? fun a => a.id == d.id && a.open_

/-- An access may overtake: those that it overtakes could be performed themselves, and what it touches keeps no party from an
access that another sequencer has overtaken; so a party that must not see it waits for a moment that comes. -/
def mayOvertake (s : State) (c : CoreId) (st : Stream) (i : Nat) (a : Access) (u : AUnit) : Bool :=
  let q := (s.ctx c).strm st
  let r := rightsOf s c
  let l := overtaken (s.ctx c) st i a
  let meets (d : Debt) (b : Access) (e : Behind) : Bool :=
    b.units.any fun v => unitsMeet (unitTouches b v) (unitTouches a u) &&
      (unitAgents (rightsOf s d.core) b.kind v).any (scopeHas e.scope r.part r.lcore)
  l.isEmpty || (q.accs.all (fun b => !(l.any fun e => e.id == b.id) || couldPerform s c st b) &&
    s.debts.all fun d => (d.core == c && d.stream == st) || match d.access s with
      | some b => !l.any (meets d b)
      | none => true)

/-- The accesses that a unit overtakes, and what it touched (R313, R314). -/
def newDebts (s : State) (c : CoreId) (st : Stream) (i : Nat) (a : Access) (u : AUnit) : List Debt :=
  let r := rightsOf s c
  (overtaken (s.ctx c) st i a).map fun e => ⟨c, st, e.id, r.part, r.lcore, e.scope, unitTouches a u⟩

/-- A unit of an access that its stream stands at meets poison as it is performed (R227, R229, R243). The poison of a queue entry
travels with it instead (R235); and no other access that has issued meets any: a word is marked once the accesses under way
have touched it (settleWord). -/
def unitUe (s : State) (a : Access) (u : AUnit) : Bool :=
  match a.kind with
  | .load _ _ _ => s.poisoned (s.readKey u.key) u.len
  | .store | .drain _ | .orec _ _ => s.partPoison u.key u.len
  | .amo _ _ _ _ _ _ _ _ | .loft _ _ => (unitTouches a u).any fun v => s.poisoned v.key v.len
  | .fill _ _ | .note => false

/-- The scopes let the i-th access of a stream perform a unit (R313, R314). -/
def scopesLet (s : State) (c : CoreId) (st : Stream) (i : Nat) (a : Access) (u : AUnit) : Bool :=
  mayOvertake s c st i a u && debtsLetUnit s c st a u

/-- A faulting or withdrawn access of a stream leaves nothing behind: its places are released and its register is free. Where
the stream stands at it, its tokens are back in their counts and its queue entry is at the head of its oq (R227, R324). -/
def withdrawHeld (c : CoreId) (st : Stream) (a : Access) (s : State) : State :=
  let x := s.ctx c
  let x := returnTokens (returnTokens x (waitQ st false) a.took.1) (waitQ st true) a.took.2
  let x := (x.modTok (postQ st false) (·.unreserve a.id)).modTok (postQ st true) (·.unreserve a.id)
  let x := match a.kind with
    | .drain q => if a.stalls then { x with oq := x.oq.set q (⟨0, vecOfBytes a.data, false, some 0⟩ :: x.oq[q]) } else x
    | _ => x
  let q := x.strm st
  let busy := match a.kind with
    | .amo d _ _ _ _ _ _ _ | .load d _ _ => q.busy.erase d
    | _ => q.busy
  s.setCtx c (x.setStrm st { q with accs := q.accs.filter (·.id != a.id), busy := busy })

/-- An access faults at its instruction, at which its stream stands: precisely (R227, R229, R243). -/
def heldFault (c : CoreId) (st : Stream) (a : Access) (code : Nat) (addr : W64) (s : State) : State :=
  let f : FaultInfo :=
    { code := code, stream := st, src := 0, lost := false, stale := false, walk := false, skip := false, late := false,
      pc := a.pc, word := a.word, w2 := a.w2, addr := addr, optok := 0, widx := 0, course := s.course, at_ := s.cycle }
  raiseAt (withdrawHeld c st a s) c f

/-- The address of a unit of an access that meets poison. The pieces of a strided store are named by its base. -/
def ueAddr (a : Access) (u : AUnit) : W64 :=
  match a.kind with
  | .drain _ => a.va
  | _ => a.va + BitVec.ofNat 64 u.off

/-- The value a load writes to its register. -/
def loadValue (size : Nat) (signed : Bool) (bs : List Byte) : W64 :=
  if signed then sext64 (8 * size) (ofBytes bs) else BitVec.ofNat 64 (ofBytes bs)

/-- Ends an access: a load, an AMO or a held OREC writes its register and ends its interlock, a fill waits to land, the posts
are made, and the stream of one that was held goes on (R145, R148, R227). -/
def endAccess (c : CoreId) (st : Stream) (a : Access) (s : State) : State :=
  let x := if a.stalls then advance (s.ctx c) st a.size .seq else s.ctx c
  let q := x.strm st
  let gone := { q with accs := q.accs.filter (·.id != a.id), behind := q.behind.filter (·.id != a.id) }
  match a.kind with
  | .fill _ _ => s.setCtx c x
  | .load d n sg =>
    let x := (x.setStrm st { gone with busy := gone.busy.erase d }).setReg st d (loadValue n sg a.data)
    s.setCtx c (makePosts x s.cycle st a.id)
  | .amo d op n _ _ _ _ _ =>
    let x := (x.setStrm st { gone with busy := gone.busy.erase d }).setReg st d (amoOld op n (ofBytes a.data))
    s.setCtx c (makePosts x s.cycle st a.id)
  | .orec d v => s.setCtx c (makePosts ((x.setStrm st gone).setG d v) s.cycle st a.id)
  | _ => s.setCtx c (makePosts (x.setStrm st gone) s.cycle st a.id)

/-- Performs one unit of an access: the access as it then stands, and the state (R311). -/
def performUnit (c : CoreId) (u : AUnit) (a : Access) (s : State) : Access × State :=
  let a' := { a with units := a.units.drop 1 }
  match a.kind with
  | .load _ _ _ => ({ a' with data := overlay a.data u.off (s.load u.key u.len) }, s)
  | .fill _ _ =>
    ({ a' with data := overlay a.data u.off (s.load u.key u.len), poison := a.poison || s.poisoned (s.readKey u.key) u.len }, s)
  | .store | .drain _ | .orec _ _ => (a', s.store u.key ((a.data.drop u.off).take u.len))
  | .amo _ op n y cmp _ _ _ =>
    let old := s.mem.num u.key n
    let r := amoFn op n old y.toNat cmp.toNat
    let s := s.store u.key (toBytes n r.1)
    ({ a' with data := toBytes n old }, s.setCtx c ((s.ctx c).flag r.2))
  | .loft op factor =>
    let src := match a.all.find? (·.off == u.off) with
      | some v => v.key
      | none => 0
    (a', { s with mem := loftElem op factor s.mem u.key src })
  | .note => (a', s)

/-- The task on a core has executed a TYLD that cuts it in this cycle: its control stream has passed it, and no fault of another
stream is raised before the cut any more (R197, R336). -/
def yieldedNow (s : State) (c : CoreId) : Bool :=
  match (s.core c).run with
  | .cutting slot at_ => at_ == s.cycle && (s.findTask slot).any fun t => t.forced && t.fault.isNone
  | _ => false

/-- The turn of the i-th access of a stream: it performs one unit, when everything ordered before it has been performed, and
ends with its last (R145, R311, R312). One that meets poison after its task has yielded in this cycle is withdrawn with the cut. -/
def accessTurn (c : CoreId) (st : Stream) (i : Nat) (s : State) : State :=
  let x := s.ctx c
  let q := x.strm st
  match q.accs[i]? with
  | none => s
  | some a =>
    match a.units with
    | [] => s
    | u :: _ =>
      if mayPerform x st i a && scopesLet s c st i a u then
        if a.stalls && unitUe s a u then (if yieldedNow s c then s else heldFault c st a cMemUe (ueAddr a u) s)
        else
          let l := newDebts s c st i a u
          let (a', s) := performUnit c u a s
          let s := { s with debts := s.debts ++ l }
          let s := s.setCtx c ((s.ctx c).setStrm st { (s.ctx c).strm st with
            accs := updWhere (·.id == a.id) (fun _ => a') ((s.ctx c).strm st).accs })
          if a'.units = [] then endAccess c st a' s else s
      else s

/-- ACCESS_PERFORMED. -/
def execAccessPerformed (c : CoreId) (st : Stream) (i : Nat) (s : State) : Out := .next (accessTurn c st i s)

/-! ## Marking a word as poisoned (R229) -/

/-- The streams of a core. -/
def allStreams : List Stream := [.ctl, .load, .math, .store]

/-- The accesses under way: translated, not held, and not yet performed, each by its place in its stream. -/
def underWay (s : State) : List (CoreId × Stream × Nat × Access) :=
  (List.finRange 640).flatMap fun c => allStreams.flatMap fun st =>
    let l := ((s.ctx c).strm st).accs
    ((List.range l.length).zip l).filterMap fun p => if p.2.units = [] then none else some (c, st, p.1, p.2)

/-- An access under way touches the aligned 8-byte word at a key. Its stream does not stand at it: one that it stands at finds
the poison, precisely. -/
def touchesWord (w : Nat) (e : CoreId × Stream × Nat × Access) : Bool :=
  !e.2.2.2.stalls && e.2.2.2.units.any fun u => unitsMeet (unitTouches e.2.2.2 u) [⟨w, 8, 0⟩]

/-- The first access under way that may perform a unit. -/
def firstUnderWay (s : State) : Option (CoreId × Stream × Nat) :=
  ((underWay s).find? fun e => !e.2.2.2.stalls && mayPerform (s.ctx e.1) e.2.1 e.2.2.1 e.2.2.2 &&
    e.2.2.2.units.head?.any (scopesLet s e.1 e.2.1 e.2.2.1 e.2.2.2)).map fun e => (e.1, e.2.1, e.2.2.1)

/-- Performs accesses under way, in the order that stands between them, until none touches a word. -/
def settleWord (w : Nat) : Nat → State → State
  | 0, s => s
  | n + 1, s =>
    if !(underWay s).any (touchesWord w) then s
    else
      match firstUnderWay s with
      | none => s
      | some (c, st, i) => settleWord w n (accessTurn c st i s)

/-- How many units the accesses under way have left. -/
def unitsLeft (s : State) : Nat := ((underWay s).map fun e => e.2.2.2.units.length).sum

end Sys2Proof.Machine
end

