-- ==== Sys2Proof/Machine/SysRegs.lean ====
section
/-! DEFINITION. The system registers and the instructions SYSR and SYSW (R189 to R191, with R21, R22, R29, R31,
R42, R51, R52, R60, R95, R154, R158, R165, R286). -/

namespace Sys2Proof.Machine

open Sys2Proof

/-- Fields packed from bit 0 up: (bits, value). -/
def packFields : List (Nat × Nat) → Nat
  | [] => 0
  | (n, v) :: r => v % 2 ^ n + 2 ^ n * packFields r

/-- The mapping of a partition is one-to-one (R16). -/
def Part.oneToOne (p : Part) : Bool := p.map.length == 80 && p.banks == 512

/-- SHARE: the logical cores mapped to a physical core (R13, R21). -/
def Part.share (p : Part) (c : CoreId) : Nat :=
  (List.range 80).countP fun k => p.map.getD (k % max 1 p.map.length) 0 == c.val / 8

/-- PCORE (R21). -/
def pcoreReg (s : State) (c : CoreId) : Nat :=
  packFields [(3, c.val % 8), (5, c.val / 8 % 20), (2, c.val / 160), (6, 0), (4, s.parts[s.partOfCore c].share c)]

/-- LMAP as the task on a core reads it (R22). -/
def lmapReg (s : State) (c : CoreId) : Nat :=
  let i := s.partOfCore c
  let p := s.parts[i]
  packFields [(1, p.oneToOne.toNat), (2, s.mgmt.pmode), (2, i.val), (1, (s.ctx c).demote.toNat), (10, 0),
    (8, p.map.length), (8, 0), (32, p.mapGen)]

/-- A context's sequence counter of a channel on a logical core (R162). -/
def seqCounter (s : State) (port : Fin 2) (ctx : Fin 64) (lcore chan : Nat) : Nat :=
  lookupNat (s.ports[port].ctx[ctx]).oseq (8 * lcore + chan)

/-- a precedes b by modular distance (R162). -/
def seqBefore (a b : Nat) : Bool :=
  let d := (b + 2 ^ 40 - a % 2 ^ 40) % 2 ^ 40
  1 ≤ d && d ≤ 2 ^ 39 - 1

/-- The earlier of two sequences. -/
def seqMin (a b : Nat) : Nat := if seqBefore b a then b else a

/-- The live ops of a channel that a context issued on a logical core (R165). -/
def liveOpsOf (s : State) (port ctx lcore chan : Nat) : List Op :=
  s.ops.filter fun o => o.status.isLive && o.rights.port == port && o.rights.ctx == ctx && o.rights.lcore == lcore &&
    o.chan.val == chan

/-- OWMn: the oldest sequence accepted and not complete, else the counter; 0 for a channel that CHUSE does not name (R95,
R165). -/
def owmReg (s : State) (c : CoreId) (n : Fin 8) : Nat :=
  let r := rightsOf s c
  if !(s.ctx c).chuse.getLsbD n.val then 0
  else
    match liveOpsOf s r.port r.ctx r.lcore n.val with
    | [] => seqCounter s (Fin.ofNat 2 r.port) (Fin.ofNat 64 r.ctx) r.lcore n.val
    | o :: os => os.foldl (fun m o => seqMin m o.seq) o.seq

/-- The accumulator a matrix op names. -/
def OpKind.acc? : OpKind → Option (Fin 4)
  | .mma _ z _ _ _ _ _ _ _ _ _ => some z
  | .zld z _ => some z
  | .zst z _ => some z
  | _ => none

/-- An MMA-family op. -/
def OpKind.isMma : OpKind → Bool
  | .mma _ _ _ _ _ _ _ _ _ _ _ => true
  | _ => false

/-- The op runs on a sibling engine (R176). -/
def OpKind.isAway : OpKind → Bool
  | .mma _ _ _ _ _ _ _ _ _ _ away => away.isSome
  | _ => false

/-- ZRP: the oldest live op of the task on channel 4, PAUSED or FAULTED ones before RUNNING ones; 0 at task start (R94,
R286). -/
def zrpReg (s : State) (c : CoreId) : Nat :=
  let r := rightsOf s c
  let all := (liveOpsOf s r.port r.ctx r.lcore 4).filter fun o =>
    o.rights.slot == r.slot && o.gen == (s.ctx c).task.toNat % 65536
  let stopped := all.filter fun o => o.status == .paused || o.status == .faulted
  match (if stopped.isEmpty then all else stopped) with
  | [] => 0
  | o :: os =>
    let o := os.foldl (fun m o => if seqBefore o.seq m.seq then o else m) o
    packFields [(9, if o.kind.isMma then o.cursor else 0), (7, if o.kind.isMma then 0 else o.cursor),
      (2, ((o.kind.acc?).getD 0).val), (1, 1), (1, o.kind.isAway.toNat), (4, 0), (40, o.seq)]

/-- QSTAT (R154). -/
def qstatReg (x : Ctx) (cycle : Nat) : Nat :=
  packFields (x.iq.toList.map (fun q => (3, poppable q cycle)) ++ x.oq.toList.map (fun q => (3, poppable q cycle)) ++
    [(5, x.mq.length), (5, x.gq.length), (1, x.nr.toNat)])

/-- TOKQ: the eight counts (R154). -/
def tokqReg (x : Ctx) : Nat := packFields (x.tok.toList.map fun q => (6, q.count))

/-- LCn (R191). -/
def lcReg (l : LoopCtr) : Nat := packFields [(32, l.value.toNat), (2, l.owner.idx.val), (1, l.active.toNat)]

/-- FRMODE (R158). -/
def frmodeReg (x : Ctx) : Nat :=
  packFields [(2, x.frmode.toNat), (1, x.fwait.toNat), (1, x.resumed.toNat), (12, 0), (48, x.fcourse.toNat)]

/-- The value of a system register as a core's control stream reads it (R190). -/
def readSys (s : State) (c : CoreId) (r : SysReg) : W64 :=
  let x := s.ctx c
  match r with
  | .lcore => x.lcore.setWidth 64
  | .lclus => x.lcore.setWidth 64 >>> 3
  | .pcore => BitVec.ofNat 64 (pcoreReg s c)
  | .task => x.task.setWidth 64
  | .graph => x.graph.setWidth 64
  | .tseq => x.tseq.setWidth 64
  | .rank => BitVec.ofNat 64 (s.parts[s.partOfCore c].ownrank % 2 ^ 20)
  | .lmap => BitVec.ofNat 64 (lmapReg s c)
  | .tstat => x.tstat.setWidth 64
  | .fctl => x.fctl
  | .fstat => x.fstat
  | .ftb => x.ftb
  | .oseq n => x.oseq[n].setWidth 64
  | .owm n => BitVec.ofNat 64 (owmReg s c n)
  | .zrp => BitVec.ofNat 64 (zrpReg s c)
  | .frmc => BitVec.ofNat 64 (frameCycle s.cycle x)
  | .frmode => BitVec.ofNat 64 (frmodeReg x)
  | .slack => x.slack.setWidth 64
  | .smiss => x.smiss.setWidth 64
  | .qstat => BitVec.ofNat 64 (qstatReg x s.cycle)
  | .tokq => BitVec.ofNat 64 (tokqReg x)
  | .course => s.fabric.course.setWidth 64
  | .round => s.fabric.course.setWidth 64
  | .lc n => BitVec.ofNat 64 (lcReg x.lc[n])

/-- A SYSW by each field's access code; a register that SYSW ignores is unchanged (R190). -/
def writeSys (x : Ctx) (r : SysReg) (v : W64) : Ctx :=
  match r with
  | .lmap => { x with demote := x.demote && !v.getLsbD 5 }
  | .fctl => if bitsOf v.toNat 0 3 ≤ 4 then { x with fctl := BitVec.ofNat 64 (bitsOf v.toNat 0 3) } else x
  | .fstat => { x with fstat := clearFstat x.fstat v }
  | .ftb => { x with ftb := v &&& 0x7F }
  | .slack => { x with slack := v.setWidth 16 }
  | .smiss => { x with smiss := v.setWidth 32 }
  | .qstat => { x with nr := x.nr && !v.getLsbD 58 }
  | _ => x

/-- SYSR (R189). -/
def execSysr (t : Tok) (d : GReg) (r : SysReg) (s : State) : Out :=
  .next (issue t (planOf [d.val] fun _ s =>
    .go (onCtx (·.setG d (readSys s s.fcore r)) s) false .seq) s)

/-- SYSW (R189). -/
def execSysw (t : Tok) (a : GReg) (r : SysReg) (s : State) : Out :=
  .next (issue t (plain [a.val] (onCtx fun x => writeSys x r (x.gr a))) s)

end Sys2Proof.Machine
end

