-- ==== Sys2Proof/Machine/Battens.lean ====
section
/-! DEFINITION. What a device's fabric side knows: its position and the rank table (R291), the calendar (R292 to
R294), commit numbers (R300) and the battens of an op (R295, R297). -/

namespace Sys2Proof.Machine

open Sys2Proof

/-! ## Positions and ranks -/

/-- The device's position 2,048·H + i (R291). -/
def State.position (s : State) : Nat := s.fabric.hall % 256 * 2048 + s.fabric.index % 2048

/-- The gang address of an access of another rank (R215): what its op records in FADDR (R167, R301). -/
def gangAddr (rank va : Nat) : W64 := BitVec.ofNat 64 (2 ^ 63 + rank % 2 ^ 20 * 2 ^ 43 + va % 2 ^ 43)

/-- The party that a partition of this device is (R300). -/
def State.party (s : State) (part : Nat) : Party := ⟨s.position, part⟩

/-- The entry of the rank table (R291): none for a rank at or above NRANK or an entry that is not valid. -/
def rankParty (s : State) (part : Fin 4) (rank : Nat) : Option Party :=
  let p := s.parts[part]
  if p.nrank ≤ rank then none
  else
    let e := s.mem.num (p.rtbase.toNat + 4 * rank) 4
    if bitOf e 31 then some ⟨bitsOf e 0 19, bitsOf e 19 2⟩ else none

/-! ## The calendar -/

/-- The position of a course in its round (R191, R289). -/
def coursePos (course : Nat) : Nat := course % 32

/-- The hall and the index of a position. -/
def hallOf (pos : Nat) : Nat := pos / 2048
def indexOf (pos : Nat) : Nat := pos % 2048

/-- The partner of a fibre of the device at a position, in a course of position c (R292, R293). -/
def partnerOf (pos f c : Nat) : Nat :=
  if f < 64 then hallOf pos * 2048 + (indexOf pos ^^^ (32 * f + c))
  else (hallOf pos ^^^ ((f - 64 + 8 * c) % 256)) * 2048 + indexOf pos

/-- A course is a calibration course of a fibre when its partner is the device itself or no device (R294). -/
def isCalibration (pos f c : Nat) : Bool :=
  let p := partnerOf pos f c
  p == pos || !Config.present p

/-- The hall fibre and the course position that reach index p of the hall from index h directly (R292). -/
def directFibre (h p : Nat) : Nat := (h ^^^ p) / 32
def directPos (h p : Nat) : Nat := (h ^^^ p) % 32

/-- The die of a fibre (R292, R8): 16 hall fibres and 16 campus fibres a die. -/
def fibreDie (f : Nat) : Nat := f % 64 / 16

/-! ## Commit numbers (R300) -/

/-- a precedes b among commit numbers, modulo 2^28. -/
def numBefore (a b : Nat) : Bool :=
  let d := (b + 2 ^ 28 - a % 2 ^ 28) % 2 ^ 28
  1 ≤ d && d < 2 ^ 27

/-- The next number toward a destination in a class, and the counters that have given it. -/
def nextNumber (l : List Numbering) (part : Nat) (dst : Party) (cls : Cls) : Nat × List Numbering :=
  let same (n : Numbering) : Bool := n.part == part && n.dst == dst && n.cls == cls
  match l.find? same with
  | none => (0, ⟨part, dst, cls, 1⟩ :: l)
  | some n => (n.next, updWhere same (fun n => { n with next := (n.next + 1) % 2 ^ 28 }) l)

/-- The next commit number (R300). -/
def takeNumber (f : Fabric) (part : Nat) (dst : Party) (cls : Cls) : Nat × Fabric :=
  let r := nextNumber f.nums part dst cls
  (r.1, { f with nums := r.2 })

/-- The next message number of KIND 4 and 5 (R295). -/
def takeMsg (f : Fabric) (part : Nat) (dst : Party) (cls : Cls) : Nat × Fabric :=
  let r := nextNumber f.msgs part dst cls
  (r.1, { f with msgs := r.2 })

/-! ## The header (R295) -/

/-- KIND. A skip record goes as a KIND 2 batten and the result of a reduction as a reply (notes/assumptions/12.md). -/
def kindOf : BattenBody → Nat
  | .idle => 0
  | .data _ => 1
  | .commitRecord _ _ _ | .skip _ => 2
  | .reply _ _ _ | .rredResult _ _ => 3
  | .coll _ | .gang _ => 4
  | .rred _ => 5
  | .calibration _ _ => 6

/-- The 128 bits of a header with its acknowledgement. -/
def headerWord (b : Batten) (ablk : Nat) (ack : W32) : BitVec 128 :=
  BitVec.ofNat 128 (packFields [(19, b.src.pos), (19, b.dst.pos), (4, b.cls.val), (2, b.hop), (3, kindOf b.body),
    (2, b.src.part), (2, b.dst.part), (28, b.cseq), (10, b.bidx), (7, ablk), (32, ack.toNat)])

/-! ## The path of a batten (R297) -/

/-- The fibre belongs to a die of a partition (R20). -/
def ownFibre (s : State) (part : Nat) (f : Nat) : Bool := (s.parts[Fin.ofNat 4 part]).dies.contains (fibreDie f)

/-- A batten at this device has its hall stage before it: its target index is not this device's (R297). -/
def inHallStage (s : State) (b : Batten) : Bool := indexOf b.dst.pos != s.fabric.index

/-- The position that ends the hall stage. -/
def hallEnd (s : State) (b : Batten) : Nat := s.fabric.hall * 2048 + indexOf b.dst.pos

/-- The next stage of a batten goes over this fibre in a course of this position, without an intermediate. -/
def directHop (s : State) (b : Batten) (f : Fin 128) (c : Nat) : Bool :=
  if inHallStage s b then f.val < 64 && partnerOf s.position f.val c == hallEnd s b
  else 64 ≤ f.val && partnerOf s.position f.val c == b.dst.pos

/-! ## Queues of battens -/

/-- Battens that carry n bytes of payload: at least one (R295). -/
def battensFor (n : Nat) : Nat := max 1 ((n + 127) / 128)

/-- The battens of one body, in order. -/
def battensOf (src dst : Party) (cls : Cls) (cseq n : Nat) (body : BattenBody) : List Batten :=
  (List.range n).map fun i => ⟨src, dst, cls, 0, cseq, i, body⟩

/-- A batten of an op (or of a record: oid 0) that becomes ready. -/
def newOut (s : State) (oid part : Nat) (path : Path) (prio : Nat) (b : Batten) : OutB :=
  ⟨oid, part, path, prio, b, s.cycle, 0, false, true⟩

/-- Puts battens into the device's queue. -/
def enqueue (s : State) (oid part : Nat) (path : Path) (prio : Nat) (l : List Batten) : State :=
  { s with fabric := { s.fabric with out := s.fabric.out ++ l.map (newOut s oid part path prio) } }

/-- The batten carries an access, which its destination commits in the order of its number (R300). -/
def isData (b : Batten) : Bool :=
  match b.body with
  | .data _ => true
  | _ => false

/-- The batten is of a collective: it travels on when its op has ended (R160, R248). -/
def isColl (b : Batten) : Bool :=
  match b.body with
  | .coll _ => true
  | _ => false

/-- Two battens carry accesses of one destination and class, so that they go in commit order (R300). -/
def samePair (a b : OutB) : Bool :=
  isData a.batten && isData b.batten &&
  a.part == b.part && a.batten.dst == b.batten.dst && a.batten.cls == b.batten.cls

/-- One batten goes before another of its pair: in commit order, then by index. -/
def beforeInPair (a b : OutB) : Bool :=
  samePair a b &&
  (numBefore a.batten.cseq b.batten.cseq || (a.batten.cseq == b.batten.cseq && a.batten.bidx < b.batten.bidx))

/-- Returns a batten to its queue, in its place. -/
def requeueOut (o : OutB) : List OutB → List OutB
  | [] => [o]
  | e :: es => if beforeInPair o e then o :: e :: es else e :: requeueOut o es

/-- Gives each destination of a fabric op that the rank table names and that has no number yet its commit number,
and queues its battens (R291, R300). -/
def sendDests (oid part : Nat) (path : Path) (prio : Nat) (cls : Cls) (req : FabReq) :
    State → List FabDest → State × List FabDest
  | s, [] => (s, [])
  | s, d :: ds =>
    let (s, d) :=
      match d.party with
      | some _ => (s, d)
      | none =>
        match rankParty s (Fin.ofNat 4 part) d.rank with
        | none => (s, d)
        | some p =>
          let (n, f) := takeNumber s.fabric part p cls
          (enqueue { s with fabric := f } oid part path prio
            (battensOf (s.party part) p cls n req.count (.data req)), { d with party := some p, num := n })
    let (s, ds) := sendDests oid part path prio cls req s ds
    (s, d :: ds)

/-- Queues again, in commit order, every batten of a destination that is not acknowledged, under its number (R300, R301,
R303). -/
def resendDest (oid part : Nat) (path : Path) (prio : Nat) (cls : Cls) (req : FabReq) (s : State) (d : FabDest) :
    State :=
  match d.party with
  | none => s
  | some p =>
    if d.done then s
    else
      let l := (battensOf (s.party part) p cls d.num req.count (.data req)).map (newOut s oid part path prio)
      { s with fabric := { s.fabric with out := l.foldl (fun out o => requeueOut o out) s.fabric.out } }

/-- Removes the battens of an op from the queue. What a collective sends goes out all the same: the other members must see
what it asks for (R160, R248). -/
def dropBattens (s : State) (oid : Nat) : State :=
  { s with fabric := { s.fabric with out := s.fabric.out.filter fun o => o.oid != oid || isColl o.batten } }

/-- Skip records for every commit number that an op still holds (R170, R301). The number counts in the window of its pair until
it is acknowledged as passed (R300, notes/assumptions/119.md). -/
def skipDests (part : Nat) (cls : Cls) (s : State) (l : List FabDest) : State :=
  l.foldl (fun s d =>
    match d.party with
    | none => s
    | some p =>
      if d.done then s
      else
        let s := { s with fabric := { s.fabric with skipped := s.fabric.skipped ++ [⟨part, p, cls, d.num⟩] } }
        enqueue s 0 part .any 3 [⟨s.party part, p, cls, 0, d.num, 0, .skip d.num⟩]) s

end Sys2Proof.Machine
end

