-- ==== Sys2Proof/Machine/ChildOps.lean ====
section
/-! DEFINITION. Child operations as objects (09_ops.md R160 to R177): where an op's task stands, the record, flags,
faults, completion, cancellation, detaching and adopting, pausing and resuming. -/

namespace Sys2Proof.Machine

open Sys2Proof

/-! ## Where the issuing task's registers stand -/

/-- Where the registers of an op's issuing task stand: on a core, in the cut store, or nowhere any more. -/
inductive Home
  | core (c : CoreId)
  | image (slot : Nat)
  | nowhere
  deriving DecidableEq, Repr, Inhabited

/-- The live task that issued an op, if it still lives. -/
def State.issuer (s : State) (o : Op) : Option Task :=
  match s.findTask o.rights.slot with
  | none => none
  | some t => if t.gen % 65536 = o.gen then some t else none

/-- Home of an op. The registers of an ended task, and of one that has left its core and only waits for its last decrements,
stay on that core until the next task's start state is written (R284). -/
def State.home (s : State) (o : Op) : Home :=
  match s.issuer o with
  | none => .core (coreOfNat o.rights.pcore)
  | some t =>
    if t.image.isSome then .image t.slot
    else if (s.core t.pcore).run.slot? = some t.slot ∨ t.st = .ending then .core t.pcore else .nowhere

/-- Changes the registers of an op's issuing task, where they stand. -/
def State.onHome (s : State) (o : Op) (f : Ctx → Ctx) : State :=
  match s.home o with
  | .core c => s.setCtx c (f (s.ctx c))
  | .image slot => s.updTask slot fun t => { t with image := t.image.map fun i => { i with ctx := f i.ctx } }
  | .nowhere => s

/-- Changes the registers of an op's issuing task, when that task still lives: what an op does to the registers of a task
that has ended reaches no later task (R245, R248). -/
def State.onIssuer (s : State) (o : Op) (f : Ctx → Ctx) : State := if (s.issuer o).isSome then s.onHome o f else s

/-- The registers of an op's issuing task. -/
def State.homeCtx (s : State) (o : Op) : Option Ctx :=
  match s.home o with
  | .core c => some (s.ctx c)
  | .image slot => (s.findTask slot).bind fun t => t.image.map (·.ctx)
  | .nowhere => none

/-- The issuing task has ended or has been killed, or its math stream has executed END: nothing can pop its mq and gq
any more (R153). -/
def State.noPopper (s : State) (o : Op) : Bool :=
  match s.issuer o, s.homeCtx o with
  | some _, some x => x.mathEnd
  | _, _ => true

/-! ## Kinds (R160) -/

/-- Fabric ops of channel 6. -/
def OpKind.isFabric : OpKind → Bool
  | .fabric _ _ _ _ _ _ _ => true
  | _ => false

/-- The opcode of MCST. -/
def opcMcst : Nat := 0x15

/-- RRED and COLL: once accepted they run to completion (R160). -/
def OpKind.runsOn : OpKind → Bool
  | .rred _ _ _ _ _ _ => true
  | .coll _ _ _ _ _ _ => true
  | _ => false

/-- The op has been sent (R170). -/
def OpKind.isSent : OpKind → Bool
  | .fabric _ _ _ sent _ _ _ => sent
  | _ => false

/-- An RLD: a fabric op with a reserved iq place. -/
def OpKind.isRld : OpKind → Bool
  | .fabric _ _ _ _ fill _ _ => fill.isSome
  | _ => false

/-- A gather-family op. -/
def OpKind.isGather : OpKind → Bool
  | .gather _ _ _ _ _ _ _ => true
  | _ => false

/-- A copy op. -/
def OpKind.isCopy : OpKind → Bool
  | .copy _ _ _ _ _ _ => true
  | _ => false

/-- Ops that cannot be detached: MMA-family ops, ZLD and RLD (R33, R245, R275). -/
def OpKind.cannotDetach : OpKind → Bool
  | .zld _ _ => true
  | k => k.isMma || k.isRld

/-- The order of R168: descending priority, ascending acceptance, ascending channel. -/
def engineKey (o : Op) : Nat := ((3 - o.prio.val) * 2 ^ 64 + o.accepted) * 8 + o.chan.val

/-- A unit of the op is done, or held, and it goes on; a matrix op holds the array of its engine (R269). -/
def Op.began (o : Op) : Op :=
  { o with status := if o.status == .queued then .running else o.status, begun := true, flying := false
           array := o.kind.acc?.isSome }

/-- The elements of a gather-family op that have begun and are not done (R240). -/
def Op.openElems (o : Op) : List Nat :=
  match o.kind with
  | .gather _ _ _ _ _ done _ =>
    ((List.range (o.elems - o.cursor)).map (· + o.cursor)).filter fun e => !(done.any (·.1 == e))
  | _ => []

/-- A unit has begun that is still to finish. A unit held under WB is the op's boundary (R227). -/
def Op.inFlight (o : Op) : Bool := o.held.isNone && (o.flying || o.openElems != [])

/-- Bytes of the op's held range lie in the image of a cut in the store. -/
def inCutImage (s : State) (o : Op) : Bool := s.tasks.any fun t => t.image.any (·.ops.contains o.oid)

/-- The op's held range, or its accumulator, is saved until the range is free where its logical core is hosted; or it lies in
the image of a cut, and comes back with it (R173, R334). -/
def isSaved (s : State) (o : Op) : Bool := s.saves.any (·.oid == o.oid) || inCutImage s o

/-- The accesses that the acceptance of an op released have been performed: every access of the op follows them (R314). -/
def opFollows (s : State) (o : Op) : Bool :=
  o.after.all fun e => !((s.ctx e.1).strm e.2.1).accs.any fun a => a.id == e.2.2 && a.open_

/-- An op that a cut does not stop: RRED and COLL, and RLD, RST and RAMO once sent, which are one unit (R160, R325). -/
def Op.runsThrough (o : Op) : Bool := o.kind.runsOn || (o.kind.isSent && o.opc != opcMcst)

/-! ## The record (R167) -/

/-- OWNER of the record: the slot within its die (R31), 0xFFFF when detached. -/
def Op.ownerField (o : Op) : Nat :=
  match o.owner with
  | none => 65535
  | some t => t % 16384

/-- The 64 bytes of an op's record. -/
def Op.record (o : Op) : List Byte :=
  toBytes 64 (packFields
    [(8, o.status.code), (8, o.fcode), (2, o.prio.val), (1, o.owner.isNone.toNat), (1, o.adopted.toNat),
      (1, o.rel.toNat), (1, o.kind.isAway.toNat), (2, 0), (3, o.chan.val), (5, 0), (10, o.rights.lcore), (6, o.opc),
      (16, o.ownerField), (64, opToken o.chan.val o.seq o.gen), (64, o.faddr.toNat), (64, o.cursor), (64, o.total),
      (64, o.bmap.toNat), (6, o.fflags.toNat), (58, 0), (64, orphanName o.rights.lcore o.chan.val o.seq)])

/-! ## Flags, faults and completion -/

/-- Flags that an op raises: into its task's FSTAT while it is attached, into FFLAGS once it has been detached
(R53, R171). -/
def opFlags (s : State) (o : Op) (f : Flags) : State :=
  if f = 0 then s
  else if o.owner.isSome && !o.adopted then s.onHome o (·.flag f)
  else s.updOp o.oid fun o => { o with fflags := o.fflags ||| f }

/-- Reports a fault of a cycle and a logical core in the graph's completion word: the earliest stands, and of one cycle
that of the lowest logical core (R340). -/
def reportFault (s : State) (graph code cycle lcore : Nat) : State :=
  s.updGraph graph fun g =>
    if g.fcode = 0 ∨ cycle * 1024 + lcore < g.fkey then { g with fcode := code, fkey := cycle * 1024 + lcore } else g

/-- Saturating count of 32 bits (R340). -/
def satInc (n : Nat) : Nat := min (2 ^ 32 - 1) (n + 1)

/-- A pulled op's accumulator is written back whole to its origin (R176). -/
def writeBack (o : Op) (s : State) : State :=
  match o.kind with
  | .mma k z a b hm e rm acc ta tb (some (_, zz)) =>
    (s.onHome o fun x => { x with z := x.z.set z zz }).updOp o.oid fun o =>
      { o with kind := .mma k z a b hm e rm acc ta tb none }
  | _ => s

/-- An op leaves the live states (R166). What it held goes: its place in the accumulator's order (R270), its battens,
and on cancellation or failure its commit numbers, which a skip record passes (R301), the reserved entry of an RLD,
which lands as zeros and posts, and the interlock of a RAMO (R170, R245). A RRED that fails writes nothing further (R248). A
FAILED op is counted and reported in the completion word (R172, R340). -/
def completeOp (o : Op) (st : OpStatus) (s : State) : State :=
  let s := (writeBack o s).updOp o.oid fun o => { o with
    status := st, doneAt := some s.cycle, held := none, cancel := false, flying := false, array := false, pausing := false }
  let s := match o.kind.acc? with
    | some _ => s.onHome o fun x => { x with zorder := x.zorder.filter (·.2 != .op o.oid) }
    | none => s
  let s := if st = .failed then
      reportFault (s.updGraph o.graph fun g => { g with nfail := satInc g.nfail }) o.graph o.fcode s.cycle o.rights.lcore
    else s
  if st = .done then s
  else
    let s := dropBattens s o.oid
    let landZero (s : State) (q : QNum) (place : Nat) : State :=
      s.onIssuer o fun x =>
        let x := { x with iq := x.iq.set q (landPlace x.iq[q] place s.cycle Vec.zero false) }
        makePosts x s.cycle o.stream place
    match o.kind with
    | .fabric _ ds _ _ fill reg _ =>
      let s := skipDests o.rights.part o.cls s ds
      let s := match fill with
        | some (q, place) => landZero s q place
        | none => s
      match reg with
      | some a => s.onIssuer o fun x => x.setStrm o.stream
          { x.strm o.stream with busy := (x.strm o.stream).busy.erase a.val }
      | none => s
    | _ => s

/-- The task an op is attached to takes its fault, where it runs (R172, R323). A RRED or COLL that fails while its task
is cut raises it when the task next runs. -/
def raiseInOwner (s : State) (o : Op) (code : Nat) (addr : W64) : State :=
  match o.owner with
  | none => s
  | some slot =>
    let f := opFaultInfo s o code addr
    let late (s : State) : State :=
      if o.kind.runsOn then s.updTask slot fun t => { t with lateFault := some { f with late := true } } else s
    match s.coreOfSlot slot with
    | none => late s
    | some c =>
      match (s.core c).run with
      | .running _ => raiseAt s c f
      | .cutting _ at_ => if at_ = s.cycle then raiseAt s c f else late s
      | _ => late s

/-- An op meets a fault at an access: the first is recorded (R167), and its address is that of the task's fault record (R326). A RRED or COLL completes FAILED (R248); an op that is to
be cancelled goes on to be CANCELLED at this boundary, with the fault in its record (R170; DESIGN CHOICE,
notes/assumptions/113.md); another detached op completes FAILED; another attached op is FAULTED, and its task takes the fault
(R172). The gather family's element faults are recordElement's. -/
def opFault (o : Op) (code : Nat) (addr : W64) (s : State) : State :=
  let s := s.updOp o.oid fun o => if o.fcode = 0 then { o with fcode := code, faddr := addr } else o
  let o := { o with fcode := if o.fcode = 0 then code else o.fcode, faddr := if o.fcode = 0 then addr else o.faddr }
  if o.kind.runsOn then raiseInOwner (completeOp o .failed s) o code o.faddr
  else if o.cancel then s.updOp o.oid fun o => { o with held := none, flying := false }
  else if o.owner.isNone then completeOp o .failed s
  else raiseInOwner ((writeBack o s).updOp o.oid fun o => { o with
    status := .faulted, held := none, flying := false, array := false, pausing := false }) o code o.faddr

/-! ## Cancellation (R170) -/

/-- A CPYC stopped before its commit keeps nothing of its stage (R239). -/
def OpKind.unstaged : OpKind → OpKind
  | .copy a b n t (some e) _ => .copy a b n t (some e) (some [])
  | k => k

/-- Requests cancellation of an op: the state it leaves (R169, R170). A running or paused op is cancelled at its
boundary, by OP_COMPLETE. -/
def cancelOp (o : Op) (s : State) : State × OpStatus :=
  if !o.status.isLive || o.kind.runsOn then (s, o.status)
  else if o.kind.isFabric then
    if o.status = .faulted || !o.kind.isSent then (completeOp o .cancelled s, .cancelled)
    else if o.status = .paused then (s.updOp o.oid fun o => { o with status := .running }, o.status)
    else (s, o.status)
  else
    match o.status with
    | .queued | .faulted => (completeOp o .cancelled s, .cancelled)
    | st => (s.updOp o.oid fun o => { o with cancel := true, kind := o.kind.unstaged }, st)

/-- Cancels every live op that satisfies p. -/
def cancelWhere (p : Op → Bool) (s : State) : State :=
  (s.ops.filter fun o => o.status.isLive && p o).foldl (fun s o => (cancelOp o s).1) s

/-- The op waits behind a marker of an invalidation of its context (R223). -/
def behindMarker (s : State) (o : Op) : Bool :=
  s.invals.any fun v => v.port == o.rights.port && v.ctx == o.rights.ctx && !v.ahead.contains o.oid

/-! ## Detach and adopt (R171) -/

/-- The range and the place of the task an op is attached to, as they stand (R216): the own range is that task's, and the
own position is that of its logical core (notes/assumptions/15.md). The op's own scratchpad stays that of its issuing core. -/
def ownerRights (s : State) (o : Op) : Rights :=
  match o.owner.bind s.findTask with
  | some t => { o.rights with base := t.base, size := t.size, me := t.lcore }
  | none => o.rights

/-- Detaches a live op: it keeps the rights that the task it is attached to holds now (R171, R216). ADOPT stays as it is, so
that the flags of an op that has been adopted go to FFLAGS for good (R171; DEDUCED, notes/assumptions/116.md). -/
def detachOp (o : Op) (s : State) : State :=
  let slot := o.owner.getD o.rights.slot
  let held := (s.buffers.filter fun b => b.live && b.holder == some slot).map fun b => (b.orig, b.addr, b.size)
  let r := ownerRights s o
  s.updOp o.oid fun o => { o with owner := none, rights := { r with live := false, held := held } }

/-- Attaches a detached op to a task. Its issuer stays the task that created it (R171). -/
def adoptOp (slot : Nat) (o : Op) (s : State) : State :=
  s.updOp o.oid fun o => { o with owner := some slot, adopted := true }

/-- The rights of an op at an access: those of the task it is attached to, as they stand, or the snapshot of its
detaching (R216). -/
def Op.accessRights (o : Op) (s : State) : Rights :=
  match o.owner with
  | none => { o.rights with oid := o.oid }
  | some t => { ownerRights s o with slot := t, live := true, oid := o.oid }

/-! ## Pausing and resuming (R173, R287, R325) -/

/-- The held unit is the last row of a ZST, which has been read: it stays held with its data through a pause (R227, R270). -/
def Op.heldLast (o : Op) : Option HeldUnit :=
  match o.kind with
  | .zst _ _ => if o.cursor + 1 = o.total then o.held else none
  | _ => none

/-- The task the op is attached to runs and is not being cut (R325); a detached op has none. -/
def ownerRuns (s : State) (o : Op) : Bool :=
  match o.owner with
  | none => true
  | some slot =>
    match s.coreOfSlot slot with
    | none => false
    | some c =>
      match (s.core c).run with
      | .running _ => true
      | _ => false

/-- Drains an op to its boundary: once the units that have begun are finished (OP_COMPLETE), it is PAUSED. One that a cut
does not stop runs on (R325). A pulled op writes its partial accumulator back, with its cursor; where its own task runs on, it
is QUEUED again, so that any engine may take it (R176, R287). -/
def pauseOp (o : Op) (s : State) : State :=
  if o.runsThrough || !(o.status == .queued || o.status == .running) then s
  else if o.cancel then s
  else if o.inFlight then s.updOp o.oid fun o => { o with pausing := true }
  else
    let to_ : OpStatus := if o.kind.isAway && ownerRuns s o then .queued else .paused
    (writeBack o s).updOp o.oid fun o => { o with
      status := to_, held := o.heldLast, kind := o.kind.unstaged, flying := false, array := false, pausing := false
      elems := o.cursor }

/-- Pauses every op that satisfies p. -/
def pauseWhere (p : Op → Bool) (s : State) : State := (s.ops.filter p).foldl (fun s o => pauseOp o s) s

/-- A PAUSED or FAULTED op goes on from its cursor (R172, R325), and translates afresh (R223). A relocatable matrix op is
QUEUED, so that a sibling may take it (R176, R287). A fabric op looks its ranks up again and sends again what is not
acknowledged, under the same numbers, in a new sending (R301). -/
def resumeOp (o : Op) (s : State) : State :=
  if !(o.status == .paused || o.status == .faulted) || isSaved s o then s
  else
    let was := o.status
    let to_ : OpStatus := if o.begun && !(o.kind.isMma && o.rel) then .running else .queued
    let s := s.updOp o.oid fun o => { o with status := to_, held := o.heldLast }
    let s := { s with invals := s.invals.map fun v => { v with ahead := v.ahead.filter (· != o.oid) } }
    match o.kind with
    | .fabric q ds pa se f rg ls =>
      let q : FabReq := if was = .faulted then { q with tries := q.tries + 1 } else q
      let s := if was = .faulted then
          ds.foldl (resendDest o.oid o.rights.part pa o.prio.val o.cls q) (dropBattens s o.oid) else s
      let (s, ds) := sendDests o.oid o.rights.part pa o.prio.val o.cls q s ds
      s.updOp o.oid fun o => { o with kind := .fabric q ds pa se f rg (if was = .faulted then 0 else ls) }
    | _ => s

/-- Resumes every op that satisfies p. -/
def resumeWhere (p : Op → Bool) (s : State) : State := (s.ops.filter p).foldl (fun s o => resumeOp o s) s

end Sys2Proof.Machine
end

