-- ==== Sys2Proof/Machine/Collectives.lean ====
section
/-! DEFINITION. RRED and COLL once accepted, and the collective messages and contributions they exchange (R246 to
R248, R306, R307). How collective data is cut into messages is the model's (notes/assumptions/17.md). -/

namespace Sys2Proof.Machine

open Sys2Proof

/-! ## Which ones match (R246, R248) -/

/-- The number of uses of a key so far. -/
def countOf {κ : Type} [BEq κ] (l : List (κ × Nat)) (k : κ) : Nat :=
  match l.find? (·.1 == k) with
  | some p => p.2
  | none => 0

/-- Counts one more use of a key. -/
def countUp {κ : Type} [BEq κ] (l : List (κ × Nat)) (k : κ) : List (κ × Nat) :=
  (k, countOf l k + 1) :: l.filter (·.1 != k)

/-- The RREDs of a partition that match one after the other: those of one HASH to a reduction point and address (R74,
R246). -/
def rredKey (part : Nat) (m : RredMsg) : Nat × Nat × Nat × Nat := (part, m.hash, m.point, m.va)

/-- The COLLs of a partition that match one after the other: those of one HASH on a set (R74, R248). -/
def collKey (part : Nat) (m : CollMsg) : Nat × Nat × Nat × Nat × Nat := (part, m.hash, m.first, m.count, m.stride)

/-- The next RRED of this member to a reduction point and address. -/
def takeRredIndex (part : Nat) (m : RredMsg) (s : State) : Nat × State :=
  let k := rredKey part m
  (countOf s.fabric.rredN k, { s with fabric := { s.fabric with rredN := countUp s.fabric.rredN k } })

/-- The next COLL of this member on a set. -/
def takeCollIndex (part : Nat) (m : CollMsg) (s : State) : Nat × State :=
  let k := collKey part m
  (countOf s.fabric.collN k, { s with fabric := { s.fabric with collN := countUp s.fabric.collN k } })

/-! ## Reductions (R246, R248) -/

/-- One step of a reduction on an element. -/
def redStep (func : Nat) (a b : W32) : W32 × Flags :=
  if func = 0 then addF32 .rne false a b
  else if func = 1 then (minMaxF32 true a b, fNone)
  else if func = 2 then (minMaxF32 false a b, fNone)
  else if func = 3 then (a + b, wrapFlags 32 (a.toInt + b.toInt))
  else if func = 4 then (if a.slt b then b else a, fNone)
  else (if b.slt a then b else a, fNone)

/-- FUNC codes (R246). -/
def redCode : RedFunc → Nat
  | .fadd => 0
  | .fmax => 1
  | .fmin => 2
  | .iadd => 3
  | .imax => 4
  | .imin => 5

/-- Folds contributions in their order, element by element (R246, R248, R67). -/
def redFold (func : Nat) : List (List W32) → List W32 × Flags
  | [] => ([], fNone)
  | c :: cs =>
    cs.foldl (fun (acc, f) d =>
      let l := (acc.zip d).map fun p => redStep func p.1 p.2
      (l.map (·.1), l.foldl (fun g e => g ||| e.2) f)) (c, fNone)

/-! ## RRED -/

/-- The battens of a RRED's contribution: 256 bytes as one message, on the path of its descriptor (R244, R246, R295). -/
def sendRred (o : Op) (m : RredMsg) (path : Path) (dst : Party) (s : State) : State :=
  let r := takeMsg s.fabric o.rights.part dst o.cls
  enqueue { s with fabric := r.2 } o.oid o.rights.part path o.prio.val
    (battensOf (s.party o.rights.part) dst o.cls r.1 2 (.rred m))

/-- A RRED begins: it reads its 256 bytes and sends them to the reduction point (R246, R306). -/
def beginRred (o : Op) (m : RredMsg) (q : QNum) (place : Nat) (path : Path) (s : State) : State :=
  match readVa s (coreOfNat o.rights.pcore) (o.accessRights s) m.va 256 with
  | (s, .error (e, a)) => opFault o e (BitVec.ofNat 64 a) s
  | (s, .ok bs) =>
    match rankParty s (Fin.ofNat 4 o.rights.part) m.point with
    | none => opFault o cFabricUnreachable (gangAddr m.point m.va) s
    | some dst =>
      let m : RredMsg := { m with data := bs }
      sendRred o m path dst (s.updOp o.oid fun o => { o.began with kind := .rred m q place [] path 0 })

/-! ## COLL -/

/-- The bytes that member q sends to member m, by their place in its source: none in some kinds, with a message that shows
what q asks for (R248). -/
def collRange (c : CollMsg) (q m : Nat) : Nat × Nat :=
  match c.kind with
  | .allgather | .allred => (0, c.bytes)
  | .redscat => (m * c.bytes, c.bytes)
  | .bcast => (0, if q = c.root then c.bytes else 0)
  | .barrier => (0, 0)

/-- Source bytes of a member (R248). -/
def collSourceLen (c : CollMsg) : Nat :=
  match c.kind with
  | .allgather | .allred => c.bytes
  | .redscat => c.count * c.bytes
  | .bcast => if c.member = c.root then c.bytes else 0
  | .barrier => 0

/-- The messages that carry bytes from off on, of at most 1,024 battens (R295). -/
def collChunks (c : CollMsg) (off : Nat) (bs : List Byte) : List CollMsg :=
  (List.range (max 1 ((bs.length + 131071) / 131072))).map fun i =>
    { c with off := off + 131072 * i, data := (bs.drop (131072 * i)).take 131072 }

/-- The messages that this member sends to member m. -/
def collMsgs (c : CollMsg) (src : List Byte) (m : Nat) : List CollMsg :=
  let r := collRange c c.member m
  collChunks c r.1 ((src.drop r.1).take r.2)

/-- Two messages of one COLL: the same HASH, set and place among its COLLs (R74, R248). -/
def sameColl (a b : CollMsg) : Bool :=
  a.hash == b.hash && a.first == b.first && a.count == b.count && a.stride == b.stride && a.index == b.index

/-- They agree in what must match (R248). -/
def collAgree (a b : CollMsg) : Bool := a.kind == b.kind && a.func == b.func && a.bytes == b.bytes && a.root == b.root

/-- Keeps a batten of a message at a partition; one that is already there changes nothing. -/
def storeColl (part : Nat) (m : CollMsg) (bidx : List Nat) (f : Fabric) : Fabric :=
  let same (e : Nat × CollMsg × List Nat) : Bool :=
    e.1 == part && sameColl e.2.1 m && e.2.1.member == m.member && e.2.1.off == m.off && e.2.1.fcode == m.fcode
  if f.colls.any same then
    { f with colls := updWhere same (fun e => (e.1, e.2.1, (e.2.2 ++ bidx).eraseDups)) f.colls }
  else { f with colls := f.colls ++ [(part, m, bidx)] }

/-- Every batten of a message is there. -/
def collWhole (e : Nat × CollMsg × List Nat) : Bool := battensFor e.2.1.data.length ≤ e.2.2.length

/-- The bytes that member q has sent to this COLL, once all are there. -/
def collFrom (s : State) (part : Nat) (c : CollMsg) (q : Nat) : Option (List Byte) :=
  let r := collRange c q c.member
  let l := s.fabric.colls.filter fun e =>
    e.1 == part && sameColl e.2.1 c && collAgree e.2.1 c && e.2.1.fcode == 0 && e.2.1.member == q && collWhole e
  let piece (i : Nat) : Option (List Byte) :=
    (l.find? fun e => e.2.1.off == r.1 + 131072 * i).map (·.2.1.data)
  let ps := (List.range (max 1 ((r.2 + 131071) / 131072))).map piece
  if ps.any (·.isNone) then none else some ((ps.filterMap id).flatten)

/-- The fault that a message brings to a COLL: the one its member has met, or RECORD for a mismatch (R248, R250). -/
def collFault (c m : CollMsg) : Option Nat :=
  if m.fcode != 0 then some m.fcode else if collAgree c m then none else some cRecord

/-- The fault that a message which is there brings to a COLL. -/
def collBroken (s : State) (part : Nat) (c : CollMsg) : Option Nat :=
  s.fabric.colls.findSome? fun e => if e.1 == part && sameColl e.2.1 c then collFault c e.2.1 else none

/-- Messages of a COLL are dropped once it has completed. -/
def dropColl (part : Nat) (c : CollMsg) (s : State) : State :=
  { s with fabric := { s.fabric with colls := s.fabric.colls.filter fun e => !(e.1 == part && sameColl e.2.1 c) } }

/-- A COLL that has issued here has ended: what still comes for it is discarded. -/
def collEnded (s : State) (part : Nat) (m : CollMsg) : Bool :=
  m.index < countOf s.fabric.collN (collKey part m) && !(s.ops.any fun o =>
    o.status.isLive && o.rights.part == part && match o.kind with
      | .coll c _ _ _ _ _ => sameColl c m
      | _ => false)

/-- Drops the messages of the COLLs that have ended. -/
def tidyColls (s : State) : State :=
  { s with fabric := { s.fabric with colls := s.fabric.colls.filter fun e => !collEnded s e.1 e.2.1 } }

/-- Sends messages to a party, each under a message number of its own (R295). -/
def sendMsgs (o : Op) (dst : Party) (l : List CollMsg) (s : State) : State :=
  l.foldl (fun s m =>
    let r := takeMsg s.fabric o.rights.part dst o.cls
    enqueue { s with fabric := r.2 } o.oid o.rights.part .any o.prio.val
      (battensOf (s.party o.rights.part) dst o.cls r.1 (battensFor m.data.length) (.coll m))) s

/-- The party of a member, when the rank table names one (R247, R291). -/
def memberParty (s : State) (part : Nat) (c : CollMsg) (m : Nat) : Option Party :=
  rankParty s (Fin.ofNat 4 part) (c.first + m * c.stride)

/-- The members other than this one. -/
def others (c : CollMsg) : List Nat := (List.range c.count).filter (· != c.member)

/-- Sends to each other member that the rank table names what f gives for it (R248, R307). -/
def sendMembers (o : Op) (c : CollMsg) (f : Nat → List CollMsg) (s : State) : State :=
  (others c).foldl (fun s m =>
    match memberParty s o.rights.part c m with
    | none => s
    | some p => sendMsgs o p (f m) s) s

/-- A COLL fails here, and the other members are told (R248, R250, notes/assumptions/107.md). -/
def failColl (o : Op) (c : CollMsg) (code : Nat) (addr : W64) (s : State) : State :=
  opFault o code addr (sendMembers o c (fun _ => [{ c with fcode := code }]) s)

/-- A COLL begins: it reads its source and sends it (R248, R307). An unreachable rank or a fault fails it, and so does a
message that is there already and does not agree with it. -/
def beginColl (o : Op) (c : CollMsg) (src dst land : W64) (s : State) : State :=
  let n := collSourceLen c
  let rd : State × Except (Nat × Nat) (List Byte) :=
    if n = 0 then (s, .ok []) else readVa s (coreOfNat o.rights.pcore) (o.accessRights s) src.toNat n
  match rd with
  | (s, .error (e, a)) => failColl o c e (BitVec.ofNat 64 a) s
  | (s, .ok bs) =>
    if (others c).any fun m => (memberParty s o.rights.part c m).isNone then failColl o c cFabricUnreachable o.recAt s
    else
      let s := s.updOp o.oid fun o => { o.began with kind := .coll c src dst land true false }
      let own := (collMsgs c bs c.member).foldl (fun f e =>
        storeColl o.rights.part e (List.range (battensFor e.data.length)) f) s.fabric
      let s := sendMembers o c (collMsgs c bs) { s with fabric := own }
      match collBroken s o.rights.part c with
      | some e => opFault o e o.recAt s
      | none => s

/-- COLLs begun on a die (R307). -/
def collsBegun (s : State) (die : Nat) : Nat :=
  s.ops.countP fun o => o.status.isLive && o.rights.pcore / 160 == die && match o.kind with
    | .coll _ _ _ _ b _ => b
    | _ => false

/-- An accepted RRED or COLL may begin: behind a marker it waits for the invalidation (R223), its reads follow what its
acceptance released (R314), and a COLL's engine holds fewer than 256 begun (R307). A COLL whose task is cut to the store begins
with its task's resume: its bytes may be in the image. -/
def collMayBegin (s : State) (o : Op) : Bool :=
  o.status == .queued && !o.begun && !behindMarker s o && opFollows s o && !isSaved s o &&
  debtsLetOp s o.rights.part o.rights.lcore && match o.kind with
    | .rred _ _ _ _ _ _ => true
    | .coll _ _ _ _ _ _ => collsBegun s (o.rights.pcore / 160) < 256 && ((s.issuer o).bind (·.image)).isNone
    | _ => false

/-- The op that a die's collective engine begins next, in the order of R168 (R307). -/
def collPick (s : State) (die : Nat) : Option Op :=
  leastBy engineKey (s.ops.filter fun o => o.rights.pcore / 160 == die && collMayBegin s o)

/-- The turn of an accepted RRED or COLL that has not begun: when it is the next of its die's engine it begins at a free
moment (R168, R316). -/
def collBegins (o : Op) (s : State) : State :=
  if (collPick s (o.rights.pcore / 160)).map (·.oid) = some o.oid then
    let go := Config.mayAct s.free
    let s := { s with free := s.free + 1 }
    if !go then s
    else
      match o.kind with
      | .rred m q place _ path _ => beginRred o m q place path s
      | .coll c src dst land _ _ => beginColl o c src dst land s
      | _ => s
  else s

/-! ## The barriers of a gang's agreement (R115) -/

/-- What the members of an agreement have proposed, in one of its barriers, as it stands at a partition. -/
def gangSaid (s : State) (part hash index : Nat) (second : Bool) : List GangMsg :=
  (s.fabric.gangs.filter fun e => e.1 == part && e.2.hash == hash && e.2.index == index && e.2.second == second).map (·.2)

/-- A barrier is complete: every rank of the gang has proposed (R115). -/
def gangFull (l : List GangMsg) (nrank : Nat) : Bool := (List.range nrank).all fun r => l.any (·.rank == r)

/-- The graph of a partition that still agrees under a number. -/
def gangOpen (s : State) (part : Nat) (m : GangMsg) : Bool :=
  s.graphs.any fun g => g.part == part && g.hash == m.hash && g.joined.isSome && g.gang == m.index

/-- A proposal reaches a member. One of an agreement that is over there is discarded. -/
def arriveGang (part : Nat) (m : GangMsg) (s : State) : State :=
  if m.index < countOf s.fabric.gangN (part, m.hash) && !gangOpen s part m then s
  else { s with fabric := { s.fabric with gangs := s.fabric.gangs ++ [(part, m)] } }

/-- A member proposes: to itself, and as a KIND 4 batten to every other rank that the rank table names (R115, R291;
notes/assumptions/120.md). -/
def sendGang (part : Nat) (m : GangMsg) (s : State) : State :=
  let s := { s with fabric := { s.fabric with gangs := s.fabric.gangs ++ [(part, m)] } }
  ((List.range m.nrank).filter (· != m.rank)).foldl (fun s r =>
    match rankParty s (Fin.ofNat 4 part) r with
    | none => s
    | some p =>
      let n := takeMsg s.fabric part p 0
      enqueue { s with fabric := n.2 } 0 part .any 3 (battensOf (s.party part) p 0 n.1 1 (.gang m))) s

/-- What the first barrier has given, once it is complete: the least revision proposed and the last course of joining (R115). -/
def gangFirst (s : State) (part hash index nrank : Nat) : Option (Nat × Nat) :=
  let l := gangSaid s part hash index false
  if gangFull l nrank then some (l.foldl (fun m e => min m e.rev) 255, l.foldl (fun m e => max m e.join) 0) else none

/-- What both barriers have given, once they are complete: revision, course, and whether every member holds the revision
(R115). -/
def gangGives (s : State) (part hash index nrank : Nat) : Option (Nat × Nat × Bool) :=
  let l := gangSaid s part hash index true
  if gangFull l nrank then (gangFirst s part hash index nrank).map fun f => (f.1, f.2, l.all (·.held)) else none

/-! ## Arrivals -/

/-- A collective message reaches a partition; a mismatch or the fault of another member fails the op that meets it, at the
address of its record (R248, R250, R326). -/
def arriveColl (part : Nat) (m : CollMsg) (bidx : Nat) (s : State) : State :=
  if collEnded s part m then tidyColls s
  else
    let s := { s with fabric := storeColl part m [bidx] s.fabric }
    let hit := s.ops.findSome? fun o =>
      match o.kind with
      | .coll c _ _ _ true _ =>
        if o.status.isLive && o.rights.part == part && sameColl c m then (collFault c m).map fun e => (o, e) else none
      | _ => none
    match hit with
    | none => s
    | some (o, e) => opFault o e o.recAt s

/-- The reduction store has room for another contribution: 1 GiB (R306). -/
def rredRoom (s : State) : Bool := s.fabric.rreds.length < 4194304

/-- Two contributions of one match: the n-th of their HASH to a reduction point and address (R74, R246). -/
def sameRred (a b : RredMsg) : Bool := a.hash == b.hash && a.point == b.point && a.va == b.va && a.index == b.index

/-- A contribution reaches a reduction point (R306). -/
def arriveRred (part : Nat) (m : RredMsg) (bidx : Nat) (s : State) : State :=
  let f := s.fabric
  let same (e : Nat × RredMsg × List Nat) : Bool :=
    e.1 == part && sameRred e.2.1 m && e.2.1.rank == m.rank
  if f.rreds.any same then
    { s with fabric := { f with
        rreds := updWhere same (fun e => (e.1, e.2.1, (e.2.2 ++ [bidx]).eraseDups)) f.rreds } }
  else { s with fabric := { f with rreds := f.rreds ++ [(part, m, [bidx])] } }

/-- The contributions that are there whole, with both battens. -/
def rredWhole (s : State) (part : Nat) : List RredMsg :=
  (s.fabric.rreds.filter fun e => e.1 == part && 2 ≤ e.2.2.length).map (·.2.1)

/-- The contributions of one match. -/
def rredGroup (s : State) (part : Nat) (m : RredMsg) : List RredMsg := (rredWhole s part).filter (sameRred m)

/-- The contributions of a match in ascending rank, when every one is there (R246, R306). -/
def rredReady (s : State) (part : Nat) (m : RredMsg) : Option (List RredMsg) :=
  let g := rredGroup s part m
  let l := (List.range m.count).map fun i => g.find? (·.rank == m.point + i)
  if l.any (·.isNone) then none else some (l.filterMap id)

/-- A flags value that says the contributors did not agree (R246, R248). -/
def rredFailed : Nat := 64

/-- The match of a contribution fails: contributors differ in FUNC or COUNT, or it is over without this one (R246, R248). -/
def rredFails (s : State) (part : Nat) (m : RredMsg) : Bool :=
  s.fabric.rredOver.any (fun e => e.1 == part && sameRred e.2 m) ||
  (rredGroup s part m).any fun c => c.func != m.func || c.count != m.count

/-- Answers contributors of a match, which is over, and takes what is there of it out of the store. -/
def answerRred (part : Fin 4) (m : RredMsg) (l : List RredMsg) (data : List Byte) (flags : Nat) (s : State) : State :=
  let f := s.fabric
  let s := { s with fabric := { f with
    rreds := f.rreds.filter fun e => !(e.1 == part.val && sameRred m e.2.1 && l.any (·.rank == e.2.1.rank))
    rredOver := (part.val, { m with data := [] }) :: f.rredOver.filter fun e => !(e.1 == part.val && sameRred e.2 m) } }
  l.foldl (fun s c =>
    match rankParty s part c.rank with
    | none => s
    | some p => enqueue s 0 part.val .any 3 (battensOf (s.party part.val) p 0 (m.index % 2 ^ 28) 2
        (.rredResult { m with rank := c.rank, data := data } flags))) s

/-- REDUCTION_FOLD: a match that fails is answered as failed to every contributor that is there, and to the others as they
come; the first match that is whole is folded in ascending rank, and its result goes to every contributor (R246, R306). -/
def execReductionFold (part : Fin 4) (s : State) : Out :=
  let l := rredWhole s part.val
  match l.find? (rredFails s part.val) with
  | some m => .next (answerRred part m (rredGroup s part.val m) [] rredFailed s)
  | none =>
    match l.findSome? fun m => (rredReady s part.val m).map fun g => (m, g) with
    | none => .next s
    | some (m, g) =>
      let r := redFold (redCode m.func) (g.map fun c => wordsOf c.data)
      .next (answerRred part m g ((r.1.map fun w => toBytes 4 w.toNat).flatten) r.2.toNat s)

/-- A result reaches a contributor (R246, R306): its op has it once both battens are there. -/
def arriveResult (part : Nat) (m : RredMsg) (flags bidx : Nat) (s : State) : State :=
  let mine (o : Op) : Bool := o.status.isLive && o.rights.part == part && match o.kind with
    | .rred c _ _ _ _ _ => sameRred c m && c.rank == m.rank
    | _ => false
  match s.ops.find? mine with
  | none => s
  | some o =>
    match o.kind with
    | .rred c q place got path sent =>
      let got := (got ++ [bidx]).eraseDups
      let s := s.updOp o.oid fun o => { o with kind := .rred c q place got path sent }
      if got.length < 2 then s
      else if flags = rredFailed then opFault o cRecord (gangAddr m.point m.va) s
      else s.updOp o.oid fun o => { o with reply := some (m.data, BitVec.ofNat 6 flags) }
    | _ => s

end Sys2Proof.Machine
end

