-- ==== Sys2Proof/Machine/Accept.lean ====
section
/-! DEFINITION. The acceptance of an op and OP_ACCEPT (R161, R162, R174), the names of ops (R163, R164) and the
instructions that manage them (R169, R200). -/

namespace Sys2Proof.Machine

open Sys2Proof

/-! ## The copy order of a replay (R101, R110) -/

/-- The yelm a graph replays. -/
def replayYelm (s : State) (g : Graph) : Option Yelm :=
  match g.mode with
  | .replay _ => (s.parts[Fin.ofNat 4 g.part]).yelms.find? fun y => y.id == g.yid
  | _ => none

/-- The copy-order entry of a copy op that a task issues: its task's place among its core's traced or logged tasks, its
channel and its ordinal (R101, R106). -/
def copyEntry (t : Task) (chan seq : Nat) : Option CopyOrd :=
  (t.traced.or t.logIdx).map fun i =>
    ⟨t.lcore, (seq + 2 ^ 40 - t.oseqAt.getD chan 0 % 2 ^ 40) % 2 ^ 40 % 2 ^ 32, chan, i⟩

/-- The order is given up for the rest of an op's task: COPYX, in what has been measured of it too when it has completed
TEND step 3 (R106, R110). -/
def giveUpOrder (o : Op) (s : State) : State :=
  match o.copyAt with
  | none => s
  | some e =>
    let s := match s.issuer o with
      | some t => s.updTask t.slot fun t => { t with copyX := true }
      | none => s
    let s := s.updGraph o.graph fun g => { g with
      meas := updWhere (fun m => m.1 == e.lcore && m.2.1 == e.tidx) (fun m => (m.1, m.2.1, { m.2.2 with copyX := true })) g.meas }
    { s with ops := s.ops.map fun q =>
        if q.graph == o.graph && q.copyAt.any fun d => d.lcore == e.lcore && d.tidx == e.tidx then
          { q with copyFree := true } else q }

/-- A copy op is accepted that the order its core replays does not name (R110). -/
def unnamedOp (s : State) (o : Op) : Bool :=
  match o.copyAt, (s.findGraph o.graph).bind (replayYelm s) with
  | some e, some y => !y.copies.contains e
  | _, _ => false

/-! ## Places and acceptance (R161, R162, R174) -/

/-- The place of an op is taken in this cycle: it is live, or it completed in this very cycle (R161, R177). -/
def Op.holdsPlace (o : Op) (cycle : Nat) : Bool := o.status.isLive || o.doneAt == some cycle

/-- Places taken in a channel of a physical core. -/
def placesTaken (s : State) (c : CoreId) (chan : Fin 8) : Nat :=
  s.ops.countP fun o => o.rights.pcore == c.val && o.chan == chan && o.holdsPlace s.cycle

/-- The access is one that an acceptance releases: its sequencer's own of a class of RMASK, and with a mask that is not zero
one that the sequencer has acquired, its own among them (R314, notes/assumptions/13.md). -/
def maskNames (x : Ctx) (st : Stream) (m : BitVec 16) (p : Stream) (a : Access) : Bool :=
  a.open_ && ((p == st && m.getLsbD a.cls.val) || (m != 0 && a.id < (x.strm st).acq[p.idx]))

/-- Earlier accesses that the acceptance releases are not performed yet. -/
def maskPending (x : Ctx) (st : Stream) (m : BitVec 16) : Bool :=
  allStreams.any fun p => (x.strm p).accs.any (maskNames x st m p)

/-- The accesses that the acceptance releases and that are not performed yet: every access of the op follows them (R314). -/
def maskAccs (c : CoreId) (x : Ctx) (st : Stream) (m : BitVec 16) : List (CoreId × Stream × Nat) :=
  allStreams.flatMap fun p => ((x.strm p).accs.filter (maskNames x st m p)).map fun a => (c, p, a.id)

/-- The queue entry that RST and MCST pop, or the place that RLD and RRED reserve. -/
def takeQueues (k : Stall) (id : Nat) (cycle : Nat) (x : Ctx) : OpKind × Ctx :=
  let popped (q : QNum) : List Byte × Ctx :=
    match oldest x.oq[q] cycle with
    | none => ([], x)
    | some p => (vecBytes p.data, { x with oq := x.oq.set q (x.oq[q].drop 1) })
  let reserved (q : QNum) : Ctx := { x with iq := x.iq.set q (x.iq[q] ++ [newPlace id]) }
  match k.kind, k.pop, k.fill with
  | .fabric r ds pa se f rg ls, some q, _ =>
    let (bs, x) := popped q
    (.fabric { r with act := .write bs } ds pa se f rg ls, x)
  | .fabric r ds pa se _ rg ls, _, some q => (.fabric r ds pa se (some (q, id)) rg ls, reserved q)
  | .rred m _ _ g pa ls, _, some q => (.rred m q id g pa ls, reserved q)
  | kd, _, _ => (kd, x)

/-- Clears the completion bitmap of a gather-family op at acceptance (R240): a dword that cannot be written is the
op's first fault (notes/assumptions/14.md). -/
def clearBitmap (s : State) (c : CoreId) (r : Rights) (bmap : W64) (n : Nat) : State × Option (Nat × W64) :=
  match writeVa s c r bmap.toNat (List.replicate (8 * ((n + 63) / 64)) 0) with
  | (s, .done) => (s, none)
  | (s, .held) => (s, some (cPagePermission, bmap))
  | (s, .fault e a) => (s, some (e, BitVec.ofNat 64 a))

/-- Accepts an op: it takes its place, its sequence and its queue entry or place (R161, R162); a matrix op takes its
place in its accumulator's order (R270); its accesses follow what its acceptance releases (R314); it is ahead of the marker of an invalidation that issues in the same cycle (R251);
a fabric op its commit numbers (R300); a RRED or COLL its place among those of its set (R246, R248). id is the number of the creating
instruction's effect. -/
def acceptOp (c : CoreId) (st : Stream) (k : Stall) (id : Nat) (s : State) : State :=
  let r := rightsOf s c
  let port : Fin 2 := Fin.ofNat 2 r.port
  let ctx : Fin 64 := Fin.ofNat 64 r.ctx
  let seq := seqCounter s port ctx r.lcore k.chan.val
  let oid := s.nextOid
  let s := s.updContext port ctx fun q => { q with
    oseq := assignNat q.oseq (8 * r.lcore + k.chan.val) ((seq + 1) % 2 ^ 40) }
  let (kind, x) := takeQueues k id s.cycle (s.ctx c)
  let x := match kind.acc? with
    | some z => { x with zorder := x.zorder ++ [(z, .op oid)] }
    | none => x
  let x := match k.reg with
    | some a => x.setStrm st { x.strm st with busy := a.val :: (x.strm st).busy }
    | none => x
  let s := { s.setCtx c x with nextOid := oid + 1 }
  let det := k.det && !kind.cannotDetach
  let r := if det then { r with
      live := false
      held := (s.buffers.filter fun b => b.live && b.holder == some r.slot).map fun b => (b.orig, b.addr, b.size) } else r
  let (s, kind) : State × OpKind :=
    match kind with
    | .fabric q ds pa se f _ ls =>
      let (s, ds) := sendDests oid r.part pa k.prio.val k.cls q s ds
      (s, .fabric q ds pa se f k.reg ls)
    | .rred m q pl g pa ls => let (n, s) := takeRredIndex r.part m s; (s, .rred { m with index := n } q pl g pa ls)
    | .coll m sr ds la b w => let (n, s) := takeCollIndex r.part m s; (s, .coll { m with index := n } sr ds la b w)
    | kd => (s, kd)
  let (s, bad) : State × Option (Nat × W64) :=
    if k.bmap = 0 then (s, none) else clearBitmap s c r k.bmap k.total
  let task := if kind.isCopy then s.findTask r.slot else none
  let o : Op :=
    { oid := oid, graph := (s.ctx c).graph.toNat, rights := r, chan := k.chan, seq := seq,
      gen := (s.ctx c).task.toNat % 65536, owner := if det then none else some r.slot, adopted := false,
      prio := k.prio, rel := k.rel && (s.ctx c).reloc, opc := k.opc, stream := st, cls := k.cls, status := .queued,
      fcode := (bad.map (·.1)).getD 0, faddr := (bad.map (·.2)).getD 0, cursor := 0, total := k.total,
      bmap := k.bmap, fflags := 0, accepted := s.cycle, begun := false, flying := false, array := false, elems := 0,
      pausing := false, copyAt := task.bind fun t => copyEntry t k.chan.val seq, copyFree := task.any (·.copyX), recAt := k.recAt,
      cancel := false, after := maskAccs c (s.ctx c) st k.rmask, held := none,
      reply := none, doneAt := none, kind := kind }
  let ahead (v : Inval) : Inval :=
    if v.since = s.cycle ∧ v.port = r.port ∧ v.ctx = r.ctx then { v with ahead := v.ahead ++ [oid] } else v
  let s := { s with ops := s.ops ++ [o], invals := s.invals.map ahead }
  if unnamedOp s o then giveUpOrder o s else s

/-- What an op-creating instruction does once its own checks have passed: a full channel raises OP_TABLE_FULL or
stalls it (R161, R237); else its engine accepts it, and it posts, but for an RLD and a RRED, whose entry posts when it
lands (R145, R161). A bitmap is cleared at acceptance, so that one waits until what the acceptance releases is performed (R240,
R314). DESIGN CHOICE: with NW the full channel is a fault in a stamped instruction too (R157, R161; notes/assumptions/117.md). -/
def createOp (k : Stall) (ix : Ix) (s : State) : Try :=
  if 8 ≤ placesTaken s s.fcore k.chan then (if k.nw then .fault { code := cOpTableFull } else .stall k.chan)
  else if k.bmap != 0 && maskPending (s.ctx s.fcore) s.fstr k.rmask then .wait
  else .go (acceptOp s.fcore s.fstr k ix.id s) k.fill.isSome .seq

/-- OP_ACCEPT: a place has freed for a stalled op-creating instruction. It has not issued: its stream has a turn again, in
which it is checked and issued whole, with the records and registers as they then are, and takes its place, its sequence
and its posts (R161, R237). -/
def execOpAccept (c : CoreId) (st : Stream) (s : State) : Out :=
  let q := (s.ctx c).strm st
  match q.stalled with
  | none => .next s
  | some chan =>
    .next (if 8 ≤ placesTaken s c chan then s else s.setCtx c ((s.ctx c).setStrm st { q with stalled := none }))

/-- The check that a task's kernel names the channel (R27), made with those of R136. -/
def chusePre (x : Ctx) (chan : Fin 8) : Option Flt :=
  if x.chuse.getLsbD chan.val then none else some { code := cIllegalOp }

/-- The plan of an op-creating instruction on a channel. -/
def opPlan (s : State) (chan : Fin 8) (regs : List Nat) (body : Ix → State → Try) : Plan :=
  { planOf regs body with pre := chusePre (s.ctx s.fcore) chan }

/-! ## Names (R163, R164) -/

/-- What a name resolves to. -/
inductive Named
  | op (o : Op)
  | notYet
  | gone
  | illegal
  deriving Inhabited

/-- The op listed under a name that satisfies p: live, or completed in a cycle that still shows it. -/
def findNamed (s : State) (since graph : Nat) (p : Op → Bool) : Option Op :=
  match s.ops.find? fun o => o.graph == graph && o.status.isLive && p o with
  | some o => some o
  | none => s.ops.find? fun o => o.graph == graph && p o && match o.doneAt with
      | some n => since ≤ n
      | none => false

/-- Resolves a name for the task on a core (R164); an op completed in cycle since or later still shows its state. -/
def resolveFrom (since : Nat) (s : State) (c : CoreId) (w : W64) : Named :=
  let x := s.ctx c
  let n := w.toNat
  if bitOf n 63 then
    let lc := bitsOf n 53 10
    if 639 < lc || n % 1024 != 0 then .illegal
    else
      match findNamed s since x.graph.toNat fun o =>
          o.rights.lcore == lc && o.chan.val == bitsOf n 50 3 && o.seq == bitsOf n 10 40 with
      | some o => .op o
      | none => .gone
  else
    let ch := bitsOf n 56 8
    let seq := bitsOf n 16 40
    let gen := n % 65536
    if 7 < ch then .illegal
    else
      let r := rightsOf s c
      let own := x.task.toNat % 65536
      match findNamed s since x.graph.toNat fun o =>
          gen == own && o.rights.lcore == r.lcore && o.chan.val == ch && o.seq == seq && o.gen == gen with
      | some o => .op o
      | none =>
        let base := (x.oseq[Fin.ofNat 8 ch]).toNat
        let ctr := seqCounter s (Fin.ofNat 2 r.port) (Fin.ofNat 64 r.ctx) r.lcore ch
        let d := (seq + 2 ^ 40 - base) % 2 ^ 40
        if gen = own ∧ (ctr + 2 ^ 40 - base) % 2 ^ 40 ≤ d ∧ d < 2 ^ 39 then .notYet else .gone

/-- A name as an instruction that issues now resolves it: a completion shows in its own cycle (R166, R177). -/
def resolveName (s : State) (c : CoreId) (w : W64) : Named := resolveFrom s.cycle s c w

/-! ## The management instructions (R169, R200) -/

/-- The op is detached, or attached to the task on a core. -/
def Op.isOurs (o : Op) (slot : Nat) : Bool := o.owner.isNone || o.owner == some slot

/-- What a management instruction writes for a name that is no op. -/
def nameCode : Named → W64
  | .op o => BitVec.ofNat 64 o.status.code
  | .notYet => 6
  | _ => 7

/-- An instruction on the op that gA names: its effect on the state, and the value for gD. -/
def manage (t : Tok) (d a : GReg) (f : Named → State → State × W64) (s : State) : State :=
  issue t (planOf [d.val, a.val] fun _ s =>
    match resolveName s s.fcore ((s.ctx s.fcore).gr a) with
    | .illegal => .fault { code := cIllegalOp }
    | n =>
      let r := f n s
      .go (onCtx (·.setG d r.2) r.1) false .seq) s

/-- The live-task slot of the executing task. -/
def State.myslot (s : State) : Nat := ((s.core s.fcore).run.slot?).getD ((s.ctx s.fcore).task.toNat / 65536)

/-- OWAIT waits until the name is GONE or a completed op (R169); one that waits sees an op that completed since its
last turn. -/
def execOwait (t : Tok) (d a : GReg) (s : State) : Out :=
  .next (issueWaiting t (planOf [d.val, a.val] fun _ s => .go s false .seq)
    (fun s =>
      let since := if ((s.ctx s.fcore).strm s.fstr).taken then s.cycle - 1 else s.cycle
      match resolveFrom since s s.fcore ((s.ctx s.fcore).gr a) with
      | .illegal => .fault { code := cIllegalOp }
      | .notYet => .wait s
      | .gone => .done (onCtx (·.setG d 7) s) .seq
      | .op o =>
        if o.status.isLive then .wait s else .done (onCtx (·.setG d (BitVec.ofNat 64 o.status.code)) s) .seq) s)

/-- OTEST (R169). -/
def execOtest (t : Tok) (d a : GReg) (s : State) : Out :=
  .next (manage t d a (fun n s => (s, nameCode n)) s)

/-- OCANCEL (R169, R170). -/
def execOcancel (t : Tok) (d a : GReg) (s : State) : Out :=
  .next (manage t d a (fun n s =>
    match n with
    | .op o =>
      if o.isOurs s.myslot then
        let r := cancelOp o s
        (r.1, BitVec.ofNat 64 r.2.code)
      else (s, nameCode n)
    | _ => (s, nameCode n)) s)

/-- OPRIO (R168, R169). -/
def execOprio (t : Tok) (d a : GReg) (p : Fin 4) (s : State) : Out :=
  .next (manage t d a (fun n s =>
    match n with
    | .op o =>
      (if o.isOurs s.myslot && o.status.isLive then s.updOp o.oid fun o => { o with prio := p } else s, nameCode n)
    | _ => (s, nameCode n)) s)

/-- ODETACH: the orphan name of the op it detaches (R169, R171); an op that cannot be detached, or that is not the
task's, reports its state (R245, R275). -/
def execOdetach (t : Tok) (d a : GReg) (s : State) : Out :=
  .next (manage t d a (fun n s =>
    match n with
    | .op o =>
      if o.isOurs s.myslot && o.status.isLive && !o.kind.cannotDetach then
        (if o.owner.isSome then detachOp o s else s, BitVec.ofNat 64 (orphanName o.rights.lcore o.chan.val o.seq))
      else (s, nameCode n)
    | _ => (s, nameCode n)) s)

/-- OADOPT: 1 when this task took the op (R169, R171, R177). -/
def execOadopt (t : Tok) (d a : GReg) (s : State) : Out :=
  .next (manage t d a (fun n s =>
    match n with
    | .op o => if o.status.isLive && o.owner.isNone then (adoptOp s.myslot o s, 1) else (s, 0)
    | _ => (s, 0)) s)

/-- OREC copies the record out as one write, performed when the accesses ordered before it are (R169, R178, R200,
R312). Its address is checked whatever the name resolves to, but for a name that is no op's, whose ILLEGAL_OP comes first (DESIGN
CHOICE, notes/assumptions/118.md); a record that is held has not been written, and gD is written with it (R227). -/
def execOrec (t : Tok) (d a b : GReg) (c : Cls) (s : State) : Out :=
  .next (issue t (planOf [d.val, a.val, b.val] fun ix s =>
    let x := s.ctx s.fcore
    let va := x.gr b
    let l : List Piece := [⟨va.toNat, 64, 0⟩]
    match resolveName s s.fcore (x.gr a), addrFault va va 64 with
    | .illegal, _ => .fault { code := cIllegalOp }
    | _, some f => .fault f
    | n, none =>
      match n, checkPieces s.fcore (rightsOf s s.fcore) true true true s l [] none false with
      | _, (_, .fault e v) => .fault { code := e, addr := BitVec.ofNat 64 v }
      | .op o, (s, .ok us) =>
        let m := mkAccess s ix.id .store c us o.record va
        .go (onCtx (·.setG d (nameCode n)) (addAccess m s)) false .seq
      | .op o, (s, .held) => .go (hold t s (mkAccess s ix.id (.orec d (nameCode n)) c [] o.record va) l) true .stay
      | _, _ => .go (onCtx (·.setG d (nameCode n)) s) false .seq) s)

end Sys2Proof.Machine
end

