-- ==== Sys2Proof/Machine/Records.lean ====
section
/-! DEFINITION. The records the control stream loads: SHAPE, NEST and FMT (R207 to R211, R48, R59), the schedule frame
(R155, R214), and landing words: LEXP, LWAIT and the update of a word (R212, R213, R249, R317). -/

namespace Sys2Proof.Machine

open Sys2Proof

/-- Bytes of a row of cols elements of a format: packed, TERN5 five trits a byte (R48, R207). -/
def rowBytes (fmt cols : Nat) : Nat := if fmt = 11 then (cols + 4) / 5 else (cols * elemBits fmt + 7) / 8

/-- A shape record of 32 bytes (R208); its origin is (0, 0) (R272). -/
def shapeOf (w : Nat) : ShapeReg :=
  ⟨BitVec.ofNat 64 w, BitVec.ofNat 32 (bitsOf w 64 32), BitVec.ofNat 16 (bitsOf w 96 16),
    BitVec.ofNat 16 (bitsOf w 112 16), BitVec.ofNat 4 (bitsOf w 128 4), bitOf w 132, bitOf w 133, 0, 0, 0⟩

/-- The RECORD checks of a shape record (R48, R207). -/
def shapeBad (w : Nat) : Bool :=
  let h := shapeOf w
  let fmt := h.fmt.toNat
  let cols := h.cols.toNat
  h.base.toNat % 16 != 0 || h.stride.toNat % 16 != 0 || h.rows == 0 || h.cols == 0 || 13 ≤ fmt ||
  ((fmt == 7 || fmt == 10) && cols % 2 != 0) || ((fmt == 5 || fmt == 6) && cols % 4 != 0) ||
  (h.sparse && fmt != 9) || (1 < h.rows.toNat && h.stride.toInt.natAbs < rowBytes fmt cols) ||
  bitsOf w 134 122 != 0

/-- A nest record of 96 bytes (R210). -/
def nestOf (w : Nat) : NestReg :=
  ⟨Vector.ofFn fun n => BitVec.ofNat 16 (bitsOf w (96 * n.val) 16),
    Vector.ofFn fun n => BitVec.ofNat 32 (bitsOf w (96 * n.val + 32) 32),
    Vector.ofFn fun n => BitVec.ofNat 32 (bitsOf w (96 * n.val + 64) 32),
    BitVec.ofNat 16 (bitsOf w 576 16), BitVec.ofNat 64 (bitsOf w 640 64), BitVec.ofNat 64 (bitsOf w 704 64), 0⟩

/-- A nonzero address that is not k-aligned in the own scratchpad (R209). DESIGN CHOICE: tag 0x01 with a nonzero bit that must be
zero is no tag 0x01 address either (notes/assumptions/124.md). -/
def badOwn (a : W64) (k : Nat) : Bool :=
  a != 0 && (a.toNat % k != 0 || match placeOf a.toNat with
    | some (.own _) => false
    | _ => true)

/-- The RECORD checks of a nest record (R209). -/
def nestBad (w : Nat) : Bool :=
  let r := nestOf w
  r.counts.toList.any (· == 0) || r.ebytes == 0 || r.ebytes.toNat % 16 != 0 ||
  r.sstr.toList.any (·.toNat % 16 != 0) || r.dstr.toList.any (·.toNat % 16 != 0) ||
  badOwn r.lwaddr 16 || badOwn r.vwaddr 8 ||
  (List.range 6).any (fun n => bitsOf w (96 * n + 16) 16 != 0) || bitsOf w 592 48 != 0

/-- The bytes of a record in the task's own scratchpad: alignment, then the tag and the range (R178, R207). -/
def recordBytes (s : State) (a : W64) (al n : Nat) : Except Flt (List Byte) :=
  if !aligned a al then .error { code := cAlign, addr := a }
  else
    match placeOf a.toNat with
    | some (.own off) =>
      match reach s s.fcore (rightsOf s s.fcore) (.own off) n 1 false with
      | (_, .ok key) => if s.poisoned key n then .error { code := cMemUe, addr := a } else .ok (s.load key n)
      | (_, .fault e) => .error { code := e, addr := a }
      | (_, .held) => .error { code := cSpace, addr := a }
    | _ => .error { code := cSpace, addr := a }

/-- SHAPE: alignment, the tag of BASE, then RECORD; it issues in the cycle in which hN is written (R207). -/
def execShape (t : Tok) (n : Fin 16) (a : GReg) (s : State) : Out :=
  .next (issue t (following (·.gr a) 32 (planOf [a.val] fun _ s =>
    let va := (s.ctx s.fcore).gr a
    match recordBytes s va 32 32 with
    | .error f => .fault f
    | .ok bs =>
      let w := ofBytes bs
      if 3 < bitsOf w 56 8 then .fault { code := cSpace, addr := va }
      else if shapeBad w then .fault { code := cRecord, addr := va }
      else .go (onCtx (fun x => { x with h := x.h.set n (some { shapeOf w with recAt := va }) }) s) false .seq)) s)

/-- NEST (R209). -/
def execNest (t : Tok) (n : Fin 8) (a : GReg) (s : State) : Out :=
  .next (issue t (following (·.gr a) 96 (planOf [a.val] fun _ s =>
    let va := (s.ctx s.fcore).gr a
    match recordBytes s va 16 96 with
    | .error f => .fault f
    | .ok bs =>
      let w := ofBytes bs
      if nestBad w then .fault { code := cRecord, addr := va }
      else .go (onCtx (fun x => { x with n := x.n.set n (some { nestOf w with recAt := va }) }) s) false .seq)) s)

/-- A format table entry that FMT refuses (R59). -/
def entryBad (e : W64) : Bool :=
  let w := e.toNat
  13 ≤ bitsOf w 0 4 || 13 ≤ bitsOf w 4 4 || 13 ≤ bitsOf w 8 4 || 13 ≤ bitsOf w 12 4 || 6 ≤ bitsOf w 16 3 ||
  bitsOf w 22 2 == 3 || bitsOf w 24 40 != 0

/-- The 8-byte entries of a table in memory. -/
def dwordsOf : Nat → List Byte → List W64
  | 0, _ => []
  | n + 1, bs => BitVec.ofNat 64 (ofBytes (bs.take 8)) :: dwordsOf n (bs.drop 8)

/-- Writes entries from place e of the format table. -/
def setEntries (v : Vector W64 32) : Nat → List W64 → Vector W64 32
  | _, [] => v
  | e, w :: ws => setEntries (v.set (Fin.ofNat 32 e) w) (e + 1) ws

/-- FMT: an entry faulting by R59 raises FORMAT and no entry changes (R211). -/
def execFmt (t : Tok) (e : Fin 32) (a : GReg) (c : Fin 64) (s : State) : Out :=
  .next (issue t (following (·.gr a) (8 * c.val) (planOf [a.val] fun _ s =>
    let va := (s.ctx s.fcore).gr a
    match recordBytes s va 8 (8 * c.val) with
    | .error f => .fault f
    | .ok bs =>
      let es := dwordsOf c.val bs
      if es.any entryBad then .fault { code := cFormat, addr := va }
      else .go (onCtx (fun x => { x with fmt := setEntries x.fmt e.val es }) s) false .seq)) s)

/-! ## Frames (R155, R214) -/

/-- FRAME: the mode, the course and the slack; STRICT under a mapping that is not one-to-one is demoted (R16), and a
STRICT that stands is recorded (R103). A course begun before this cycle is replaced by the next one (R155). Stamps already
pending are tested against the new frame (R157, R214). RESUMED clears, DEDUCED from R158: it says of the frame that stands that
it was resumed (notes/assumptions/111.md). -/
def setFrame (m : FrameMode) (named slack : Nat) (s : State) : State :=
  let p := s.parts[s.partOfCore s.fcore]
  let demoted := m == .strict && !p.oneToOne
  let m := if demoted then .elastic else m
  let cur := s.course
  let f := s.fabric
  let begins := if f.began < s.cycle then cur + 1 else cur
  let course := if named = 0 then cur + 1 else if cur < named then named else if named = cur then begins else cur + 1
  let now := named != 0 && course == cur
  let s := onCtx (fun x => { x with
    frmode := BitVec.ofNat 2 m.code
    fcourse := BitVec.ofNat 48 course
    fwait := !now
    resumed := false
    fbegan := if now then some f.began else none
    slack := BitVec.ofNat 16 slack
    str := x.str.map fun q => { q with missed := false }
    demote := x.demote || demoted }) s
  if m = .strict then s.updGraph ((s.ctx s.fcore).graph.toNat) (fun g => { g with strict := true }) else s

/-- FRAME (R214). -/
def execFrame (t : Tok) (m : FrameMode) (a : GReg) (i : Fin 4096) (s : State) : Out :=
  .next (issue t (plain [a.val] fun s =>
    setFrame m (((s.ctx s.fcore).gr a).toNat % 2 ^ 48) (16 * i.val) s) s)

/-! ## Landing words (R212, R213) -/

/-- A landing word: target, count and generation. -/
structure LandWord where
  target : Nat
  count  : Nat
  gen    : Nat
  deriving DecidableEq, Repr, Inhabited

/-- The match test (R212). -/
def LandWord.test (w : LandWord) : LandWord :=
  if 0 < w.target ∧ w.target ≤ w.count then ⟨0, w.count - w.target, (w.gen + 1) % 2 ^ 32⟩ else w

/-- The word in memory; its flags are not read (R318). -/
def landRead (m : Memory) (key : Nat) : LandWord := ⟨m.num key 4, m.num (key + 4) 4, m.num (key + 8) 4⟩

/-- Writes the word; its flags are not written (R318). -/
def landWrite (m : Memory) (key : Nat) (w : LandWord) : Memory :=
  m.writeL key (toBytes 4 w.target ++ toBytes 4 w.count ++ toBytes 4 w.gen)

/-- The key of a landing word an instruction names: alignment, then the tag and the range (R178, R212, R230). -/
def landKey (s : State) (base a : W64) : Except Flt Nat :=
  if !aligned a 16 then .error { code := cAlign, addr := a }
  else if addrSpills (spillBase s base a) a then .error { code := cSpace, addr := a }
  else
    match placeOf a.toNat with
    | some (.own off) =>
      match reach s s.fcore (rightsOf s s.fcore) (.own off) 16 1 false with
      | (_, .ok key) => if s.poisoned key 16 then .error { code := cMemUe, addr := a } else .ok key
      | (_, .fault e) => .error { code := e, addr := a }
      | (_, .held) => .error { code := cSpace, addr := a }
    | _ => .error { code := cSpace, addr := a }

/-- LEXP: adds to the target, RECORD above 2^32 − 1, then the match test (R212). -/
def lexp (t : Tok) (regs : List Nat) (base n : Ctx → W64) (i : Fin 4096) (s : State) : State :=
  issue t (following (fun x => landAddr (base x) i) 16 (planOf regs fun _ s =>
    let x := s.ctx s.fcore
    let va := landAddr (base x) i
    match landKey s (base x) va with
    | .error f => .fault f
    | .ok key =>
      let w := landRead s.mem key
      let tg := w.target + (n x).toNat % 2 ^ 32
      if 2 ^ 32 ≤ tg then .fault { code := cRecord, addr := va }
      else .go { s with mem := landWrite s.mem key ({ w with target := tg }.test) } false .seq)) s

def execLexpControl (t : Tok) (d a : GReg) (i : Fin 4096) (s : State) : Out :=
  .next (lexp t [d.val, a.val] (·.gr a) (·.gr d) i s)
def execLexpLoadStore (t : Tok) (d a : AReg) (i : Fin 4096) (s : State) : Out :=
  .next (lexp t [d.val, a.val] (·.ar s.fstr a) (·.ar s.fstr d) i s)

/-- LWAIT waits until (gen − gD) mod 2^32 is below 2^31 (R213). It reads the word once the accesses that this read follows are
performed (R312, R314). -/
def lwait (t : Tok) (regs : List Nat) (base n : Ctx → W64) (i : Fin 4096) (s : State) : State :=
  issueWaiting t (planOf regs fun _ s => .go s false .seq)
    (fun s =>
      let x := s.ctx s.fcore
      let va := landAddr (base x) i
      match landKey s (base x) va, mustFollowAt s va 16 with
      | .error f, behind => if f.code = cMemUe ∧ behind = true then .wait s else .fault f
      | .ok _, true => .wait s
      | .ok key, false =>
        let g := (landRead s.mem key).gen
        if (g + 2 ^ 32 - (n x).toNat % 2 ^ 32) % 2 ^ 32 < 2 ^ 31 then .done s .seq else .wait s) s

def execLwaitControl (t : Tok) (d a : GReg) (i : Fin 4096) (s : State) : Out :=
  .next (lwait t [d.val, a.val] (·.gr a) (·.gr d) i s)
def execLwaitLoadStore (t : Tok) (d a : AReg) (i : Fin 4096) (s : State) : Out :=
  .next (lwait t [d.val, a.val] (·.ar s.fstr a) (·.ar s.fstr d) i s)

/-- The key of a landing word of a live task's range, by its offset in the scratchpad: where the task runs or stands
cut in place (R317). -/
def taskSpadKey (t : Task) (off : Nat) : Nat := spadKey t.pcore.val off

/-- Applies a notification of n bytes to a word in memory; none when COUNT would pass 2^32 − 1 (R317). -/
def landArrive (m : Memory) (key n : Nat) : Option Memory :=
  let w := landRead m key
  if 2 ^ 32 ≤ w.count + n then none else some (landWrite m key ({ w with count := w.count + n }.test))

end Sys2Proof.Machine
end

