-- ==== Sys2Proof/Machine/Copies.lean ====
section
/-! DEFINITION. How an engine chooses its next unit (R168, R223, R110), and the copy ops: CPY, CPYC, COPY_BURST,
COPY_ORDER_WAIT_EXPIRED, and the notification of a landing word (R237 to R239, R317). -/

namespace Sys2Proof.Machine

open Sys2Proof

/-! ## Which unit an engine begins next -/

/-- The op may begin a unit: nothing stops it. -/
def canUnit (s : State) (o : Op) : Bool :=
  (o.status == .queued || o.status == .running) && o.held.isNone && !o.cancel && !o.pausing && !behindMarker s o &&
  opFollows s o && !isSaved s o &&
  ownerRuns s o && !(s.notifies.any (·.oid == o.oid)) && debtsLetOp s o.rights.part o.rights.lcore

/-- A unit of the op that has begun can finish. -/
def canFinish (s : State) (o : Op) : Bool :=
  o.status == .running && o.held.isNone && debtsLetOp s o.rights.part o.rights.lcore

/-- The unit an engine begins: the first of the ops of a physical core that may. -/
def enginePick (s : State) (pcore : Nat) (p : Op → Bool) : Option Op :=
  leastBy engineKey (s.ops.filter fun o => o.rights.pcore == pcore && canUnit s o && p o)

/-- What an engine does for an op at its turn. -/
inductive UnitTurn
  | rest
  | begin
  | finish
  deriving DecidableEq, Repr, Inhabited

/-- A unit that has begun is finished; else, when it is the op's turn, its next unit begins, and the free value says whether
it is finished in this cycle too (R168, R170). -/
def unitTurn (o : Op) (mine : Bool) (s : State) : UnitTurn × State :=
  if o.flying then (if canFinish s o then .finish else .rest, s)
  else if mine then (if Config.mayAct s.free then .finish else .begin, { s with free := s.free + 1 })
  else (.rest, s)

/-- A unit of the op has begun. -/
def unitBegins (o : Op) (s : State) : State := s.updOp o.oid fun o => { o.began with flying := true }

/-! ## The copy order of a replay (R101, R110) -/

/-- The recorded copy order of a core, for the graph of an op (R106). -/
def recordedOrder (s : State) (o : Op) (lcore : Nat) : Option (Graph × List CopyOrd) :=
  (s.findGraph o.graph).bind fun g => (replayYelm s g).map fun y => (g, y.copies.filter (·.lcore == lcore))

/-- The op's turn has come: there is no order for it, or the ops before it in the order have begun. -/
def copyTurn (s : State) (o : Op) : Bool :=
  o.begun || o.copyFree || match o.copyAt with
  | none => true
  | some e =>
    match recordedOrder s o e.lcore with
    | none => true
    | some (g, l) => !l.contains e || (l.takeWhile (· != e)).all g.copied.contains

/-- Recording and replay when a copy op begins: its place in the core's copy order is logged, or passed. -/
def beginCopy (s : State) (o : Op) : State :=
  match o.copyAt with
  | none => s
  | some e =>
    if o.begun then s
    else
      s.updGraph o.graph fun g =>
        match g.mode with
        | .recording _ => if g.logCopy.contains e then g else { g with logCopy := g.logCopy ++ [e] }
        | .replay _ => { g with copied := g.copied ++ [e] }
        | _ => g

/-- COPY_ORDER_WAIT_EXPIRED: an op that has waited 4,096 cycles for its turn ends the order for its task (R110). -/
def execCopyOrderWaitExpired (o : Nat) (s : State) : Out :=
  match s.findOp o with
  | none => .next s
  | some op =>
    if op.kind.isCopy && op.status == .queued && canUnit s op && !copyTurn s op && op.accepted + 4096 ≤ s.cycle then
      .next (giveUpOrder op s)
    else .next s

/-! ## CPY and CPYC -/

/-- An op to be created by the executing instruction, with nothing set but its kind and channel. -/
def stallOf (s : State) (kind : OpKind) (chan : Fin 8) : Stall :=
  { kind := kind, chan := chan, prio := 0, rel := false, det := false, opc := s.focus.word.toNat / 2 ^ 26, cls := 0,
    total := 0, bmap := 0, pop := none, fill := none, reg := none, rmask := 0, nw := false, recAt := 0 }

/-- With the fields of an op word (R237). -/
def Stall.withOpWord (k : Stall) (w : OpWord) : Stall :=
  { k with prio := w.prio, det := w.det, nw := w.nw, cls := w.cls, rmask := w.rmask }

/-- Bytes of a whole copy (R238). -/
def NestReg.total (n : NestReg) : Nat := n.counts.toList.foldl (fun m c => m * c.toNat) n.ebytes.toNat

/-- A tag of 0x00 to 0x03, with the bits above the address zero (R238). -/
def localTag (a : W64) : Bool := (placeOf a.toNat).isSome

/-- The checks of a copy at issue, in the order of R237. -/
def copyFault (n : NestReg) (notify : Bool) (dst src : W64) : Option Flt :=
  if notify && n.lwaddr == 0 then some { code := cRecord, addr := n.recAt }
  else if !aligned dst 16 then some { code := cAlign, addr := dst }
  else if !aligned src 16 then some { code := cAlign, addr := src }
  else if !localTag dst then some { code := cSpace, addr := dst }
  else if !localTag src then some { code := cSpace, addr := src }
  else none

/-- CPY creates a copy op (R238). -/
def execCpy (t : Tok) (d a : AReg) (n : Fin 8) (ch : Fin 4) (w : OpWord) (notify : Bool) (s : State) : Out :=
  let chan : Fin 8 := Fin.ofNat 8 ch.val
  .next (issue t (opPlan s chan [d.val, a.val] fun ix s =>
    let x := s.ctx s.fcore
    let dst := x.ar s.fstr d
    let src := x.ar s.fstr a
    match x.n[n] with
    | none => .fault { code := cRecord }
    | some r =>
      match copyFault r notify dst src with
      | some f => .fault f
      | none =>
        createOp { (stallOf s (.copy src dst r notify none none) chan).withOpWord w with total := r.total } ix s) s)

/-- CPYC creates a copy op that commits only if its version word holds an expected value (R239). -/
def execCpyc (t : Tok) (d a : AReg) (n : Fin 8) (ch : Fin 4) (w : OpWord) (notify : Bool) (vreg : Fin 32)
    (s : State) : Out :=
  let chan : Fin 8 := Fin.ofNat 8 ch.val
  let v : AReg := Fin.ofNat 16 vreg.val
  let regs := if vreg.val < 16 then [d.val, a.val, v.val] else [d.val, a.val]
  .next (issue t (opPlan s chan regs fun ix s =>
    let x := s.ctx s.fcore
    let dst := x.ar s.fstr d
    let src := x.ar s.fstr a
    match x.n[n] with
    | none => .fault { code := cRecord }
    | some r =>
      if r.vwaddr == 0 || 65536 < r.total || 15 < vreg.val then .fault { code := cRecord, addr := r.recAt }
      else
        match copyFault r notify dst src with
        | some f => .fault f
        | none =>
          createOp { (stallOf s (.copy src dst r notify (some (x.ar s.fstr v)) (some [])) chan).withOpWord w with
            total := r.total } ix s) s)

/-! ## The copy engine -/

/-- The indices of an innermost copy, i0 first: a number in the mixed radix of the counts. -/
def nestIndices : List (BitVec 16) → Nat → List Nat
  | [], _ => []
  | c :: cs, k => k % c.toNat :: nestIndices cs (k / c.toNat)

/-- A base plus the sum of indices times signed strides (R210, R238). -/
def nestAddr (base : W64) (strides : List W32) (ix : List Nat) : W64 :=
  (strides.zip ix).foldl (fun a p => a + p.1.signExtend 64 * BitVec.ofNat 64 p.2) base

/-- The burst at a cursor: source, destination, and its bytes (R238). -/
def burstAt (src dst : W64) (n : NestReg) (cursor : Nat) : W64 × W64 × Nat :=
  let e := n.ebytes.toNat
  let ix := nestIndices n.counts.toList (cursor / e)
  let off := cursor % e
  (nestAddr src n.sstr.toList ix + BitVec.ofNat 64 off, nestAddr dst n.dstr.toList ix + BitVec.ofNat 64 off,
    min 256 (e - off))

/-- A burst has been written: the cursor moves, and its bytes notify the landing word (R238, R317). -/
def burstDone (o : Op) (n : NestReg) (notify : Bool) (bytes : Nat) (s : State) : State :=
  let s := s.updOp o.oid fun o => { o.began with cursor := o.cursor + bytes, held := none }
  if notify then { s with notifies := s.notifies ++ [⟨o.oid, n.lwaddr, bytes⟩] } else s

/-- Writes the bytes of a unit: done, held with its data (R227), or a fault. -/
def unitWrite (o : Op) (va : W64) (data : List Byte) (elem : Nat) (s : State) : State × Wrote :=
  match writeVa s (coreOfNat o.rights.pcore) (o.accessRights s) va.toNat data with
  | (s, .held) => (s.updOp o.oid fun o => { o.began with held := some ⟨s.cycle, va, data, elem⟩ }, .held)
  | r => r

/-- The version word of a CPYC, or its fault (R239). -/
def versionWord (o : Op) (n : NestReg) (s : State) : State × Except (Nat × Nat) (List Byte) :=
  readVa s (coreOfNat o.rights.pcore) (o.accessRights s) n.vwaddr.toNat 8

/-- One unit of a copy: it reads a burst and writes it; a CPYC first stages every burst, then compares, and only
then writes (R238, R239). -/
def copyUnit (o : Op) (src dst : W64) (n : NestReg) (notify : Bool) (expect : Option W64) (stage : Option (List Byte))
    (s : State) : State :=
  let c := coreOfNat o.rights.pcore
  let r := o.accessRights s
  let write (va : W64) (bs : List Byte) (s : State) : State :=
    match unitWrite o va bs 0 s with
    | (s, .done) => burstDone o n notify bs.length s
    | (s, .held) => s
    | (s, .fault e a) => opFault o e (BitVec.ofNat 64 a) s
  match expect, stage with
  | some v, some st =>
    if st.length < o.total then
      let (sa, _, k) := burstAt src dst n st.length
      match readVa s c r sa.toNat k with
      | (s, .error (e, a)) => opFault o e (BitVec.ofNat 64 a) s
      | (s, .ok bs) => s.updOp o.oid fun o => { o.began with kind := .copy src dst n notify expect (some (st ++ bs)) }
    else
      match versionWord o n s with
      | (s, .error (e, a)) => opFault o e (BitVec.ofNat 64 a) s
      | (s, .ok bs) =>
        if BitVec.ofNat 64 (ofBytes bs) = v then
          s.updOp o.oid fun o => { o with kind := .copy src dst n notify none (some st) }
        else completeOp o .cancelled (s.updOp o.oid fun o => { o with fcode := 0, faddr := 0 })
  | _, some st =>
    let (_, da, k) := burstAt src dst n o.cursor
    write da ((st.drop o.cursor).take k) s
  | _, none =>
    let (sa, da, k) := burstAt src dst n o.cursor
    match readVa s c r sa.toNat k with
    | (s, .error (e, a)) => opFault o e (BitVec.ofNat 64 a) s
    | (s, .ok bs) => write da bs s

/-- An op has a burst left that has not begun. -/
def Op.burstLeft (o : Op) (src dst : W64) (n : NestReg) : Bool :=
  if o.flying then o.cursor + (burstAt src dst n o.cursor).2.2 < o.total else o.cursor < o.total

/-- COPY_BURST: the copy engine begins or finishes a unit of the op it takes next (R168, R238, R239). An op whose last burst
has begun leaves the engine to the next. -/
def execCopyBurst (o : Nat) (s : State) : Out :=
  match s.findOp o with
  | none => .next s
  | some op =>
    match op.kind with
    | .copy src dst n notify expect stage =>
      let mine := enginePick s op.rights.pcore fun q => copyTurn s q && match q.kind with
        | .copy src dst n _ _ _ => q.burstLeft src dst n
        | _ => false
      match unitTurn op ((mine.map (·.oid)) = some op.oid) s with
      | (.rest, s) => .next s
      | (.begin, s) => .next (unitBegins op (beginCopy s op))
      | (.finish, s) => .next (copyUnit op src dst n notify expect stage (beginCopy s op))
    | _ => .next s

/-! ## Notifications (R317) -/

/-- Applies a notification of an op: to the landing word in the scratchpad, or in the image of its task's cut. None
when its COUNT would overflow; a fault code when the word is outside the rights or poisoned (R229). -/
def applyNotify (s : State) (o : Op) (va : W64) (n : Nat) : State × Option Nat :=
  let r := o.accessRights s
  match placeOf va.toNat with
  | some (.own off) =>
    match reach s (coreOfNat r.pcore) r (.own off) 16 1 true with
    | (s, .fault e) => (s, some e)
    | (s, .held) => (s, some cSpace)
    | (s, .ok key) =>
      match (s.issuer o).bind (·.image) with
      | some i =>
        if (wordsAt off 16).any i.ue.contains then (s, some cMemUe)
        else
          match landArrive i.spad off n with
          | none => (s, some cRecord)
          | some m => (s.updTask o.rights.slot fun t => { t with image := some { i with spad := m } }, none)
      | none =>
        if s.poisoned key 16 then (s, some cMemUe)
        else match landArrive s.mem key n with
        | none => (s, some cRecord)
        | some m => ({ s with mem := m }, none)
  | _ => (s, some cSpace)

/-- The first notification that can be tried: one of an op that is not FAULTED. -/
def nextNotify (s : State) : Option (Notify × List Notify) :=
  takeFirst (fun n => match s.findOp n.oid with
    | some o => o.status != .faulted
    | none => true) s.notifies

/-- LANDING_NOTIFY: one notification is applied, with the match test (R212, R317). One that cannot be is kept by its
op, which records the fault; a completed op drops it. -/
def execLandingNotify (s : State) : Out :=
  match nextNotify s with
  | none => .next s
  | some (n, rest) =>
    match s.findOp n.oid with
    | none => .next { s with notifies := rest }
    | some o =>
      match applyNotify s o n.va n.bytes with
      | (s, none) => .next { s with notifies := rest }
      | (s, some e) =>
        let s := if o.owner.isSome && o.status.isLive && !o.kind.runsOn then s else { s with notifies := rest }
        .next (if o.status.isLive then opFault o e n.va s else s)

end Sys2Proof.Machine
end

