-- ==== Sys2Proof/Machine/FabricOps.lean ====
section
/-! DEFINITION. The fabric instructions and COLL as they issue: RLD, RST, RAMO, MCST, RRED and the kinds of COLL (R244 to
R248). -/

namespace Sys2Proof.Machine

open Sys2Proof

/-! ## The remote descriptor (R244) -/

/-- The remote descriptor. -/
structure RemoteDesc where
  cls    : Cls
  path   : Path
  prio   : Fin 4
  notify : Bool
  det    : Bool
  nw     : Bool
  rmask  : BitVec 16
  land   : LandRef
  deriving DecidableEq, Repr, Inhabited

/-- PATH codes (R244). -/
def pathOf (n : Nat) : Path := if n = 0 then .direct else if n = 1 then .valley else .any

/-- The fields of a descriptor. -/
def descOf (w : Nat) : RemoteDesc :=
  ⟨Fin.ofNat 16 (bitsOf w 0 4), pathOf (bitsOf w 4 2), Fin.ofNat 4 (bitsOf w 6 2), bitOf w 8, bitOf w 9, bitOf w 10,
    BitVec.ofNat 16 (bitsOf w 16 16), ⟨bitsOf w 32 10, bitsOf w 43 21⟩⟩

/-- The RECORD checks of a descriptor (R244): PATH 3, a reserved field, LWCORE, and LWOFF where it is not COUNT. -/
def descBad (w : Nat) (rred : Bool) : Bool :=
  bitsOf w 4 2 == 3 || bitsOf w 11 5 != 0 || bitOf w 42 || 639 < bitsOf w 32 10 ||
  (if rred then bitOf w 63 else bitsOf w 43 21 % 16 != 0)

/-- The landing word a descriptor names, when NOTIFY is set. -/
def RemoteDesc.landRef (d : RemoteDesc) : Option LandRef := if d.notify then some d.land else none

/-- With the fields of a descriptor. -/
def Stall.withDesc (k : Stall) (d : RemoteDesc) : Stall :=
  { k with prio := d.prio, det := d.det, nw := d.nw, cls := d.cls, rmask := d.rmask }

/-- The checks of a gang address after its descriptor's: alignment, then SPACE without bit 63 or for a carry out of
bit 42 (R244, R245, R250). -/
def gangFault (base va : W64) (al : Nat) : Option Flt :=
  if !aligned va al then some { code := cAlign, addr := va }
  else if tagOf base < 0x80 || addrSpills base va then some { code := cSpace, addr := va }
  else none

/-- The rank and the virtual address of a gang address (R215). -/
def gangRank (a : W64) : Nat := bitsOf a.toNat 43 20
def gangVa (a : W64) : Nat := bitsOf a.toNat 0 43

/-- HASH of the executing task's graph (R73). -/
def State.myHash (s : State) : Nat := ((s.findGraph ((s.ctx s.fcore).graph.toNat)).map (·.hash)).getD 0

/-- A destination that has no number yet. -/
def newDest (rank : Nat) : FabDest := ⟨rank, none, 0, false, []⟩

/-- The registers of a gang-address field: aA and a(A+1). -/
def descRegs (a : AReg) : List Nat := [a.val, a.val + 1]

/-- A fabric op of channel 6 as its instruction asks for it. -/
def fabricStall (s : State) (d : RemoteDesc) (va count : Nat) (act : FabAct) (ranks : List Nat) (total : Nat) :
    Stall :=
  let req : FabReq := { va := va, hash := s.myHash, act := act, land := d.landRef, count := count, tries := 0 }
  { (stallOf s (.fabric req (ranks.map newDest) d.path false none none 0) 6).withDesc d with total := total }

/-- The executing instruction finds iq q full: QUEUE_OVERFLOW, or under a stamp it waits (R151, R157). -/
def iqFull (s : State) (q : QNum) : Bool := 4 ≤ ((s.ctx s.fcore).iq[q]).length

/-- The executing instruction finds no entry to pop in oq q. -/
def oqEmpty (s : State) (q : QNum) : Bool := (oldest (s.ctx s.fcore).oq[q] s.cycle).isNone

/-- The plan of a fabric or collective instruction: PRIVILEGE in a graph launched without FAB, then its channel (R136,
R68). -/
def fabPlan (s : State) (chan : Fin 8) (regs : List Nat) (body : Ix → State → Try) : Plan :=
  let x := s.ctx s.fcore
  { planOf regs body with pre := if x.fab then chusePre x chan else some { code := cPrivilege } }

/-! ## RLD, RST, RAMO, MCST (R245) -/

/-- RLD. -/
def execRld (t : Tok) (q : QNum) (a : AReg) (i : Fin 4096) (s : State) : Out :=
  .next (issue t (fabPlan s 6 (descRegs a) fun ix s =>
    let x := s.ctx s.fcore
    let base := x.ar s.fstr a
    let w := (x.ar s.fstr (a + 1)).toNat
    let d := descOf w
    let va := entryAddr base i.val
    if descBad w false || d.notify then .fault { code := cRecord }
    else
      match gangFault base va 16 with
      | some f => .fault f
      | none =>
        if iqFull s q then (if ix.must then .wait else .fault { code := cQueueOverflow })
        else
          createOp { fabricStall s d (gangVa va) 1 .read [gangRank va] 256 with fill := some q } ix s) s)

/-- RST. The entry is popped at acceptance. -/
def execRst (t : Tok) (q : QNum) (a : AReg) (i : Fin 4096) (s : State) : Out :=
  .next (issue t (fabPlan s 6 (descRegs a) fun ix s =>
    let x := s.ctx s.fcore
    let base := x.ar s.fstr a
    let w := (x.ar s.fstr (a + 1)).toNat
    let d := descOf w
    let va := entryAddr base i.val
    if descBad w false then .fault { code := cRecord }
    else
      match gangFault base va 16 with
      | some f => .fault f
      | none =>
        if oqEmpty s q then (if ix.must then .wait else .fault { code := cQueueUnderflow })
        else
          createOp { fabricStall s d (gangVa va) 2 (.write []) [gangRank va] 256 with pop := some q } ix s) s)

/-- RAMO. amocas compares with aB and writes a(B+1). -/
def execRamo (t : Tok) (op : AmoOp) (d a b : AReg) (dword ret : Bool) (s : State) : Out :=
  let regs := descRegs a ++ (if op = .cas then [b.val, b.val + 1] else [b.val]) ++ (if ret then [d.val] else [])
  .next (issue t (fabPlan s 6 regs fun ix s =>
    let x := s.ctx s.fcore
    let va := x.ar s.fstr a
    let w := (x.ar s.fstr (a + 1)).toNat
    let ds := descOf w
    let n := if dword then 8 else 4
    let y := if op = .cas then x.ar s.fstr (b + 1) else x.ar s.fstr b
    if descBad w false then .fault { code := cRecord }
    else
      match gangFault va va n with
      | some f => .fault f
      | none =>
        createOp { fabricStall s ds (gangVa va) 1
          (.amo op (if dword then .b8 else .b4) y (x.ar s.fstr b) ret) [gangRank va] n with
            reg := if ret then some d else none } ix s) s)

/-- A rank set: FIRST, COUNT, STEP; none for the values that raise RECORD. -/
def rankSet (w : Nat) : Option (List Nat) :=
  let first := bitsOf w 0 20
  let count := bitsOf w 20 20
  let step := bitsOf w 40 20
  if count = 0 ∨ step = 0 ∨ bitsOf w 60 4 ≠ 0 then none else some ((List.range count).map fun k => first + k * step)

/-- MCST. -/
def execMcst (t : Tok) (q : QNum) (a b : AReg) (s : State) : Out :=
  .next (issue t (fabPlan s 6 (descRegs a ++ [b.val]) fun ix s =>
    let x := s.ctx s.fcore
    let va := x.ar s.fstr a
    let w := (x.ar s.fstr (a + 1)).toNat
    let d := descOf w
    match rankSet (x.ar s.fstr b).toNat with
    | none => .fault { code := cRecord }
    | some ranks =>
      if descBad w false then .fault { code := cRecord }
      else
        match gangFault va va 16 with
        | some f => .fault f
        | none =>
          if oqEmpty s q then (if ix.must then .wait else .fault { code := cQueueUnderflow })
          else
            createOp { fabricStall s d (gangVa va) 2 (.write []) ranks (256 * ranks.length) with pop := some q } ix s)
    s)

/-! ## RRED (R246) -/

/-- RRED: the reduction point is the rank of its gang address. -/
def execRred (t : Tok) (q : QNum) (a : AReg) (f : RedFunc) (s : State) : Out :=
  .next (issue t (fabPlan s 7 (descRegs a) fun ix s =>
    let x := s.ctx s.fcore
    let va := x.ar s.fstr a
    let w := (x.ar s.fstr (a + 1)).toNat
    let d := descOf w
    let p := gangRank va
    let count := bitsOf w 43 20
    let own := (s.parts[s.partOfCore s.fcore]).ownrank
    if descBad w true || d.notify || count == 0 || 524288 < count || own < p || p + count ≤ own then
      .fault { code := cRecord }
    else
      match gangFault va va 16 with
      | some f => .fault f
      | none =>
        if iqFull s q then (if ix.must then .wait else .fault { code := cQueueOverflow })
        else
          let m : RredMsg := ⟨s.myHash, p, gangVa va, 0, own, f, count, []⟩
          createOp { (stallOf s (.rred m q 0 [] d.path 0) 7).withDesc d with total := 256, fill := some q } ix s) s)

/-! ## COLL (R247, R248) -/

/-- The message a member's COLL sends, with nothing in it yet: its set and what must match. -/
def collOf (hash : Nat) (kind : CollKind) (w own : Nat) : CollMsg where
  hash := hash
  first := bitsOf w 0 20
  count := bitsOf w 20 20
  stride := bitsOf w 40 20
  index := 0
  member := (own - bitsOf w 0 20) / bitsOf w 40 20
  kind := kind
  func := bitsOf w 60 4
  bytes := bitsOf w 64 32
  root := bitsOf w 96 20
  off := 0
  data := []
  fcode := 0

/-- The RECORD checks of a collective record (R247, notes/assumptions/18.md). -/
def collBad (kind : CollKind) (w own : Nat) : Bool :=
  let first := bitsOf w 0 20
  let count := bitsOf w 20 20
  let step := bitsOf w 40 20
  let bytes := bitsOf w 64 32
  let lw := BitVec.ofNat 64 (bitsOf w 128 64)
  bitsOf w 120 8 != 0 || bitsOf w 192 64 != 0 || count == 0 || 524288 < count || step == 0 ||
  2 ^ 20 ≤ first + (count - 1) * step || count ≤ bitsOf w 96 20 || 5 < bitsOf w 60 4 || own < first ||
  (own - first) % step != 0 || count ≤ (own - first) / step ||
  (kind != .barrier && (bytes % 256 != 0 || bytes == 0)) || badOwn lw 16

/-- Bytes a member's COLL writes (R248). -/
def collBytes (c : CollMsg) : Nat :=
  match c.kind with
  | .allgather => c.count * c.bytes
  | .redscat | .allred | .bcast => c.bytes
  | .barrier => 0

/-- The source or the destination of a COLL: 16-aligned, with tag 0x00, 0x01 or 0x03. -/
def collTagBad (a : W64) : Bool := tagOf a == 2 || !localTag a

/-- Creates a collective op: the record, then alignment, then the tags (R237, R247). Its record is read as it issues, after the
accesses that this read follows (R312). -/
def collIssue (kind : CollKind) (t : Tok) (dst src : Ctx → W64) (regs : List Nat) (a : AReg) (p : Fin 4) (det nw : Bool)
    (s : State) : State :=
  issue t (following (·.ar s.fstr a) 32 (fabPlan s 7 (a.val :: regs) (fun ix s =>
    let x := s.ctx s.fcore
    let own := (s.parts[s.partOfCore s.fcore]).ownrank
    match recordBytes s (x.ar s.fstr a) 32 32 with
    | .error f => .fault f
    | .ok bs =>
      let w := ofBytes bs
      let d := dst x
      let b := src x
      if collBad kind w own then .fault { code := cRecord, addr := x.ar s.fstr a }
      else if !aligned d 16 then .fault { code := cAlign, addr := d }
      else if !aligned b 16 then .fault { code := cAlign, addr := b }
      else if kind != .barrier && collTagBad d then .fault { code := cSpace, addr := d }
      else if kind != .barrier && collTagBad b then .fault { code := cSpace, addr := b }
      else
        let c := collOf s.myHash kind w own
        createOp { stallOf s (.coll c b d (BitVec.ofNat 64 (bitsOf w 128 64)) false false) 7 with
          prio := p, det := det, nw := nw, cls := Fin.ofNat 16 (bitsOf w 116 4), rmask := -1,
          total := collBytes c, recAt := x.ar s.fstr a } ix s))) s

/-- COLL allgather. -/
def execCollAllgather (t : Tok) (d a b : AReg) (p : Fin 4) (det nw : Bool) (s : State) : Out :=
  .next (collIssue .allgather t (·.ar s.fstr d) (·.ar s.fstr b) [d.val, b.val] a p det nw s)
/-- COLL redscat. -/
def execCollRedscat (t : Tok) (d a b : AReg) (p : Fin 4) (det nw : Bool) (s : State) : Out :=
  .next (collIssue .redscat t (·.ar s.fstr d) (·.ar s.fstr b) [d.val, b.val] a p det nw s)
/-- COLL allred. -/
def execCollAllred (t : Tok) (d a b : AReg) (p : Fin 4) (det nw : Bool) (s : State) : Out :=
  .next (collIssue .allred t (·.ar s.fstr d) (·.ar s.fstr b) [d.val, b.val] a p det nw s)
/-- COLL bcast. -/
def execCollBcast (t : Tok) (d a b : AReg) (p : Fin 4) (det nw : Bool) (s : State) : Out :=
  .next (collIssue .bcast t (·.ar s.fstr d) (·.ar s.fstr b) [d.val, b.val] a p det nw s)
/-- COLL barrier: d and b are not read. -/
def execCollBarrier (t : Tok) (a : AReg) (p : Fin 4) (det nw : Bool) (s : State) : Out :=
  .next (collIssue .barrier t (fun _ => 0) (fun _ => 0) [] a p det nw s)

end Sys2Proof.Machine
end

