-- ==== Sys2Proof/Machine/Commits.lean ====
section
/-! DEFINITION. The receiving side of the fabric: commit sequencers (R300, R301), notifications of remote ops (R244),
records and replies at the source, skips, and the internal path (R364). How a record or a reply carries a fault or flags
is the model's (notes/assumptions/12.md). -/

namespace Sys2Proof.Machine

open Sys2Proof

/-! ## Sequencers -/

/-- The sequencer of a source and class at a partition. -/
def Sequencer.is (q : Sequencer) (src : Party) (part : Nat) (cls : Cls) : Bool :=
  q.src == src && q.part == part && q.cls == cls

/-- The sequencer as it stands; one that nothing has reached yet waits for number 0. -/
def sequencer (s : State) (src : Party) (part : Nat) (cls : Cls) : Sequencer :=
  (s.fabric.seqs.find? (·.is src part cls)).getD ⟨src, part, cls, 0, [], false, []⟩

/-- Puts a sequencer back. -/
def setSequencer (q : Sequencer) (s : State) : State :=
  { s with fabric := { s.fabric with
      seqs := q :: s.fabric.seqs.filter fun p => !p.is q.src q.part q.cls } }

/-- The op whose turn it is, when every batten of it has arrived (R300). -/
def Sequencer.head (q : Sequencer) : Option Pending :=
  q.ops.find? fun p => p.num == q.next && p.req.count ≤ p.got.length

/-- Passes the numbers that skip records name (R301). -/
def passSkips : Nat → Sequencer → Sequencer
  | 0, q => q
  | n + 1, q =>
    if q.skips.contains q.next then
      passSkips n { q with next := (q.next + 1) % 2 ^ 28, stopped := false, skips := q.skips.filter (· != q.next),
                           ops := q.ops.filter (·.num != q.next) }
    else q

/-- Changes the op at the head. -/
def Sequencer.updHead (q : Sequencer) (f : Pending → Pending) : Sequencer :=
  { q with ops := updWhere (·.num == q.next) f q.ops }

/-! ## Where a remote access lands (R244, R301) -/

/-- The graph a remote access belongs to: of the context that holds FAB, with the sender's HASH, of the lowest handle. -/
def remoteGraph (s : State) (part hash : Nat) : Option Graph :=
  if hash = 0 then none
  else leastBy (·.handle) (s.graphs.filter fun g => g.fab && g.part == part && g.hash == hash)

/-- The rights of a remote access in a graph: device virtual addresses, in the graph's context. -/
def remoteRights (g : Graph) : Rights :=
  { lcore := 0, pcore := 0, part := g.part, port := (portOf g.handle).val, ctx := (ctxOf g.handle).val, root := g.root,
    base := 0, size := 0, slot := 0, live := false, held := [], oid := 0, me := 0 }

/-- The core whose translation cache a partition's receiving side uses: the first of its dies. -/
def receiverCore (s : State) (part : Nat) : CoreId := coreOfNat (160 * ((s.parts[Fin.ofNat 4 part]).dies.headD 0))

/-- A task's streams are still to start on its core, so that it does not run yet (R93). -/
def isStarting (s : State) (t : Task) : Bool :=
  match (s.core t.pcore).run with
  | .starting slot _ => slot == t.slot
  | _ => false

/-- Which of several tasks on one logical core a notification is for: a task before a handler, and one that runs before one
that stands cut (notes/assumptions/107.md). -/
def notifyRank (t : Task) : Nat :=
  (if t.serves.isNone then 0 else 4) + match t.st with
    | .running | .ending => 0
    | .cutHeld | .walkFault => 1
    | _ => 2

/-- The task that runs, or stands cut, on a logical core for a graph (R244). -/
def taskOn (s : State) (graph lcore : Nat) : Option Task :=
  leastBy notifyRank (s.tasks.filter fun t => t.graph == graph && t.lcore == lcore && !isStarting s t &&
    t.st != .bound && t.st != .ready)

/-- Applies a notification of n bytes to a word at an offset from a task's base: the fault code when it cannot be
(R212, R229, R244). -/
def notifyTask (t : Task) (off n : Nat) (s : State) : State × Option Nat :=
  if t.size < off + 16 then (s, some cSpace)
  else
    match t.image with
    | some i =>
      if (wordsAt (t.base + off) 16).any i.ue.contains then (s, some cMemUe)
      else match landArrive i.spad (t.base + off) n with
      | none => (s, some cRecord)
      | some m => (s.updTask t.slot fun t => { t with image := some { i with spad := m } }, none)
    | none =>
      if s.poisoned (taskSpadKey t (t.base + off)) 16 then (s, some cMemUe)
      else match landArrive s.mem (taskSpadKey t (t.base + off)) n with
      | none => (s, some cRecord)
      | some m => ({ s with mem := m }, none)

/-- Bytes a remote access commits: what its notification counts (R244). -/
def actBytes : FabAct → Nat
  | .write d => d.length
  | .read => 0
  | .amo _ sz _ _ _ => sizeBytes sz

/-- Performs a remote access: what it answers and its flags; held under WB; or a fault (R245, R301). -/
def remoteAccess (g : Graph) (q : FabReq) (count : Bool) (s : State) : State × Except Wrote (List Byte × Nat) :=
  let c := receiverCore s g.part
  let r := remoteRights g
  match q.act with
  | .write bs =>
    match writeVaAt count s c r q.va bs with
    | (s, .done) => (s, .ok ([], 0))
    | (s, w) => (s, .error w)
  | .read =>
    match readVa s c r q.va 256 with
    | (s, .ok bs) => (s, .ok (bs, 0))
    | (s, .error (e, a)) => (s, .error (.fault e a))
  | .amo op sz y cmp _ =>
    let n := sizeBytes sz
    match checkPieces c r true true count s [⟨q.va, n, 0⟩] [] none false with
    | (s, .held) => (s, .error .held)
    | (s, .fault e a) => (s, .error (.fault e a))
    | (s, .ok us) =>
      let key := firstKey us
      if s.poisoned key n then (s, .error (.fault cMemUe q.va))
      else
        let old := s.mem.num key n
        let v := amoFn op n old y.toNat cmp.toNat
        (s.store key (toBytes n v.1), .ok (toBytes 8 (amoOld op n old).toNat, v.2.toNat))

/-! ## Records and replies back to a source -/

/-- Sends one batten of a record or reply to a source, by path ANY at priority 3 (R300). -/
def sendBack (q : Sequencer) (num n : Nat) (body : BattenBody) (s : State) : State :=
  enqueue s 0 q.part .any 3 (battensOf (s.party q.part) q.src q.cls num n body)

/-- The answers of an op that has committed: its commit record, and its reply (R300). -/
def sendAnswers (q : Sequencer) (p : Pending) (res : List Byte × Nat) (s : State) : State :=
  let s := match p.req.act with
    | .read => sendBack q p.num 2 (.reply p.num res.1 0) s
    | .amo _ _ _ _ true => sendBack q p.num 1 (.reply p.num res.1 res.2) s
    | _ => s
  sendBack q p.num 1 (.commitRecord p.num none res.2) s

/-- The numbers that a sequencer passes because they are skipped are acknowledged by a record too, which names the newest one
passed (R300, R301; DESIGN CHOICE, notes/assumptions/119.md). -/
def passAndTell (q : Sequencer) (s : State) : State :=
  let q' := passSkips 512 q
  let s := setSequencer q' s
  if q'.next = q.next then s
  else
    let n := (q'.next + 2 ^ 28 - 1) % 2 ^ 28
    sendBack q n 1 (.commitRecord n none 0) s

/-- The op at the head has committed: the sequencer goes on (R300). -/
def commitDone (q : Sequencer) (p : Pending) (res : List Byte × Nat) (s : State) : State :=
  let q' := { q with next := (q.next + 1) % 2 ^ 28, stopped := false, ops := q.ops.filter (·.num != p.num) }
  passAndTell q' (sendAnswers q p res s)

/-- A commit that faults stops its sequencer there, and the fault goes back to the source (R301). Battens of
a later sending under the number start it again. -/
def commitFault (q : Sequencer) (p : Pending) (code addr : Nat) (s : State) : State :=
  let q' := { q.updHead fun p => { p with got := [], since := none, heldAt := none } with stopped := true }
  sendBack q p.num 1 (.commitRecord ((p.num + 2 ^ 28 - 1) % 2 ^ 28) (some ⟨p.num, code, addr, p.req.tries⟩) 0) (setSequencer q' s)

/-- Waits from now, unless it waits already. -/
def Pending.waitFrom (p : Pending) (cycle : Nat) : Pending := { p with since := some (p.since.getD cycle) }

/-- The access of the head is performed: its notification, if it has one, is part of the commit (R244, R300). -/
def commitNotify (q : Sequencer) (p : Pending) (res : List Byte × Nat) (s : State) : State :=
  match p.req.land with
  | none => commitDone q p res s
  | some l =>
    match (remoteGraph s q.part p.req.hash).bind fun g => taskOn s g.handle l.lwcore with
    | none => setSequencer (q.updHead fun p => { p with res := some res }.waitFrom s.cycle) s
    | some t =>
      match notifyTask t l.lwoff (actBytes p.req.act) s with
      | (s, none) => commitDone q p res s
      | (s, some e) => commitFault (q.updHead fun p => { p with res := some res }) { p with res := some res } e p.req.va s

/-- Tries the access of the head (R300, R301). -/
def commitAccess (q : Sequencer) (p : Pending) (s : State) : State :=
  match remoteGraph s q.part p.req.hash with
  | none => setSequencer (q.updHead (·.waitFrom s.cycle)) s
  | some g =>
    match remoteAccess g p.req p.heldAt.isNone s with
    | (s, .ok res) => commitNotify (q.updHead fun p => { p with res := some res, since := none, heldAt := none })
        { p with res := some res, since := none, heldAt := none } res s
    | (s, .error (.fault e a)) => commitFault q p e a s
    | (s, .error _) =>
      setSequencer (q.updHead fun p => { p with since := none, heldAt := some (p.heldAt.getD s.cycle) }) s

/-- COMMIT: the next op of a (source, class) commits, once all its battens are there (R300). -/
def execCommit (src : Party) (part : Fin 4) (cls : Cls) (s : State) : Out :=
  let q := sequencer s src part.val cls
  match q.head with
  | none => .next s
  | some p =>
    match p.res with
    | some res => .next (commitNotify q p res s)
    | none => if p.heldAt.isSome then .next s else .next (commitAccess q p s)

/-- NOTIFY_HOLD_EXPIRED: a commit that has waited 2,400,000 cycles for its graph or for its notification's task faults
(R244, R301). -/
def execNotifyHoldExpired (src : Party) (part : Fin 4) (cls : Cls) (s : State) : Out :=
  let q := sequencer s src part.val cls
  match q.head with
  | none => .next s
  | some p =>
    match p.since with
    | none => .next s
    | some n =>
      if n + Config.holdCycles ≤ s.cycle then .next (commitFault q p cFabricUnreachable p.req.va s) else .next s

/-! ## At the source -/

/-- The destination of an op that a record or reply names: its party, class and number. -/
def isDest (o : Op) (b : Batten) (num : Nat) (d : FabDest) : Bool :=
  d.party == some b.src && o.cls == b.cls && d.num == num

/-- The destinations of a fabric op. -/
def OpKind.dests : OpKind → List FabDest
  | .fabric _ ds _ _ _ _ _ => ds
  | _ => []

/-- Changes the destinations of a fabric op, and its cursor with those done in order (R167). -/
def Op.setDests (o : Op) (ds : List FabDest) : Op :=
  match o.kind with
  | .fabric q _ pa se f rg ls =>
    { o with kind := .fabric q ds pa se f rg ls, cursor := (ds.takeWhile (·.done)).length * (o.total / max 1 ds.length) }
  | _ => o

/-- Which sending of a fabric op is under way (R301). -/
def OpKind.tries : OpKind → Nat
  | .fabric q _ _ _ _ _ _ => q.tries
  | _ => 0

/-- The op completes by its reply, and not by a record: RLD, and RAMO with RET (R300). -/
def OpKind.byReply : OpKind → Bool
  | .fabric q _ _ _ _ _ _ =>
    match q.act with
    | .read => true
    | .amo _ _ _ _ ret => ret
    | .write _ => false
  | _ => false

/-- The op waits for its own record: an amofadd without RET, whose flags come with it (R245). -/
def OpKind.ownRecord : OpKind → Bool
  | .fabric q _ _ _ _ _ _ =>
    match q.act with
    | .amo .fadd _ _ _ ret => !ret
    | _ => false
  | _ => false

/-- The live fabric ops of a partition. -/
def fabricOps (s : State) (part : Nat) : List Op :=
  s.ops.filter fun o => o.status.isLive && o.rights.part == part && o.kind.isFabric

/-- A number is acknowledged by a record that names the newest one passed (R300). -/
def acknowledged (num upto : Nat) : Bool := num == upto || numBefore num upto

/-- A commit record reaches its source: the ops it covers are acknowledged, skipped numbers among them, and a fault goes to its
op (R300, R301). One that
has come before changes nothing: the op is FAULTED, or has gone on in another sending (R302). -/
def arriveRecord (b : Batten) (upto : Nat) (fault : Option RecFault) (flags : Nat) (s : State) : State :=
  let covers (o : Op) (d : FabDest) : Bool :=
    d.party == some b.src && o.cls == b.cls && (d.num == upto || (numBefore d.num upto && !o.kind.ownRecord))
  let passed (n : Numbering) : Bool := n.part == b.dst.part && n.dst == b.src && n.cls == b.cls && acknowledged n.next upto
  let s := { s with fabric := { s.fabric with skipped := s.fabric.skipped.filter fun n => !passed n } }
  let s := (fabricOps s b.dst.part).foldl (fun s o =>
    if o.kind.byReply then s
    else
      let own := o.kind.dests.any fun d => isDest o b upto d
      let s := if own then opFlags s o (BitVec.ofNat 6 flags) else s
      s.updOp o.oid fun o => o.setDests (o.kind.dests.map fun d => if covers o d then { d with done := true } else d)) s
  match fault with
  | none => s
  | some e =>
    match (fabricOps s b.dst.part).find? fun o =>
        o.status != .faulted && o.kind.tries == e.tries && o.kind.dests.any (isDest o b e.num) with
    | none => s
    | some o =>
      let rank := ((o.kind.dests.find? (isDest o b e.num)).map (·.rank)).getD 0
      opFault o e.code (gangAddr rank e.addr) s

/-- A reply reaches its source: once its battens are there the op has it (R245, R300). -/
def arriveReply (b : Batten) (num : Nat) (data : List Byte) (flags : Nat) (s : State) : State :=
  match (fabricOps s b.dst.part).find? fun o => o.kind.byReply && o.kind.dests.any (isDest o b num) with
  | none => s
  | some o =>
    let ds := o.kind.dests.map fun d => { d with got := (d.got ++ [b.bidx]).eraseDups }
    let whole := ds.all fun d => battensFor data.length ≤ d.got.length
    let ds := ds.map fun d => { d with done := whole }
    s.updOp o.oid fun o => { o.setDests ds with reply := if whole then some (data, BitVec.ofNat 6 flags) else none }

/-! ## Delivery -/

/-- A batten of an op that is there already: of the op that a fault has stopped only a later sending counts (R301, R302). -/
def Sequencer.again (q : Sequencer) (b : Batten) (req : FabReq) (p : Pending) : Pending :=
  if q.stopped && p.num == q.next && req.tries ≤ p.req.tries then p
  else { p with req := if p.req.tries < req.tries then req else p.req, got := (p.got ++ [b.bidx]).eraseDups }

/-- A data batten reaches its sequencer; one that was accepted, or whose number has been passed, is discarded (R302). -/
def arriveData (b : Batten) (req : FabReq) (s : State) : State :=
  let q := sequencer s b.src b.dst.part b.cls
  if numBefore b.cseq q.next then s
  else if q.ops.any (·.num == b.cseq) then
    let restarts := q.stopped && b.cseq == q.next && q.ops.any fun p => p.num == b.cseq && p.req.tries < req.tries
    setSequencer { q with stopped := q.stopped && !restarts, ops := updWhere (·.num == b.cseq) (q.again b req) q.ops } s
  else setSequencer { q with ops := q.ops ++ [⟨b.cseq, req, [b.bidx], none, none, none⟩] } s

/-- A skip record reaches its sequencer, which passes the number when its turn has come (R301). -/
def arriveSkip (b : Batten) (num : Nat) (s : State) : State :=
  let q := sequencer s b.src b.dst.part b.cls
  if numBefore num q.next then s else passAndTell { q with skips := num :: q.skips } s

/-- What a batten of KIND 4 or 5 is known by: its header, without its payload (R302). -/
def battenIdent (b : Batten) : Batten := { b with hop := 0, body := .idle }

/-- The batten has been accepted before (R302). -/
def State.accepted (s : State) (b : Batten) : Bool := s.fabric.seen.contains (battenIdent b)

/-- Accepts a batten of KIND 4 or 5. The record of one whose number lies far behind goes, as numbers count modulo 2^28. -/
def accept (b : Batten) (s : State) : State :=
  let old (e : Batten) : Bool :=
    e.src == b.src && e.dst == b.dst && e.cls == b.cls && (b.cseq + 2 ^ 28 - e.cseq) % 2 ^ 28 / 2 ^ 26 == 1
  { s with fabric := { s.fabric with seen := battenIdent b :: s.fabric.seen.filter fun e => !old e } }

/-- A batten reaches the receiving side of its destination partition (R295, R302, R364). -/
def deliver (b : Batten) (s : State) : State :=
  match b.body with
  | .idle | .calibration _ _ => s
  | .data req => arriveData b req s
  | .commitRecord upto fault flags => arriveRecord b upto fault flags s
  | .reply num data flags => arriveReply b num data flags s
  | .skip num => arriveSkip b num s
  | .coll m => if s.accepted b then s else arriveColl b.dst.part m b.bidx (accept b s)
  | .gang m => if s.accepted b then s else arriveGang b.dst.part m (accept b s)
  | .rred m => if s.accepted b then s else arriveRred b.dst.part m b.bidx (accept b s)
  | .rredResult m flags => arriveResult b.dst.part m flags b.bidx s

/-- COMMIT_RECORD: a commit record arrives (R300, R301). -/
def execCommitRecord (b : Batten) (s : State) : Out :=
  match b.body with
  | .commitRecord upto fault flags => .next (arriveRecord b upto fault flags s)
  | _ => .next s

/-- REPLY: a reply arrives (R300). -/
def execReply (b : Batten) (s : State) : Out :=
  match b.body with
  | .reply num data flags => .next (arriveReply b num data flags s)
  | _ => .next s

/-- SKIP_RECORD: a skip record arrives (R301). -/
def execSkipRecord (b : Batten) (s : State) : Out :=
  match b.body with
  | .skip num => .next (arriveSkip b num s)
  | _ => .next s

/-! ## Sending -/

/-- A number lies 256 or more after another (R300). -/
def farAfter (num old : Nat) : Bool :=
  let k := (num + 2 ^ 28 - old % 2 ^ 28) % 2 ^ 28
  256 ≤ k && k < 2 ^ 27

/-- The commit window: the oldest op of the pair not acknowledged is not 256 or more behind; one that has ended holds it until
its number is passed (R300, R301). -/
def windowOpen (s : State) (o : OutB) : Bool :=
  match o.batten.body with
  | .data _ =>
    !((fabricOps s o.part).any fun p => p.cls == o.batten.cls && p.kind.dests.any fun d =>
      d.party == some o.batten.dst && !d.done && farAfter o.batten.cseq d.num) &&
    !(s.fabric.skipped.any fun n => n.part == o.part && n.dst == o.batten.dst && n.cls == o.batten.cls &&
      farAfter o.batten.cseq n.next)
  | _ => true

/-- The op of a queued batten may send: it is not stopped, it waits behind no marker (R223), and what its acceptance released is
performed (R314); skip records, answers and collective messages always may. -/
def maySend (s : State) (o : OutB) : Bool :=
  (o.oid == 0 || isColl o.batten || match s.findOp o.oid with
    | some p => (p.status == .queued || p.status == .running) && !behindMarker s p && opFollows s p
    | none => false) && windowOpen s o

/-- The first batten of an op leaves: the op is sent (R170). When every batten has left once, the wait for its answer begins
(R303). -/
def markSent (oid : Nat) (s : State) : State :=
  let last := !(s.fabric.out.any fun b => b.oid == oid && b.fresh)
  s.updOp oid fun o =>
    match o.kind with
    | .fabric q ds pa _ f rg ls =>
      { o.began with kind := .fabric q ds pa true f rg (if last && ls == 0 then s.cycle else ls) }
    | .rred m q place got pa ls => { o with kind := .rred m q place got pa (if last && ls == 0 then s.cycle else ls) }
    | _ => o

/-- The priority of a batten: its op's, as it stands (R168, R169). -/
def prioOf (s : State) (o : OutB) : Nat :=
  if o.oid = 0 then o.prio
  else
    match s.findOp o.oid with
    | some p => p.prio.val
    | none => o.prio

/-- The order in which the fabric engine takes battens: by the priority of their op, then by its acceptance and its channel; an
answer counts as accepted when it was made (R168). -/
def battenKey (s : State) (o : OutB) : Nat :=
  let at_ : Nat × Nat := match s.findOp o.oid with
    | some p => (p.accepted, p.chan.val)
    | none => (o.ready, 0)
  ((3 - prioOf s o) * 2 ^ 64 + at_.1) * 8 + at_.2

/-- Keeps of each partition, destination and class the first batten that carries an access: commit order (R300). -/
def firstsOf : List OutB → List OutB → List OutB
  | _, [] => []
  | seen, o :: os => if seen.any (samePair o) then firstsOf seen os else o :: firstsOf (o :: seen) os

/-- A batten of the same contribution is in the reduction store: the contribution has its room (R306). -/
def rredPlaced (s : State) (part : Nat) (m : RredMsg) : Bool :=
  s.fabric.rreds.any fun e => e.1 == part && sameRred e.2.1 m && e.2.1.rank == m.rank

/-- A contribution that finds the reduction store full is refused (R306), and so is an access that lies more than 256 past the
oldest one uncommitted (R300). -/
def refused (s : State) (b : Batten) : Bool :=
  match b.body with
  | .rred m => !rredRoom s && !s.accepted b && !rredPlaced s b.dst.part m
  | .data _ =>
    let k := (b.cseq + 2 ^ 28 - (sequencer s b.src b.dst.part b.cls).next) % 2 ^ 28
    256 < k && k < 2 ^ 27
  | _ => false

/-- The battens that the internal path may carry now (R364). -/
def internalReady (s : State) : List OutB :=
  firstsOf [] (s.fabric.out.filter fun o => o.batten.dst.pos == s.position && maySend s o && !refused s o.batten)

/-- The batten that the internal path carries next: one whose course is over, else in the order of the engine (R168, R364). -/
def pickInternal (s : State) : Option OutB :=
  leastBy (fun o => if o.ready + Config.courseCycles ≤ s.cycle then 0 else 1 + battenKey s o) (internalReady s)

/-- INTERNAL_DELIVERY: a batten addressed to this device goes to its receiving side (R364). -/
def execInternalDelivery (s : State) : Out :=
  match pickInternal s with
  | none => .next s
  | some o => .next (deliver o.batten (markSent o.oid { s with fabric := { s.fabric with out := s.fabric.out.erase o } }))

/-! ## Ops that reach nobody (R172, R303, R304) -/

/-- Cycles of 64 rounds (R303). -/
def answerCycles : Nat := 64 * 32 * Config.courseCycles

/-- A fibre of the direct path of a DIRECT batten is in KEY_HOLD: of its hall stage, or of its campus stage (R304). -/
def keyStops (s : State) (o : OutB) : Bool :=
  o.path == .direct && (List.finRange 128).any fun f =>
    (s.fabric.fibres[f]).hold && ownFibre s o.part f.val && (List.range 32).any (directHop s o.batten f)

/-- Why an op can go no further: an unreachable rank, 32 rounds without a path, or 64 without an answer. -/
def unreachable (s : State) (o : Op) : Option Nat :=
  if o.kind.dests.any (·.party.isNone) then some cFabricUnreachable
  else
    match s.fabric.out.find? fun b => b.oid == o.oid && 32 ≤ b.rounds with
    | some b => if keyStops s b then some cKeyHold else some cFabricUnreachable
    | none =>
      match o.kind with
      | .fabric _ ds _ _ _ _ ls =>
        if ls != 0 && ls + answerCycles ≤ s.cycle && !(ds.all (·.done)) then some cFabricUnreachable else none
      | .rred _ _ _ _ _ ls =>
        if ls != 0 && ls + answerCycles ≤ s.cycle && o.reply.isNone then some cFabricUnreachable else none
      | _ => none

/-- FABRIC_UNREACHABLE: the op records the fault (R172, R297, R303, R304). -/
def execFabricUnreachable (o : Nat) (s : State) : Out :=
  match s.findOp o with
  | none => .next s
  | some op =>
    if op.status == .queued || op.status == .running then
      match unreachable s op with
      | none => .next s
      | some e =>
        .next (match op.kind with
          | .fabric q ds _ _ _ _ _ =>
            opFault op e (gangAddr (((ds.find? fun d => !d.done).map (·.rank)).getD 0) q.va) s
          | .coll c _ _ _ _ _ => failColl op c e op.recAt s
          | .rred m _ _ _ _ _ => opFault op e (gangAddr m.point m.va) s
          | _ => s)
    else .next s

end Sys2Proof.Machine
end

