-- ==== Sys2Proof/Machine/Gather.lean ====
section
/-! DEFINITION. The gather family: GATH, SCAT, GRED and the event GATHER_ELEMENT (R240 to R242, R172). -/

namespace Sys2Proof.Machine

open Sys2Proof

/-! ## Creating (R237, R240 to R242) -/

/-- Bytes of a row of a record (R207). -/
def ShapeReg.rowBytes (h : ShapeReg) : Nat := Machine.rowBytes h.fmt.toNat h.cols.toNat

/-- The address of row x of a record. -/
def ShapeReg.row (h : ShapeReg) (x : Nat) : W64 := h.base + BitVec.ofNat 64 x * h.stride.signExtend 64

/-- Elements of an op of the family: every index, or a token a row (R241, R242). -/
def gatherCount (k : GatherKind) (hi : ShapeReg) : Nat :=
  if k = .gred then hi.rows.toNat else hi.rows.toNat * hi.cols.toNat

/-- The index record has another format, count or shape than the op allows: RECORD (R241, R242). -/
def indexBad (k : GatherKind) (hi : ShapeReg) : Bool :=
  let cols := hi.cols.toNat
  hi.fmt != 12 || gatherCount k hi == 0 || 65536 < gatherCount k hi ||
  (k == .gred && (cols % 2 != 0 || cols < 2 || 32 < cols))

/-- Bytes an element writes: a row, or FP32 columns (R241, R242). -/
def elementBytes (k : GatherKind) (ht : ShapeReg) : Nat := if k = .gred then 4 * ht.cols.toNat else ht.rowBytes

/-- Creates an op of the gather family: its checks in the order of R237. -/
def gatherIssue (k : GatherKind) (t : Tok) (g : GatherBody) (w : OpWord) (s : State) : State :=
  let regs := (if g.togq then [] else [g.d.val]) ++ (if g.bm then [g.m.val] else [])
  issue t (opPlan s 5 regs fun ix s =>
    let x := s.ctx s.fcore
    let dst : W64 := if g.togq then 0 else x.ar s.fstr g.d
    let bm : W64 := if g.bm then x.ar s.fstr g.m else 0
    match x.h[g.ht], x.h[g.hi] with
    | some ht, some hi =>
      if indexBad k hi then .fault { code := cRecord, addr := hi.recAt }
      else if !aligned dst 16 then .fault { code := cAlign, addr := dst }
      else if !aligned bm 8 then .fault { code := cAlign, addr := bm }
      else if !localTag dst then .fault { code := cSpace, addr := dst }
      else if !localTag ht.base then .fault { code := cSpace, addr := ht.base }
      else if !(tagOf hi.base == 1 || tagOf hi.base == 2) || !localTag hi.base then
        .fault { code := cSpace, addr := hi.base }
      else if g.bm && (tagOf bm != 1 || !localTag bm) then .fault { code := cSpace, addr := bm }
      else if k == .gred && 2 < ht.fmt.toNat then .fault { code := cFormat }
      else
        createOp { (stallOf s (.gather k dst ht hi g.togq [] []) 5).withOpWord w with
          total := gatherCount k hi, bmap := bm } ix s
    | _, _ => .fault { code := cRecord }) s

/-- GATH (R240, R241). -/
def execGath (t : Tok) (g : GatherBody) (w : OpWord) (s : State) : Out := .next (gatherIssue .gath t g w s)
/-- SCAT (R240, R241). -/
def execScat (t : Tok) (g : GatherBody) (w : OpWord) (s : State) : Out := .next (gatherIssue .scat t g w s)
/-- GRED (R240, R242). -/
def execGred (t : Tok) (g : GatherBody) (w : OpWord) (s : State) : Out := .next (gatherIssue .gred t g w s)

/-! ## Elements -/

/-- An access of an element: its bytes, or its fault. -/
abbrev ElemRes := Except (Nat × W64) (List Byte)

/-- Reads for an op. -/
def opRead (o : Op) (s : State) (va : W64) (n : Nat) : State × ElemRes :=
  match readVa s (coreOfNat o.rights.pcore) (o.accessRights s) va.toNat n with
  | (s, .ok bs) => (s, .ok bs)
  | (s, .error (e, a)) => (s, .error (e, BitVec.ofNat 64 a))

/-- Reads rows of a table in order; the first fault decides (R242). -/
def readRows (o : Op) (ht : ShapeReg) : State → List Nat → State × Except (Nat × W64) (List (List Byte))
  | s, [] => (s, .ok [])
  | s, u :: us =>
    match opRead o s (ht.row u) ht.rowBytes with
    | (s, .error e) => (s, .error e)
    | (s, .ok bs) =>
      match readRows o ht s us with
      | (s, .error e) => (s, .error e)
      | (s, .ok r) => (s, .ok (bs :: r))

/-- Sorts (index, weight) pairs by ascending index, equal ones in their order (R242). -/
def insertPair (p : Nat × W32) : List (Nat × W32) → List (Nat × W32)
  | [] => [p]
  | q :: qs => if p.1 < q.1 then p :: q :: qs else q :: insertPair p qs

/-- The pairs of a row of the index record of a GRED that name a row, in the order they are added (R242). -/
def gredPairs (bs : List Byte) : List (Nat × W32) :=
  let rec pairs : List W32 → List (Nat × W32)
    | u :: w :: r => (u.toNat, w) :: pairs r
    | _ => []
  ((pairs (wordsOf bs)).filter (·.1 != 0xFFFFFFFF)).foldl (fun l p => insertPair p l) []

/-- Column c of a table row as a value: FP32, BF16 or FP16 (R242, R55). -/
def tableValue (fmt : Nat) (row : List Byte) (c : Nat) : Val :=
  let n := if fmt = 0 then 4 else 2
  let w := ofBytes ((row.drop (n * c)).take n)
  if fmt = 0 then unpack fmtF32 w else if fmt = 1 then unpack fmtBF16 w else unpack fmtF16 w

/-- One column of a token: each step rounds once to FP32 and never flushes (R242). -/
def gredColumn (fmt c : Nat) : List (W32 × List Byte) → W32 → Flags → W32 × Flags
  | [], acc, f => (acc, f)
  | (w, row) :: r, acc, f =>
    let p := mulVal (f32 w) (tableValue fmt row c)
    let v := sumVals .rne [f32 acc, p.1]
    let e := roundF32 .rne false v.1
    gredColumn fmt c r e.1 (f ||| e.2 ||| invalidFlags (p.2 || v.2))

/-- A token's FP32 columns, with their flags (R242). -/
def gredRow (fmt cols : Nat) (rows : List (W32 × List Byte)) : List Byte × Flags :=
  let l := (List.range cols).map fun c => gredColumn fmt c rows 0 fNone
  ((l.map fun p => toBytes 4 p.1.toNat).flatten, l.foldl (fun f p => f ||| p.2) fNone)

/-- Element e of an op: where its bytes go (none: to gq), the bytes and their flags, or its fault (R241, R242). -/
def element (o : Op) (k : GatherKind) (dst : W64) (ht hi : ShapeReg) (e : Nat) (s : State) :
    State × Except (Nat × W64) (W64 × List Byte × Flags) :=
  match k with
  | .gred =>
    match opRead o s (hi.row e) (4 * hi.cols.toNat) with
    | (s, .error f) => (s, .error f)
    | (s, .ok bs) =>
      let l := gredPairs bs
      match l.find? (ht.rows.toNat ≤ ·.1) with
      | some p => (s, .error (cSpace, ht.row p.1))
      | none =>
        match readRows o ht s (l.map (·.1)) with
        | (s, .error f) => (s, .error f)
        | (s, .ok rows) =>
          let r := gredRow ht.fmt.toNat ht.cols.toNat ((l.map (·.2)).zip rows)
          (s, .ok (dst + BitVec.ofNat 64 (e * roundUp 16 (4 * ht.cols.toNat)), r.1, r.2))
  | k =>
    let cols := max 1 hi.cols.toNat
    match opRead o s (hi.row (e / cols) + BitVec.ofNat 64 (4 * (e % cols))) 4 with
    | (s, .error f) => (s, .error f)
    | (s, .ok bs) =>
      let x := ofBytes bs
      let mine := dst + BitVec.ofNat 64 (e * roundUp 16 ht.rowBytes)
      if ht.rows.toNat ≤ x then (s, .error (cSpace, ht.row x))
      else
        match opRead o s (if k = .scat then mine else ht.row x) ht.rowBytes with
        | (s, .error f) => (s, .error f)
        | (s, .ok row) => (s, .ok (if k = .scat then ht.row x else mine, row, fNone))

/-- The first fault of an element is recorded (R172, R240). -/
def Op.elemFault (o : Op) (code : Nat) (addr : W64) : Op :=
  if o.fcode = 0 then { o with fcode := code, faddr := addr } else o

/-- Sets an element's bit of the completion bitmap (R167, R240); a dword that cannot be reached is recorded as a
fault of the op (notes/assumptions/14.md). -/
def setBit (o : Op) (e : Nat) (s : State) : State :=
  if o.bmap = 0 then s
  else
    let va := o.bmap + BitVec.ofNat 64 (8 * (e / 64))
    match opRead o s va 8 with
    | (s, .error (c, a)) => s.updOp o.oid (·.elemFault c a)
    | (s, .ok bs) =>
      match writeVa s (coreOfNat o.rights.pcore) (o.accessRights s) va.toNat (toBytes 8 (ofBytes bs ||| 2 ^ (e % 64))) with
      | (s, .done) => s
      | (s, .held) => s
      | (s, .fault c a) => s.updOp o.oid (·.elemFault c (BitVec.ofNat 64 a))

/-- The cursor passes the leading elements that are done. -/
def leadDone : Nat → Nat → List (Nat × Bool) → Nat × List (Nat × Bool)
  | 0, c, l => (c, l)
  | n + 1, c, l => if l.any (·.1 == c) then leadDone n (c + 1) (l.filter (·.1 != c)) else (c, l)

/-- Changes the list of done elements beyond the cursor. -/
def OpKind.withDone : OpKind → List (Nat × Bool) → OpKind
  | .gather k d t i q _ out, l => .gather k d t i q l out
  | k, _ => k

/-- The done elements beyond the cursor. -/
def OpKind.doneList : OpKind → List (Nat × Bool)
  | .gather _ _ _ _ _ l _ => l
  | _ => []

/-- Element e is done, faulted or not: its bit and the cursor (R240). -/
def elementDone (o : Op) (e : Nat) (faulted : Bool) (s : State) : State :=
  let s := if faulted then s else setBit o e s
  s.updOp o.oid fun o =>
    let l := (e, faulted) :: o.kind.doneList
    let r := leadDone l.length o.cursor l
    { o.began with cursor := r.1, held := none, kind := o.kind.withDone r.2, elems := max o.elems r.1 }

/-- The element that completes next: the first for SCAT and for gq; else any that has begun and is not done, by a free
value. Elements begin in ascending index: with one that had not begun, those before it begin too (R240). next says that
another may begin. -/
def chooseElement (o : Op) (inOrder next : Bool) (s : State) : Nat × State :=
  if inOrder then (o.cursor, s)
  else
    let upto := if next then o.total else o.elems
    let left := ((List.range (upto - o.cursor)).map (· + o.cursor)).filter fun e => !(o.kind.doneList.any (·.1 == e))
    let (w, s) := s.takeFree
    (left.getD (w.toNat % max 1 left.length) o.cursor, s)

/-- Bytes cut into 256-byte entries, the last one zero-padded (R241). -/
def gqEntries (bs : List Byte) : List Vec :=
  (List.range ((bs.length + 255) / 256)).map fun i =>
    let l := (bs.drop (256 * i)).take 256
    vecOfBytes (l ++ List.replicate (256 - l.length) 0)

/-- One element of a gather-family op. Those that go to gq are done once their entries are pushed (R153). -/
def gatherUnit (o : Op) (k : GatherKind) (dst : W64) (ht hi : ShapeReg) (togq next : Bool) (s : State) : State :=
  let (e, s) := chooseElement o (togq || k == .scat) next s
  let s := s.updOp o.oid fun o => { o with elems := max o.elems (e + 1) }
  let toGq (bs : List Byte) (faulted : Bool) (s : State) : State :=
    s.updOp o.oid fun o => { o.began with kind := .gather k dst ht hi togq [(e, faulted)] (gqEntries bs) }
  match element o k dst ht hi e s with
  | (s, .error (c, a)) =>
    let s := s.updOp o.oid (·.elemFault c a)
    if togq then toGq (List.replicate (elementBytes k ht) 0) true s else elementDone o e true s
  | (s, .ok (va, bs, f)) =>
    if togq then toGq bs false (opFlags s o f)
    else
      match unitWrite o va bs e s with
      | (s, .done) => elementDone o e false (opFlags s o f)
      | (s, .held) => opFlags s o f
      | (s, .fault c a) => elementDone o e true (s.updOp o.oid (·.elemFault c (BitVec.ofNat 64 a)))

/-- The entries a gather op has still to push. -/
def OpKind.pushes : OpKind → List Vec
  | .gather _ _ _ _ _ _ out => out
  | _ => []

/-- The op has entries to push now: its own task is not being cut (R153). One that is to be cancelled pushes them too. -/
def pushesNow (s : State) (o : Op) : Bool := o.kind.pushes != [] && o.status == .running && ownerRuns s o

/-- The gather engine of a core waits to push (R153). -/
def gatherWaits (s : State) (pcore : Nat) : Bool := s.ops.any fun o => o.rights.pcore == pcore && pushesNow s o

/-- An element of an op completes that has begun already: the gather engine's turn is not needed. -/
def elemFinishes (s : State) (o : Op) : Bool := canFinish s o && o.openElems != [] && o.kind.pushes.isEmpty

/-- GATHER_ELEMENT: the gather engine does one element of the op it takes next, or finishes one that has begun (R168,
R240). -/
def execGatherElement (o : Nat) (s : State) : Out :=
  match s.findOp o with
  | none => .next s
  | some op =>
    match op.kind with
    | .gather k dst ht hi togq _ _ =>
      let mine := enginePick s op.rights.pcore fun q => q.kind.isGather && q.elems < q.total
      let next := (mine.map (·.oid)) = some op.oid && !gatherWaits s op.rights.pcore
      if next || elemFinishes s op then .next (gatherUnit op k dst ht hi togq next s) else .next s
    | _ => .next s

/-- Pushes one entry of a gather op to gq, or discards it when nothing can pop it any more (R153); with the last, the
element is done. -/
def gatherPush (o : Op) (s : State) : State :=
  match o.kind with
  | .gather k d t i q done (v :: rest) =>
    let dead := s.noPopper o
    let full := match s.homeCtx o with
      | some x => 16 ≤ x.gq.length
      | none => false
    if !dead && full then s
    else
      let s := if dead then s else s.onHome o fun x => { x with gq := x.gq ++ [⟨0, v, false, some s.cycle⟩] }
      let s := s.updOp o.oid fun o => { o with kind := .gather k d t i q (if rest = [] then [] else done) rest }
      match rest, done with
      | [], (e, faulted) :: _ => elementDone o e faulted s
      | _, _ => s
  | _ => s

end Sys2Proof.Machine
end

