-- ==== Sys2Proof/Machine/Matrix.lean ====
section
/-! DEFINITION. The matrix instructions of the math stream and the matrix engine: MMA, MMAS, MMAT, MMAL, ZDRN, ZCLR,
ZLD, ZST, FIDX, and the events K_GROUP, ACCUMULATOR_ROW, ENGINE_PUSH and OP_PULL (R61 to R65, R175, R176, R269 to
R288). -/

namespace Sys2Proof.Machine

open Sys2Proof

/-! ## The checks at issue (R61, R272 to R274) -/

/-- The formats of a format table entry (R58). -/
def entA (e : W64) : Nat := bitsOf e.toNat 0 4
def entB (e : W64) : Nat := bitsOf e.toNat 4 4
def entC (e : W64) : Nat := bitsOf e.toNat 8 4
def entO (e : W64) : Nat := bitsOf e.toNat 12 4
def entFzi (e : W64) : Bool := bitOf e.toNat 19
def entFzo (e : W64) : Bool := bitOf e.toNat 20
def entSp (e : W64) : Bool := bitOf e.toNat 21
def entScl (e : W64) : Nat := bitsOf e.toNat 22 2

/-- The rounding mode of an entry, resolved at issue (R51, R58). -/
def entRm (x : Ctx) (e : W64) : Rm := resolveRm x ((Rm.ofCode (bitsOf e.toNat 16 3)).getD .rne)

/-- The floating-point formats of a matrix operand. -/
def isFpCode (f : Nat) : Bool := 1 ≤ f && f ≤ 7

/-- INT8 or UINT8. -/
def isByteCode (f : Nat) : Bool := f == 8 || f == 9

/-- The entry fits an MMA-family instruction (R61). -/
def entryFits (k : MmaKind) (e : W64) : Bool :=
  let a := entA e
  let b := entB e
  match k with
  | .mma => !entSp e && ((isFpCode a && isFpCode b && entC e == 0) || (isByteCode a && isByteCode b && entC e == 12))
  | .mmas => entSp e && 1 ≤ a && a ≤ 4 && 1 ≤ b && b ≤ 4 && entC e == 0
  | .mmat => !entSp e && isByteCode a && b == 11 && entC e == 12
  | .mmal _ => !entSp e && isByteCode a && b == 10 && entC e == 12

/-- Formats that TA and TB allow: 8-bit and 16-bit ones (R273). -/
def mayTranspose (f : Nat) : Bool := (1 ≤ f && f ≤ 4) || isByteCode f

/-- Rows and columns of a record past its tile origin (R272). -/
def ShapeReg.rowsLeft (h : ShapeReg) : Nat := h.rows.toNat - h.row0.toNat
def ShapeReg.colsLeft (h : ShapeReg) : Nat := h.cols.toNat - h.col0.toNat

/-- A tile of n × m elements lies in the record, or the record pads (R273, R274). -/
def ShapeReg.covers (h : ShapeReg) (n m : Nat) : Bool :=
  0 < h.rowsLeft && 0 < h.colsLeft && (h.pad || (n ≤ h.rowsLeft && m ≤ h.colsLeft))

/-- The byte offset of column COL0 is a multiple of 16 (R272). -/
def ShapeReg.originOk (h : ShapeReg) : Bool :=
  if h.fmt == 11 then h.col0.toNat % 80 == 0 else h.col0.toNat * elemBits h.fmt.toNat % 128 == 0

/-- K of an op: what ha holds, capped at 4,096 and rounded up to a multiple of 16 (R273). -/
def kOf (ha : ShapeReg) (ta : Bool) : Nat := roundUp 16 (min 4096 (if ta then ha.rowsLeft else ha.colsLeft))

/-- The first failure of an MMA-family op's checks: of the records in the order ha, hb, hm (R273, R274, R326). -/
def mmaFault (k : MmaKind) (a b : ShapeReg) (hm : Option ShapeReg) (e : W64) (ta tb : Bool) : Option Flt :=
  let kk := kOf a ta
  let kb := if k == .mmas then kk / 2 else kk
  let tiles : List (ShapeReg × Bool) :=
    [(a, !a.sparse && (if ta then a.covers kk 64 else a.covers 64 kk)),
      (b, !b.sparse && (if tb then b.covers 64 kb else b.covers kb 64))] ++
    hm.toList.map fun m => (m, m.sparse && m.covers (kk / 4) 32)
  match tiles.find? (!·.2), tiles.find? (!·.1.originOk) with
  | some h, _ => some { code := cRecord, addr := h.1.recAt }
  | none, some h => some { code := cAlign, addr := h.1.base }
  | none, none =>
  if !entryFits k e || a.fmt.toNat != entA e || b.fmt.toNat != entB e ||
      (ta && !mayTranspose a.fmt.toNat) || (tb && !mayTranspose b.fmt.toNat) then some { code := cFormat }
  else none

/-- Creates an MMA-family op (R274, R275). hm is the metadata register of MMAS. -/
def mmaIssue (k : MmaKind) (t : Tok) (m : MmaBody) (hm : Option (Fin 16)) (s : State) : State :=
  issue t (opPlan s 4 [] fun ix s =>
    let x := s.ctx s.fcore
    let e := fmtEntry x m.fsel
    let mreg : Option (Option ShapeReg) := hm.map fun n => x.h[n]
    match x.h[m.ha], x.h[m.hb], mreg with
    | some _, some _, some none => .fault { code := cRecord }
    | some a, some b, md =>
      let md : Option ShapeReg := md.join
      match mmaFault k a b md e m.ta m.tb with
      | some f => .fault f
      | none =>
        createOp { stallOf s (.mma k m.z a b md e (entRm x e) m.acc m.ta m.tb none) 4 with
          prio := m.prio, rel := m.rel, rmask := 0xFFFF, total := kOf a m.ta / 16 } ix s
    | _, _, _ => .fault { code := cRecord }) s

/-- MMA (R275, R276). -/
def execMma (t : Tok) (m : MmaBody) (s : State) : Out := .next (mmaIssue .mma t m none s)
/-- MMAS (R279). -/
def execMmas (t : Tok) (m : MmaBody) (hm : Fin 16) (s : State) : Out := .next (mmaIssue .mmas t m (some hm) s)
/-- MMAT (R275, R276). -/
def execMmat (t : Tok) (m : MmaBody) (s : State) : Out := .next (mmaIssue .mmat t m none s)
/-- MMAL: bits is b, 1 to 4 (R64, R277). -/
def execMmal (t : Tok) (m : MmaBody) (bits : Fin 4) (s : State) : Out :=
  .next (mmaIssue (.mmal (bits.val + 1)) t m none s)

/-- The first failure of the checks of ZLD and ZST (R274, R283). -/
def zmoveFault (h : ShapeReg) : Option Flt :=
  if h.sparse || !h.covers 64 64 then some { code := cRecord, addr := h.recAt }
  else if !h.originOk then some { code := cAlign, addr := h.base }
  else if h.fmt != 0 && h.fmt != 12 then some { code := cFormat }
  else none

/-- Creates a ZLD or ZST op (R283). -/
def zmoveIssue (t : Tok) (h : Fin 16) (det : Bool) (p : Fin 4) (kind : ShapeReg → OpKind) (s : State) : State :=
  issue t (opPlan s 4 [] fun ix s =>
    match (s.ctx s.fcore).h[h] with
    | none => .fault { code := cRecord }
    | some r =>
      match zmoveFault r with
      | some f => .fault f
      | none => createOp { stallOf s (kind r) 4 with prio := p, det := det, rmask := 0xFFFF, total := 64 } ix s) s

/-- ZLD (R283). -/
def execZld (t : Tok) (z : Fin 4) (h : Fin 16) (p : Fin 4) (s : State) : Out :=
  .next (zmoveIssue t h false p (.zld z) s)
/-- ZST (R283). -/
def execZst (t : Tok) (z : Fin 4) (h : Fin 16) (det : Bool) (p : Fin 4) (s : State) : Out :=
  .next (zmoveIssue t h det p (.zst z) s)

/-- FIDX sets the tile origin of a shape register, or adds to it (R285). A register that no SHAPE has loaded raises RECORD
(R94, notes/assumptions/16.md). -/
def execFidx (t : Tok) (h : Fin 16) (a : VSrc) (add : Bool) (s : State) : Out :=
  .next (issue t (planOf [] fun ix s =>
    match (s.ctx s.fcore).h[h], readSrc s s.fcore a with
    | none, _ => .fault { code := cRecord }
    | _, .empty => if ix.must then .wait else .fault { code := cQueueUnderflow }
    | _, .poison => .fault { code := cMemUe }
    | some _, .ok v s =>
      let u := v[(0 : Fin 64)]
      let r : BitVec 16 := u.setWidth 16
      let c : BitVec 16 := (u >>> 16).setWidth 16
      .go (onCtx (fun x =>
        let x := popQueues x (srcQueues [a])
        { x with h := x.h.set h ((x.h[h]).map fun (q : ShapeReg) =>
            { q with row0 := if add then q.row0 + r else r, col0 := if add then q.col0 + c else c }) }) s)
        false .seq) s)

/-! ## Operands (R48, R272, R273) -/

/-- n element codes of a tile row from column y: those past ROWS or COLS are zeros. A TERN5 code is its trit plus 1. The
flag says that a byte of 243 to 255 was decoded (R47). -/
def tileRow (o : Op) (h : ShapeReg) (s : State) (x y n : Nat) : State × Except (Nat × W64) (List Nat × Bool) :=
  let fmt := h.fmt.toNat
  let first := h.col0.toNat + y
  let have_ := min n (h.cols.toNat - first)
  let pad : Nat := if fmt = 11 then 1 else 0
  let row := h.row0.toNat + x
  if h.rows.toNat ≤ row || have_ = 0 then (s, .ok (List.replicate n pad, false))
  else if fmt = 11 then
    let b := first / 5
    match opRead o s (h.row row + BitVec.ofNat 64 b) ((first + have_ - 1) / 5 + 1 - b) with
    | (s, .error e) => (s, .error e)
    | (s, .ok bs) =>
      let code (j : Nat) : Nat :=
        let k := (bs.getD ((first + j) / 5 - b) 0).toNat
        if 243 ≤ k then 1 else k / 3 ^ ((first + j) % 5) % 3
      (s, .ok ((List.range n).map (fun j => if j < have_ then code j else pad), bs.any fun k => 243 ≤ k.toNat))
  else
    let w := elemBits fmt
    let b := first * w / 8
    match opRead o s (h.row row + BitVec.ofNat 64 b) ((first + have_) * w / 8 + (if (first + have_) * w % 8 = 0 then 0 else 1) - b) with
    | (s, .error e) => (s, .error e)
    | (s, .ok bs) =>
      let v := ofBytes bs
      let at_ := first * w - 8 * b
      (s, .ok ((List.range n).map (fun j => if j < have_ then bitsOf v (at_ + w * j) w else 0), false))

/-- Several tile rows of n codes from column y. -/
def tileRows (o : Op) (h : ShapeReg) (y n : Nat) :
    State → List Nat → State × Except (Nat × W64) (List (List Nat) × Bool)
  | s, [] => (s, .ok ([], false))
  | s, x :: xs =>
    match tileRow o h s x y n with
    | (s, .error e) => (s, .error e)
    | (s, .ok (r, t)) =>
      match tileRows o h y n s xs with
      | (s, .error e) => (s, .error e)
      | (s, .ok (rs, ts)) => (s, .ok (r :: rs, t || ts))

/-- The columns of rows. -/
def columnsOf (n : Nat) (rows : List (List Nat)) : List (List Nat) := (List.range n).map fun j => rows.map (·.getD j 0)

/-- Sixty-four lists of the group's sixteen codes: rows of A, or columns of B. along says that k runs along the
record's columns (R273). -/
def groupCodes (o : Op) (h : ShapeReg) (along : Bool) (g : Nat) (s : State) :
    State × Except (Nat × W64) (List (List Nat) × Bool) :=
  if along then tileRows o h (16 * g) 16 s (List.range 64)
  else
    match tileRows o h 0 64 s ((List.range 16).map (· + 16 * g)) with
    | (s, .error e) => (s, .error e)
    | (s, .ok (rs, t)) => (s, .ok (columnsOf 64 rs, t))

/-- The nibble of a metadata row for column j (R279). -/
def metaNibble (row : List Nat) (j : Nat) : Nat := row.getD (j / 2) 0 / 2 ^ (4 * (j % 2)) % 16

/-- The kept values of two compressed rows, column by column; those under a zero nibble are not read (R279). -/
def keptPairs (o : Op) (b : ShapeReg) (q : Nat) (nib : List Nat) : State → List Nat →
    State × Except (Nat × W64) (List (Nat × Nat))
  | s, [] => (s, .ok [])
  | s, j :: js =>
    let rd : State × Except (Nat × W64) (List (List Nat) × Bool) :=
      if nib.getD j 0 = 0 then (s, .ok ([], false)) else tileRows o b j 1 s [2 * q, 2 * q + 1]
    match rd with
    | (s, .error e) => (s, .error e)
    | (s, .ok (l, _)) =>
      match keptPairs o b q nib s js with
      | (s, .error e) => (s, .error e)
      | (s, .ok r) => (s, .ok (((l.getD 0 []).getD 0 0, (l.getD 1 []).getD 0 0) :: r))

/-- The columns of B of an MMAS group, expanded by its metadata; none is a position left out (R279). -/
def sparseCodes (o : Op) (b m : ShapeReg) (g : Nat) : State → List Nat →
    State × Except (Nat × W64) (List (List (Option Nat)))
  | s, [] => (s, .ok (List.replicate 64 []))
  | s, i :: is =>
    let q := 4 * g + i
    match tileRow o m s q 0 32 with
    | (s, .error e) => (s, .error e)
    | (s, .ok (row, _)) =>
      let nib := (List.range 64).map (metaNibble row)
      if nib.any fun n => n != 0 && n / 4 ≤ n % 4 then (s, .error (cRecord, m.row (m.row0.toNat + q)))
      else
        match keptPairs o b q nib s (List.range 64) with
        | (s, .error e) => (s, .error e)
        | (s, .ok rs) =>
          match sparseCodes o b m g s is with
          | (s, .error e) => (s, .error e)
          | (s, .ok rest) =>
            let col (j : Nat) : List (Option Nat) :=
              let n := nib.getD j 0
              (List.range 4).map fun p =>
                if n = 0 then none
                else if p = n % 4 then some (rs.getD j (0, 0)).1
                else if p = n / 4 then some (rs.getD j (0, 0)).2 else none
            (s, .ok ((List.range 64).map fun j => col j ++ rest.getD j []))

/-! ## Group sums (R62 to R64) -/

/-- The value of a floating-point operand code, flushed (R57, R62). -/
def operandVal (fmt : Nat) (fzi : Bool) (c : Nat) : Val :=
  match formatOf fmt with
  | some f => flushIn f fzi (unpack f c)
  | none => .fin false 0 0

/-- The value of an integer operand code: INT8, UINT8, a trit, or a b-bit weight (R47, R63, R64). -/
def operandInt (fmt bits c : Nat) : Int :=
  if fmt = 8 then signedOf 8 c else if fmt = 10 then signedOf bits (c % 2 ^ bits) else if fmt = 11 then (c : Int) - 1 else c

/-- One floating-point element after one group (R62). -/
def fpStep (rm : Rm) (fzo : Bool) (c : W32) (a : List Val) (b : List (Option Val)) : W32 × Flags :=
  let ps := (a.zip b).map fun p => match p.2 with
    | some y => mulVal p.1 y
    | none => (.fin false 0 0, false)
  let sum := sumVals rm (ps.map (·.1))
  let gs := roundF32 rm fzo sum.1
  let r := addF32 .rne fzo c gs.1
  (r.1, gs.2 ||| r.2 ||| invalidFlags (sum.2 || ps.any (·.2)))

/-- One integer element after one group (R63). -/
def intStep (c : W32) (a b : List Int) : W32 × Flags :=
  let t := c.toInt + ((a.zip b).map fun p => p.1 * p.2).sum
  (BitVec.ofInt 32 t, wrapFlags 32 t)

/-- An accumulator from a function of its elements, with the flags of all of them. -/
def accOf (f : Fin 64 → Fin 64 → W32 × Flags) : Acc × Flags :=
  let rows := (List.finRange 64).map fun i => (List.finRange 64).map fun j => f i j
  (Vector.ofFn fun i => vecOfWords ((rows.getD i.val []).map (·.1)),
    rows.foldl (fun g r => r.foldl (fun g e => g ||| e.2) g) fNone)

/-- What a floating-point op starts from with ACC clear: −0 in every element (R62). -/
def accNegZero : Acc := Vector.replicate 64 (vecAll 0x80000000)

/-- The accumulator an op sees before its group: with ACC clear the first group starts from −0 or integer 0. -/
def startAcc (acc fp : Bool) (g : Nat) (z : Acc) : Acc :=
  if acc || g != 0 then z else if fp then accNegZero else Acc.zero

/-- One K-group of an MMA-family op: the accumulator after it and its flags, or its fault (R62 to R64, R276, R279). -/
def groupStep (o : Op) (k : MmaKind) (a b : ShapeReg) (hm : Option ShapeReg) (e : W64) (rm : Rm) (acc ta tb : Bool)
    (z : Acc) (s : State) : State × Except (Nat × W64) (Acc × Flags) :=
  let g := o.cursor
  match groupCodes o a (!ta) g s with
  | (s, .error f) => (s, .error f)
  | (s, .ok (ca, _)) =>
    let fp := entC e == 0
    let z0 := startAcc acc fp g z
    let va := ca.map fun r => r.map (operandVal (entA e) (entFzi e))
    let fpAcc (vb : List (List (Option Val))) : Acc × Flags :=
      accOf fun i j => fpStep rm (entFzo e) (z0[i][j]) (va.getD i.val []) (vb.getD j.val [])
    match k, hm with
    | .mmas, some m =>
      match sparseCodes o b m g s (List.range 4) with
      | (s, .error f) => (s, .error f)
      | (s, .ok cb) => (s, .ok (fpAcc (cb.map fun r => r.map fun c => c.map (operandVal (entB e) (entFzi e)))))
    | _, _ =>
      match groupCodes o b tb g s with
      | (s, .error f) => (s, .error f)
      | (s, .ok (cb, trc)) =>
        if fp then (s, .ok (fpAcc (cb.map fun r => r.map fun c => some (operandVal (entB e) (entFzi e) c))))
        else
          let bits := match k with
            | .mmal n => n
            | _ => 4
          let ia := ca.map fun r => r.map (operandInt (entA e) bits)
          let ib := cb.map fun r => r.map (operandInt (entB e) bits)
          let r := accOf fun i j => intStep (z0[i][j]) (ia.getD i.val []) (ib.getD j.val [])
          (s, .ok (r.1, if trc then r.2 ||| fTRC else r.2))

/-! ## The order of an accumulator and the engine (R269, R270) -/

/-- The accumulator is free for an entry: every earlier one of its order has finished. -/
def zFree (x : Ctx) (z : Fin 4) (i : ZItem) : Bool :=
  match x.zorder.find? (·.1 == z) with
  | some e => e.2 == i
  | none => false

/-- An entry has finished. -/
def zFinish (x : Ctx) (i : ZItem) : Ctx := { x with zorder := x.zorder.filter (·.2 != i) }

/-- The physical core whose engine runs a matrix op (R176). -/
def engineOf (o : Op) : CoreId :=
  match o.kind with
  | .mma _ _ _ _ _ _ _ _ _ _ (some (c, _)) => c
  | _ => coreOfNat o.rights.pcore

/-- The accumulator of an op is free for it (R269). -/
def opZFree (s : State) (o : Op) : Bool :=
  match o.kind.acc?, s.homeCtx o with
  | some z, some x => zFree x z (.op o.oid)
  | _, _ => false

/-- The op whose unit a matrix engine begins: one that holds the array keeps it until it completes, is cancelled, faults or
is drained; else the first one that may go on and whose accumulator is free (R269). -/
def matrixPick (s : State) (c : CoreId) : Option Op :=
  let l := s.ops.filter fun o => o.kind.acc?.isSome && engineOf o == c
  let may (o : Op) : Bool := canUnit s o && opZFree s o && o.cursor < o.total
  match l.find? (·.array) with
  | some o => if may o then some o else none
  | none => leastBy engineKey (l.filter may)

/-- The turn of a matrix op at its engine. -/
def matrixTurn (s : State) (o : Op) : UnitTurn × State :=
  unitTurn o ((matrixPick s (engineOf o)).map (·.oid) = some o.oid) s

/-- K_GROUP: the engine applies one K-group; a faulted group is not applied (R269, R274, R276). -/
def execKGroup (oid : Nat) (s : State) : Out :=
  match s.findOp oid with
  | none => .next s
  | some o =>
    match o.kind, s.homeCtx o with
    | .mma k z a b hm e rm acc ta tb away, some x =>
      match matrixTurn s o with
      | (.rest, s) => .next s
      | (.begin, s) => .next (unitBegins o s)
      | (.finish, s) =>
        let z0 := match away with
          | some (_, zz) => zz
          | none => x.z[z]
        match groupStep o k a b hm e rm acc ta tb z0 s with
        | (s, .error (c, va)) => .next (opFault o c va s)
        | (s, .ok (z1, f)) =>
          let s := opFlags s o f
          let s := match away with
            | some _ => s
            | none => s.onHome o fun x => { x with z := x.z.set z z1 }
          .next (s.updOp oid fun o => { o.began with
            cursor := o.cursor + 1
            kind := .mma k z a b hm e rm acc ta tb (away.map fun p => (p.1, z1)) })
    | _, _ => .next s

/-- The address of row x of the tile of a ZLD or ZST (R283). -/
def zRowAddr (h : ShapeReg) (x : Nat) : W64 :=
  h.row (h.row0.toNat + x) + BitVec.ofNat 64 (4 * h.col0.toNat)

/-- Elements of row x that lie in the record (R283). -/
def zRowLen (h : ShapeReg) (x : Nat) : Nat := if h.rowsLeft ≤ x then 0 else min 64 h.colsLeft

/-- With the last row of a ZLD moved, or of a ZST read, its accumulator is free (R270). -/
def lastRow (o : Op) (s : State) : State :=
  if o.cursor + 1 = o.total then s.onHome o fun x => zFinish x (.op o.oid) else s

/-- A row of a ZLD or ZST has been moved (R283). -/
def rowMoved (o : Op) (s : State) : State :=
  (lastRow o s).updOp o.oid fun o => { o.began with cursor := o.cursor + 1, held := none }

/-- One row of a ZLD: read, and put into the accumulator (R283). -/
def zldRow (o : Op) (z : Fin 4) (h : ShapeReg) (s : State) : State :=
  let n := zRowLen h o.cursor
  let r := Fin.ofNat 64 o.cursor
  let put (bs : List Byte) (s : State) : State :=
    rowMoved o (s.onHome o fun x => { x with z := x.z.set z ((x.z[z]).set r (vecOfBytes bs)) })
  if n = 0 then put [] s
  else
    match opRead o s (zRowAddr h o.cursor) (4 * n) with
    | (s, .error (c, va)) => opFault o c va s
    | (s, .ok bs) => put bs s

/-- One row of a ZST: read from the accumulator, and written (R283). A last row that is held under WB has been read. -/
def zstRow (o : Op) (h : ShapeReg) (row : Vec) (s : State) : State :=
  let n := zRowLen h o.cursor
  if n = 0 then rowMoved o s
  else
    match unitWrite o (zRowAddr h o.cursor) ((vecBytes row).take (4 * n)) 0 s with
    | (s, .done) => rowMoved o s
    | (s, .held) => lastRow o s
    | (s, .fault c va) => opFault o c (BitVec.ofNat 64 va) s

/-- ACCUMULATOR_ROW: a ZLD or ZST moves one row (R283). -/
def execAccumulatorRow (oid : Nat) (s : State) : Out :=
  match s.findOp oid with
  | none => .next s
  | some o =>
    match o.kind, s.homeCtx o, matrixTurn s o with
    | .zld z h, some _, (.finish, s) => .next (zldRow o z h s)
    | .zst z h, some x, (.finish, s) => .next (zstRow o h (x.z[z][Fin.ofNat 64 o.cursor]) s)
    | .zld _ _, some _, (.begin, s) => .next (unitBegins o s)
    | .zst _ _, some _, (.begin, s) => .next (unitBegins o s)
    | _, _, (_, s) => .next s

/-! ## Draining (R65, R280 to R282) -/

/-- The W of R281: bytes of a packed row. -/
def drainBytes (ofmt : Nat) : Nat :=
  if ofmt = 0 || ofmt = 12 then 256 else if ofmt = 1 || ofmt = 2 then 128
  else if ofmt = 5 || ofmt = 6 then 48 else if ofmt = 7 then 32 else 64

/-- The R of R281: rows per entry. -/
def drainRows (ofmt : Nat) : Nat := 256 / drainBytes ofmt

/-- The codes of the output format of a value (R54 to R56). -/
def convertOut (ofmt : Nat) (rm : Rm) (fzo : Bool) (v : Val) : Nat × Flags :=
  match formatOf ofmt with
  | some f => roundVal f rm fzo false v
  | none =>
    if ofmt = 8 then let r := toIntSat rm (-128) 127 v; (wrapNat 8 r.1, r.2)
    else if ofmt = 9 then let r := toIntSat rm 0 255 v; (wrapNat 8 r.1, r.2)
    else let r := toIntSat rm (-2147483648) 2147483647 v; (wrapNat 32 r.1, r.2)

/-- An exact integer to the output format (R56, R65). -/
def convertInt (ofmt : Nat) (rm : Rm) (i : Int) : Nat × Flags :=
  match formatOf ofmt with
  | some f => roundVal f rm false false (Val.ofInt i)
  | none =>
    if ofmt = 8 then let r := satInt (-128) 127 i; (wrapNat 8 r.1, r.2)
    else if ofmt = 9 then let r := satInt 0 255 i; (wrapNat 8 r.1, r.2)
    else (wrapNat 32 i, fNone)

/-- One element of a drain (R65). -/
def drainElem (e : W64) (rm : Rm) (c sa sb bias : W32) : Nat × Flags :=
  let ofmt := entO e
  let fzo := entFzo e
  let int := entC e == 12
  let scl := entScl e
  if int && scl == 0 then convertInt ofmt rm c.toInt
  else
    let v0 : W32 × Flags := if int then roundF32 rm false (Val.ofInt c.toInt) else (c, fNone)
    let v1 := if 1 ≤ scl then mulF32 rm fzo v0.1 sa else (v0.1, fNone)
    let v2 := if 1 ≤ scl then mulF32 rm fzo v1.1 sb else (v1.1, fNone)
    let v3 := if scl = 2 then addF32 rm fzo v2.1 bias else (v2.1, fNone)
    let r := convertOut ofmt rm fzo (f32 v3.1)
    (r.1, v0.2 ||| v1.2 ||| v2.2 ||| v3.2 ||| r.2)

/-- A row of codes packed (R48, R281). -/
def packRow (ofmt : Nat) (l : List Nat) : List Byte :=
  toBytes (drainBytes ofmt) (packFields (l.map fun c => (elemBits ofmt, c)))

/-- One row of a drain: its packed bytes and its flags. -/
def drainRow (d : Drain) (z : Acc) (i : Nat) : List Byte × Flags :=
  let r := Fin.ofNat 64 i
  let l := (List.finRange 64).map fun j => drainElem d.ent d.rm (z[r][j]) d.sa[r] d.sb[j] d.bias[j]
  (packRow (entO d.ent) (l.map (·.1)), l.foldl (fun f e => f ||| e.2) fNone)

/-- One entry of a drain: up to R rows from its next row. -/
def drainEntry (d : Drain) (z : Acc) : Vec × Flags × Nat :=
  let n := min d.rows (drainRows (entO d.ent))
  let rs := (List.range n).map fun q => drainRow d z (d.row + q)
  (vecOfBytes (rs.map (·.1)).flatten, rs.foldl (fun f e => f ||| e.2) fNone, n)

/-- Takes a place of the drain queue and of the accumulator's order (R270, R280, R282). -/
def addDrain (d : Drain) (x : Ctx) : Ctx :=
  { x with drains := x.drains ++ [d], zorder := x.zorder ++ [(d.z, .drain d.id)] }

/-- The FORMAT faults of ZDRN (R61, R280). -/
def drainBad (e : W64) (vs : Nat) : Bool :=
  !(entC e == 0 || entC e == 12) || !(entO e ≤ 9 || entO e == 12) || (entScl e == 0 && vs != 0) ||
  (entScl e == 1 && 22 < vs) || (entScl e == 2 && 21 < vs)

/-- ZDRN (R280). The scale registers are read at issue. -/
def execZdrn (t : Tok) (z : Fin 4) (fsel : Fin 32) (vs : VReg) (row : Fin 64) (nblk : Fin 16) (s : State) : Out :=
  .next (issue t (planOf [] fun ix s =>
    let x := s.ctx s.fcore
    let e := fmtEntry x fsel
    if drainBad e vs.val then .fault { code := cFormat }
    else if 16 ≤ x.drains.length then .wait
    else
      let scl := entScl e
      let (sa, s) := if 1 ≤ scl then readV s s.fcore vs else (Vec.zero, s)
      let (sb, s) := if 1 ≤ scl then readV s s.fcore (Fin.ofNat 24 (vs.val + 1)) else (Vec.zero, s)
      let (bias, s) := if scl = 2 then readV s s.fcore (Fin.ofNat 24 (vs.val + 2)) else (Vec.zero, s)
      .go (onCtx (addDrain ⟨ix.id, z, false, e, entRm x e, sa, sb, bias, row.val, 4 * (nblk.val + 1), []⟩) s)
        false .seq) s)

/-- ZCLR (R282). -/
def execZclr (t : Tok) (z : Fin 4) (s : State) : Out :=
  .next (issue t (planOf [] fun ix s =>
    if 16 ≤ (s.ctx s.fcore).drains.length then .wait
    else .go (onCtx (addDrain ⟨ix.id, z, true, 0, .rne, Vec.zero, Vec.zero, Vec.zero, 0, 0, []⟩) s) false .seq) s)

/-- The first drain-queue entry whose turn in its accumulator's order has come. -/
def nextDrain (x : Ctx) : Option Drain := x.drains.find? fun d => zFree x d.z (.drain d.id)

/-- Clears the accumulator of a ZCLR whose turn has come (R282). -/
def clearNow (d : Drain) (x : Ctx) : Ctx :=
  zFinish { x with z := x.z.set d.z Acc.zero, drains := x.drains.filter (·.id != d.id) } (.drain d.id)

/-- Every ZCLR whose turn has come takes effect, as it does at a cut (R287). -/
def clearsDone : Nat → Ctx → Ctx
  | 0, x => x
  | n + 1, x =>
    match x.drains.find? fun d => d.clear && zFree x d.z (.drain d.id) with
    | none => x
    | some d => clearsDone n (clearNow d x)

/-- Reads the rows of one entry of a drain, or clears an accumulator (R280, R282). -/
def drainRead (x : Ctx) : Ctx :=
  match nextDrain x with
  | none => x
  | some d =>
    if d.clear then clearNow d x
    else
      let (v, f, n) := drainEntry d (x.z[d.z])
      let d' : Drain := { d with row := d.row + n, rows := d.rows - n, out := d.out ++ [(v, f)] }
      let x := { x with drains := updWhere (·.id == d.id) (fun _ => d') x.drains }
      if d'.rows = 0 then zFinish x (.drain d.id) else x

/-- Pushes the next entry to mq: ZDRNs push in issue order, and the engine waits while mq is full; once nothing can
pop it an entry is discarded (R153, R280, R281). -/
def drainPush (x : Ctx) (cycle : Nat) : Ctx :=
  match x.drains.find? (!·.clear) with
  | none => x
  | some d =>
    match d.out with
    | [] => x
    | (v, f) :: rest =>
      if !x.mathEnd && 16 ≤ x.mq.length then x
      else
        let x := if x.mathEnd then x else { x with mq := x.mq ++ [⟨0, v, false, some cycle⟩] }
        let x := x.flag f
        if rest = [] && d.rows = 0 then { x with drains := x.drains.filter (·.id != d.id) }
        else { x with drains := updWhere (·.id == d.id) (fun d => { d with out := rest }) x.drains }

/-- The drain queue of a core moves: its task runs or is being cut; or it has ended, or has left its cut for a new start, and its
pushes are discarded (R153, R199, R284). -/
def drainsMove (s : State) (c : CoreId) : Bool :=
  (s.ctx c).drains != [] && match (s.core c).run with
    | .running _ | .cutting _ _ => true
    | .held slot => (s.findTask slot).any (·.again == some true) && (s.ctx c).mathEnd
    | .idle | .starting _ _ => (s.ctx c).mathEnd

/-- ENGINE_PUSH: the matrix engine reads the rows of a drain and pushes an entry to mq, or the gather engine pushes one to
gq (R153, R280). -/
def execEnginePush (c : CoreId) (gq : Bool) (s : State) : Out :=
  if gq then
    match s.ops.find? fun o => o.rights.pcore == c.val && pushesNow s o with
    | none => .next s
    | some o => .next (gatherPush o s)
  else if drainsMove s c then .next (s.setCtx c (drainPush (drainRead (s.ctx c)) s.cycle))
  else .next s

/-! ## Pulling (R175, R176) -/

/-- Every record the op reads has a base that a sibling reaches (R175). -/
def pullableBase (h : ShapeReg) : Bool := let t := tagOf h.base; t == 0 || t == 2 || t == 3

/-- A matrix op may be pulled (R175). -/
def mayPull (s : State) (o : Op) : Bool :=
  match o.kind with
  | .mma _ _ a b hm _ _ _ _ _ none =>
    o.rel && o.status == .queued && canUnit s o && pullableBase a && pullableBase b &&
    (match hm with
      | some m => pullableBase m
      | none => true) && opZFree s o
  | _ => false

/-- OP_PULL: an idle matrix engine, of a core that is not being emptied, pulls the first eligible op of its siblings: descending priority, ascending logical
position of the origin, ascending sequence by modular distance (R162, R176). -/
def execOpPull (c : CoreId) (oid : Nat) (s : State) : Out :=
  let idle := !(s.ops.any fun o => o.rights.pcore == c.val && o.chan == 4 && o.status.isLive) &&
    !(s.ops.any fun o => o.kind.isMma && o.status.isLive && engineOf o == c) && !s.evict.any (·.1 == c)
  let cands := s.ops.filter fun o => o.rights.pcore / 8 == c.val / 8 && o.rights.pcore != c.val && mayPull s o
  let before (o : Op) : Nat :=
    let next := seqCounter s (Fin.ofNat 2 o.rights.port) (Fin.ofNat 64 o.rights.ctx) o.rights.lcore o.chan.val
    (next + 2 ^ 40 - o.seq) % 2 ^ 40
  let key (o : Op) : Nat := ((3 - o.prio.val) * 8 + o.rights.lcore % 8) * 2 ^ 41 + (2 ^ 40 - before o)
  match leastBy key cands with
  | none => .next s
  | some o =>
    if idle && o.oid == oid then
      match o.kind, s.homeCtx o with
      | .mma k z a b hm e rm acc ta tb _, some x =>
        .next (s.updOp oid fun o => { o with kind := .mma k z a b hm e rm acc ta tb (some (c, x.z[z])) })
      | _, _ => .next s
    else .next s

end Sys2Proof.Machine
end

