-- ==== Sys2Proof/Machine/Finish.lean ====
section
/-! DEFINITION. How an op completes (R166, R245 to R248), held writes (R227), and invalidation: TINV, XINV, and ICINV with
the instruction caches (R125, R126, R223, R224). -/

namespace Sys2Proof.Machine

open Sys2Proof

/-! ## OP_COMPLETE -/

/-- Where an op's answer can be delivered: its task runs on a core, or has gone. One that is cut takes it after its
resume (R245, R324). -/
inductive Receiver
  | core (c : CoreId)
  | gone
  | later
  deriving DecidableEq, Repr, Inhabited

/-- The receiver of an op's answer. -/
def receiver (s : State) (o : Op) : Receiver :=
  match s.issuer o with
  | none => .gone
  | some t =>
    match s.coreOfSlot t.slot with
    | none => .later
    | some c =>
      match (s.core c).run with
      | .running _ => .core c
      | _ => .later

/-- Lands the reserved iq entry of an RLD or RRED, and posts (R145, R151). -/
def landReply (o : Op) (q : QNum) (place : Nat) (data : List Byte) (c : CoreId) (s : State) : State :=
  let x := s.ctx c
  let x := { x with iq := x.iq.set q (landPlace x.iq[q] place s.cycle (vecOfBytes data) false) }
  s.setCtx c (makePosts x s.cycle o.stream place)

/-- Writes the register of a RAMO with RET, and ends its interlock (R245). -/
def landReg (o : Op) (a : AReg) (data : List Byte) (c : CoreId) (s : State) : State :=
  let x := s.ctx c
  let q := x.strm o.stream
  s.setCtx c ((x.setStrm o.stream { q with busy := q.busy.erase a.val }).setA o.stream a
    (BitVec.ofNat 64 (ofBytes data)))

/-- A fabric op every destination of which has committed; one that waits for a reply takes it (R300). The flags of a reply
whose task has gone are the op's own (R171, R245). -/
def completeFabric (o : Op) (fill : Option (QNum × Nat)) (reg : Option AReg) (s : State) : State :=
  let fin (s : State) : State := completeOp o .done (s.updOp o.oid fun o => { o with cursor := o.total })
  match o.reply with
  | none => if o.kind.byReply then s else fin s
  | some (data, f) =>
    match receiver s o with
    | .later => s
    | .gone => fin (opFlags s o f)
    | .core c =>
      let s := match fill, reg with
        | some (q, place), _ => landReply o q place data c s
        | none, some a => landReg o a data c s
        | none, none => s
      fin (opFlags s o f)

/-- The destination of a COLL when everything has arrived: its bytes and flags (R248). -/
def collResult (s : State) (part : Nat) (c : CollMsg) : Option (List Byte × Flags) :=
  let l := (if c.kind = .bcast then [c.root] else List.range c.count).map (collFrom s part c)
  if l.any (·.isNone) then none
  else
    let bs := l.filterMap id
    match c.kind with
    | .redscat | .allred =>
      let r := redFold c.func (bs.map wordsOf)
      some ((r.1.map fun w => toBytes 4 w.toNat).flatten, r.2)
    | _ => some (bs.flatten, fNone)

/-- The bytes of each message that a COLL has written to its destination: those of a member's block, or of what the members
have in common, at most 131,072 a message (R295, R317). -/
def collNotes (c : CollMsg) : List Nat :=
  let one := (List.range ((c.bytes + 131071) / 131072)).map fun i => min 131072 (c.bytes - 131072 * i)
  match c.kind with
  | .allgather => ((List.range c.count).map fun _ => one).flatten
  | .barrier => []
  | _ => one

/-- A COLL has written its destination: its landing word is notified of each message, and the messages go (R248, R317). -/
def collWrote (o : Op) (s : State) : State :=
  match o.kind with
  | .coll c src dst land b _ =>
    let s := dropColl o.rights.part c (s.updOp o.oid fun o =>
      { o with kind := .coll c src dst land b true, cursor := o.total, held := none })
    if land = 0 then s else { s with notifies := s.notifies ++ (collNotes c).map fun n => ⟨o.oid, land, n⟩ }
  | _ => s

/-- One turn of a COLL that has begun: it writes its destination once every member's data is there, then completes. -/
def collStep (o : Op) (c : CollMsg) (dst : W64) (wrote : Bool) (s : State) : State :=
  if isSaved s o then s
  else if wrote then
    if s.notifies.any (·.oid == o.oid) then s else completeOp o .done s
  else if o.held.isSome then s
  else
    match (s.issuer o).bind (·.image), collResult s o.rights.part c with
    | none, some (bs, f) =>
      if bs = [] then collWrote o s
      else
        match unitWrite o dst bs 0 (opFlags s o f) with
        | (s, .done) => collWrote o s
        | (s, .held) => s
        | (s, .fault e a) => opFault o e (BitVec.ofNat 64 a) s
    | _, _ => s

/-- The units of an op are all done: it completes by its kind. -/
def finishOp (o : Op) (s : State) : State :=
  match o.kind with
  | .copy _ _ _ _ _ _ =>
    if o.cursor = o.total && !(s.notifies.any (·.oid == o.oid)) then completeOp o .done s else s
  | .gather _ _ _ _ _ _ out =>
    if o.cursor = o.total && out = [] then completeOp o (if o.fcode = 0 then .done else .partly) s else s
  | .mma _ _ _ _ _ _ _ _ _ _ _ => if o.cursor = o.total then completeOp o .done s else s
  | .zld _ _ => if o.cursor = o.total then completeOp o .done s else s
  | .zst _ _ => if o.cursor = o.total then completeOp o .done s else s
  | .fabric _ ds _ _ fill reg _ => if ds.all (·.done) then completeFabric o fill reg s else s
  | .rred _ q place _ _ _ => match o.reply with
    | some _ => completeFabric o (some (q, place)) none s
    | none => if o.begun then s else collBegins o s
  | .coll c _ dst _ begun wrote => if begun then collStep o c dst wrote s else collBegins o s

/-- An op that is to be cancelled has finished what it began: its units, the pushes of an element, and the notifications of
the bytes before its cursor (R170, R317). -/
def atBoundary (s : State) (o : Op) : Bool :=
  !o.inFlight && o.kind.pushes.isEmpty && !(s.notifies.any (·.oid == o.oid))

/-- OP_COMPLETE: an op whose units are done leaves the live states, and one that is to be cancelled does so at its
boundary (R166, R170). A paused op does not complete by itself, but for one that runs on. -/
def execOpComplete (oid : Nat) (s : State) : Out :=
  match s.findOp oid with
  | none => .next s
  | some o =>
    if !o.status.isLive || o.status == .faulted then .next s
    else if o.cancel then .next (if atBoundary s o then completeOp o .cancelled s else s)
    else if o.pausing then .next (if o.inFlight then s else pauseOp o s)
    else if o.status == .paused then .next s
    else .next (finishOp o s)

/-! ## Held writes (R227) -/

/-- A held write: an access of a stream, a unit of an op, or a remote write at a sequencer. -/
inductive HeldRef
  | strm (c : CoreId) (st : Stream) (a : Access)
  | op (o : Op) (u : HeldUnit)
  | remote (q : Sequencer) (p : Pending)
  deriving Inhabited

/-- The number that names a held write: a stream or a sequencer holds one, and so does an op. -/
def HeldRef.key : HeldRef → Nat
  | .strm c st _ => 3 * (4 * c.val + st.idx.val)
  | .op o _ => 3 * o.oid + 1
  | .remote q _ => 3 * (((q.src.pos * 4 + q.src.part) * 4 + q.part) * 16 + q.cls.val) + 2

/-- Every held write, in the order of its kind. -/
def heldRefs (s : State) : List HeldRef :=
  ((List.finRange 640).map fun c => (allStreams.map fun st =>
    (((s.ctx c).strm st).accs.filter (·.heldAt.isSome)).map (HeldRef.strm c st)).flatten).flatten ++
  (s.ops.filterMap fun o => o.held.map (HeldRef.op o)) ++
  (s.fabric.seqs.filterMap fun q => (q.ops.find? (·.heldAt.isSome)).map (HeldRef.remote q))

/-- The cycle a write was held in. -/
def HeldRef.since : HeldRef → Nat
  | .strm _ _ a => a.heldAt.getD 0
  | .op _ u => u.at_
  | .remote _ p => p.heldAt.getD 0

/-- The port and the context of a held write. -/
def HeldRef.context (s : State) : HeldRef → Nat × Nat
  | .strm c _ _ => let r := rightsOf s c; (r.port, r.ctx)
  | .op o _ => (o.rights.port, o.rights.ctx)
  | .remote q p =>
    match remoteGraph s q.part p.req.hash with
    | some g => ((portOf g.handle).val, (ctxOf g.handle).val)
    | none => (2, 64)

/-- Does something that every walk of a core is a new one for: the translation caches of the core and of its die are
empty, and no invalidation keeps an old leaf. -/
def freshWalk {α : Type} (c : CoreId) (f : State → State × α) (s : State) : State × α :=
  let k := s.core c
  let d := s.dies[dieOf c]
  let r := f { s.setCore c { k with tlb := [] } with
    dies := s.dies.set (dieOf c) { d with tlb := [] }, invals := s.invals.map fun v => { v with old := [] } }
  let s' := r.1
  ({ s'.setCore c { s'.core c with tlb := k.tlb } with
      dies := s'.dies.set (dieOf c) { s'.dies[dieOf c] with tlb := d.tlb }
      invals := s.invals }, r.2)

/-- The unit that was held has been written: its op goes on. -/
def heldDone (o : Op) (u : HeldUnit) (s : State) : State :=
  match o.kind with
  | .copy _ _ n notify _ _ => burstDone o n notify u.data.length s
  | .gather _ _ _ _ _ _ _ => elementDone o u.elem false s
  | .coll _ _ _ _ _ _ => collWrote o s
  | _ => rowMoved o s

/-- The unit that was held faults: an element of a gather-family op is recorded, another op stops (R172). -/
def heldOpFault (o : Op) (u : HeldUnit) (code : Nat) (addr : W64) (s : State) : State :=
  if o.kind.isGather then elementDone o u.elem true (s.updOp o.oid (·.elemFault code addr)) else opFault o code addr s

/-- A held write walks again: it stays held, is released to the frame that the walk names, or faults (R227). -/
def rewalk (r : HeldRef) (s : State) : State :=
  match r with
  | .strm c st a =>
    let l : List Piece := a.all.map fun u => ⟨u.key, u.len, u.off⟩
    match freshWalk c (fun s => checkPieces c (rightsOf s c) true true false s l [] none false) s with
    | (s, .held) => s
    | (s, .fault e v) => heldFault c st a e (BitVec.ofNat 64 v) s
    | (s, .ok us) =>
      let x := s.ctx c
      let q := x.strm st
      s.setCtx c (x.setStrm st { q with
        accs := updWhere (·.id == a.id) (fun a => { a with units := us, all := us, heldAt := none }) q.accs })
  | .op o u =>
    let c := coreOfNat o.rights.pcore
    match freshWalk c (fun s => writeVaAt false s c (o.accessRights s) u.va.toNat u.data) s with
    | (s, .held) => s
    | (s, .done) => heldDone o u s
    | (s, .fault e v) => heldOpFault o u e (BitVec.ofNat 64 v) s
  | .remote q p =>
    (freshWalk (receiverCore s q.part) (fun s => (commitAccess q p s, ())) s).1

/-- HELD_WRITE_REWALK: every 4,096 cycles a held write walks again (R227). -/
def execHeldWriteRewalk (h : Nat) (s : State) : Out :=
  match (heldRefs s).find? (·.key == h) with
  | none => .next s
  | some r => if r.since < s.cycle && (s.cycle - r.since) % 4096 == 0 then .next (rewalk r s) else .next s

/-- WRITE_HOLD_EXPIRED: a write held for 2,400,000 cycles is given up (R227). -/
def execWriteHoldExpired (h : Nat) (s : State) : Out :=
  match (heldRefs s).find? (·.key == h) with
  | none => .next s
  | some r =>
    if r.since + Config.holdCycles ≤ s.cycle then
      match r with
      | .strm c st a => .next (heldFault c st a cWriteHoldExpired a.va s)
      | .op o u => .next (heldOpFault o u cWriteHoldExpired u.va s)
      | .remote q p => .next (commitFault q p cWriteHoldExpired p.req.va s)
    else .next s

/-! ## Instruction caches (R125, R126) -/

/-- Drops the lines of the contexts that p names from every instruction cache and fetch buffer, and the fills pending
for them (R124, R125). -/
def dropCode (p : Nat → Nat → Bool) (s : State) : State :=
  let keep (l : ILine) : Bool := !p l.port l.ctx
  { s with cores := s.cores.map fun k => { k with icache := k.icache.map (·.filter keep) }
           dies := s.dies.map fun d => { d with
             buffer := d.buffer.filter keep, fills := d.fills.filter fun f => keep f.line } }

/-- A write to ICINV; one while BUSY is set is ignored, and so is one before READY (R126, R353). -/
def icinvWrite (port : Fin 2) (part : Fin 4) (which : Option Nat) (s : State) : State :=
  s.updPort port fun p =>
    if (p.icinv[part]).isSome || !partReady s part then p else { p with icinv := p.icinv.set part (some (which, s.cycle)) }

/-- ICINV_CONTEXT, by the ICINV of the partition that offers the context (R20, R126). -/
def execIcinvContext (port : Fin 2) (ctx : Fin 64) (s : State) : Out :=
  .next (icinvWrite port (partOfCtx s ctx) (some ctx.val) s)

/-- ICINV_ALL, by the ICINV of a partition (R126). -/
def execIcinvAll (port : Fin 2) (part : Fin 4) (s : State) : Out := .next (icinvWrite port part none s)

/-- ICINV_COMPLETE: the lines are invalidated, and BUSY clears (R125, R126). -/
def execIcinvComplete (port : Fin 2) (part : Fin 4) (s : State) : Out :=
  match s.ports[port].icinv[part] with
  | none => .next s
  | some (which, _) =>
    let hit (p c : Nat) : Bool := p == port.val && match which with
      | none => true
      | some n => c == n
    .next ((dropCode hit s).updPort port fun p => { p with icinv := p.icinv.set part none })

/-! ## TINV and XINV (R223, R224) -/

/-- Drops every cached translation of a context. -/
def dropTlb (port ctx : Nat) (s : State) : State :=
  let keep (t : TlbEntry) : Bool := !(t.port == port && t.ctx == ctx)
  { s with cores := s.cores.map fun k => { k with tlb := k.tlb.filter keep }
           dies := s.dies.map fun d => { d with tlb := d.tlb.filter keep } }

/-- The accesses of a context that have been translated and are neither performed nor held. -/
def contextAccesses (s : State) (port ctx : Nat) : List (CoreId × Stream × Nat) :=
  ((List.finRange 640).map fun c =>
    let r := rightsOf s c
    if r.port == port && r.ctx == ctx && (s.core c).run.slot?.isSome then
      (allStreams.map fun st => (((s.ctx c).strm st).accs.filter (·.units != [])).map fun a => (c, st, a.id)).flatten
    else []).flatten

/-- An invalidation begins: markers behind the accepted ops, and every cached translation dropped (R223). -/
def beginInval (port ctx : Nat) (host : Bool) (slot : Nat) (st : Stream) (post : Nat) (s : State) : State :=
  let mine (t : TlbEntry) : Bool := t.port == port && t.ctx == ctx
  let v : Inval :=
    { num := s.nextOid, since := s.cycle, port := port, ctx := ctx, host := host, slot := slot, stream := st, post := post,
      ahead := (s.ops.filter fun o => o.status.isLive && o.status != .paused && o.rights.port == port && o.rights.ctx == ctx).map (·.oid),
      old := ((s.cores.toList.map fun k => k.tlb.filter mine).flatten ++
        (s.dies.toList.map fun d => d.tlb.filter mine).flatten).eraseDups,
      accs := contextAccesses s port ctx }
  dropTlb port ctx { s with invals := s.invals ++ [v], nextOid := s.nextOid + 1 }

/-- TINV: PRIVILEGE without PRIV; its posts come with its completion (R136, R223). -/
def execTinv (t : Tok) (s : State) : Out :=
  let pre := if (s.ctx s.fcore).priv then none else some { code := cPrivilege }
  .next (issue t { planOf [] (fun ix s =>
    let r := rightsOf s s.fcore
    .go (beginInval r.port r.ctx false r.slot s.fstr ix.id s) true .seq) with pre := pre } s)

/-- XINV: a host asks for the same invalidation; a write while BUSY is set is ignored (R224). -/
def execXinv (port : Fin 2) (ctx : Fin 64) (s : State) : Out :=
  if s.ports[port].xinv || !partReady s (partOfCtx s ctx) then .next s
  else .next (beginInval port.val ctx.val true 0 .ctl 0 (s.updPort port fun p => { p with xinv := true }))

/-- An access is still to be performed, and not held. -/
def stillOpen (s : State) (e : CoreId × Stream × Nat) : Bool :=
  ((s.ctx e.1).strm e.2.1).accs.any fun a => a.id == e.2.2 && a.units != []

/-- An op ahead of a marker has settled: it has ended or stopped, or its unit is held, which an invalidation does not wait for
(R223). -/
def settled (s : State) (oid : Nat) : Bool :=
  match s.findOp oid with
  | none => true
  | some o => !o.status.isLive || o.status == .paused || o.status == .faulted || o.held.isSome

/-- Changes the registers of a live task, on its core or in its image. -/
def State.onTask (s : State) (slot : Nat) (f : Ctx → Ctx) : State :=
  match s.coreOfSlot slot, s.findTask slot with
  | some c, _ => s.setCtx c (f (s.ctx c))
  | none, some t => s.updTask t.slot fun t => { t with image := t.image.map fun i => { i with ctx := f i.ctx } }
  | none, none => s

/-- TINV_COMPLETE: once the ops ahead of the markers have settled and the earlier accesses are performed or held, the
instruction caches are invalidated, held writes walk again, and the TINV posts its tokens (R223). -/
def execTinvComplete (n : Nat) (s : State) : Out :=
  match s.invals.find? (·.num == n) with
  | none => .next s
  | some v =>
    if v.ahead.all (settled s) && !v.accs.any (stillOpen s) then
      let s := { s with invals := s.invals.filter (·.num != n) }
      let s := dropCode (fun p c => p == v.port && c == v.ctx) (dropTlb v.port v.ctx s)
      let s := (heldRefs s).foldl (fun s r => if r.context s = (v.port, v.ctx) then rewalk r s else s) s
      .next (if v.host then s.updPort (Fin.ofNat 2 v.port) fun p => { p with xinv := false }
        else s.onTask v.slot fun x => makePosts x s.cycle v.stream v.post)
    else .next s

end Sys2Proof.Machine
end

