-- ==== Sys2Proof/Machine/Notes.lean ====
section
/-! DEFINITION. What the device writes for its hosts: Ridge's own writes, the completion area with its notifiers and its
note ring (R339, R341, R342), HNOTE (R198), and the messages NOTIFIER_MESSAGE and HOT_PAGE_MESSAGE (R226, R341). -/

namespace Sys2Proof.Machine

open Sys2Proof

/-! ## Ridge's own accesses -/

/-- The rights of Ridge in a context: device virtual addresses through a root. -/
def contextRights (part : Nat) (port ctx root : Nat) : Rights :=
  { lcore := 0, pcore := 0, part := part, port := port, ctx := ctx, root := root, base := 0, size := 0, slot := 0,
    live := false, held := [], oid := 0, me := 0 }

/-- The rights of Ridge for a graph (R68). -/
def graphRights (g : Graph) : Rights := contextRights g.part (portOf g.handle).val (ctxOf g.handle).val g.root

/-- The rights of a context's own page table, as PTROOT stands: a graph's completion entry, notes and events too are written
through it, and not through the root that the graph was launched with (R68, R339; DEDUCED, notes/assumptions/128.md). -/
def ownRights (s : State) (port : Fin 2) (ctx : Fin 64) : Rights :=
  contextRights (partOfCtx s ctx).val port.val ctx.val (s.ports[port].ctx[ctx]).ptroot

/-- The core whose translation cache serves a host port: the first of its home die (R8). -/
def portCore (port : Fin 2) : CoreId := if port = 0 then 0 else 480

/-- A write of Ridge. Only the writes that R227 names can be held, and this is none of them: it is performed. It counts once on
a hot page (R225). -/
def ridgeWrite (c : CoreId) (r : Rights) (va : Nat) (bs : List Byte) (s : State) : State × Option (Nat × Nat) :=
  let l := cutAligned 16 (bs.length + 1) va bs.length 0
  match checkPieces c r true true true s l [] none false with
  | (s, .ok us) => (storeUnits s bs us, none)
  | (s, .fault e a) => (s, some (e, a))
  | (s, .held) =>
    match checkPieces c r false true false s l [] none false with
    | (s, .ok us) => (storeUnits s bs us, none)
    | (s, .fault e a) => (s, some (e, a))
    | (s, .held) => (s, some (cPagePermission, va))

/-! ## The completion area (R339) -/

/-- A write to the area was dropped: ERR is set, and firmware is told. -/
def areaDropped (port : Fin 2) (ctx : Fin 64) (s : State) : State :=
  let s := s.updContext port ctx fun c => { c with cerr := true }
  { s with outputs := s.outputs ++ [.toFirmware 1 port.val ctx.val] }

/-- BASE of a context's area; none when it is 0. -/
def areaBase (s : State) (port : Fin 2) (ctx : Fin 64) : Option Nat :=
  let b := (s.ports[port].ctx[ctx]).cbase.toNat
  if b = 0 then none else some b

/-- Writes to the area: true when it was written; a fault drops the write. -/
def areaWrite (port : Fin 2) (ctx : Fin 64) (off : Nat) (bs : List Byte) (s : State) : State × Bool :=
  match areaBase s port ctx with
  | none => (areaDropped port ctx s, false)
  | some b =>
    match ridgeWrite (portCore port) (ownRights s port ctx) (b + off) bs s with
    | (s, none) => (s, true)
    | (s, some _) => (areaDropped port ctx s, false)

/-- Reads the area. -/
def areaReadAt (count : Bool) (port : Fin 2) (ctx : Fin 64) (off n : Nat) (s : State) : State × Option (List Byte) :=
  match areaBase s port ctx with
  | none => (areaDropped port ctx s, none)
  | some b =>
    match readVaAt count s (portCore port) (ownRights s port ctx) (b + off) n with
    | (s, .ok bs) => (s, some bs)
    | (s, .error _) => (areaDropped port ctx s, none)

/-- Reads the area, with its count on a hot page. -/
def areaRead (port : Fin 2) (ctx : Fin 64) (off n : Nat) (s : State) : State × Option (List Byte) :=
  areaReadAt true port ctx off n s

/-! ## Notifiers (R341) -/

/-- Cycles of a microsecond. -/
def usCycles : Nat := 2400

/-- VEC, EN and WIN, in an entry or in HNVEC. -/
def entVec (w : Nat) : Nat := bitsOf w 0 11
def entEn (w : Nat) : Bool := bitOf w 11
def entWin (w : Nat) : Nat := min 1000 (bitsOf w 32 10) * usCycles

/-- A notifier's state: the cycle after its last message, or 0, and whether an event waits for one. -/
def noteOf (s : State) (port : Fin 2) (ctx : Fin 64) (n : Nat) : Nat × Bool :=
  match (s.ports[port].ctx[ctx]).notes.find? (·.1 == n) with
  | some e => e.2
  | none => (0, false)

/-- Sets a notifier's state. -/
def setNote (port : Fin 2) (ctx : Fin 64) (n : Nat) (v : Nat × Bool) (s : State) : State :=
  s.updContext port ctx fun c => { c with notes := (n, v) :: c.notes.filter (·.1 != n) }

/-- An event on a notifier: NEV rises, and with EN set a message is due, in this cycle if its window is over (R341). -/
def postEvent (port : Fin 2) (ctx : Fin 64) (n : Nat) (s : State) : State :=
  let off := 0x1000 + 16 * n
  match areaRead port ctx off 16 s with
  | (s, none) => s
  | (s, some bs) =>
    let w := ofBytes bs
    match areaWrite port ctx (off + 8) (toBytes 4 (bitsOf w 64 32 + 1)) s with
    | (s, false) => s
    | (s, true) =>
      if entEn w then
        let s := setNote port ctx n ((noteOf s port ctx n).1, true) s
        { s with agenda := s.agenda ++ [.event (.notifierMessage port ctx (Fin.ofNat 64 n))] }
      else s

/-- The window since the last message has passed. -/
def windowOver (cycle last win : Nat) : Bool := last = 0 || last - 1 + win ≤ cycle

/-- NOTIFIER_MESSAGE: one message for every event since the last, once the window is over; none when EN is clear by then
(R341). -/
def execNotifierMessage (port : Fin 2) (ctx : Fin 64) (n : Fin 64) (s : State) : Out :=
  let (last, waits) := noteOf s port ctx n.val
  if waits then
    match areaReadAt false port ctx (0x1000 + 16 * n.val) 16 s with
    | (s, none) => .next (setNote port ctx n.val (last, false) s)
    | (s, some bs) =>
      let w := ofBytes bs
      if !windowOver s.cycle last (entWin w) then .next s
      else if !entEn w then .next (setNote port ctx n.val (last, false) s)
      else
        .next (setNote port ctx n.val (s.cycle + 1, false)
          { s with outputs := s.outputs ++ [Output.msix port.val (entVec w) s.cycle] })
  else .next s

/-- HOT_PAGE_MESSAGE: the port's hot-page message, coalesced in the same way (R226). -/
def execHotPageMessage (port : Fin 2) (s : State) : Out :=
  let p := s.ports[port]
  let w := p.hnvec.toNat
  if p.hnwait && entEn w && windowOver s.cycle p.hnlast (entWin w) then
    .next ({ s with outputs := s.outputs ++ [Output.msix port.val (entVec w) s.cycle] }.updPort port
      fun p => { p with hnwait := false, hnlast := s.cycle + 1 })
  else .next s

/-! ## HNOTE (R198, R342) -/

/-- Writes a note: none while the ring is full. A note that cannot be written, with its NTAIL, is dropped and is no event (R341,
R342). -/
def writeNote (graph n : Nat) (v : W64) (s : State) : Option State :=
  let port := portOf graph
  let ctx := ctxOf graph
  match areaRead port ctx 0x1400 8 s with
  | (s, none) => some s
  | (s, some bs) =>
    let w := ofBytes bs
    let head := bitsOf w 0 9
    let tail := bitsOf w 32 9
    if (tail + 1) % 512 = head then none
    else
      match areaWrite port ctx (0x2000 + 16 * tail) (toBytes 16 (graph + n * 2 ^ 32 + v.toNat * 2 ^ 64)) s with
      | (s, false) => some s
      | (s, true) =>
        match areaWrite port ctx 0x1404 (toBytes 4 ((tail + 1) % 512)) s with
        | (s, true) => some (postEvent port ctx n s)
        | (s, false) => some s

/-- HNOTE releases, writes its note and posts (R198). -/
def execHnote (t : Tok) (a : GReg) (n : Fin 64) (s : State) : Out :=
  .next (issue t (releasing (planOf [a.val] fun _ s =>
    let x := s.ctx s.fcore
    match writeNote x.graph.toNat n.val (x.gr a) s with
    | none => .wait
    | some s => .go s false .seq)) s)

end Sys2Proof.Machine
end

