-- ==== Sys2Proof/Machine/Tasks.lean ====
section
/-! DEFINITION. Counters, live-task slots, the ready queue's entries and publication (R28 to R37, R40, R81), with TCTR, TNEW,
TSIG and its answer (R193 to R195), and GUARD with the guards of a replay (R107, R111 to R113). -/

namespace Sys2Proof.Machine

open Sys2Proof

/-! ## Dies -/

/-- A die that a partition may use: one of its own, sound, not drained and not being drained (R18, R193,
R353). -/
def dieUsable (s : State) (part : Fin 4) (d : Nat) : Bool :=
  (s.parts[part]).dies.contains d && !s.mgmt.badDies.contains d && !s.mgmt.drained.contains d && !s.mgmt.draining.contains d

/-- The lowest usable die of a partition. -/
def lowestDie (s : State) (part : Fin 4) : Nat := ((List.range 4).find? (dieUsable s part)).getD 0

/-! ## Live-task slots (R31) -/

/-- The generation of a slot. -/
def slotGen (s : State) (slot : Nat) : Nat := lookupNat s.slotGens slot

/-- A free slot of a die; which one is taken is not architected. -/
def freeSlotOf (s : State) (die : Nat) : Option (Nat × State) :=
  let (w, s) := s.takeFree
  (firstFrom (fun i => !(s.tasks.any (·.slot == 16384 * die + i))) 16384 16384 w.toNat).map fun i => (16384 * die + i, s)

/-- Frees a slot: its generation rises by one (R31). -/
def freeSlot (slot : Nat) (s : State) : State :=
  { s with tasks := s.tasks.filter (·.slot != slot)
           slotGens := assignNat s.slotGens slot ((slotGen s slot + 1) % 65536) }

/-! ## Counters (R34, R35) -/

/-- A counter by its number; one never used is free with generation 0. -/
def counterAt (s : State) (idx : Nat) : Counter := (s.counters.find? (·.idx == idx)).getD ⟨idx, 0, .free, 0, 0, 0⟩

/-- A bank applies an operation to a counter: what it leaves (R36). -/
def setCounter (k : Counter) (s : State) : State :=
  { s with counters := { k with opAt := s.cycle + 1 } :: s.counters.filter (·.idx != k.idx) }

/-- The counter's bank has applied an operation to it in this cycle (R36). -/
def counterUsed (s : State) (k : Counter) : Bool := k.opAt == s.cycle + 1

/-- The handle of a counter. -/
def Counter.handle (k : Counter) : Nat := k.idx / 65536 * 2 ^ 30 + k.idx % 65536 * 2 ^ 14 + k.gen % 2 ^ 14

/-- The counter that a handle names, and whether the handle is stale. -/
def counterOf (s : State) (h : Nat) : Counter × Bool :=
  let k := counterAt s (bitsOf h 30 2 * 65536 + bitsOf h 14 16)
  (k, k.gen != h % 2 ^ 14)

/-- Creates a counter on a die with a count (R35); none when the die has no free one. Which is taken is not
architected. -/
def newCounter (s : State) (die graph count : Nat) : Option (Counter × State) :=
  let (w, s) := s.takeFree
  let fits (k : Counter) : Bool := k.st == .free && !counterUsed s k
  (firstFrom (fun i => fits (counterAt s (65536 * die + i))) 65536 65536 w.toNat).map fun i =>
    let k := { counterAt s (65536 * die + i) with st := .opened, count := count, graph := graph }
    (k, setCounter k s)

/-- Frees a counter: generation + 1 modulo 2^14 (R34). -/
def freeCounter (idx : Nat) (s : State) : State :=
  let k := counterAt s idx
  if k.st = .free then s else setCounter { k with st := .free, count := 0, gen := (k.gen + 1) % 2 ^ 14 } s

/-! ## Becoming ready (R40, R81, R82, R112) -/

/-- The members of a task's team, by position; the task itself when it is alone. -/
def teamOf (s : State) (t : Task) : List Task :=
  if t.tsize ≤ 1 then [t]
  else (List.range t.tsize).filterMap fun p =>
    s.tasks.find? fun u => u.graph == t.graph && u.tsize == t.tsize && u.team == t.team && u.mpos == p && u.serves.isNone

/-- Every member of the team is ready. -/
def teamReady (s : State) (t : Task) : Bool :=
  let l := teamOf s t
  l.length == max 1 t.tsize && l.all (·.st == .ready)

/-- Puts an entry into the ready queue of a partition, unless it stands there. -/
def enqueueEntry (part : Nat) (e : QEntry) (s : State) : State :=
  s.updPart (Fin.ofNat 4 part) fun p =>
    if p.queue.any (·.tasks == e.tasks) then p else { p with queue := p.queue ++ [e] }

/-- The entry of a task, or of its team when that is complete, enters the ready queue as though its counter fired now. -/
def enqueueReady (slot : Nat) (s : State) : State :=
  match s.findTask slot with
  | none => s
  | some t =>
    if teamReady s t then
      let part := ((s.findGraph t.graph).map (·.part)).getD 0
      enqueueEntry part ⟨(teamOf s t).map (·.slot), false, false, s.cycle, false, 0⟩ s
    else s

/-- The counter of a task fires: it is ready. A traced task of a replay waits for its trace (R108). -/
def fireTask (slot : Nat) (s : State) : State :=
  let s := s.updTask slot fun t => { t with st := .ready }
  match (s.findTask slot).bind fun t => s.findGraph t.graph with
  | none => s
  | some g =>
    match g.mode with
    | .replay _ => s.updGraph g.handle fun g => { g with firedAt := g.firedAt ++ [(slot, s.cycle)] }
    | _ => enqueueReady slot s

/-! ## Users of a yelm image (R118) -/

/-- Changes the yelm images of a partition. -/
def onYelms (part : Fin 4) (f : List Yelm → List Yelm) (s : State) : State :=
  s.updPart part fun p => { p with yelms := f p.yelms }

/-- A revision is displaced: it is discarded once it has no users (R118). -/
def displace (p : Yelm → Bool) (l : List Yelm) : List Yelm :=
  (updWhere (fun y => y.st == .held && p y) (fun y => { y with st := .discarding }) l).filter
    fun y => !(y.st == .discarding && y.users == 0)

/-- A graph that replayed an image uses it no more. -/
def leaveYelm (id : Nat) (l : List Yelm) : List Yelm :=
  displace (fun _ => false) (updWhere (·.id == id) (fun y => { y with users := y.users - 1 }) l)

/-! ## The guards of a replay (R111 to R113) -/

/-- The frame cycle of a graph: 0 before it begins (R100). -/
def graphCycle (s : State) (g : Graph) : Nat :=
  match g.frame0 with
  | none => 0
  | some b => s.cycle - b

/-- Every task of a graph whose counter has fired and that has not been dispatched enters the ready queue, as though its
counter fired now (R112). -/
def enqueueFired (graph : Nat) (s : State) : State :=
  match s.findGraph graph with
  | none => s
  | some g =>
    (g.firedAt.filter fun e => (s.findTask e.1).any (·.st == .ready)).foldl (fun s e => enqueueReady e.1 s)
      (s.updGraph graph fun g => { g with firedAt := [] })

/-- A guard fails: the notice is written, and the tasks that have fired are handed back. Only the first failure of a replay
counts. -/
def guardFail (graph kind gidx lcore seq : Nat) (expv obsv : W64) (s : State) : State :=
  match s.findGraph graph with
  | none => s
  | some g =>
    match g.mode with
    | .replay rev =>
      let n : GuardNote := ⟨kind, gidx, lcore, seq, graphCycle s g, expv, obsv⟩
      enqueueFired graph (s.updGraph graph fun g => { g with mode := .handedBack rev, note := some n })
    | _ => s

/-- The trace entries of a logical core. -/
def coreTrace (y : Yelm) (lcore : Nat) : List Trace := y.traces.filter (·.lcore == lcore)

/-- The trace entry of a traced task. -/
def traceOf (s : State) (t : Task) : Option Trace :=
  match t.traced, s.findGraph t.graph with
  | some i, some g => (replayYelm s g).bind fun y => (coreTrace y t.lcore)[i]?
  | _, _ => none

/-- The SHAPE guard: a publication that no entry of the yelm describes (R111). The failing task is the one that is published;
its logical core is that of its trace entry, or 0 when it has none (notes/assumptions/39.md). -/
def shapeGuard (graph seq prio tsize mpos : Nat) (s : State) : State :=
  match s.findGraph graph with
  | none => s
  | some g =>
    match replayYelm s g with
    | none => s
    | some y =>
      match y.traces.find? (·.seq == seq) with
      | none => guardFail graph 3 0 0 seq 0 0 s
      | some e =>
        if e.prio = prio ∧ e.tsize = tsize ∧ e.mpos = mpos then s else guardFail graph 3 0 e.lcore seq 0 0 s

/-- Changes the entry of a logical core at a place among that core's entries. -/
def updEntry (lcore : Nat) (f : Trace → Trace) : Nat → List Trace → List Trace
  | _, [] => []
  | k, e :: r =>
    if e.lcore != lcore then e :: updEntry lcore f k r
    else
      match k with
      | 0 => f e :: r
      | k + 1 => e :: updEntry lcore f k r

/-- Logs a GUARD value in the entry of its task (R101). -/
def logGuard (t : Task) (v : W64) (g : Graph) : Graph :=
  match t.logIdx with
  | some i => { g with log := updEntry t.lcore (fun e => { e with guards := e.guards ++ [v] }) i g.log }
  | none => g

/-- GUARD's effect by how its graph runs (R107). -/
def guardStep (t : Task) (n : Nat) (v : W64) (s : State) : State :=
  match s.findGraph t.graph with
  | none => s
  | some g =>
    if !t.grec then s
    else
      match g.mode with
      | .recording _ =>
        if n < 16 then s.updGraph g.handle (logGuard t v)
        else s.updGraph g.handle fun g => { g with mode := .recording true }
      | .replay _ =>
        match traceOf s t with
        | none => s
        | some e =>
          match e.guards[n]? with
          | none => guardFail g.handle 1 n t.lcore t.seq 0 0 s
          | some w => if w = v then s else guardFail g.handle 0 n t.lcore t.seq w v s
      | _ => s

/-- GUARD presents a value (R107). -/
def execGuard (t : Tok) (a : GReg) (s : State) : Out :=
  .next (issue t (plain [a.val] fun s =>
    let x := s.ctx s.fcore
    let s := onCtx (fun x => { x with guards := x.guards + 1 }) s
    match ((s.core s.fcore).run.slot?).bind s.findTask with
    | none => s
    | some k => guardStep k x.guards (x.gr a) s) s)

/-- The COUNT guard at TEND step 1 (R107). -/
def countGuard (t : Task) (n : Nat) (s : State) : State :=
  match traceOf s t with
  | none => s
  | some e => if t.grec && n < e.guards.length then guardFail t.graph 1 n t.lcore t.seq 0 0 s else s

/-! ## Publication (R25, R26, R28, R32, R40) -/

/-- The outcome of a publication: the check that failed, with its code and address; no free slot; its turn at its counter's
bank has not come (R36); or the handle. -/
inductive PubRes
  | bad (check code : Nat) (addr : W64) (stale : Bool)
  | noSlot
  | notYet (idx : Nat)
  | ok (handle : Nat)
  deriving DecidableEq, Repr, Inhabited

/-- An address that must be a device virtual address, aligned (R26). -/
def codeAddrBad (a al : Nat) : Bool := a % al != 0 || 2 ^ 43 ≤ a

/-- The RECORD checks of a kernel object of 64 bytes (R26). -/
def kernelBad (w : Nat) : Bool :=
  (List.range 4).any (fun i => codeAddrBad (bitsOf w (64 * i) 64) 128) || bitsOf w 256 16 == 0 ||
  8192 < bitsOf w 320 14 || bitsOf w 336 4 == 0 || 8 < bitsOf w 336 4 ||
  bitsOf w 334 2 != 0 || bitsOf w 340 4 != 0 || bitsOf w 352 160 != 0

/-- The images of a kernel object: C, L, M, S. -/
def kernelImages (w : Nat) : List (W64 × Nat) :=
  (List.range 4).map fun i => (BitVec.ofNat 64 (bitsOf w (64 * i) 64), bitsOf w (256 + 16 * i) 16)

/-- KTEAM, SPADK and CHUSE. -/
def kernelTeam (w : Nat) : Nat := bitsOf w 336 4
def kernelSpad (w : Nat) : Nat := bitsOf w 320 14
def kernelChuse (w : Nat) : BitVec 8 := BitVec.ofNat 8 (bitsOf w 344 8)

/-- The checks of a task record's own fields (R32 check 4). R32 lists no alignment of SUCC and ARGS: DESIGN CHOICE, a record
whose SUCC is no multiple of 4 or whose ARGS is none of 16 is published, and its list is read where it stands
(notes/assumptions/94.md). -/
def recordBad (w : Nat) : Bool :=
  bitsOf w 243 13 != 0 || bitOf w 279 || bitsOf w 294 2 != 0 || bitsOf w 300 4 != 0 || bitsOf w 315 5 != 0 ||
  bitsOf w 456 56 != 0 || bitsOf w 272 4 == 0 || 8 < bitsOf w 272 4 || bitsOf w 272 4 ≤ bitsOf w 276 3 ||
  8192 < bitsOf w 280 14 || bitsOf w 297 2 == 3 || 4096 < bitsOf w 192 16 || (bitOf w 314 && 639 < bitsOf w 304 10)

/-- The sequence number of a record's address (R29). -/
def seqOfRecord (va : Nat) : Nat := bitsOf va 6 37

/-- A published member of the same team contradicts the record (R40). -/
def teamBad (s : State) (graph w : Nat) : Bool :=
  let tsize := bitsOf w 272 4
  1 < tsize && s.tasks.any fun t => t.graph == graph && t.serves.isNone && 1 < t.tsize && t.team == bitsOf w 256 16 &&
    (t.tsize != tsize || t.kobj != bitsOf w 0 64 || t.prio != bitsOf w 240 3 || t.mpos == bitsOf w 276 3)

/-- The record is live: its HND names a live slot published from this record (R32 check 3). DESIGN CHOICE: a slot published
from the same address in another context or through another port holds another record (notes/assumptions/95.md). -/
def recordLive (s : State) (graph va w : Nat) : Bool :=
  match s.findTask (bitsOf w 424 32 / 65536) with
  | some t => t.recAddr == va && t.serves.isNone && portOf t.graph == portOf graph && ctxOf t.graph == ctxOf graph
  | none => false

/-- A task as its record and kernel object describe it. -/
def taskOf (graph va w k slot gen cidx : Nat) : Task :=
  { slot := slot, gen := gen, graph := graph, recAddr := va, kobj := bitsOf w 0 64, images := kernelImages k,
    args := BitVec.ofNat 64 (bitsOf w 64 64), succ := bitsOf w 128 64, nsucc := bitsOf w 192 16, ctr := some cidx,
    prio := bitsOf w 240 3, team := bitsOf w 256 16, tsize := bitsOf w 272 4, mpos := bitsOf w 276 3,
    size := max (bitsOf w 280 14) (kernelSpad k) * 256, reloc := bitOf w 296, orph := bitsOf w 297 2,
    grec := bitOf w 299, hint := if bitOf w 314 then some (bitsOf w 304 10) else none, hand := bitsOf w 320 64,
    seq := seqOfRecord va, chuse := kernelChuse k, serves := none, st := .bound, lcore := 0, pcore := 0, base := 0,
    fault := none, forced := false, image := none, walkAt := 0, list := [], traced := none, started := 0, slotAt := 0,
    retry := false, tend3 := none, oseqAt := [], copyX := false, logIdx := none, lateFault := none, dying := false,
    again := none, cutAt := 0, slip := 0, stall := 0 }

/-- Bits of a record replaced. -/
def setBits (w lo n v : Nat) : Nat := w - bitsOf w lo n * 2 ^ lo + v % 2 ^ n * 2 ^ lo

/-- Reads a 64-byte object at a device virtual address through Ridge's rights. -/
def readObject (c : CoreId) (r : Rights) (va : Nat) (s : State) : State × Except (Nat × Nat) Nat :=
  if 2 ^ 43 < va + 64 then (s, .error (cPageNotPresent, va))
  else
  match checkPieces c r false true true s [⟨va, 64, 0⟩] [] none false with
  | (s, .ok us) => (s, .ok (ofBytes ((us.map fun u => s.load u.key u.len).flatten)))
  | (s, .held) => (s, .error (cPagePermission, va))
  | (s, .fault e a) => (s, .error (e, a))

/-- Whether a record's page can be written (R32 check 2). -/
def writable (c : CoreId) (r : Rights) (va : Nat) (s : State) : State × Option Nat :=
  match checkPieces c r true false true s [⟨va, 64, 0⟩] [] none false with
  | (s, .fault e _) => (s, some e)
  | (s, _) => (s, none)

/-- A task waits for its handler to be spawned. -/
def wantsHandler (s : State) (t : Task) : Bool :=
  t.fault.isSome && t.again.isNone && t.serves.isNone && !t.dying &&
  (t.st == .cutHeld || t.st == .cutStored || t.st == .walkFault) && !s.tasks.any (·.serves == some t.slot)

/-- The handlers of a partition that wait for a slot. -/
def handlersWaiting (s : State) (part : Nat) : Nat :=
  s.tasks.countP fun t => wantsHandler s t && t.hand != 0 && (s.findGraph t.graph).any (·.part == part)

/-- A slot of a die for a publication: a handler that waits for one comes first (R327). -/
def slotFor (s : State) (part die : Nat) : Option (Nat × State) :=
  if 16384 ≤ s.tasks.countP (·.slot / 16384 == die) + handlersWaiting s part then none else freeSlotOf s die

/-- A decrement is none of a walk that has stopped. -/
def decrRuns (s : State) (q : Decr) : Bool :=
  q.core.isSome || match s.findTask q.slot with
  | some t => t.st != .walkFault && t.image.isNone
  | none => true

/-- The walk of an ending task has applied its last decrement: its counter is freed in this cycle (R36, R38). -/
def freesNow (s : State) (t : Task) : Bool :=
  t.st == .ending && t.tend3.getD s.cycle < s.cycle && !(t.list == [] && 0 < t.nsucc) && t.list.length ≤ t.walkAt &&
  !s.decrs.any fun q => q.core.isNone && q.slot == t.slot

/-- The order of operations at a bank: by arrival, then by ascending logical core (R36). -/
def bankKey (at_ lcore : Nat) : Nat := at_ * 1024 + lcore

/-- An operation of a logical core's task on a counter waits: its bank has applied one in this cycle; or a decrement, a
publication or the freeing of another comes before it by arrival and logical core (R36). -/
def bankTaken (s : State) (k : Counter) (lcore : Nat) : Bool :=
  let me := bankKey (bankArrival s k.idx lcore) lcore
  counterUsed s k ||
  s.decrs.any (fun q => decrRuns s q && (counterOf s q.handle.toNat).1.idx == k.idx && bankKey q.at_ q.lcore < me) ||
  s.pubs.any (fun p => p.idx == k.idx && bankKey p.at_ p.lcore < me) ||
  s.tasks.any fun t => t.ctr == some k.idx && freesNow s t && bankKey s.cycle t.lcore < me

/-- The last steps of a publication: the slot, the record's SEQ, HND and CTR, and the counter (R29, R31, R35). -/
def publishTask (c : CoreId) (g : Graph) (va w k : Nat) (ctr : Counter) (s : State) : State × PubRes :=
  match slotFor s g.part (ctr.idx / 65536) with
  | none => (s, .noSlot)
  | some (slot, s) =>
    let gen := slotGen s slot
    let t := taskOf g.handle va w k slot gen ctr.idx
    let w' := setBits (setBits (setBits w 384 40 t.seq) 424 32 t.handle) 208 32 ctr.handle
    let s := (ridgeWrite c (graphRights g) va (toBytes 64 w') s).1
    let s := shapeGuard g.handle t.seq t.prio t.tsize t.mpos { s with tasks := s.tasks ++ [t] }
    let s := if ctr.count = 0 then fireTask slot (setCounter { ctr with st := .fired slot } s)
      else setCounter { ctr with st := .bound slot } s
    (s, .ok t.handle)

/-- Publishes the record at an address for a graph, with a counter handle or the record's own (R32, R194). A task's
publication, from logical core pub, waits for its turn at the counter's bank; a host launch comes first there (R36). -/
def publish (c : CoreId) (g : Graph) (pub : Option Nat) (va : Nat) (named : Option Nat) (s : State) : State × PubRes :=
  let r := graphRights g
  let at_ := BitVec.ofNat 64 va
  if va % 64 != 0 then (s, .bad 1 cAlign at_ false)
  else
    match readObject c r va s with
    | (s, .error (e, _)) => (s, .bad 2 e at_ false)
    | (s, .ok w) =>
      match writable c r va s with
      | (s, some e) => (s, .bad 2 e at_ false)
      | (s, none) =>
        if recordLive s g.handle va w then (s, .bad 3 cRecord at_ false)
        else if recordBad w || teamBad s g.handle w then (s, .bad 4 cRecord at_ false)
        else if codeAddrBad (bitsOf w 0 64) 64 then (s, .bad 5 cRecord at_ false)
        else
          match readObject c r (bitsOf w 0 64) s with
          | (s, .error (e, a)) => (s, .bad 5 e (BitVec.ofNat 64 a) false)
          | (s, .ok k) =>
            if kernelBad k || kernelTeam k != bitsOf w 272 4 then (s, .bad 5 cRecord at_ false)
            else
              let h := named.getD (bitsOf w 208 32)
              let (q, stale) := counterOf s h
              if pub.any (bankTaken s q) then (s, .notYet q.idx)
              else if stale || q.st != .opened || q.graph != g.handle then
                (s, .bad 6 cCounterUnderflow (BitVec.ofNat 64 h) stale)
              else publishTask c g va w k q s

/-! ## TCTR and TNEW (R193, R194) -/

/-- The die that TCTR names (R193). -/
def tctrDie (s : State) (c : CoreId) (k : Nat) : Nat :=
  let d := if k = 4 then (dieOf c).val else k
  let part := s.partOfCore c
  if dieUsable s part d then d else lowestDie s part

/-- TCTR creates a counter; with no free one on its die it does not issue. -/
def execTctr (t : Tok) (d a : GReg) (k : Fin 5) (s : State) : Out :=
  .next (issue t (planOf [d.val, a.val] fun _ s =>
    let x := s.ctx s.fcore
    let n := (x.gr a).toNat
    if 16777215 < n then .fault { code := cRecord }
    else
      match newCounter s (tctrDie s s.fcore k.val) x.graph.toNat n with
      | none => .wait
      | some (q, s) => .go (onCtx (·.setG d (BitVec.ofNat 64 q.handle)) s) false .seq) s)

/-- TNEW publishes a task; with no free slot on its counter's die it does not issue. -/
def execTnew (t : Tok) (d a b : GReg) (s : State) : Out :=
  .next (issue t (releasing (planOf [d.val, a.val, b.val] fun _ s =>
    let x := s.ctx s.fcore
    let va := x.gr a
    if tagOf va != 0 || (placeOf va.toNat).isNone then .fault { code := cSpace, addr := va }
    else
      match s.findGraph x.graph.toNat with
      | none => .wait
      | some g =>
        let named := if b = 0 then none else some ((x.gr b).toNat % 2 ^ 32)
        match publish s.fcore g (some x.lcore.toNat) va.toNat named s with
        | (_, .bad _ e ad st) => .fault { code := e, addr := ad, stale := st, skip := e == cCounterUnderflow }
        | (_, .noSlot) => .wait
        | (_, .notYet idx) => .turn idx
        | (s, .ok h) => .go (onCtx (·.setG d (BitVec.ofNat 64 h)) s) false .seq)) s)

/-! ## Decrements (R35 to R37, R93, R195) -/

/-- Cycles from a core to the bank of a handle: 4 on its own physical die, else 12. -/
def bankDelay (c : CoreId) (h : Nat) : Nat := if (dieOf c).val = bitsOf h 30 2 then 4 else 12

/-- TSIG sends its decrement and waits for the bank's answer (R195). -/
def execTsig (t : Tok) (a : GReg) (s : State) : Out :=
  .next (issueWaiting t (releasing (planOf [a.val] fun _ s =>
    let x := s.ctx s.fcore
    let h := (x.gr a).toNat % 2 ^ 32
    let q : Decr := ⟨BitVec.ofNat 32 h, s.cycle + bankDelay s.fcore h, x.lcore.toNat, x.graph.toNat, some s.fcore, 0, 0,
      s.focus.word⟩
    .go { s with decrs := s.decrs ++ [q] } false .seq)) .wait s)

/-- What a decrement does to a counter (R35): applied, or COUNTER_UNDERFLOW, stale or not. R195 says so of a TSIG that names a
counter of another graph; DESIGN CHOICE, a walk entry that does is treated in the same way (notes/assumptions/96.md). -/
def decrement (h graph : Nat) (s : State) : State × Option Bool :=
  let (k, stale) := counterOf s h
  if stale then (s, some true)
  else if k.graph != graph || k.count == 0 then (s, some false)
  else
    match k.st with
    | .opened => (setCounter { k with count := k.count - 1 } s, none)
    | .bound slot =>
      if k.count = 1 then (fireTask slot (setCounter { k with count := 0, st := .fired slot } s), none)
      else (setCounter { k with count := k.count - 1 } s, none)
    | _ => (s, some false)

/-- A successor walk meets a fault: it stops, a cut that is held in place on the core if the task still has it, and the
task's handler decides (R37, R323, R329). -/
def walkFault (slot code : Nat) (addr : W64) (widx : Nat) (stale : Bool) (s : State) : State :=
  let f : FaultInfo :=
    { code := code, stream := .ctl, src := 2, lost := false, stale := stale, walk := true,
      skip := code == cCounterUnderflow, late := false, pc := 0, word := 0, w2 := 0, addr := addr, optok := 0,
      widx := widx, course := s.course, at_ := s.cycle }
  let s := match s.findTask slot with
    | some t => if (s.core t.pcore).run.slot? = some slot then s.setCore t.pcore { s.core t.pcore with run := .held slot } else s
    | none => s
  s.updTask slot fun t =>
    { t with st := .walkFault, fault := some f, cutAt := s.cycle, again := none }

/-- A decrement may be applied: it has arrived, its bank has applied nothing to its counter in this cycle, and it is none of
a walk that has stopped. -/
def decrDue (s : State) (q : Decr) : Bool :=
  q.at_ ≤ s.cycle && !counterUsed s (counterOf s q.handle.toNat).1 && decrRuns s q

/-- The decrement that is applied next: by arrival, then by ascending logical core (R36). -/
def nextDecr (s : State) : Option Decr := leastBy (fun q => bankKey q.at_ q.lcore) (s.decrs.filter (decrDue s))

/-- COUNTER_DECREMENT: a decrement is applied at its bank (R35, R36). -/
def execCounterDecrement (s : State) : Out :=
  match nextDecr s with
  | none => .next s
  | some q =>
    let s := { s with decrs := s.decrs.erase q }
    let h := q.handle.toNat
    let r := decrement h q.graph s
    match q.core with
    | some c =>
      .next { r.1 with answers := r.1.answers ++
        [⟨c, s.cycle + bankDelay c h, r.2.isNone, r.2.getD false, q.handle, q.word⟩] }
    | none =>
      match r.2 with
      | none => .next r.1
      | some stale => .next (walkFault q.slot cCounterUnderflow (BitVec.ofNat 64 h) q.widx stale r.1)

/-- The waiting instruction of a stream completes: its posts are made and its stream goes on. -/
def finishWaiting (c : CoreId) (st : Stream) (words : Nat) (s : State) : State :=
  let x := s.ctx c
  let x := makePosts (x.setStrm st { x.strm st with taken := false, took := (0, 0) }) s.cycle st 0
  s.setCtx c (advance x st words .seq)

/-- TSIG_ANSWER: the bank's answer completes the TSIG, or raises COUNTER_UNDERFLOW at it (R195). -/
def execTsigAnswer (c : CoreId) (s : State) : Out :=
  match takeFirst (fun q => q.core == c && q.at_ ≤ s.cycle) s.answers with
  | none => .next s
  | some (q, rest) =>
    let s := { s with answers := rest }
    if !((s.ctx c).strm .ctl).taken then .next s
    else if q.ok then .next (finishWaiting c .ctl 1 s)
    else
      let s := { s.setCtx c (withdraw (s.ctx c) .ctl) with focus := ⟨c, .ctl, q.word, 0⟩ }
      .next (takeFault s { code := cCounterUnderflow, addr := q.handle.setWidth 64, skip := true, stale := q.stale })

end Sys2Proof.Machine
end

