-- ==== Sys2Proof/Machine/Mapping.lean ====
section
/-! DEFINITION. The mapping of logical to physical cores (R12 to R18), held ranges (R86), and where a task fits (R85 to
R89). -/

namespace Sys2Proof.Machine

open Sys2Proof

/-! ## The mapping (R12, R13, R15) -/

/-- A die whose clusters may be mapped: sound, not being drained, and not drained unless it returns (R12, R18, R353). -/
def dieMapped (s : State) (d : Nat) : Bool :=
  !s.mgmt.badDies.contains d && !s.mgmt.draining.contains d && (!s.mgmt.drained.contains d || s.mgmt.returning.contains d)

/-- A physical cluster is usable: all eight cores pass their health checks, and its die is not being drained (R12). -/
def clusterUsable (s : State) (k : Nat) : Bool :=
  dieMapped s (k / 20) && (List.range 8).all fun j => !(s.core (coreOfNat (8 * k + j))).failed

/-- P: the usable physical clusters of a partition in ascending order (R13). -/
def usableMap (s : State) (part : Fin 4) : List Nat :=
  (List.range 80).filter fun k => (s.parts[part]).dies.contains (k / 20) && clusterUsable s k

/-- m: the Loft banks of the usable dies (R15). -/
def usableBanks (s : State) (part : Fin 4) : Nat := 128 * (s.parts[part]).dies.countP (dieMapped s)

/-- W: the physical banks of the usable dies, by 128 · die + bank (R15). -/
def physicalBanks (s : State) (part : Fin 4) : List Nat :=
  ((s.parts[part]).dies.filter (dieMapped s)).flatMap fun d => (List.range 128).map (128 * d + ·)

/-- Where a logical Loft bank resides: in a physical bank, or in reserved HBM with the ALU of a physical bank (R15, R217). -/
inductive LoftHome
  | bank (w : Nat)
  | backed (alu : Nat)
  deriving DecidableEq, Repr, Inhabited

/-- The home of a logical Loft bank (R15, R217). No access of a program depends on it: both homes give the same results. -/
def loftHome (s : State) (part : Fin 4) (b : Nat) : LoftHome :=
  let w := physicalBanks s part
  match w[b]? with
  | some k => .bank k
  | none => .backed ((w[b % w.length]?).getD 0)

/-- A partition runs with at least ten usable clusters (R13). -/
def mapReady (s : State) (part : Fin 4) : Bool := !(s.parts[part]).used || 10 ≤ (usableMap s part).length

/-! ## Held ranges (R86) -/

/-- Bytes lo to hi of a physical core's scratchpad. -/
structure Span where
  core : Nat
  lo   : Nat
  hi   : Nat
  deriving DecidableEq, Repr, Inhabited

/-- Bytes lo to hi of the cluster window, as the scratchpads of a physical core's cluster hold them (R216). -/
def windowPieces (pcore : Nat) (lo hi : Int) : List Span :=
  (List.range 8).filterMap fun q =>
    let a := max lo (q * 2 ^ 21 : Nat)
    let b := min hi ((q + 1) * 2 ^ 21 : Nat)
    if a < b then some ⟨pcore / 8 * 8 + q, (a - (q * 2 ^ 21 : Nat)).toNat, (b - (q * 2 ^ 21 : Nat)).toNat⟩ else none

/-- The scratchpad bytes from lo to hi past an address, for a task on a physical core. -/
def spanAt (pcore : Nat) (a : W64) (lo hi : Int) : List Span :=
  match placeOf a.toNat with
  | some (.own off) => [⟨pcore, (off + lo).toNat, (off + hi).toNat⟩]
  | some (.window q off) => windowPieces pcore ((q * 2 ^ 21 + off : Nat) + lo) ((q * 2 ^ 21 + off : Nat) + hi)
  | _ => []

/-- The least and the greatest offset of a sum of indices times strides, with one range of indices for each. -/
def boxOf : List (Nat × Nat × Int) → Int × Int
  | [] => (0, 0)
  | (a, b, st) :: r =>
    let (lo, hi) := boxOf r
    (lo + min (a * st) (b * st), hi + max (a * st) (b * st))

/-- The window bytes of items of n bytes at a sum of indices times strides past an offset: taken whole where they lie in one
scratchpad, else index by index of the first stride. -/
def windowBox (pcore n : Nat) : List (Nat × Nat × Int) → Int → List Span
  | [], x => windowPieces pcore x (x + n)
  | (a, b, st) :: r, x =>
    let (lo, hi) := boxOf ((a, b, st) :: r)
    if (x + lo) / 2 ^ 21 = (x + hi + n - 1) / 2 ^ 21 then windowPieces pcore (x + lo) (x + hi + n)
    else (List.range (b + 1 - a)).flatMap fun i => windowBox pcore n r (x + (a + i : Nat) * st)

/-- The scratchpad bytes of items of n bytes at a sum of indices times strides past an address. -/
def boxSpans (pcore : Nat) (a : W64) (n : Nat) (dims : List (Nat × Nat × Int)) : List Span :=
  match placeOf a.toNat with
  | some (.window q off) => windowBox pcore n dims (q * 2 ^ 21 + off : Nat)
  | _ => let (lo, hi) := boxOf dims; spanAt pcore a lo (hi + n)

/-- The boxes of the innermost copies after the one at the indices ix: at each level, the later indices of that level,
every index of the levels below and the present index of those above. -/
def laterBoxes (below : List (Nat × Nat × Int)) : List (Nat × Nat × Int) → List (List (Nat × Nat × Int))
  | [] => []
  | (i, c, st) :: r =>
    let above := r.map fun e => (e.1, e.1, e.2.2)
    let rest := laterBoxes (below ++ [(0, c - 1, st)]) r
    if i + 1 < c then (below ++ (i + 1, c - 1, st) :: above) :: rest else rest

/-- The bytes of one side of a copy at and after its cursor: the rest of the present innermost copy, and those after it (R86,
R238). -/
def copySpan (pcore : Nat) (base : W64) (strides : List W32) (n : NestReg) (cursor : Nat) : List Span :=
  let e := n.ebytes.toNat
  let ix := nestIndices n.counts.toList (cursor / e)
  let dims := (ix.zip n.counts.toList).zip strides |>.map fun p => (p.1.1, p.1.2.toNat, p.2.toInt)
  let here := (boxOf (dims.map fun d => (d.1, d.1, d.2.2))).1
  spanAt pcore base (here + (cursor % e : Nat)) (here + e) ++
    (laterBoxes [] dims).flatMap fun b => boxSpans pcore base e b.reverse

/-- The bytes of the tile rows a to b that a ZLD or ZST moves (R283). -/
def tileSpan (pcore : Nat) (h : ShapeReg) (a b : Nat) : List Span :=
  (List.range (b - a)).flatMap fun i => spanAt pcore (zRowAddr h (a + i)) 0 (4 * zRowLen h (a + i) : Nat)

/-- The bytes of rows a to b of a record. -/
def rowSpan (pcore : Nat) (h : ShapeReg) (a b : Nat) : List Span :=
  if b ≤ a then [] else boxSpans pcore h.base h.rowBytes [(a, b - 1, h.stride.toInt)]

/-- The scratchpad bytes that a live op has yet to access (R86). -/
def opSpans (o : Op) : List Span :=
  let p := o.rights.pcore
  match o.kind with
  | .copy src dst n notify expect _ =>
    if o.total ≤ o.cursor then []
    else
      copySpan p src n.sstr.toList n o.cursor ++ copySpan p dst n.dstr.toList n o.cursor ++
      (if notify then spanAt p n.lwaddr 0 16 else []) ++ (if expect.isSome then spanAt p n.vwaddr 0 8 else [])
  | .gather k dst ht hi togq _ _ =>
    let step := if k = .gred then roundUp 16 (4 * ht.cols.toNat) else roundUp 16 ht.rowBytes
    rowSpan p hi 0 hi.rows.toNat ++ rowSpan p ht 0 ht.rows.toNat ++
    (if o.bmap = 0 then [] else spanAt p o.bmap 0 (8 * ((o.total + 63) / 64) : Nat)) ++
    (if togq || o.total ≤ o.cursor then [] else spanAt p dst (o.cursor * step : Nat) (o.total * step : Nat))
  | .zst _ h => tileSpan p h o.cursor o.total
  | .coll c src dst land _ _ =>
    spanAt p src 0 (collSourceLen c : Nat) ++ spanAt p dst 0 (collBytes c : Nat) ++ spanAt p o.recAt 0 32 ++
    (if land = 0 then [] else spanAt p land 0 16)
  | _ => []

/-- The held range of an op in a physical core's scratchpad: the smallest on 256-byte boundaries (R86). -/
def heldRange (o : Op) (c : Nat) : Option (Nat × Nat) :=
  match (opSpans o).filter fun p => p.core == c && p.lo < p.hi with
  | [] => none
  | p :: ps =>
    let lo := ps.foldl (fun m q => min m q.lo) p.lo / 256 * 256
    let hi := roundUp 256 (ps.foldl (fun m q => max m q.hi) p.hi)
    some (lo, min hi 2097152 - lo)

/-- An op resumes by itself and not with a task's cut: it is detached, or has been and was adopted (R171, R173). -/
def Op.ownPlace (o : Op) : Bool := o.owner.isNone || o.adopted

/-- The held ranges of a physical core, of the ops that satisfy p: those of the live ops of its cluster that are detached. One
that is adopted keeps its range: it stays held until the op ends (R86). -/
def heldRangesOf (p : Op → Bool) (s : State) (c : Nat) : List (Nat × Nat) :=
  (s.ops.filter fun o => o.status.isLive && o.ownPlace && o.rights.pcore / 8 == c / 8 && p o).filterMap (heldRange · c)

/-- The held ranges of a physical core (R86). -/
def heldRanges (s : State) (c : Nat) : List (Nat × Nat) := heldRangesOf (fun _ => true) s c

/-- A range lies in the scratchpad and overlaps no held range. -/
def rangeFree (held : List (Nat × Nat)) (base size : Nat) : Bool :=
  base + size ≤ 2097152 && !held.any fun h => size != 0 && overlaps base size h.1 h.2

/-- The lowest base for a range of a size (R86). -/
def lowestBase (held : List (Nat × Nat)) (size : Nat) : Option Nat :=
  leastBy id ((0 :: held.map fun h => h.1 + h.2).filter fun b => rangeFree held b size)

/-! ## Fit (R85, R87) -/

/-- An op channel of a physical core is available to a task of a graph (R87). -/
def channelFree (s : State) (c : CoreId) (graph : Nat) (n : Fin 8) : Bool :=
  let l := s.ops.filter fun o => o.status.isLive && o.rights.pcore == c.val && o.chan == n
  l.all (·.graph == graph) && l.length < 8

/-- Every channel of CHUSE is available (R87). -/
def channelsFree (s : State) (c : CoreId) (graph : Nat) (chuse : BitVec 8) : Bool :=
  (List.finRange 8).all fun n => !chuse.getLsbD n.val || channelFree s c graph n

/-- A physical core is free for dispatch, drains of Ridge aside: nothing runs on it, and it is neither being drained nor
evicted (R85, R99, R331). -/
def coreIdle (s : State) (c : CoreId) : Bool :=
  (s.core c).run == .idle && !(s.core c).failed && dieMapped s (dieOf c).val && !s.evict.any (·.1 == c)

/-- The cluster of a core is held by a Ridge drain for tasks that are not these (R85, R91). -/
def drainHolds (p : Part) (c : CoreId) (tasks : List Nat) : Bool :=
  match p.drain with
  | some (k, l) => c.val / 8 == k && l != tasks
  | none => false

/-- Where a task fits on a core: its base, with the channels of its kernel available (R86, R87). -/
def fitBase (s : State) (c : CoreId) (t : Task) : Option Nat :=
  if channelsFree s c t.graph t.chuse then lowestBase (heldRanges s c.val) t.size else none

/-- A given base fits on a core, as for a traced start or a resume. The ranges of ops that come back with the task's own image do
not stand in its way (R108, R334). -/
def fitsAt (s : State) (c : CoreId) (t : Task) (base : Nat) : Bool :=
  channelsFree s c t.graph t.chuse &&
    rangeFree (heldRangesOf (fun o => !t.image.any (·.ops.contains o.oid)) s c.val) base t.size

/-! ## What a start needs (R95, R96) -/

/-- The port and the context of a task's graph. -/
def Task.context (t : Task) : Nat × Nat := ((portOf t.graph).val, (ctxOf t.graph).val)

/-- The scratchpad of a core must be cleared before a task's streams start (R96). DESIGN CHOICE: the previous task is the one
that stood on the core last, although it may have been killed before its streams started; a task that restarts where it was
held is not its own previous task (notes/assumptions/97.md). -/
def needsClear (s : State) (t : Task) : Bool :=
  match (s.core t.pcore).last with
  | none => false
  | some k => k != t.context

/-- Writes zero to every byte of a scratchpad outside the held ranges, with valid ECC (R96). -/
def clearSpad (c : CoreId) (s : State) : State :=
  let held := heldRanges s c.val
  let hit (k : Nat) : Bool :=
    spadKey c.val 0 ≤ k && k < spadKey c.val 2097152 && !held.any fun h => h.1 ≤ k - spadKey c.val 0 && k - spadKey c.val 0 < h.1 + h.2
  { s with mem := s.mem.filter fun e => !hit e.1, poison := s.poison.filter fun w => !hit w }

/-- Sequence counters of a context on a logical core: OSEQ0–OSEQ7 (R95). -/
def oseqNow (s : State) (t : Task) (lcore : Nat) : List Nat :=
  (List.range 8).map (seqCounter s (portOf t.graph) (ctxOf t.graph) lcore)

/-! ## A change of the mapping (R17, R332, R334) -/

/-- The bytes of a memory in a range, by their place in it. -/
def Memory.within (m : Memory) (lo n : Nat) : List Host.Cell :=
  (m.filter fun c => lo ≤ c.1 && c.1 < lo + n).map fun c => (c.1 - lo, c.2)

/-- A memory with a range cleared. -/
def Memory.clear (m : Memory) (lo n : Nat) : Memory := m.filter fun c => !(lo ≤ c.1 && c.1 < lo + n)

/-- Writes cells at an offset. -/
def Memory.paste (m : Memory) (lo : Nat) (l : List Host.Cell) : Memory :=
  l.foldl (fun m c => m.write (lo + c.1) c.2) m

/-- The poisoned words that lie wholly in a range, by their place in it (R229). -/
def State.poisonIn (s : State) (lo n : Nat) : List Nat :=
  (s.poison.filter fun w => lo ≤ w && w + 8 ≤ lo + n).map (· - lo)

/-- A range takes the bytes and the poisoned words of a copy. -/
def State.pasteRange (s : State) (lo n at_ : Nat) (l : List Host.Cell) (ue : List Nat) : State :=
  { s with mem := (s.mem.clear lo n).paste at_ l
           poison := s.poison.filter (fun w => !(lo ≤ w && w + 8 ≤ lo + n)) ++ ue.map (at_ + ·) }

/-- The physical cluster that hosts a logical one, if any (R13). -/
def hostIn (map : List Nat) (k : Nat) : Option Nat := map[k % map.length]?

/-- The logical clusters whose host differs between two mappings. -/
def movedClusters (old new : List Nat) : List Nat := (List.range 80).filter fun k => hostIn old k != hostIn new k

/-- The physical cores that host a logical cluster that moves. -/
def hostsOfMoved (old new : List Nat) : List CoreId :=
  ((movedClusters old new).filterMap (hostIn old)).eraseDups.flatMap fun k => (List.range 8).map fun j => coreOfNat (8 * k + j)

/-- What a range loses to others: the parts of it that lie in none of them. -/
def rangeMinus (l : List (Nat × Nat)) : List (Nat × Nat) → List (Nat × Nat)
  | [] => l
  | (b, m) :: r =>
    rangeMinus (l.flatMap fun (a, n) =>
      if overlaps a n b m then
        (if a < b then [(a, b - a)] else []) ++ (if b + m < a + n then [(b + m, a + n - (b + m))] else [])
      else [(a, n)]) r

/-- The bytes of a range of a scratchpad, as they stand. -/
def spanNow (s : State) (c pos off len : Nat) : SavedSpan :=
  ⟨pos, off, len, s.mem.within (spadKey c off) len, s.poisonIn (spadKey c off) len⟩

/-- The parts of a scratchpad of the cluster whose bytes an op does not keep by itself: they are in the image of a cut. -/
def imageRanges (s : State) (o : Op) (pos : Nat) : List (Nat × Nat) :=
  (s.tasks.filter fun t => t.image.any (·.ops.contains o.oid) && t.lcore % 8 == pos).map fun t => (t.base, t.size)

/-- The bytes of an op's held range in every scratchpad of its cluster that no image has. -/
def spansOf (s : State) (o : Op) : List SavedSpan :=
  (List.range 8).flatMap fun j =>
    let c := o.rights.pcore / 8 * 8 + j
    match heldRange o c with
    | none => []
    | some h => (rangeMinus [h] (imageRanges s o j)).map fun r => spanNow s c j r.1 r.2

/-- The accumulator of a detached ZST as the ZST will read it: a ZCLR ahead of it has cleared it (R270). -/
def zstAcc (x : Ctx) (o : Op) : Option (Fin 4 × Acc) :=
  match o.kind with
  | .zst z _ =>
    if o.heldLast.isSome then none
    else
      let ahead := (x.zorder.takeWhile (·.2 != .op o.oid)).filter (·.1 == z)
      let cleared := ahead.any fun e => x.drains.any fun d => d.clear && e.2 == .drain d.id
      some (z, if cleared then Acc.zero else x.z[z])
  | _ => none

/-- What is saved of an op: the bytes of its held range in every scratchpad of its cluster, and the accumulator of a ZST whose
task has gone. -/
def saveOf (s : State) (o : Op) : OpSave where
  oid := o.oid
  spans := spansOf s o
  acc := if (s.issuer o).isNone then (s.homeCtx o).bind fun x => zstAcc x o else none

/-- Saves every op of its own place that satisfies p and stands still, or runs on as RRED and COLL do, unless it is saved
already (R173, R332). -/
def saveWhere (p : Op → Bool) (s : State) : State :=
  let still (o : Op) : Bool := o.status == .paused || o.status == .faulted || (o.status.isLive && o.kind.runsOn)
  { s with saves := s.saves ++
      ((s.ops.filter fun o => still o && o.ownPlace && p o && !s.saves.any (·.oid == o.oid)).map (saveOf s)) }

/-- The physical core that hosts a logical core under a mapping; where none does, the one it was on. -/
def hostUnder (map : List Nat) (lcore pcore : Nat) : Nat :=
  match hostIn map (lcore / 8) with
  | some k => k * 8 + lcore % 8
  | none => pcore

/-- An op whose place a new mapping of its partition moves, or takes away. -/
def opMoves (part : Fin 4) (new : List Nat) (o : Op) : Bool :=
  o.status.isLive && o.rights.part == part.val &&
    (new == [] || o.rights.pcore != hostUnder new o.rights.lcore o.rights.pcore)

/-- Moves the live ops of the logical cores that move. The accumulator order of the core they leave forgets them. -/
def moveOps (part : Fin 4) (new : List Nat) (s : State) : State :=
  let leave (s : State) (o : Op) : State :=
    let c := coreOfNat o.rights.pcore
    s.setCtx c { s.ctx c with zorder := (s.ctx c).zorder.filter (·.2 != .op o.oid) }
  let s := (s.ops.filter fun o => opMoves part new o && s.saves.any (·.oid == o.oid)).foldl leave s
  { s with ops := updWhere (opMoves part new) (fun o =>
      { o with rights := { o.rights with pcore := hostUnder new o.rights.lcore o.rights.pcore } }) s.ops }

/-- Rebuilds the mapping of a partition (R13, R15, R17): the generation rises when it changes. The ops that move are saved
first (R173). A partition that then has fewer than ten clusters is not READY any more (R13, R354). -/
def rebuildMap (part : Fin 4) (s : State) : State :=
  let new := usableMap s part
  let banks := usableBanks s part
  let p := s.parts[part]
  if new = p.map && banks = p.banks then s
  else
    (moveOps part new (saveWhere (opMoves part new) s)).updPart part fun p => { p with
      map := new, banks := banks, mapGen := (p.mapGen + 1) % 2 ^ 32, short := p.short || (s.mgmt.ready && new.length < 10) }

/-- No range of another logical cluster or graph is held over some bytes by an op that stands there. -/
def rangeLeft (s : State) (o : Op) (c off len : Nat) : Bool :=
  !s.ops.any fun q => q.status.isLive && q.ownPlace && !isSaved s q && q.rights.pcore / 8 == c / 8 &&
    (q.graph != o.graph || q.rights.lcore / 8 != o.rights.lcore / 8) && (heldRange q c).any fun h => overlaps off len h.1 h.2

/-- No task that stands on a physical core, or is to start there, has a range over some bytes. -/
def noTaskOver (s : State) (c off len : Nat) : Bool :=
  match (s.core (coreOfNat c)).run.slot?.bind s.findTask with
  | some t => !overlaps off len t.base t.size
  | none => true

/-- The accumulator of a saved ZST can be put back: no task is on its core, no other detached ZST holds the same accumulator
there, and none that is saved comes before it (R173, R284). -/
def accFree (s : State) (o : Op) (z : Fin 4) : Bool :=
  (s.core (coreOfNat o.rights.pcore)).run == .idle && !s.ops.any fun q =>
    q.oid != o.oid && q.status.isLive && q.rights.pcore == o.rights.pcore && (s.issuer q).isNone && q.kind.acc? == some z &&
      (!isSaved s q || (q.oid < o.oid && s.saves.any fun v => v.oid == q.oid && v.acc.isSome))

/-- The place of a saved op is free where its logical core is hosted: no task runs over its ranges and no other op holds
them; for an accumulator, it can be put back there (R173). -/
def savePlaceFree (s : State) (o : Op) (v : OpSave) : Bool :=
  (s.parts[Fin.ofNat 4 o.rights.part]).map != [] &&
  (v.spans.all fun p => let c := o.rights.pcore / 8 * 8 + p.pos; noTaskOver s c p.off p.len && rangeLeft s o c p.off p.len) &&
  v.acc.all fun a => accFree s o a.1

/-- Restores what was saved of an op, at the same offsets. -/
def restoreBytes (o : Op) (v : OpSave) (s : State) : State :=
  let back (s : State) (p : SavedSpan) : State :=
    let k := spadKey (o.rights.pcore / 8 * 8 + p.pos) p.off
    s.pasteRange k p.len k p.cells p.ue
  let s := v.spans.foldl back { s with saves := s.saves.filter (·.oid != v.oid) }
  match v.acc with
  | some (z, a) => s.onHome o fun x => { x with
      z := x.z.set z a, zorder := x.zorder.filter (·.2 != .op o.oid) ++ [(z, .op o.oid)] }
  | none => s

/-- The graph of an op runs, or resumes: its saved ops go on where their place is free (R173, R334). -/
def opGraphRuns (s : State) (o : Op) : Bool :=
  match s.findGraph o.graph with
  | some g => g.pre == .running || g.pre == .resuming
  | none => false

/-- The task that an op is attached to is being cut or is cut: the op resumes with it (R325). -/
def ownerCut (s : State) (o : Op) : Bool := o.owner.any fun t => !(s.coreOfSlot t).any fun c => (s.core c).run == .running t

/-- The saved ops of one graph and logical cluster are restored together, once the places of all are free. One whose range is in
the image of a cut comes after that, and a ZST after the earlier ones of its accumulator (R173, R334). -/
def restoreWith (s : State) (v : OpSave) : State :=
  match s.findOp v.oid with
  | none => { s with saves := s.saves.filter (·.oid != v.oid) }
  | some o =>
    if !o.status.isLive then { s with saves := s.saves.filter (·.oid != v.oid) }
    else if !opGraphRuns s o || inCutImage s o then s
    else
      let waits (q : Op) : Bool := inCutImage s q || q.kind.acc?.any fun z => q.oid != o.oid && !accFree s q z
      let mates := s.saves.filterMap fun w => (s.findOp w.oid).bind fun q =>
        if q.status.isLive && q.graph == o.graph && q.rights.lcore / 8 == o.rights.lcore / 8 && !waits q then some (q, w) else none
      if mates.all fun e => savePlaceFree s e.1 e.2 then mates.foldl (fun s e => restoreBytes e.1 e.2 s) s else s

/-- A forced cut under way: the task on a core is cut and not for a fault. -/
def forcedNow (t : Task) : Bool := t.forced && t.fault.isNone && !t.dying

/-- The held range of an op of its own place touches the range of the task on a core. -/
def touchesRange (t : Task) (o : Op) : Bool :=
  o.status.isLive && o.ownPlace && o.rights.pcore / 8 == t.pcore.val / 8 &&
    (heldRange o t.pcore.val).any fun h => t.size != 0 && overlaps h.1 h.2 t.base t.size

/-- A paused op of its own place that nothing holds back goes on: its graph runs, its bytes are where its logical core is hosted,
the task it is attached to runs, its core is not evicted, and no task whose range it touches is being cut for the store
(R173, R334). -/
def goesOn (s : State) (o : Op) : Bool :=
  o.status == .paused && o.ownPlace && opGraphRuns s o && !isSaved s o && !ownerCut s o &&
  !s.evict.any (·.1.val == o.rights.pcore) &&
  !s.tasks.any fun t => forcedNow t && t.image.isNone && (s.core t.pcore).run.slot? == some t.slot && touchesRange t o

/-- Restores every saved op whose place is free, and lets go on the ops that nothing holds back any more. -/
def restoreSaves (s : State) : State :=
  let s := s.saves.foldl restoreWith s
  resumeWhere (goesOn s) s

/-! ## What an ended task leaves on its core (R284) -/

/-- A detached ZST of a task that has ended, or only waits for its last decrements, still reads its accumulator on a core
(R284). -/
def zstReads (s : State) (c : CoreId) : Bool :=
  s.ops.any fun o => o.status.isLive && o.rights.pcore == c.val && (s.issuer o).all (·.st == .ending) && !isSaved s o &&
    match o.kind with
    | .zst _ _ => o.heldLast.isNone
    | _ => false

end Sys2Proof.Machine
end

