-- ==== Sys2Proof/Machine/Cuts.lean ====
section
/-! DEFINITION. Cuts (R323 to R329), kills and cancelled graphs (R33, R80), pre-emption and eviction (R330 to R334), lost
cores (R19) and timeouts (R335). -/

namespace Sys2Proof.Machine

open Sys2Proof

/-! ## A live task goes (R31, R33, R199) -/

/-- The partition of a graph. -/
def graphPart (s : State) (h : Nat) : Fin 4 := Fin.ofNat 4 (((s.findGraph h).map (·.part)).getD 0)

/-- The core on which a task runs, or is held, is free; it remembers the task's context (R96, notes/assumptions/97.md). Nothing
pops its mq and gq any more (R153). -/
def releaseCore (t : Task) (s : State) : State :=
  let k := s.core t.pcore
  if k.run.slot? = some t.slot then
    s.setCore t.pcore { k with run := .idle, last := some t.context, ctx := { k.ctx with mathEnd := true, mq := [], gq := [] } }
  else s

/-- A buffer dissolves: the generation of its slot rises (R201). -/
def Buffer.dissolve (b : Buffer) : Buffer :=
  { b with live := false, gen := (b.gen + 1) % 2 ^ 18, holder := none, offer := none }

/-- A Ridge drain ends when its entry has left the queue (R91, R99). -/
def Part.tidyDrain (p : Part) : Part :=
  match p.drain with
  | some (_, l) => if p.queue.any (·.tasks == l) then p else { p with drain := none }
  | none => p

/-- Changes buffers, those of the cuts in the store included (R201, R332). -/
def updBuffers (p : Buffer → Bool) (f : Buffer → Buffer) (s : State) : State :=
  { s with
    buffers := updWhere p f s.buffers
    tasks := s.tasks.map fun t => { t with image := t.image.map fun i => { i with bufs := updWhere p f i.bufs } } }

/-- The entries of a task leave the ready queue. -/
def dropEntry (t : Task) (s : State) : State :=
  let gone (e : QEntry) : QEntry := { e with tasks := e.tasks.filter (· != t.slot) }
  s.updPart (graphPart s t.graph) fun p =>
    Part.tidyDrain { p with queue := (p.queue.map gone).filter (·.tasks != []) }

/-- The ops of a task that goes and that run on belong to none: their answers go nowhere (R170, R173). -/
def orphanOps (slot : Nat) (s : State) : State :=
  { s with ops := updWhere (fun o => o.owner == some slot) (fun o => { o with owner := none }) s.ops }

/-- The cells of an image in a range of its scratchpad, as saved bytes. -/
def CutImage.span (i : CutImage) (pos off len : Nat) : SavedSpan :=
  ⟨pos, off, len, (i.spad.filter fun e => off ≤ e.1 && e.1 < off + len).map fun e => (e.1 - off, e.2),
    (i.ue.filter fun w => off ≤ w && w + 8 ≤ off + len).map (· - off)⟩

/-- The image of a cut is dropped, by a kill or a retry: what it has of ops that go on without the task, the bytes of their
held ranges and the accumulators of its detached ZSTs, is saved with them (R173, R199, R284). -/
def keepFromImage (t : Task) (s : State) : State :=
  match t.image with
  | none => s
  | some i =>
    let pos := t.lcore % 8
    let keep (s : State) (o : Op) : State :=
      let spans := if i.ops.contains o.oid then
          match heldRange o (o.rights.pcore / 8 * 8 + pos) with
          | none => []
          | some h =>
            let a := max h.1 t.base
            let b := min (h.1 + h.2) (t.base + t.size)
            if a < b then [i.span pos a (b - a)] else []
        else []
      let acc := if o.owner.isNone && o.rights.slot == t.slot && o.gen == t.gen % 65536 then zstAcc i.ctx o else none
      if spans = [] && acc.isNone then s
      else
        let v := (s.saves.find? (·.oid == o.oid)).getD ⟨o.oid, [], none⟩
        { s with saves := s.saves.filter (·.oid != o.oid) ++ [{ v with spans := v.spans ++ spans, acc := acc.or v.acc }] }
    (s.ops.filter (·.status.isLive)).foldl keep s

/-- A live task goes: its core, queue entries, buffers, walk entries and slot. Its counter is freed when free says so. -/
def endTask (slot : Nat) (free : Bool) (s : State) : State :=
  match s.findTask slot with
  | none => s
  | some t =>
    let s := orphanOps slot (dropEntry t (releaseCore t (keepFromImage t s)))
    let s := match t.ctr with
      | some k => if free then freeCounter k s else s
      | none => s
    let s := updBuffers (fun b => b.live && (b.maker == slot || b.holder == some slot)) Buffer.dissolve s
    let s := { s with
      decrs := s.decrs.filter fun q => q.core.isSome || q.slot != slot
      invals := updWhere (fun v => !v.host && v.slot == slot) (fun v => { v with slot := 65536 }) s.invals }
    freeSlot slot (s.updGraph t.graph fun g => { g with firedAt := g.firedAt.filter (·.1 != slot) })

/-- A published task that was never dispatched is discarded with its graph: it is not killed and not counted. Its counter
stays until the graph retires, bound to no task (R80, R34). -/
def discardTask (t : Task) (s : State) : State :=
  let s := match t.ctr with
    | some k =>
      let q := counterAt s k
      setCounter { q with st := match q.st with
        | .bound _ => .bound 65536
        | .fired _ => .fired 65536
        | st => st } s
    | none => s
  endTask t.slot false s

/-- The killed task stops: on its core it is cut first, so that what it has issued completes (R324); elsewhere it goes at
once. -/
def stopKilled (t : Task) (s : State) : State :=
  let k := s.core t.pcore
  match k.run with
  | .running q =>
    if q = t.slot then
      (s.setCore t.pcore { k with run := .cutting q s.cycle }).updTask t.slot fun t => { t with dying := true }
    else endTask t.slot true s
  | .cutting q _ =>
    if q = t.slot then s.updTask t.slot fun t => { t with dying := true } else endTask t.slot true s
  | _ => endTask t.slot true s

/-- Kills a task: its attached ops are cancelled, and the kill is counted and reported with the fault behind it, if any
(R33, R173, R199, R340). -/
def killTask (slot : Nat) (fault : Option FaultInfo) (s : State) : State :=
  match s.findTask slot with
  | none => s
  | some t =>
    if t.dying || t.st = .ending then s
    else
      let s := s.updGraph t.graph fun g => { g with nkill := satInc g.nkill }
      let s := match fault with
        | some f => reportFault s t.graph f.code f.at_ t.lcore
        | none => s
      stopKilled t (cancelWhere (fun o => o.owner == some slot) s)

/-! ## Cancelling a graph (R80, R335) -/

/-- The pointer of a ring moves on when its graph holds no candidate at its pair any more (R83). next is the first later
graph of the ring, in ascending handle and wrapping. -/
def ringAfter (l : List Nat) (h : Nat) : Option Nat :=
  match leastBy id (l.filter (h < ·)) with
  | some n => some n
  | none => leastBy id l

/-- The logical cores on which a replay has entries that have not started (R109). -/
def unstartedCores (s : State) (g : Graph) : List Nat :=
  match replayYelm s g with
  | some y => ((y.traces.map (·.lcore)).eraseDups).filter fun c => lookupNat g.trace c < (coreTrace y c).length
  | none => []

/-- A logical core is reserved by a replay: it has entries there that have not started. A reservation lasts until the graph
retires, cancelled or not (R109). -/
def reservedFor (s : State) (part : Fin 4) (lcore : Nat) : Option Nat :=
  (s.graphs.find? fun g => g.part == part.val && match g.kept with
    | some l => l.contains lcore
    | none => match replayYelm s g with
      | some y => lookupNat g.trace lcore < (coreTrace y lcore).length
      | none => false).map (·.handle)

/-- A graph's replay was handed back (R112). -/
def handedBack (s : State) (h : Nat) : Bool :=
  match s.findGraph h with
  | some g => (match g.mode with
    | .handedBack _ => true
    | _ => false)
  | none => false

/-- A graph that is cancelled uses its image no more; its reservations stand until it retires (R109, R118). -/
def cancelReplay (g : Graph) (s : State) : State :=
  let leave (s : State) : State := onYelms (Fin.ofNat 4 g.part) (leaveYelm g.yid) s
  match g.mode with
  | .replay _ => leave (s.updGraph g.handle fun q => { q with kept := some (unstartedCores s g) })
  | .handedBack _ => leave (s.updGraph g.handle fun q => { q with kept := some [] })
  | _ => s

/-- A graph is cancelled, by GCAN (3) or by its timeout (4): it stops dispatching, its tasks are killed or discarded,
and its ops are cancelled (R80). One that has retired is stale (R343). -/
def cancelGraph (h how : Nat) (s : State) : State :=
  match s.findGraph h with
  | none => s
  | some g =>
    if g.cancel ≠ 0 || g.ended.isSome then s
    else
      let s := cancelReplay g (s.updGraph h fun g => { g with cancel := how })
      let s := if how = 4 then reportFault s h cTimeout s.cycle 1023 else s
      let s := (s.tasks.filter (·.graph == h)).foldl (fun s t =>
        if (t.st = .bound ∨ t.st = .ready) ∧ t.serves = none then discardTask t s else killTask t.slot none s) s
      cancelWhere (fun o => o.graph == h) s

/-- GCAN: a handle that is not of this context, or is stale, is ignored, and so is any before READY (R80, R353). -/
def execGcan (port : Fin 2) (ctx : Fin 64) (handle : W32) (s : State) : Out :=
  let h := handle.toNat
  if partReady s (partOfCtx s ctx) && portOf h == port && ctxOf h == ctx then .next (cancelGraph h 3 s) else .next s

/-- GRAPH_TIMEOUT: TMO has elapsed (R335). -/
def execGraphTimeout (g : Nat) (s : State) : Out :=
  match s.findGraph g with
  | none => .next s
  | some q => if 0 < q.tmo ∧ q.tmo * Config.msCycles ≤ q.timed then .next (cancelGraph g 4 s) else .next s

/-! ## The cut store (R329, R332) -/

/-- The image of the task on a core: its registers, the bytes of its range, and the buffers of its range, which leave the
core with it. Ops that do not go with the task and whose held ranges touch its range come back with it; other held ranges are
saved with their ops (saveOf). -/
def imageOf (s : State) (c : CoreId) (slot : Nat) : CutImage :=
  let x := s.ctx c
  { ctx := x, spad := (s.mem.within (spadKey c.val x.base) x.size).map fun p => (p.1 + x.base, p.2)
    ue := (s.poisonIn (spadKey c.val x.base) x.size).map (· + x.base)
    bufs := s.buffers.filter fun b => b.live && b.maker == slot
    ops := match s.findTask slot with
      | some t => (s.ops.filter (touchesRange t)).map (·.oid)
      | none => [] }

/-- Bytes that an image with a range of a size takes in the store. DESIGN CHOICE: the layout is not architected
(notes/assumptions/44.md). -/
def imageBytesOf (size : Nat) : Nat := 131072 + size

/-- The store has room for the images it holds, those of the cuts under way, and one more (R332). -/
def cutRoom (s : State) (size : Nat) : Bool :=
  let coming (t : Task) : Bool := t.forced && t.st == .running
  ((s.tasks.filter fun t => t.image.isSome || coming t).map fun t => imageBytesOf t.size).sum +
    (s.saves.map fun v => (v.spans.map (·.len)).sum).sum + imageBytesOf size ≤ 8589934592

/-- A team member still runs and is asked to stop: the team resumes whole, so it is waited for (R334). -/
def memberStopping (s : State) (t : Task) : Bool :=
  t.st == .running && (match (s.core t.pcore).run with
    | .running q => q == t.slot && (s.ctx t.pcore).tstat.getLsbD 0
    | .cutting q _ => q == t.slot && t.fault.isNone
    | .starting q _ => q == t.slot
    | _ => false)

/-- A cut in the store that may run again stands in the ready queue in its place, a candidate at once (R331, R334); members
of a team that are to resume stand as one entry. -/
def requeue (slot : Nat) (s : State) : State :=
  match s.findTask slot with
  | none => s
  | some t =>
    let team := if t.serves.isSome then [t] else teamOf s t
    if t.st ≠ .cutStored ∨ t.again = none ∨ team.any (memberStopping s) then s
    else
      let l := (team.filter fun u => u.st == .cutStored && u.again.isSome).map (·.slot)
      let part := graphPart s t.graph
      let s := s.updPart part fun p => { p with queue := p.queue.filter fun e => !e.tasks.any l.contains }
      enqueueEntry part.val ⟨l, t.serves.isSome, true, s.cycle, true, 0⟩ s

/-- Saves the task that is cut on a core to the cut store, and frees the core (R332). -/
def storeCut (c : CoreId) (slot : Nat) (s : State) : State :=
  match s.findTask slot with
  | none => s
  | some t =>
    let i := imageOf s c slot
    let gone (b : Buffer) : Bool := b.live && b.maker == slot
    let s := { s with buffers := updWhere gone Buffer.dissolve s.buffers }
    requeue slot (releaseCore t (s.updTask slot fun t => { t with st := .cutStored, image := some i }))

/-- An op does not hold up a pre-emption: it has completed, is stopped, or is a RRED or COLL, which runs on; so is an RLD
whose reply has come, which lands when its task resumes (R245, R331). -/
def opStopped (o : Op) : Bool :=
  !o.status.isLive || o.status == .paused || o.status == .faulted || o.kind.runsOn || o.reply.isSome

/-- The task stands on its core and is not held there: it starts, runs or is being cut. -/
def onCore (s : State) (t : Task) : Bool :=
  match (s.core t.pcore).run with
  | .running q => q == t.slot
  | .starting q _ => q == t.slot
  | .cutting q _ => q == t.slot
  | _ => false

/-- Another task that stands on a core holds a buffer of the task's range: the buffer stays where it is for it (R205). -/
def lentOut (s : State) (t : Task) : Bool :=
  s.buffers.any fun b => b.live && b.maker == t.slot && b.holder.any fun u => u != t.slot && (s.findTask u).any (onCore s)

/-- A cut held in place, a walk that has stopped at a fault among them, moves to the cut store while that has room, once nobody
uses its range any more: no other task holds a buffer there, and the ops that touch it have stopped (R205, R329, R332). -/
def moveHeld (slot : Nat) (s : State) : State :=
  match s.findTask slot with
  | none => s
  | some t =>
    if (t.st = .cutHeld ∨ t.st = .walkFault) ∧ (s.core t.pcore).run = .held slot ∧ cutRoom s t.size ∧ lentOut s t = false ∧
        (s.ops.all fun o => !touchesRange t o || opStopped o) = true then
      storeCut t.pcore slot s
    else s

/-- CUT_STORE_MOVE: Ridge may move a fault cut held in place to the store (R329). One whose range an op still runs on in stays
where it is. -/
def execCutStoreMove (slot : Nat) (s : State) : Out :=
  match s.findTask slot with
  | some t => .next (if s.ops.any fun o => touchesRange t o && o.kind.runsOn then s else moveHeld slot s)
  | none => .next s

/-! ## CUT_COMPLETE (R324, R325) -/

/-- A TSIG of a core waits for its bank: its effect is in flight (R195). -/
def tsigInFlight (s : State) (c : CoreId) : Bool := s.decrs.any (·.core == some c) || s.answers.any (·.core == c)

/-- Withdraws the held access and the waiting instruction of a stream (R324). -/
def withdrawStream (c : CoreId) (s : State) (st : Stream) : State :=
  let held := ((s.ctx c).strm st).accs.filter (·.heldAt.isSome)
  let s := held.foldl (fun s a => withdrawHeld c st a s) s
  let x := s.ctx c
  let x := if st == .ctl && tsigInFlight s c then x else withdraw x st
  s.setCtx c (x.setStrm st { x.strm st with stalled := none })

/-- The matrix engine of a core has pulled the op (R176). -/
def pulledBy (c : CoreId) (o : Op) : Bool :=
  o.status.isLive && match o.kind with
    | .mma _ _ _ _ _ _ _ _ _ _ (some (p, _)) => p == c
    | _ => false

/-- A forced cut waits for an op: it touches the task's range and a unit of it is not finished, or the core's engine has pulled
it (R173, R176). -/
def holdsForced (s : State) (c : CoreId) (slot : Nat) (o : Op) : Bool :=
  (s.findTask slot).any fun t =>
    forcedNow t && ((touchesRange t o && o.inFlight && !o.runsThrough) || pulledBy c o)

/-- Everything that had issued on a core has met its fate, and the units that the task's ops had begun are finished (R324,
R325). -/
def cutSettled (s : State) (c : CoreId) (slot : Nat) : Bool :=
  let x := s.ctx c
  allStreams.all (fun st => (x.strm st).accs == []) && x.pend == [] && x.kmrg.isNone && !tsigInFlight s c &&
    !s.ops.any fun o =>
      (o.status.isLive && o.owner == some slot && o.inFlight && !o.runsThrough) || holdsForced s c slot o

/-- A member of the task's team that is to stop holds a buffer of its range: the region is saved once it has stopped
(R204, R332). -/
def bufferInUse (s : State) (t : Task) : Bool :=
  s.buffers.any fun b => b.live && b.maker == t.slot && b.holder.any fun u => u != t.slot && (s.findTask u).any (memberStopping s)

/-- The waiting ZCLRs of a core whose turn has come complete (R287). -/
def settleClears (c : CoreId) (s : State) : State :=
  s.setCtx c (clearsDone (s.ctx c).drains.length (s.ctx c))

/-- The fates of a cut are under way: waiting instructions are withdrawn, and attached ops drain (R324, R325). With a forced cut so
do the ops whose held ranges touch the range that is to be saved, and an op that the core's engine has pulled returns to its
origin (R173, R176; DESIGN CHOICE of the first, notes/assumptions/129.md). -/
def settleCut (c : CoreId) (slot : Nat) (s : State) : State :=
  let s := allStreams.foldl (withdrawStream c) s
  let s := s.setCtx c { s.ctx c with tendAt := 0, rot := none }
  let s := settleClears c (pauseWhere (fun o => o.owner == some slot) s)
  match s.findTask slot with
  | some t => if forcedNow t then pauseWhere (fun o => touchesRange t o || pulledBy c o) s else s
  | none => s

/-- A fault in a handler kills the handler and the task it serves (R328). -/
def handlerFaulted (t : Task) (f : FaultInfo) (s : State) : State :=
  let s := match t.serves.bind s.findTask with
    | some u => killTask u.slot u.fault s
    | none => s
  killTask t.slot (some f) s

/-- A complete cut: a killed task goes; a handler that faulted is killed with its task; a forced cut is stored; a fault cut
is held in place. -/
def cutDone (c : CoreId) (t : Task) (s : State) : State :=
  let s := s.updTask t.slot fun t => { t with cutAt := s.cycle }
  if t.dying then endTask t.slot true s
  else
    match t.fault, t.serves with
    | some f, some _ => endTask t.slot true (handlerFaulted t f s)
    | some _, none =>
      (s.setCore c { s.core c with run := .held t.slot }).updTask t.slot fun t => { t with st := .cutHeld }
    | none, _ =>
      if bufferInUse s t then s
      else storeCut c t.slot (s.updTask t.slot fun t => { t with again := some false, forced := true })

/-- CUT_COMPLETE: once every fate is settled (R324). -/
def execCutComplete (c : CoreId) (s : State) : Out :=
  match (s.core c).run with
  | .cutting slot at_ =>
    if s.cycle ≤ at_ then .next s
    else
      let s := settleCut c slot s
      match s.findTask slot with
      | none => .next (s.setCore c { s.core c with run := .idle })
      | some t => if cutSettled s c slot then .next (cutDone c t s) else .next s
  | _ => .next s

/-! ## HANDLER_SPAWN (R327) -/

/-- The dies in the order in which a handler looks for a slot: the home die of the counter, then upward, wrapping. -/
def handlerDies (s : State) (t : Task) (part : Fin 4) : List Nat :=
  let d := (t.ctr.getD (65536 * lowestDie s part)) / 65536
  ((List.range 4).map fun i => (d + i) % 4).filter fun d => (s.parts[part]).dies.contains d

/-- The first of some dies that has a free slot, with the slot. -/
def firstSlot (s : State) : List Nat → Option (Nat × State)
  | [] => none
  | d :: ds =>
    match freeSlotOf s d with
    | some r => some r
    | none => firstSlot s ds

/-- A handler task for a faulted task, with a kernel object (R327, R328). -/
def handlerOf (t : Task) (k slot gen : Nat) : Task :=
  { t with
    slot := slot, gen := gen, recAddr := 0, kobj := t.hand, images := kernelImages k, succ := 0, nsucc := 0, ctr := none,
    prio := 7, team := 0, tsize := 1, mpos := 0, size := max 1 (kernelSpad k) * 256, reloc := false, orph := 0,
    grec := false, hint := none, hand := 0, chuse := kernelChuse k, serves := some t.slot, st := .ready, fault := none,
    forced := false, image := none, walkAt := 0, list := [], traced := none, retry := false, tend3 := none,
    lateFault := none, dying := false, again := none }

/-- Spawns the handler of a task: a slot, and a place in the ready queue from the cut on. While no die has a free slot it
waits (R327). -/
def spawnHandler (t : Task) (k : Nat) (s : State) : State :=
  let part := graphPart s t.graph
  match firstSlot s (handlerDies s t part) with
  | none => s
  | some (slot, s) =>
    let h := handlerOf t k slot (slotGen s slot)
    let s := { s with tasks := s.tasks ++ [h] }.updGraph t.graph fun g => { g with handlers := true }
    enqueueEntry part.val ⟨[slot], true, false, t.cutAt, false, 0⟩ s

/-- HANDLER_SPAWN: with no handler the task is killed; with an unusable one it is killed and RECORD reported; else its
handler is spawned (R327). -/
def execHandlerSpawn (slot : Nat) (s : State) : Out :=
  match s.findTask slot, (s.findTask slot).bind (·.fault), (s.findTask slot).bind fun t => s.findGraph t.graph with
  | some t, some f, some g =>
    if !wantsHandler s t then .next s
    else if t.hand = 0 then .next (killTask slot (some f) s)
    else
      let unusable : State := killTask slot (some { f with code := cRecord }) s
      if codeAddrBad t.hand 64 then .next unusable
      else
        match readObject t.pcore (graphRights g) t.hand s with
        | (_, .error _) => .next unusable
        | (s', .ok k) => if kernelBad k || kernelTeam k != 1 then .next unusable else .next (spawnHandler t k s')
  | _, _, _ => .next s

/-! ## CUT_RESUME (R329, R334) -/

/-- The graph of a task may dispatch. -/
def graphRuns (s : State) (h : Nat) : Bool :=
  match s.findGraph h with
  | some g => g.cancel == 0 && (g.pre == .running || g.pre == .resuming)
  | none => false

/-- Restores a stored image onto the core that hosts its task now: its registers, its range and the buffers of its range
(R334). Ops attached to it go with it. -/
def restoreImage (t : Task) (i : CutImage) (s : State) : State :=
  let c := t.pcore
  let k := spadKey c.val 0
  let s := if needsClear s t then clearSpad c s else s
  let s := s.pasteRange (k + t.base) t.size k i.spad i.ue
  let mine (o : Op) : Bool := o.status.isLive && o.owner == some t.slot && !o.adopted
  let move (o : Op) : Op := { o with rights := { o.rights with pcore := c.val } }
  let slotOf (b : Buffer) : Bool := i.bufs.any fun q => q.part == b.part && q.orig == b.orig && q.slot == b.slot
  let s := { s with ops := updWhere mine move s.ops, buffers := i.bufs ++ s.buffers.filter (!slotOf ·) }
  (s.setCtx c i.ctx).updTask t.slot fun t => { t with image := none }

/-- A dispatch slot opens in this cycle (R84, R359). -/
def slotOpens (s : State) : Bool := s.cycle % 2 == 0 && s.mgmt.slotHold ≤ s.cycle

/-- A walk that had stopped at a fault goes on at its next entry (R37). -/
def walkOn (slot : Nat) (s : State) : State :=
  s.updTask slot fun t => { t with st := .ending, again := none, fault := none, tend3 := some s.cycle }

/-- The same, of a walk whose task stands on its core. -/
def resumeWalk (t : Task) (s : State) : State :=
  walkOn t.slot (s.setCore t.pcore { s.core t.pcore with run := .running t.slot })

/-- CUT_RESUME: a cut held in place, a stopped walk too, restarts in a dispatch slot after its handler has ended; a cut in the store that has
been dispatched is restored, once nothing of an ended task is still read on the core (R284, R329, R334). -/
def execCutResume (slot : Nat) (s : State) : Out :=
  match s.findTask slot with
  | none => .next s
  | some t =>
    let k := s.core t.pcore
    match t.st, t.image, k.run with
    | .cutHeld, _, .held q | .walkFault, _, .held q =>
      if q = slot ∧ t.again.isSome ∧ slotOpens s ∧ graphRuns s t.graph then
        let o := if t.again = some true then oseqNow s t t.lcore else t.oseqAt
        .next ((s.setCore t.pcore { k with run := .starting slot s.cycle }).updTask slot
          fun t => { t with slotAt := s.cycle, oseqAt := o })
      else .next s
    | .cutStored, some i, .starting q _ =>
      if q = slot ∧ t.again = some false ∧ !zstReads s t.pcore then .next (restoreImage t i s) else .next s
    | _, _, _ => .next s

/-! ## Pre-emption of a graph (R330 to R334) -/

/-- Asks the task that runs on a core to yield: TSTAT.PREQ (R331). -/
def setPreq (c : CoreId) (s : State) : State :=
  match (s.core c).run with
  | .running _ => s.setCtx c { s.ctx c with tstat := (s.ctx c).tstat ||| 1 }
  | _ => s

/-- PSTAT of a partition in a port's page. -/
def pstatOf (s : State) (port : Fin 2) (part : Fin 4) : W32 × Nat := (s.ports[port]).pstat[part]

def setPstat (port : Fin 2) (part : Fin 4) (v : W32 × Nat) (s : State) : State :=
  s.updPort port fun p => { p with pstat := p.pstat.set part v }

/-- PSTAT.STATE changes when it shows this graph. -/
def showPre (h state : Nat) (s : State) : State :=
  let port := portOf h
  let part := partOfCtx s (ctxOf h)
  let v := pstatOf s port part
  if v.1.toNat = h then setPstat port part (v.1, state) s else s

/-- The cores on which tasks of a graph run. -/
def runningCores (s : State) (h : Nat) : List CoreId :=
  (s.tasks.filter fun t => t.graph == h && t.st == .running && (s.core t.pcore).run == .running t.slot).map (·.pcore)

/-- A command of the PREEMPT register (R330). -/
def preemptCommand (port : Fin 2) (handle : W32) (f : Graph → State → State) (s : State) : State :=
  let h := handle.toNat
  let part := partOfCtx s (ctxOf h)
  let st := (pstatOf s port part).2
  if !partReady s part || st == 2 || st == 4 then s
  else
    match if portOf h = port then (s.findGraph h).filter (·.ended.isNone) else none with
    | none => setPstat port part (handle, 5) s
    | some g => f g (setPstat port part (handle, st) s)

/-- PREEMPT_GRAPH: the graph's dispatches stop, and its running tasks are asked to yield (R330, R331). -/
def execPreemptGraph (port : Fin 2) (handle : W32) (s : State) : Out :=
  .next (preemptCommand port handle (fun g s =>
    if g.pre ≠ .running then s
    else
      let s := s.updGraph g.handle fun g => { g with pre := .preempting s.cycle }
      showPre g.handle 2 ((runningCores s g.handle).foldl (fun s c => setPreq c s) s)) s)

/-- RESUME_GRAPH: the graph's cuts are dispatched again, and its detached ops go on once their held ranges are restored
(R330, R334). -/
def execResumeGraph (port : Fin 2) (handle : W32) (s : State) : Out :=
  .next (preemptCommand port handle (fun g s =>
    if g.pre ≠ .preempted then s
    else
      restoreSaves (showPre g.handle 4 (s.updGraph g.handle fun g => { g with pre := .resuming }))) s)

/-- Forces a cut of the task that runs on a core. While the store has no room for its image the task keeps running (R331,
R332). -/
def forceCut (c : CoreId) (s : State) : State :=
  match (s.core c).run with
  | .running slot =>
    match s.findTask slot with
    | some t =>
      if t.st = .running ∧ cutRoom s t.size then
        (s.setCore c { s.core c with run := .cutting slot s.cycle }).updTask slot fun t => { t with forced := true }
      else s
    | none => s
  | _ => s

/-- The fault cuts of a graph that may be held in place. -/
def heldSlots (s : State) (h : Nat) : List Nat :=
  (s.tasks.filter fun t => t.graph == h && (t.st == .cutHeld || t.st == .walkFault)).map (·.slot)

/-- Nothing of a graph is left: it retires, and is not pre-empted (R330, R337). -/
def graphOver (s : State) (g : Graph) : Bool :=
  g.ended.isSome || !(s.tasks.any (·.graph == g.handle) || s.ops.any fun o => o.graph == g.handle && o.status.isLive)

/-- No task of a graph stands on a core, or walks its list. -/
def graphOff (s : State) (h : Nat) : Bool := !s.tasks.any fun t => t.graph == h && (t.st == .ending || onCore s t)

/-- One turn of a graph's pre-emption: forced cuts after the grace period, with which its detached ops drain; once every task has
ended or is cut, and its ops have stopped, their held ranges are saved, and it is pre-empted. A resuming graph runs once every
cut has been dispatched (R331, R334). -/
def preemptTurn (s : State) (g : Graph) : State :=
  let h := g.handle
  match g.pre with
  | .preempting q =>
    let late := q + Config.graceCycles ≤ s.cycle
    if graphOver s g then s
    else
      let s := if late || graphOff s h then
          (heldSlots s h).foldl (fun s t => moveHeld t s) (pauseWhere (fun o => o.graph == h && o.ownPlace) s)
        else s
      let s := if late then (runningCores s h).foldl (fun s c => forceCut c s) s else s
      if graphOff s h && s.ops.all fun o => o.graph != h || opStopped o then
        showPre h 3 ((saveWhere (·.graph == h) s).updGraph h fun g => { g with pre := .preempted })
      else s
  | .resuming =>
    let waits (t : Task) : Bool := t.graph == h && t.st == .cutStored && t.again.isSome &&
      (s.core t.pcore).run.slot? != some t.slot
    if s.tasks.any waits then s
    else showPre h 1 (s.updGraph h fun g => { g with pre := .running })
  | _ => s

/-! ## Eviction (R17, R18, R330) -/

/-- The cores on which the other members of a team run whose member runs on one of some cores: a team is cut and resumes whole
(R204, R334). -/
def teamCores (s : State) (l : List CoreId) : List CoreId :=
  (s.tasks.filter fun t => 1 < t.tsize && t.serves.isNone && (s.core t.pcore).run.slot? == some t.slot && l.contains t.pcore).flatMap
    fun t => ((teamOf s t).filter fun u => (s.core u.pcore).run.slot? == some u.slot).map (·.pcore)

/-- Asks for the eviction of cores. -/
def requestEvict (l : List CoreId) (s : State) : State :=
  (l ++ teamCores s l).foldl (fun s c =>
    if s.evict.any (·.1 == c) then s else setPreq c { s with evict := s.evict ++ [(c, s.cycle)] }) s

/-- The cores whose logical cores move when each partition's mapping is rebuilt as the hardware stands. -/
def movedHosts (s : State) : List CoreId :=
  ((List.finRange 4).filter fun p => s.parts[p].used).flatMap fun p => hostsOfMoved s.parts[p].map (usableMap s p)

/-- EVICTION: the tasks and ops on these cores, and on those a change of the mapping affects, are to be cut and drained
(R330). -/
def execEviction (cores : List CoreId) (s : State) : Out := .next (requestEvict (cores ++ movedHosts s) s)

/-- A core has nothing of a task on it. -/
def coreClear (s : State) (c : CoreId) : Bool := (s.core c).run == .idle

/-- The three stacks of a die. -/
def dieStacks (d : Nat) : List Nat := [3 * d, 3 * d + 1, 3 * d + 2]

/-- Step 3 of a drain is done for every die that is being drained: the hosts have migrated its pages and retired its stacks
(R18, R361). -/
def drainsMigrated (s : State) : Bool := s.mgmt.draining.all fun d => (dieStacks d).all s.mgmt.retired.contains

/-- The dies that were drained leave, and those that return have their stacks again, once the mapping has changed (R18). -/
def settleDies (s : State) : State :=
  let m := s.mgmt
  let back := m.returning.flatMap dieStacks
  { s with mgmt := { m with
      drained := m.drained.filter (fun d => !m.returning.contains d) ++ m.draining
      retired := m.retired.filter fun k => !back.contains k
      draining := []
      returning := [] } }

/-- Once the evicted cores are clear and their ops have stopped, the mapping is rebuilt, and they go on where their logical
cores are hosted (R17, R18, R173). -/
def finishEvict (s : State) : State :=
  let s := [0, 1, 2, 3].foldl (fun s p => if s.parts[p].used then rebuildMap p s else s) s
  settleDies { s with evict := [] }

/-- The ops of a core that is evicted drain: those whose place it is, and those its engine has pulled (R173, R176). -/
def drainCore (c : CoreId) (s : State) : State := pauseWhere (fun o => o.rights.pcore == c.val || pulledBy c o) s

/-- The ops of the evicted cores have stopped. -/
def evictedStopped (s : State) : Bool :=
  s.ops.all fun o => s.evict.all fun e => (o.rights.pcore != e.1.val || opStopped o) && !pulledBy e.1 o

/-- The evicted cores are clear, with the pages of a die that is drained migrated: once their ops have stopped the mapping
changes, at a slot boundary (R18, R99). A core that the change affects besides is evicted first. -/
def evictClear (s : State) : State :=
  let more := (movedHosts s).filter fun c => !s.evict.any (·.1 == c)
  if more ≠ [] then requestEvict more s
  else if s.cycle % 2 = 0 && evictedStopped s then finishEvict s
  else s

/-- The turn of one evicted core: after the grace period its task is cut; its ops drain from the cut on, or at once when no task
runs there; a fault cut there moves to the store (R173, R331, R336). -/
def evictCore (s : State) (e : CoreId × Nat) : State :=
  let s := match (s.core e.1).run with
    | .running _ => if e.2 + Config.graceCycles ≤ s.cycle then forceCut e.1 s else setPreq e.1 s
    | _ => s
  match (s.core e.1).run with
  | .running _ | .starting _ _ => s
  | .held slot => moveHeld slot (drainCore e.1 s)
  | _ => drainCore e.1 s

/-- One turn of an eviction, and then the change of the mapping (R331, R336). -/
def evictTurn (s : State) : State :=
  if s.evict = [] then s
  else
    let s := s.evict.foldl evictCore s
    if (s.evict.all fun e => coreClear s e.1) && drainsMigrated s then evictClear s else s

/-- FORCED_CUT: one turn of every pre-emption and eviction under way (R331). -/
def execForcedCut (s : State) : Out :=
  .next (restoreSaves (evictTurn (s.graphs.foldl (fun s g => preemptTurn s g) s)))

/-! ## CORE_LOST (R19) -/

/-- The fault of a task on a lost core. -/
def lostFault (s : State) : FaultInfo :=
  { code := cMemUe, stream := .ctl, src := 3, lost := true, stale := false, walk := false, skip := false, late := false,
    pc := 0, word := 0, w2 := 0, addr := 0, optok := 0, widx := 0, course := s.course, at_ := s.cycle }

/-- The task on a core is lost with it: no cut is saved (R19). A handler that is lost is killed with its task (R328). -/
def loseTask (c : CoreId) (slot : Nat) (s : State) : State :=
  match s.findTask slot with
  | none => s
  | some t =>
    let s := pauseWhere (fun o => o.owner == some slot) s
    let f := lostFault s
    let s := s.setCore c { s.core c with run := .idle, ctx := Ctx.reset, last := none }
    let s := { s with decrs := s.decrs.filter (·.core != some c), answers := s.answers.filter (·.core != c) }
    if t.dying then endTask slot true s
    else if t.st = .ending then s
    else if t.serves.isSome then handlerFaulted t f s
    else s.updTask slot fun t => { t with st := .cutStored, fault := some f, image := none, cutAt := s.cycle, again := none }

/-- CORE_LOST: the core's cluster leaves the mapping, and its task's handler is to be spawned with LOST (R12, R19). A core
that is evicted, or whose logical core moves, is cleared first. -/
def execCoreLost (c : CoreId) (s : State) : Out :=
  let s := match (s.core c).run.slot? with
    | some slot => loseTask c slot s
    | none => s
  let s := s.setCore c { s.core c with failed := true }
  let mates := (List.range 8).map fun j => coreOfNat (c.val / 8 * 8 + j)
  .next (requestEvict (mates ++ movedHosts s) s)

end Sys2Proof.Machine
end

