-- ==== Sys2Proof/Machine/Ends.lean ====
section
/-! DEFINITION. How a task ends: TYLD, TEND, the successor walk, TRES and TKILL (R38, R196, R197, R199). -/

namespace Sys2Proof.Machine

open Sys2Proof

/-- The executing task. -/
def State.mytask (s : State) : Option Task := s.findTask s.myslot

/-- The executing core's task is already being cut in this cycle. -/
def beingCut (s : State) : Bool :=
  match (s.core s.fcore).run with
  | .cutting _ _ => true
  | _ => false

/-- TYLD: with PREQ set the task is cut here, as a forced cut would cut it; in the cycle of another stream's fault it does
not issue (R197, R336). -/
def execTyld (t : Tok) (s : State) : Out :=
  .next (issue t (planOf [] fun _ s =>
    if !(s.ctx s.fcore).tstat.getLsbD 0 then .go s false .seq
    else if beingCut s then .wait
    else .go (forceCut s.fcore s) false .seq) s)

/-! ## TEND steps 1 to 3 (R38, R196) -/

/-- Resolves the live attached ops of an ending task, by the ORPHAN flag or by ORPH: 0 waits, 1 detaches what can be
detached, 2 cancels (R33, R173). -/
def resolveOps (t : Task) (orphan : Bool) (s : State) : State :=
  let policy := if orphan then 1 else t.orph
  (s.ops.filter fun o => o.status.isLive && o.owner == some t.slot).foldl (fun s o =>
    if policy = 1 then (if o.kind.cannotDetach then s else detachOp o s)
    else if policy = 2 then (cancelOp o s).1
    else s) s

/-- Drops every buffer that a task holds (R196). -/
def dropBuffers (slot : Nat) (s : State) : State := updBuffers (fun b => b.live && b.holder == some slot) Buffer.dissolve s

/-- The other streams of the executing core have executed END. -/
def othersEnded (x : Ctx) : Bool := [Stream.load, .math, .store].all fun st => (x.strm st).ended

/-- Every access of the task on a core is performed and every result written. -/
def allReleased (x : Ctx) : Bool := allStreams.all (fun st => (x.strm st).accs == []) && x.pend == [] && x.kmrg.isNone

/-- Sets how many steps of TEND are done. -/
def setTend (n : Nat) (s : State) : State := onCtx (fun x => { x with tendAt := n }) s

/-- TEND steps 1 and 2, as far as they can go now, and whether step 3 is reached. -/
def endPhases (t : Task) (orphan : Bool) (s : State) : State × Bool :=
  let x := s.ctx s.fcore
  let s := if x.tendAt = 0 && othersEnded x then setTend 1 (resolveOps t orphan (countGuard t x.guards s)) else s
  let s := if (s.ctx s.fcore).tendAt = 1 && !s.ops.any (fun o => o.status.isLive && o.owner == some t.slot) then
      setTend 2 (dropBuffers t.slot s) else s
  (s, (s.ctx s.fcore).tendAt == 2 && !s.buffers.any (fun b => b.live && b.maker == t.slot) &&
    allReleased (s.ctx s.fcore))

/-- What is measured of a traced task at TEND step 3 (R106). -/
def measOf (s : State) (t : Task) : Meas :=
  ⟨t.slip, s.cycle - t.started, t.stall, min 65535 (s.ctx t.pcore).smiss.toNat, t.copyX⟩

/-- TEND step 3 is complete: the task is ending, its control stream issues nothing more, and the yelm machinery notes the
frame cycle and what was measured (R105, R106, R196). -/
def stepThree (t : Task) (s : State) : State :=
  let m := measOf s t
  let s := s.updGraph t.graph fun g =>
    let g := { g with lastEnd := graphCycle s g }
    match t.traced with
    | some i => { g with meas := g.meas ++ [(t.lcore, i, m)] }
    | none => g
  let s := setTend 3 (onStrm (fun q => { q with ended := true, taken := false }) s)
  s.updTask t.slot fun t => { t with st := .ending, tend3 := some s.cycle }

/-! ## The successor walk (R37, R38, R93) -/

/-- Reads the whole successor list before the first decrement: the list, or the address that cannot be read. -/
def readList (t : Task) (s : State) : State × Except Nat (List W32) :=
  match s.findGraph t.graph with
  | none => (s, .ok [])
  | some g =>
    if 2 ^ 43 < t.succ + 4 * t.nsucc then (s, .error t.succ)
    else
    match readVa s t.pcore (graphRights g) t.succ (4 * t.nsucc) with
    | (s, .ok bs) => (s, .ok (wordsOf bs))
    | (s, .error (_, a)) => (s, .error a)

/-- Issues the next entry of a walk: it takes its cycle even when it is skipped. -/
def issueEntry (slot : Nat) (s : State) : State :=
  match s.findTask slot with
  | none => s
  | some t =>
    match t.list[t.walkAt]? with
    | none => s
    | some h =>
      let s := s.updTask slot fun t => { t with walkAt := t.walkAt + 1, tend3 := some s.cycle }
      if h = -1 then s
      else
        let q : Decr := ⟨h, s.cycle + bankDelay t.pcore h.toNat, t.lcore, t.graph, none, slot, t.walkAt, 0⟩
        { s with decrs := s.decrs ++ [q] }

/-- A traced task's walk is noted for the refinement pass (R365). -/
def logWalk (t : Task) (l : List W32) (s : State) : State :=
  match t.traced with
  | none => s
  | some i =>
    let e := (l.zip (List.range l.length)).filter (·.1 != -1) |>.map fun p =>
      (⟨t.lcore, i, p.2, p.1.toNat, bitsOf p.1.toNat 30 2 != (dieOf t.pcore).val⟩ : WalkLog)
    s.updGraph t.graph fun g => { g with walks := g.walks ++ e }

/-- The walk begins: the list is read, and entry 0 is issued. A list that cannot be read raises PAGE_NOT_PRESENT before
any entry is applied. -/
def beginWalk (slot : Nat) (s : State) : State :=
  match s.findTask slot with
  | none => s
  | some t =>
    match readList t s with
    | (s, .error a) => walkFault slot cPageNotPresent (BitVec.ofNat 64 a) 0 false s
    | (s, .ok l) => issueEntry slot (logWalk t l (s.updTask slot fun t => { t with list := l }))

/-- One cycle of a task that is ending: the next entry; after the last its core is free; once the last decrement has been
applied, its counter and its slot are freed, in the counter's turn at its bank (R36). -/
def walkTurn (t : Task) (s : State) : State :=
  if s.cycle ≤ t.tend3.getD s.cycle then s
  else if t.list = [] ∧ 0 < t.nsucc then beginWalk t.slot s
  else if t.walkAt < t.list.length then issueEntry t.slot s
  else
    let s := releaseCore t s
    if s.decrs.any (fun q => q.core.isNone && q.slot == t.slot) then s
    else
      match t.ctr.filter fun k => bankTaken s (counterAt s k) t.lcore with
      | some k => queueAtBank k t.lcore s
      | none => endTask t.slot true s

/-- SUCCESSOR_WALK: the tasks that end on a core walk their lists (R38, R93). -/
def execSuccessorWalk (c : CoreId) (s : State) : Out :=
  .next ((s.tasks.filter fun t => t.pcore == c && t.st == .ending).foldl (fun s t => walkTurn t s) s)

/-! ## What an ending task does (R38, R199) -/

/-- The ways a task ends. -/
inductive EndMode
  | tend (orphan : Bool)
  | resume
  | retry
  | kill (self : Bool)
  deriving DecidableEq, Repr, Inhabited

/-- TRES resume: a cut restarts, where it is held or from the store; a walk fault goes on at the next entry, or reads its list
again. A walk that had issued its last entry, so that its core is free, has no cut, and goes on at once (R37, R93, R329). -/
def resumeTask (u : Task) (s : State) : State :=
  if u.st = .walkFault ∧ (s.core u.pcore).run ≠ .held u.slot then walkOn u.slot s
  else requeue u.slot (s.updTask u.slot fun u => { u with again := some false })

/-- The core on which a cut is held in place is left as by a task that has ended: its drains' pushes are discarded (R153, R284). -/
def leaveHeld (u : Task) (s : State) : State :=
  let k := s.core u.pcore
  if k.run = .held u.slot then s.setCtx u.pcore { k.ctx with mathEnd := true, mq := [], gq := [] } else s

/-- TRES retry: the task's ops are cancelled and its buffers dissolve, and it starts again; after a walk fault it completes
TEND step 5. -/
def retryTask (u : Task) (s : State) : State :=
  if u.fault.any (·.walk) then endTask u.slot true s
  else
    let s := cancelWhere (fun o => o.owner == some u.slot) (leaveHeld u (keepFromImage u s))
    let left (o : Op) : Bool := o.rights.slot == u.slot && o.gen == u.gen % 65536
    let cut (o : Op) : Op := { o with rights := { o.rights with slot := 65536 } }
    let s := { orphanOps u.slot s with ops := updWhere left cut (orphanOps u.slot s).ops }
    let mine (b : Buffer) : Bool := b.live && (b.maker == u.slot || b.holder == some u.slot)
    let s := updBuffers mine Buffer.dissolve s
    let s := { s with
      invals := updWhere (fun v => !v.host && v.slot == u.slot) (fun v => { v with slot := 65536 }) s.invals }
    requeue u.slot (s.updTask u.slot fun u => { u with again := some true, image := none, retry := true, lateFault := none })

/-- The task that a handler serves. -/
def servedBy (t : Task) (s : State) : Option Task := t.serves.bind s.findTask

/-- The handler's task is killed with the fault that cut it. -/
def killServed (t : Task) (s : State) : State :=
  match servedBy t s with
  | some u => killTask u.slot u.fault s
  | none => s

/-- A task that kills itself is counted, with no fault code (R199, R340). -/
def countSelf (t : Task) (s : State) : State := s.updGraph t.graph fun g => { g with nkill := satInc g.nkill }

/-- No successor walk. -/
def noWalk (slot : Nat) (s : State) : State := s.updTask slot fun t => { t with nsucc := 0, list := [] }

/-- What happens once the executing task has completed TEND steps 1 to 3 (R38, R199). -/
def afterEnd (t : Task) (m : EndMode) (s : State) : State :=
  let s := stepThree t s
  match m with
  | .tend _ => if t.serves.isSome then noWalk t.slot (killServed t s) else if t.nsucc = 0 then s else beginWalk t.slot s
  | .resume => noWalk t.slot (match servedBy t s with
    | some u => resumeTask u s
    | none => s)
  | .retry => noWalk t.slot (match servedBy t s with
    | some u => retryTask u s
    | none => s)
  | .kill self => noWalk t.slot (killServed t (if self then countSelf t s else s))

/-- The turn of an instruction that ends its task. -/
def endTurn (m : EndMode) (s : State) : Waited :=
  match s.mytask with
  | none => .wait s
  | some t =>
    let orphan := match m with
      | .tend o => o
      | _ => false
    match endPhases t orphan s with
    | (s, false) => .wait s
    | (s, true) => .done (afterEnd t m s) .stay

/-- The plan of an instruction that ends its task, with a check made at issue. Its posts come with its issue, and not with the
end of its task: R145 lists it nowhere. -/
def endPlan (regs : List Nat) (bad : State → Bool) : Plan :=
  { planOf regs fun _ s => if bad s then .fault { code := cPrivilege } else .go s false .seq with early := true }

/-- TEND (R38, R196). -/
def execTend (wp wn : Bool) (orphan : Bool) (s : State) : Out :=
  .next (issueWaiting ⟨wp, wn, false, false⟩ (endPlan [] fun _ => false) (endTurn (.tend orphan)) s)

/-- gA does not name the task that the executing handler serves; a task whose core was lost cannot be resumed (R19, R199), and
to ask for it is PRIVILEGE as well (DESIGN CHOICE, notes/assumptions/127.md). -/
def notServed (a : GReg) (resume : Bool) (s : State) : Bool :=
  match s.mytask.bind fun t => servedBy t s with
  | some u =>
    ((s.ctx s.fcore).gr a).toNat % 2 ^ 32 != u.handle || (resume && (u.fault.map (·.lost)) == some true)
  | none => true

/-- gA names the executing task. -/
def namesSelf (a : GReg) (s : State) : Bool :=
  match s.mytask with
  | some t => ((s.ctx s.fcore).gr a).toNat % 2 ^ 32 == t.handle
  | none => false

/-- TRES resume (R199). -/
def execTresResume (t : Tok) (a : GReg) (s : State) : Out :=
  .next (issueWaiting t (endPlan [a.val] (notServed a true)) (endTurn .resume) s)

/-- TRES retry (R199). -/
def execTresRetry (t : Tok) (a : GReg) (s : State) : Out :=
  .next (issueWaiting t (endPlan [a.val] (notServed a false)) (endTurn .retry) s)

/-- TKILL (R199). -/
def execTkill (t : Tok) (a : GReg) (s : State) : Out :=
  .next (issueWaiting t (endPlan [a.val] fun s => notServed a false s && !namesSelf a s)
    (fun s => endTurn (.kill (namesSelf a s)) s) s)

end Sys2Proof.Machine
end

