-- ==== Sys2Proof/Machine/Buffers.lean ====
section
/-! DEFINITION. Buffers and rotation: BMAKE, BGIVE, BTAKE, BDROP and ROT (R201 to R206). -/

namespace Sys2Proof.Machine

open Sys2Proof

/-- The handle of a buffer (R201). -/
def Buffer.handle (b : Buffer) : Nat := packFields [(10, b.orig), (4, b.slot), (18, b.gen)]

/-- The buffer slots of the executing logical core. -/
def coreBuffers (s : State) : List Buffer :=
  let r := rightsOf s s.fcore
  s.buffers.filter fun b => b.part == r.part && b.orig == r.lcore

/-- A free buffer slot of the executing logical core, with its generation; which is taken is not architected. -/
def freeBuffer (s : State) : Option (Nat × Nat × State) :=
  let (w, s') := s.takeFree
  let l := coreBuffers s
  (firstFrom (fun i => !l.any fun b => b.slot == i && b.live) 16 16 w.toNat).map fun i =>
    (i, ((l.find? (·.slot == i)).map (·.gen)).getD 0, s')

/-- The checks of BMAKE, in their order, and the scratchpad offset (R202). DESIGN CHOICE: an address with a tag other than 0x01 is
SPACE, as at the other instructions that take a scratchpad address (notes/assumptions/125.md). -/
def bmakeCheck (s : State) (a b : W64) : Except Flt Nat :=
  let n := b.toNat
  if a.toNat % 256 != 0 || n % 256 != 0 || n < 256 || 2097152 < n then .error { code := cAlign, addr := a }
  else
    match placeOf a.toNat with
    | some (.own off) =>
      let x := s.ctx s.fcore
      if off < x.base || x.base + x.size < off + n then .error { code := cSpace, addr := a }
      else if (coreBuffers s).any fun b => b.live && overlaps off n b.addr b.size then
        .error { code := cOwnership, addr := a }
      else .ok off
    | _ => .error { code := cSpace, addr := a }

/-- BMAKE registers a region as a buffer that the task holds (R202). -/
def execBmake (t : Tok) (d a b : GReg) (s : State) : Out :=
  .next (issue t (planOf [d.val, a.val, b.val] fun _ s =>
    let x := s.ctx s.fcore
    match bmakeCheck s (x.gr a) (x.gr b) with
    | .error f => .fault f
    | .ok off =>
      match freeBuffer s with
      | none => .fault { code := cOwnership, addr := x.gr a }
      | some (slot, gen, s) =>
        let r := rightsOf s s.fcore
        let q : Buffer := ⟨r.lcore, slot, gen, true, r.part, off, (x.gr b).toNat, r.slot, some r.slot, none⟩
        let mine (e : Buffer) : Bool := e.part == r.part && e.orig == r.lcore && e.slot == slot
        let s := { s with buffers := q :: s.buffers.filter fun e => !mine e }
        .go (onCtx (·.setG d (BitVec.ofNat 64 q.handle)) s) false .seq) s)

/-- The live buffer of the executing task's partition that a handle names. -/
def bufferNamed (s : State) (w : W64) : Option Buffer :=
  let r := rightsOf s s.fcore
  s.buffers.find? fun b => b.live && b.part == r.part && b.handle == w.toNat

/-- The buffer that a register names, when the executing task holds it. -/
def heldNamed (s : State) (w : W64) : Option Buffer :=
  match bufferNamed s w with
  | some b => if b.holder == some (rightsOf s s.fcore).slot then some b else none
  | none => none

/-- Replaces a buffer. -/
def setBuffer (b : Buffer) (f : Buffer → Buffer) (s : State) : State :=
  { s with buffers := updWhere (fun e => e.part == b.part && e.orig == b.orig && e.slot == b.slot) f s.buffers }

/-- The logical position of gB is the executing task's own, or that of a live member of its team (R40, R203). -/
def giveTarget (s : State) (w : W64) : Bool :=
  let x := s.ctx s.fcore
  w.toNat == x.lcore.toNat % 8 || match s.mytask with
    | some t => 1 < t.tsize && (teamOf s t).any (·.mpos == w.toNat)
    | none => false

/-- BGIVE offers a buffer that the task holds, and releases (R203). -/
def execBgive (t : Tok) (a b : GReg) (s : State) : Out :=
  .next (issue t (releasing (planOf [a.val, b.val] fun _ s =>
    let x := s.ctx s.fcore
    match heldNamed s (x.gr a) with
    | none => .fault { code := cOwnership }
    | some q =>
      if giveTarget s (x.gr b) then
        let lc := x.lcore.toNat
        let o := (lc / 8 * 8 + (x.gr b).toNat, lc % 8, s.cycle)
        .go (setBuffer q (fun e => { e with holder := none, offer := some o }) s) false .seq
      else .fault { code := cOwnership })) s)

/-- The oldest offer to the executing logical core: by cycle, then by giver's position (R203). Offers of a cycle are seen from
the next one on, so that those of one cycle can be put in the order of their givers' positions (DEDUCED,
notes/assumptions/126.md). -/
def oldestOffer (s : State) (named : Option Nat) : Option Buffer :=
  let r := rightsOf s s.fcore
  let key (b : Buffer) : Nat := match b.offer with
    | some (_, p, c) => c * 8 + p
    | none => 0
  leastBy key (s.buffers.filter fun b => b.live && b.part == r.part && (named.isNone || named == some b.handle) &&
    match b.offer with
    | some (t, _, c) => t == r.lcore && c < s.cycle
    | none => false)

/-- BTAKE waits for an offer, and holds it (R203). It posts as it completes (DEDUCED from R324, notes/assumptions/132.md). -/
def execBtake (t : Tok) (d a : GReg) (s : State) : Out :=
  .next (issueWaiting t (planOf [d.val, a.val] fun _ s => .go s false .seq)
    (fun s =>
      let named := if a = 0 then none else some ((s.ctx s.fcore).gr a).toNat
      match oldestOffer s named with
      | none => .wait s
      | some b =>
        let me := (rightsOf s s.fcore).slot
        .done (onCtx (·.setG d (BitVec.ofNat 64 b.handle))
          (setBuffer b (fun e => { e with holder := some me, offer := none }) s)) .seq) s)

/-- BDROP dissolves a buffer that the task holds, and releases (R204). -/
def execBdrop (t : Tok) (a : GReg) (s : State) : Out :=
  .next (issue t (releasing (planOf [a.val] fun _ s =>
    match heldNamed s ((s.ctx s.fcore).gr a) with
    | none => .fault { code := cOwnership }
    | some q => .go (setBuffer q Buffer.dissolve s) false .seq)) s)

/-! ## ROT (R206) -/

/-- The rotation moves bytes: the executing task's team has other members (R206). -/
def rotMoves (s : State) : Bool := s.mytask.any (1 < ·.tsize)

/-- The region of a ROT: alignment, range, ownership, and no poison where the rotation reads it (R205, R206, R229). -/
def rotRegion (s : State) (a : W64) (n : Nat) : Except Flt Nat :=
  if a.toNat % 256 != 0 then .error { code := cAlign, addr := a }
  else
    match placeOf a.toNat with
    | some (.own off) =>
      match reach s s.fcore (rightsOf s s.fcore) (.own off) n 1 true with
      | (_, .ok key) => if rotMoves s && s.poisoned key n then .error { code := cMemUe, addr := a } else .ok off
      | (_, .fault e) => .error { code := e, addr := a }
      | (_, .held) => .error { code := cSpace, addr := a }
    | _ => .error { code := cSpace, addr := a }

/-- The cores of a team's other members, by position, once each has a ROT that waits. -/
def rotOthers (s : State) (t : Task) : Option (List (Nat × CoreId × RotWait)) :=
  let l := (teamOf s t).filter (·.slot != t.slot)
  let m := l.filterMap fun u =>
    if (s.core u.pcore).run == .running u.slot then (s.ctx u.pcore).rot.map fun r => (u.mpos, u.pcore, r) else none
  if m.length + 1 = t.tsize then some m else none

/-- A member's ROT that waited completes. -/
def rotFinish (c : CoreId) (s : State) : State :=
  finishWaiting c .ctl 1 (s.setCtx c { s.ctx c with rot := none })

/-- A member's ROT that waited raises a fault: it is withdrawn, and has moved nothing. -/
def rotFault (f : Flt) (c : CoreId) (s : State) : State :=
  let word := ((s.ctx c).rot.map (·.word)).getD 0
  let s1 := s.setCtx c { withdraw (s.ctx c) .ctl with rot := none }
  let s2 := takeFault { s1 with focus := ⟨c, .ctl, word, 0⟩ } f
  { s2 with focus := s.focus }

/-- The region of a member's ROT holds a poisoned word (R229). -/
def rotPoisoned (s : State) (c : CoreId) (r : RotWait) : Bool := s.poisoned (spadKey c.val r.off) r.bytes

/-- MEM_UE at the region of a ROT (R229). -/
def rotUe (r : RotWait) : Flt := { code := cMemUe, addr := BitVec.ofNat 64 (2 ^ 56 + r.off) }

/-- Moves the regions: position p receives what its source position held (R206). -/
def rotMove (l : List (Nat × CoreId × RotWait)) (size : Nat) (prev : Bool) (s : State) : State :=
  let src (p : Nat) : Nat := if prev then (p + 1) % size else (p + size - 1) % size
  let bytesOf (p : Nat) : List Byte :=
    match l.find? (·.1 == p) with
    | some (_, c, r) => s.load (spadKey c.val r.off) r.bytes
    | none => []
  l.foldl (fun s' e => s'.store (spadKey e.2.1.val e.2.2.off) (bytesOf (src e.1))) s

/-- The turn of a ROT: the last member to issue moves every region, and all complete in one cycle. A region that has been
poisoned since its member's ROT issued is that member's MEM_UE, and no byte moves (R229). -/
def rotTurn (t : Task) (me : RotWait) (s : State) : Waited :=
  if t.tsize ≤ 1 then .done s .seq
  else
    match rotOthers s t with
    | none => .wait (onCtx (fun x => { x with rot := some me }) s)
    | some l =>
      let bad := l.filter fun e => rotPoisoned s e.2.1 e.2.2
      if !(l.all fun e => e.2.2.prev == me.prev && e.2.2.bytes == me.bytes) then .fault { code := cRecord }
      else if rotPoisoned s s.fcore me then .fault (rotUe me)
      else if bad ≠ [] then
        .wait (onCtx (fun x => { x with rot := some me }) (bad.foldl (fun s e => rotFault (rotUe e.2.2) e.2.1 s) s))
      else
        let s := rotMove ((t.mpos, s.fcore, me) :: l) t.tsize me.prev s
        .done (onCtx (fun x => { x with rot := none }) (l.foldl (fun s e => rotFinish e.2.1 s) s)) .seq

/-- The other members' faults when a ROT finds that sizes or directions differ. -/
def rotMismatch (t : Task) (me : RotWait) (s : State) : State :=
  match rotOthers s t with
  | none => s
  | some l =>
    if l.all fun e => e.2.2.prev == me.prev && e.2.2.bytes == me.bytes then s
    else l.foldl (fun s e => rotFault { code := cRecord } e.2.1 s) s

/-- What the executing ROT waits with. -/
def rotOf (prev : Bool) (a : GReg) (u : Fin 4096) (s : State) : RotWait :=
  ⟨prev, ((s.ctx s.fcore).gr a).toNat % 2 ^ 56, 256 * u.val, s.focus.word⟩

/-- The step from s to s' has raised RECORD in the executing task. -/
def raisedRecord (t : Task) (s s' : State) : Bool :=
  (s.core s.fcore).run == .running t.slot && (s'.core s.fcore).run == .cutting t.slot s.cycle &&
  ((s'.findTask t.slot).bind (·.fault)).map (·.code) == some cRecord

/-- ROT (R206): a size of 0 is ILLEGAL_OP. When the members do not agree, every one of them raises RECORD. It posts as it
completes (DEDUCED from R324, notes/assumptions/132.md). -/
def execRot (t : Tok) (prev : Bool) (a : GReg) (u : Fin 4096) (s : State) : Out :=
  let plan : Plan := releasing { planOf [a.val] (fun _ s =>
      match rotRegion s ((s.ctx s.fcore).gr a) (256 * u.val) with
      | .error f => .fault f
      | .ok _ => .go s false .seq) with pre := if u = 0 then some { code := cIllegalOp } else none }
  match s.mytask with
  | none => .next s
  | some k =>
    let me := rotOf prev a u s
    let s' := issueWaiting t plan (rotTurn k me) s
    .next (if raisedRecord k s s' then rotMismatch k me s' else s')

end Sys2Proof.Machine
end

