-- ==== Sys2Proof/Machine/Fetch.lean ====
section
/-! DEFINITION. Fetching: the image, the instruction caches and the die fetch agents (R120 to R124), and SCHEDULE_MISS
(R157). -/

namespace Sys2Proof.Machine

open Sys2Proof

/-! ## Words (R120, R121) -/

/-- An address lies inside the image of a stream. -/
def inImage (q : StreamSt) (a : Nat) : Bool := q.image.toNat ≤ a && a + 4 ≤ q.image.toNat + 128 * q.lines

/-- The address of the line that holds an address. -/
def lineOf (a : Nat) : Nat := a / 128 * 128

/-- A line a core's cache holds for its task: tagged by context and address (R123). -/
def heldLine (s : State) (c : CoreId) (st : Stream) (line : Nat) : Option ILine :=
  let r := rightsOf s c
  (s.core c).icache[st.idx].find? fun l => l.port == r.port && l.ctx == r.ctx && l.addr == line

/-- A word of a line. -/
def ILine.word (l : ILine) (a : Nat) : W32 := BitVec.ofNat 32 (ofBytes ((l.data.drop (a - l.addr)).take 4))

/-- A word of a line lies in a poisoned 8-byte word. -/
def ILine.bad (l : ILine) (a : Nat) : Bool := l.ue.contains ((a - l.addr) / 8 * 8)

/-- What a stream finds at an address. -/
inductive Found
  | word (w : W32)
  | miss (line : Nat)
  | fault (code : Nat)
  deriving DecidableEq, Repr, Inhabited

/-- The word at an address, for a stream that comes to execute it (R121). -/
def findWord (s : State) (c : CoreId) (st : Stream) (a : Nat) : Found :=
  let q := (s.ctx c).strm st
  if !inImage q a then .fault cIllegalOp
  else
    match heldLine s c st (lineOf a) with
    | some l => if l.bad a then .fault cMemUe else .word (l.word a)
    | none =>
      if q.miss = some (BitVec.ofNat 64 (lineOf a)) ∧ q.missCode ≠ 0 then .fault q.missCode else .miss (lineOf a)

/-- What a stream fetches: both words of an instruction, a line it must wait for, or a fault with its address. -/
inductive Fetched
  | instr (w w2 : W32)
  | miss (line : Nat)
  | fault (code addr : Nat) (w : W32)
  deriving DecidableEq, Repr, Inhabited

/-- Fetches the instruction at the pc of a stream; one that has issued and waits is kept (R122, R126). -/
def fetch (s : State) (c : CoreId) (st : Stream) : Fetched :=
  let q := (s.ctx c).strm st
  let a := q.pc.toNat
  if q.taken then .instr q.words.1 q.words.2
  else
    match findWord s c st a with
    | .miss l => .miss l
    | .fault e => .fault e a 0
    | .word w =>
      if isLong st w.toNat then
        match findWord s c st (a + 4) with
        | .miss l => .miss l
        | .fault e => .fault e (a + 4) w
        | .word w2 => .instr w w2
      else .instr w 0

/-- A line of the task's context at an address (R123). -/
def ILine.of (l : ILine) (r : Rights) (line : Nat) : Bool := l.port == r.port && l.ctx == r.ctx && l.addr == line

/-- Marks a line of a context as the most recently used of a stream's cache (R123). -/
def touchLine (r : Rights) (line : Nat) (l : List ILine) : List ILine :=
  l.filter (·.of r line) ++ l.filter fun e => !e.of r line

/-- Puts a line into a stream's cache: 32 sets of four ways, the least recently used leaves (R123). -/
def putLine (n : ILine) (l : List ILine) : List ILine :=
  let rest := l.filter fun e => !(e.port == n.port && e.ctx == n.ctx && e.addr == n.addr)
  let same (e : ILine) : Bool := e.addr / 128 % 32 == n.addr / 128 % 32
  n :: (rest.filter same).take 3 ++ rest.filter fun e => !same e

/-- Changes a stream's cache on a core. -/
def onCache (c : CoreId) (st : Stream) (f : List ILine → List ILine) (s : State) : State :=
  let k := s.core c
  s.setCore c { k with icache := k.icache.set st.idx (f k.icache[st.idx]) }

/-- Changes a stream of a core. -/
def onStream (c : CoreId) (st : Stream) (f : StreamSt → StreamSt) (s : State) : State :=
  s.setCtx c ((s.ctx c).setStrm st (f ((s.ctx c).strm st)))

/-! ## The die fetch agent (R124) -/

/-- Marks the lines of an instruction's words as used, in their order (R123). -/
def touchWords (c : CoreId) (st : Stream) (s : State) : State :=
  let q := (s.ctx c).strm st
  let r := rightsOf s c
  if q.taken then s
  else onCache c st (fun l => touchLine r (lineOf (q.pc.toNat + 4 * (s.words - 1))) (touchLine r (lineOf q.pc.toNat) l)) s

/-- Kernel object of the task on a core: part of a fill's key. -/
def kobjOf (s : State) (c : CoreId) : Nat :=
  (((s.core c).run.slot?.bind s.findTask).map (·.kobj)).getD 0

/-- The key of a request. -/
def requestKey (s : State) (c : CoreId) (st : Stream) (line : Nat) : ILine :=
  let r := rightsOf s c
  ⟨r.port, r.ctx, kobjOf s c, st, line, [], []⟩

/-- Two lines have one key: context, kernel object, stream and address. -/
def ILine.sameKey (a b : ILine) : Bool :=
  a.port == b.port && a.ctx == b.ctx && a.kobj == b.kobj && a.strm == b.strm && a.addr == b.addr

/-- The line a stream asks for: the one it waits for, else the next line when it lies within the image and is not held
(R123). -/
def wantedLine (s : State) (c : CoreId) (st : Stream) : Option Nat :=
  let q := (s.ctx c).strm st
  match q.miss with
  | some l => if q.missCode = 0 then some l.toNat else none
  | none =>
    let next := lineOf q.pc.toNat + 128
    if !q.ended && inImage q next && (heldLine s c st next).isNone then some next else none

/-- A fill that a core's stream has joined for a line is pending. -/
def fillPending (s : State) (c : CoreId) (st : Stream) (line : Nat) : Bool :=
  s.dies[dieOf c].fills.any fun f => f.line.sameKey (requestKey s c st line) && f.joined.contains (c, st)

/-- The stream of a core waits for a line of its task's context. -/
def waitsFor (s : State) (e : CoreId × Stream) (l : ILine) : Bool :=
  l.of (rightsOf s e.1) l.addr && ((s.ctx e.1).strm e.2).miss == some (BitVec.ofNat 64 l.addr)

/-- A line reaches a core: its stream no longer waits for it. -/
def deliverLine (l : ILine) (s : State) (e : CoreId × Stream) : State :=
  let w := waitsFor s e l
  let s := onCache e.1 e.2 (putLine l) s
  onStream e.1 e.2 (fun q => if w then { q with miss := none, missCode := 0 } else q) s

/-- Where a line of code lies, through the rights of a task on a core, or a fault code (R121). -/
def findLine (s : State) (c : CoreId) (line : Nat) : State × Except Nat Nat :=
  if 2 ^ 43 < line + 128 then (s, .error cPageNotPresent)
  else
    match translate s c (rightsOf s c) line 1 false true with
    | (s, .fault e) => (s, .error e)
    | (s, .held) => (s, .error cPagePermission)
    | (s, .ok key) => (s, .ok key)

/-- A new fill, with where it reads (R124). -/
def startFill (c : CoreId) (st : Stream) (key : ILine) (s : State) : State :=
  let (s, r) := findLine s c key.addr
  let f : Fill := match r with
    | .ok at_ => ⟨key, s.cycle, [(c, st)], 0, at_⟩
    | .error e => ⟨key, s.cycle, [(c, st)], e, 0⟩
  let d := s.dies[dieOf c]
  { s with dies := s.dies.set (dieOf c) { d with fills := d.fills ++ [f] } }

/-- The streams of a core fetch: a task runs there. -/
def fetches (s : State) (c : CoreId) : Bool :=
  match (s.core c).run with
  | .running _ | .cutting _ _ => true
  | _ => false

/-- FETCH_REQUEST: a miss or a next-line fetch hits the fetch buffer, joins a fill, or starts one (R124). -/
def execFetchRequest (c : CoreId) (st : Stream) (s : State) : Out :=
  match wantedLine s c st with
  | none => .next s
  | some line =>
    if !fetches s c || fillPending s c st line then .next s
    else
      let key := requestKey s c st line
      let d := s.dies[dieOf c]
      match d.buffer.find? key.sameKey with
      | some l => .next (deliverLine l s (c, st))
      | none =>
        let joins (f : Fill) : Bool := f.line.sameKey key && s.cycle ≤ f.first + 64
        if d.fills.any joins then
          .next { s with dies := s.dies.set (dieOf c) { d with
            fills := updWhere joins (fun f => { f with joined := f.joined ++ [(c, st)] }) d.fills } }
        else .next (startFill c st key s)

/-- The line that a fill has read: its bytes and its poisoned words. -/
def filledLine (s : State) (f : Fill) : ILine :=
  { f.line with data := s.load f.at_ 128, ue := ((wordsAt f.at_ 128).filter s.poison.contains).map fun w => w - f.at_ }

/-- A line enters a die's fetch buffer, of 2,048 lines (R124). -/
def bufferLine (die : Fin 4) (l : ILine) (s : State) : State :=
  let d := s.dies[die]
  { s with dies := s.dies.set die { d with buffer := (l :: d.buffer.filter fun b => !b.sameKey l).take 2048 } }

/-- A fill that could not be translated as it was asked for is a prefetch to be discarded, unless a stream waits for the line:
for that stream it is translated now, since an entry that has become valid needs no TINV, and the failure that it meets now is
reported (R121, R222). -/
def failFill (die : Fin 4) (f : Fill) (s : State) (e : CoreId × Stream) : State :=
  if waitsFor s e f.line then
    match findLine s e.1 f.line.addr with
    | (s, .ok key) => let l := filledLine s { f with at_ := key }; deliverLine l (bufferLine die l s) e
    | (s, .error code) => onStream e.1 e.2 (fun q => { q with missCode := code }) s
  else s

/-- FETCH_FILL: a fill's data arrives, and is written to the fetch buffer, of 2,048 lines, and to the cache of every core
that joined, whatever that runs now (R124). -/
def execFetchFill (die : Fin 4) (k : Nat) (s : State) : Out :=
  match s.dies[die].fills[k]? with
  | none => .next s
  | some f =>
    let d := s.dies[die]
    let d := { d with fills := d.fills.eraseIdx k }
    let s := { s with dies := s.dies.set die d }
    if f.code ≠ 0 then .next (f.joined.foldl (failFill die f) s)
    else let l := filledLine s f; .next (f.joined.foldl (deliverLine l) (bufferLine die l s))

/-! ## SCHEDULE_MISS (R157, R159) -/

/-- SCHEDULE_MISS: a stamped instruction that has not issued by k + SLACK counts one miss, or faults under STRICT. -/
def execScheduleMiss (c : CoreId) (st : Stream) (s : State) : Out :=
  let x := s.ctx c
  match (s.core c).run with
  | .running _ =>
    match gate s.cycle x (x.strm st) with
    | .missed => .next (s.setCtx c (countMiss x st))
    | .strictMiss =>
      let (w, w2) : W32 × W32 := match fetch s c st with
        | .instr w w2 => (w, w2)
        | .fault _ _ w => (w, 0)
        | .miss _ => (0, 0)
      .next { takeFault { s with focus := ⟨c, st, w, w2⟩ } { code := cScheduleMiss } with focus := s.focus }
    | _ => .next s
  | _ => .next s

end Sys2Proof.Machine
end

