-- ==== Sys2Proof/Machine/Ridge.lean ====
section
/-! DEFINITION. Placement and dispatch: CANDIDATE_READY, DISPATCH_SLOT (R81 to R92, R109, R334) and STREAMS_START with the
start state of a task and its resume (R93 to R96, R159, R284, R328). -/

namespace Sys2Proof.Machine

open Sys2Proof

/-! ## Candidates in the ready order (R81 to R83) -/

/-- Inserts by ascending key, behind equals. -/
def insertBy {α : Type} (key : α → Nat) (x : α) : List α → List α
  | [] => [x]
  | y :: ys => if key x < key y then x :: y :: ys else y :: insertBy key x ys

/-- Sorts by ascending key; equals keep their order. -/
def sortBy {α : Type} (key : α → Nat) (l : List α) : List α := l.foldl (fun r x => insertBy key x r) []

/-- A graph may be dispatched: it is not cancelled or pre-empted, and its frame has begun (R80, R100, R331). -/
def graphOpen (s : State) (g : Graph) : Bool :=
  graphRuns s g.handle && match g.mode with
    | .dynamic => g.frameAt.isNone
    | _ => g.frame0.isSome

/-- The first task of an entry: for a team its position-0 member (R82). -/
def QEntry.headTask (s : State) (e : QEntry) : Option Task := e.tasks.head?.bind s.findTask

/-- The entries of a partition that this slot sees as candidates: each with its first task and graph. -/
def candidates (s : State) (part : Fin 4) : List (QEntry × Task × Graph) :=
  (s.parts[part]).queue.filterMap fun e =>
    if !e.cand then none
    else (e.headTask s).bind fun t => (s.findGraph t.graph).bind fun g => if graphOpen s g then some (e, t, g) else none

/-- The graphs that hold candidates at a pair of task priority and class, in ascending handle; a handler is a candidate of
priority 7 (R83, R327). -/
def ringOf (l : List (QEntry × Task × Graph)) (prio pcls : Nat) : List Nat :=
  sortBy id ((l.filter fun e => e.2.1.prio == prio && e.2.2.pcls == pcls).map fun e => e.2.2.handle).eraseDups

/-- The graph a ring's pointer names, and its dispatches since (R83). -/
def pointerOf (p : Part) (prio pcls : Nat) (l : List Nat) : Nat × Nat :=
  match p.rings.find? fun r => r.prio == prio && r.pcls == pcls with
  | some r => (r.graph, r.count)
  | none => (l.headD 0, 0)

/-- Where a graph stands in its ring, counted from the pointer. -/
def ringPlace (l : List Nat) (ptr h : Nat) : Nat :=
  let n := l.countP (ptr ≤ ·)
  if ptr ≤ h then l.countP fun x => ptr ≤ x && x < h else n + l.countP (· < h)

/-- The place of a candidate in the ready order, as one number: handlers first, by the faulting task's sequence; then
priority, class, ring and sequence (R82). -/
def readyKey (p : Part) (l : List (QEntry × Task × Graph)) (e : QEntry × Task × Graph) : Nat :=
  let ring := ringOf l e.2.1.prio e.2.2.pcls
  let place := ringPlace ring (pointerOf p e.2.1.prio e.2.2.pcls ring).1 e.2.2.handle
  packFields [(40, e.2.1.seq), (20, place), (2, 3 - e.2.2.pcls), (3, 7 - e.2.1.prio),
    (40, if e.1.handler then e.2.1.seq else 0), (1, (!e.1.handler).toNat)]

/-- The candidates in the ready order. -/
def readyOrder (s : State) (part : Fin 4) : List (QEntry × Task × Graph) :=
  let l := candidates s part
  sortBy (readyKey s.parts[part] l) l

/-- Moves the pointers of the rings: on, when the graph named holds no candidate any more or has had WGT dispatches
(R83). -/
def tidyRings (part : Fin 4) (s : State) : State :=
  let l := candidates s part
  let wgt (h : Nat) : Nat := max 1 (((s.findGraph h).map (·.wgt)).getD 1)
  let pairs := (List.range 8).flatMap fun prio => (List.range 4).map fun pcls => (prio, pcls)
  let one (p : Part) (k : Nat × Nat) : Part :=
    match ringOf l k.1 k.2 with
    | [] => p
    | ring =>
      let (h, n) := pointerOf p k.1 k.2 ring
      let r : Ring := if ring.contains h && n < wgt h then ⟨k.1, k.2, h, n⟩ else ⟨k.1, k.2, (ringAfter ring h).getD h, 0⟩
      { p with rings := r :: p.rings.filter fun q => !(q.prio == k.1 && q.pcls == k.2) }
  s.updPart part fun p => pairs.foldl one p

/-- Counts a dispatch of a graph at its ring's pointer. -/
def countDispatch (part : Fin 4) (t : Task) (g : Graph) (s : State) : State :=
  s.updPart part fun p => { p with
    rings := updWhere (fun r => r.prio == t.prio && r.pcls == g.pcls && r.graph == g.handle)
      (fun r => { r with count := r.count + 1 }) p.rings }

/-- CANDIDATE_READY: every entry becomes a candidate 20 cycles after its counter fired (R81). -/
def execCandidateReady (part : Fin 4) (s : State) : Out :=
  .next (s.updPart part fun p => { p with
    queue := updWhere (fun e => e.firedAt + 20 ≤ s.cycle) (fun e => { e with cand := true }) p.queue })

/-! ## Where a candidate fits (R85 to R89, R109, R327, R334) -/

/-- A task may be dispatched onto a logical core as its reservation stands: a handler, a task that was handed back, or a
traced task of the replay that is resumed (R109). -/
def mayUse (s : State) (part : Fin 4) (lcore : Nat) (t : Task) : Bool :=
  t.serves.isSome || handedBack s t.graph || match reservedFor s part lcore with
    | none => true
    | some h => h == t.graph && t.traced.isSome

/-- A place chosen for a task: logical core, physical core and base. -/
structure Spot where
  lcore : Nat
  pcore : CoreId
  base  : Nat
  deriving DecidableEq, Repr, Inhabited

/-- The place of a task on a logical core, if the partition has a cluster that hosts it, it is free and the task fits (R13,
R85 to R87). -/
def spotOn (s : State) (part : Fin 4) (tasks : List Nat) (t : Task) (lcore : Nat) : Option Spot :=
  let p := s.parts[part]
  let c := p.hosts lcore
  if p.map != [] && coreIdle s c && !drainHolds p c tasks && mayUse s part lcore t then (fitBase s c t).map fun b => ⟨lcore, c, b⟩
  else none

/-- The first of some that gives a value. -/
def firstSome {α β : Type} (f : α → Option β) : List α → Option β
  | [] => none
  | x :: xs =>
    match f x with
    | some y => some y
    | none => firstSome f xs

/-- Numbers below n from a start, wrapping. -/
def wrapFrom (n start : Nat) : List Nat := (List.range n).map fun i => (start + i) % n

/-- The home die of a task's counter. -/
def Task.homeDie (t : Task) : Nat := (t.ctr.getD 0) / 65536

/-- The order in which the logical cores are searched for a single task (R88). -/
def coreOrder (t : Task) : List Nat :=
  match t.hint with
  | none => wrapFrom 640 (160 * t.homeDie)
  | some h =>
    let cluster := (List.range 8).map (h / 8 * 8 + ·)
    let die := (List.range 160).map (h / 160 * 160 + ·)
    h :: cluster.filter (· != h) ++ die.filter (fun n => n / 8 != h / 8) ++
      (List.range 640).filter fun n => n / 160 != h / 160

/-- The order in which the logical clusters are searched for a team (R89). -/
def clusterOrder (t : Task) : List Nat :=
  match t.hint with
  | none => wrapFrom 80 (20 * t.homeDie)
  | some h =>
    let die := (List.range 20).map (h / 160 * 20 + ·)
    h / 8 :: die.filter (· != h / 8) ++ (List.range 80).filter fun n => n / 20 != h / 160

/-- The places of a list of tasks, one for each, if every one fits. -/
def allSome {α β : Type} (f : α → Option β) : List α → Option (List β)
  | [] => some []
  | x :: xs =>
    match f x, allSome f xs with
    | some y, some ys => some (y :: ys)
    | _, _ => none

/-- The whole physical cluster that hosts a logical one is free (R89). -/
def clusterIdle (s : State) (part : Fin 4) (cluster : Nat) : Bool :=
  (List.range 8).all fun j => coreIdle s ((s.parts[part]).hosts (8 * cluster + j))

/-- Where a team fits on a logical cluster (R89). -/
def teamSpot (s : State) (part : Fin 4) (ids : List Nat) (l : List Task) (cluster : Nat) : Option (List Spot) :=
  if clusterIdle s part cluster then allSome (fun t => spotOn s part ids t (8 * cluster + t.mpos)) l else none

/-- A handler's search skips the logical cores of the core on which its task's cut is held, and the drained cluster unless
nothing else fits (R327). -/
def handlerSpot (s : State) (part : Fin 4) (ids : List Nat) (t : Task) : Option Spot :=
  let p := s.parts[part]
  let served := t.serves.bind s.findTask
  let die := (served.map (·.lcore / 160)).getD 0
  let skip (l : Nat) : Bool := match served with
    | some u => p.hosts l == u.pcore && (s.core u.pcore).run == .held u.slot
    | none => false
  let order := (wrapFrom 640 (160 * die)).filter fun l => !skip l
  match firstSome (spotOn s part ids t) order with
  | some r => some r
  | none =>
    let s' := s.updPart part fun p => { p with drain := none }
    firstSome (spotOn s' part ids t) order

/-- The ranges that were held for a graph's ops of a logical core are free where they are to be restored (R334). -/
def savedFree (s : State) (t : Task) : Bool :=
  s.saves.all fun v => match s.findOp v.oid with
    | some o => o.graph != t.graph || o.rights.lcore != t.lcore || savePlaceFree s o v
    | none => true

/-- The place of a cut in the store: its own logical core, at the base it had, with the held ranges of its graph free; one
that is to start again may have another base (R199, R334). No drain holds a handler back (R91). -/
def resumeSpot (s : State) (part : Fin 4) (ids : List Nat) (t : Task) : Option Spot :=
  let p := s.parts[part]
  let c := p.hosts t.lcore
  if p.map != [] && coreIdle s c && (t.serves.isSome || !drainHolds p c ids) && mayUse s part t.lcore t && savedFree s t then
    if t.again = some true then (fitBase s c t).map fun b => ⟨t.lcore, c, b⟩
    else if fitsAt s c t t.base then some ⟨t.lcore, c, t.base⟩ else none
  else none

/-- Where an entry fits: a place for each of its tasks. -/
def entrySpots (s : State) (part : Fin 4) (e : QEntry) : Option (List Spot) :=
  let l := e.tasks.filterMap s.findTask
  match l with
  | [] => none
  | t :: _ =>
    if e.resume then
      if 1 < l.length && !clusterIdle s part (t.lcore / 8) then none else allSome (resumeSpot s part e.tasks) l
    else if e.handler then (handlerSpot s part e.tasks t).map ([·])
    else if 1 < t.tsize then firstSome (teamSpot s part e.tasks l) (clusterOrder t)
    else (firstSome (spotOn s part e.tasks t) (coreOrder t)).map ([·])

/-! ## The dispatch (R93, R101) -/

/-- What the recorder logs of a dispatch: CHD holds OSEQ0–OSEQ7 as the task reads them, 0 for a channel that CHUSE does not
name, and then which channels it names, until the recording is stored (R95, R101). -/
def recordEntry (s : State) (g : Graph) (t : Task) (sp : Spot) : Trace where
  lcore := sp.lcore
  seq := t.seq
  prio := t.prio
  mpos := t.mpos
  tsize := t.tsize
  sbase := sp.base / 256
  start := graphCycle s g
  guards := []
  chd := (List.range 8).map (fun n => if t.chuse.getLsbD n then (oseqNow s t sp.lcore).getD n 0 else 0) ++
    (List.range 8).map fun n => (t.chuse.getLsbD n).toNat
  meas := ⟨0, 0, 0, 0, false⟩

/-- Logs the dispatch of a task of a recording (R101). -/
def logDispatch (t : Task) (sp : Spot) (s : State) : State :=
  match s.findGraph t.graph with
  | none => s
  | some g =>
    match g.mode with
    | .recording _ =>
      let e := recordEntry s g t sp
      (s.updGraph g.handle fun g => { g with log := g.log ++ [e] }).updTask t.slot fun t => { t with
        logIdx := some (g.log.countP (·.lcore == sp.lcore)) }
    | _ => s

/-- Puts a task on a core: from the next cycle on it counts as running (R93). -/
def placeTask (t : Task) (sp : Spot) (s : State) : State :=
  let fresh := t.st == .ready
  let s := if fresh && t.serves.isNone && t.traced.isNone then logDispatch t sp s else s
  let o := oseqNow s t sp.lcore
  let s := s.setCore sp.pcore { s.core sp.pcore with run := .starting t.slot s.cycle }
  s.updTask t.slot fun t => { t with
    lcore := sp.lcore, pcore := sp.pcore, base := sp.base, slotAt := s.cycle
    st := if fresh then .running else t.st
    oseqAt := if fresh || t.again == some true then o else t.oseqAt }

/-- Dispatches an entry onto its places: it leaves the queue, and a drain for it ends (R91). -/
def dispatchEntry (part : Fin 4) (e : QEntry) (l : List Spot) (s : State) : State :=
  let s := ((e.tasks.filterMap s.findTask).zip l).foldl (fun s p => placeTask p.1 p.2 s) s
  s.updPart part fun p => Part.tidyDrain { p with queue := p.queue.filter (·.tasks != e.tasks) }

/-- The physical cluster with the most cores free for dispatch; the lowest of equals (R91). -/
def drainCluster (s : State) (part : Fin 4) : Option Nat :=
  let free (k : Nat) : Nat := (List.range 8).countP fun j => coreIdle s (coreOfNat (8 * k + j))
  leastBy (fun k => 8 - free k) (s.parts[part]).map

/-- The entry for which a drain starts when none is held: the one that reached AGE in the last slot, or the head when it
reached AGE while another drain was held (R91). -/
def drainFor (p : Part) (head : QEntry) : Option (List Nat) :=
  if p.drain.isSome then none
  else
    match p.due with
    | some l => if p.queue.any (·.tasks == l) then some l else if p.age ≤ head.pass then some head.tasks else none
    | none => if p.age ≤ head.pass then some head.tasks else none

/-- A drain starts for an entry that has reached AGE in an earlier slot, when none is held (R91). -/
def startDrain (part : Fin 4) (head : QEntry) (s : State) : State :=
  let s' := s.updPart part fun p => { p with due := none }
  match drainFor s.parts[part] head, drainCluster s part with
  | some l, some k => s'.updPart part fun p => { p with drain := some (k, l), ndrain := p.ndrain + 1 }
  | _, _ => s'

/-- The head was passed over: its count rises, up to AGE; when it reaches AGE with no drain held, one is due (R90, R91). -/
def passHead (part : Fin 4) (head : QEntry) (s : State) : State :=
  let bump (e : QEntry) : QEntry := { e with pass := e.pass + 1 }
  s.updPart part fun p => { p with
    due := if p.drain.isNone && head.pass + 1 == p.age then some head.tasks else p.due
    queue := updWhere (fun e => e.tasks == head.tasks && e.pass < p.age) bump p.queue }

/-- The first of some candidates that fits. -/
def firstFit (s : State) (part : Fin 4) : List (QEntry × Task × Graph) →
    Option ((QEntry × Task × Graph) × List Spot)
  | [] => none
  | e :: es =>
    match entrySpots s part e.1 with
    | some l => some (e, l)
    | none => firstFit s part es

/-- One dispatch slot of a partition (R84, R90, R91). -/
def slotTurn (part : Fin 4) (s : State) : State :=
  let s := tidyRings part s
  match readyOrder s part with
  | [] => s
  | head :: rest =>
    let s := startDrain part head.1 s
    match firstFit s part ((head :: rest).take 64) with
    | none => s
    | some (e, l) =>
      let s := if e.1.tasks == head.1.tasks then s else passHead part head.1 s
      tidyRings part (dispatchEntry part e.1 l (countDispatch part e.2.1 e.2.2 s))

/-- DISPATCH_SLOT: a slot opens in every even cycle, but for those after a microcode update (R84, R359). -/
def execDispatchSlot (part : Fin 4) (s : State) : Out :=
  if slotOpens s && (s.parts[part]).used then .next (slotTurn part s) else .next s

/-! ## STREAMS_START (R93 to R96) -/

/-- The streams of a task at its start: each at its image, one with no image has executed END (R26, R94). -/
def startStreams (t : Task) : Vector StreamSt 4 :=
  Vector.ofFn fun i =>
    let m := t.images.getD i.val (0, 0)
    { StreamSt.reset with pc := m.1, image := m.1, lines := m.2, ended := m.2 == 0 }

/-- Ridge has asked the task to yield, by a pre-emption or an eviction under way (R331). -/
def preqNow (s : State) (t : Task) : Bool :=
  s.evict.any (·.1 == t.pcore) || match s.findGraph t.graph with
    | some g => (match g.pre with
      | .preempting _ => true
      | _ => false)
    | none => false

/-- The start state of a task (R94, R95, R328). -/
def startCtx (s : State) (t : Task) : Ctx :=
  let base := BitVec.ofNat 64 t.base
  let g := s.findGraph t.graph
  let served := t.serves.bind s.findTask
  let gs : Vector W64 32 := ((((Vector.replicate 32 0).set 1 t.args).set 2 (BitVec.ofNat 64 t.handle)).set 3
    (BitVec.ofNat 64 t.lcore)).set 4 base
  let gs := match served with
    | some u => (gs.set 5 (BitVec.ofNat 64 u.handle)).set 6 (BitVec.ofNat 64 (2 ^ 56) + base)
    | none => gs
  let a : Vector W64 16 := ((Vector.replicate 16 0).set 15 t.args).set 14 base
  let os : Vector (BitVec 40) 8 := Vector.ofFn fun n =>
    if t.chuse.getLsbD n.val then BitVec.ofNat 40 (t.oseqAt.getD n.val 0) else 0
  let flags := packFields [(1, (preqNow s t).toNat), (1, t.traced.isSome.toNat), (1, t.serves.isSome.toNat), (1, t.retry.toNat)]
  { Ctx.reset with
    g := gs, aL := a, aS := a, str := startStreams t, tstat := BitVec.ofNat 4 flags, task := BitVec.ofNat 32 t.handle
    graph := BitVec.ofNat 32 t.graph, tseq := BitVec.ofNat 40 t.seq, lcore := BitVec.ofNat 10 t.lcore, oseq := os
    chuse := t.chuse, base := t.base, size := t.size, fab := (g.map (·.fab)).getD false
    priv := (g.map (·.priv)).getD false, reloc := t.reloc, mathEnd := (t.images.getD 2 (0, 0)).2 == 0 }

/-- The 64 bytes of a fault record (R326). -/
def faultRecord (handle : Nat) (f : FaultInfo) : List Byte :=
  toBytes 64 (packFields
    [(8, f.code), (2, f.stream.idx.val), (2, f.src), (20, 0), (1, f.lost.toNat), (1, f.stale.toNat), (1, f.walk.toNat),
      (1, f.skip.toNat), (1, f.late.toNat), (27, 0), (64, f.pc.toNat), (32, f.word.toNat), (32, f.w2.toNat),
      (64, f.addr.toNat), (64, f.optok.toNat), (32, handle), (12, f.widx), (20, 0), (48, f.course), (80, 0)])

/-- A handler's range holds the fault record of its task (R328). -/
def writeRecord (t : Task) (s : State) : State :=
  match t.serves.bind s.findTask with
  | some u =>
    match u.fault with
    | some f => s.store (spadKey t.pcore.val t.base) (faultRecord u.handle f)
    | none => s
  | none => s

/-- A task starts from its start state (R94, R96). -/
def startFresh (t : Task) (s : State) : State :=
  let s := if needsClear s t then clearSpad t.pcore s else s
  let x := startCtx s t
  let s := s.setCore t.pcore { s.core t.pcore with run := .running t.slot, ctx := x }
  let s := writeRecord t s
  s.updTask t.slot fun t => { t with st := .running, started := s.cycle, again := none, fault := none, forced := false }

/-- A resumed task's instruction that TRES resume skips counts as complete (R322). -/
def skipFaulted (t : Task) (x : Ctx) : Ctx :=
  match t.fault with
  | some f =>
    if f.skip && f.src == 0 then advance x f.stream (if isLong f.stream f.word.toNat then 2 else 1) .seq else x
  | none => x

/-- What a resume changes in a task's registers: a STRICT frame goes on as ELASTIC, PREQ is clear, and an instruction that
is skipped is behind it (R159, R322, R334). -/
def resumeCtx (s : State) (t : Task) (x : Ctx) : Ctx :=
  let x := if x.frmode = 2 then { x with frmode := 1, resumed := true } else x
  let keep : BitVec 4 := x.tstat &&& 0b1110
  let x := { x with tstat := if preqNow s t then keep ||| 1 else keep }
  let x := { x with str := x.str.map fun q => { q with miss := none, missCode := 0, issuedAt := none } }
  skipFaulted t x

/-- A fault that an attached RRED or COLL met while its task was cut is raised as the task runs again, before any stream
issues (R323). -/
def raiseLate (t : Task) (s : State) : State :=
  match t.lateFault with
  | none => s
  | some f =>
    (s.setCore t.pcore { s.core t.pcore with run := .cutting t.slot (s.cycle - 1) }).updTask t.slot
      fun t => { t with fault := some { f with course := s.course, at_ := s.cycle }, lateFault := none }

/-- A cut goes on: its streams from their cut, its ops from their cursors (R325, R329, R334). -/
def startResumed (t : Task) (s : State) : State :=
  if t.fault.any (·.walk) then resumeWalk t s
  else
  let s := s.setCore t.pcore { s.core t.pcore with run := .running t.slot, ctx := resumeCtx s t (s.ctx t.pcore) }
  let s := s.updTask t.slot fun t => { t with st := .running, again := none, fault := none, forced := false }
  raiseLate t (resumeWhere (fun o => o.owner == some t.slot) s)

/-- The tasks whose streams start with those of a task: itself, or the members of its team that its slot dispatched. -/
def startMates (s : State) (t : Task) (at_ : Nat) : List Task :=
  if t.serves.isSome then [t]
  else (teamOf s t).filter fun u => (s.core u.pcore).run == .starting u.slot at_

/-- A task's streams may start: its slot was 32 cycles ago, its image is restored, and nothing of an ended task is still
read on its core (R93, R284). -/
def startReady (s : State) (at_ : Nat) (u : Task) : Bool :=
  at_ + 32 ≤ s.cycle && u.image.isNone && !((u.st != .cutHeld || u.again == some true) && zstReads s u.pcore)

/-- STREAMS_START: all streams of a task, or of a whole team, start in one cycle (R40, R93). -/
def execStreamsStart (c : CoreId) (s : State) : Out :=
  match (s.core c).run with
  | .starting slot at_ =>
    match s.findTask slot with
    | none => .next (s.setCore c { s.core c with run := .idle })
    | some t =>
      let l := startMates s t at_
      if l.all (startReady s at_) then
        .next (l.foldl (fun s u =>
          if u.st = .running || u.again = some true then startFresh u s else startResumed u s) s)
      else .next s
  | _ => .next s

end Sys2Proof.Machine
end

