-- ==== Sys2Proof/Machine/Yelms.lean ====
section
/-! DEFINITION. Yelms: traced starts (R108, R23), the STALL guard (R111), gang agreement (R115), the recording and the
measurements at retirement (R102, R117), the refinement pass (R365), and the yelm store (R104 to R106, R118, R119). -/

namespace Sys2Proof.Machine

open Sys2Proof

/-! ## Traced starts (R108) -/

/-- A traced entry with what its start needs: the task, its place in the trace and its spot. -/
structure TracedTask where
  task  : Task
  idx   : Nat
  entry : Trace
  spot  : Spot
  deriving Inhabited

/-- The task of an entry whose counter has fired 20 cycles ago (R108 condition 2). -/
def firedTask (s : State) (g : Graph) (e : Trace) : Option Task :=
  (g.firedAt.find? fun f => f.2 + 20 ≤ s.cycle && match s.findTask f.1 with
    | some t => t.seq == e.seq && t.st == .ready
    | none => false).bind fun f => s.findTask f.1

/-- The entry at the trace pointer of a logical core, when the task before it has reached TEND step 3 (condition 1), its
own counter has fired, its START has come (condition 3), and its core is free (condition 4). -/
def tracedReady (s : State) (part : Fin 4) (g : Graph) (y : Yelm) (lcore : Nat) : Option TracedTask :=
  let i := lookupNat g.trace lcore
  match (coreTrace y lcore)[i]? with
  | none => none
  | some e =>
    let c := (s.parts[part]).hosts lcore
    let prev := i = 0 || g.meas.any fun m => m.1 == lcore && m.2.1 + 1 == i
    match firedTask s g e with
    | none => none
    | some t =>
      if prev && e.start ≤ graphCycle s g && (s.parts[part]).map != [] && coreIdle s c && !drainHolds s.parts[part] c [t.slot] &&
          fitsAt s c t (256 * e.sbase) then some ⟨t, i, e, ⟨lcore, c, 256 * e.sbase⟩⟩
      else none

/-- What starts with the entry at the trace pointer of a logical core: it alone, or its whole team from position 0. -/
def tracedGroup (s : State) (part : Fin 4) (g : Graph) (y : Yelm) (lcore : Nat) : Option (List TracedTask) :=
  match tracedReady s part g y lcore with
  | none => none
  | some r =>
    if r.entry.tsize ≤ 1 then some [r]
    else if r.entry.mpos ≠ 0 || !clusterIdle s part (lcore / 8) then none
    else
      let mate (p : Nat) : Option TracedTask :=
        match tracedReady s part g y (lcore / 8 * 8 + p) with
        | some q => if q.entry.mpos = p ∧ q.entry.tsize = r.entry.tsize ∧ q.task.team = r.task.team then some q else none
        | none => none
      allSome mate (List.range r.entry.tsize)

/-- The engine-health guard fails (R23). -/
def healthFails (p : Part) (y : Yelm) : Bool := y.strict && (!p.oneToOne || p.mapGen != y.mapgen)

/-- Starts a traced task: its slot is this cycle (R108). -/
def startTraced (s : State) (r : TracedTask) : State :=
  let h := r.task.graph
  let x : Int := s.cycle
  let s := s.updTask r.task.slot fun t => { t with traced := some r.idx }
  let s := match s.findTask r.task.slot, s.findGraph h with
    | some t, some g =>
      let slip := x - (g.frame0.getD 0 : Nat) - (r.entry.start : Nat)
      (placeTask t r.spot s).updTask t.slot fun t => { t with slip := slip }
    | _, _ => s
  let hd := match r.task.ctr with
    | some k => (counterAt s k).handle
    | none => 0
  s.updGraph h fun g => { g with
    trace := assignNat g.trace r.spot.lcore (r.idx + 1)
    ctrs := g.ctrs ++ [(hd, r.spot.lcore, r.idx)]
    firedAt := g.firedAt.filter (·.1 != r.task.slot) }

/-- A replay that has an entry to start on a logical core, with what would start. DESIGN CHOICE: two replays that both have
unstarted entries there both have it reserved; R108 has no such condition, and either starts its own traced entry there, the
graph launched first of those that are ready (notes/assumptions/131.md). -/
def tracedFor (s : State) (part : Fin 4) (lcore : Nat) : Option (Graph × Yelm × List TracedTask) :=
  firstSome (fun g =>
    if g.part == part.val && graphRuns s g.handle && g.frame0.isSome then
      match replayYelm s g with
      | some y => (tracedGroup s part g y lcore).map fun l => (g, y, l)
      | none => none
    else none) s.graphs

/-- TRACED_START: in an even cycle a traced entry starts, unless the engine-health guard fails for it (R108, R112). -/
def execTracedStart (lcore : Fin 640) (part : Fin 4) (s : State) : Out :=
  if s.cycle % 2 ≠ 0 then .next s
  else
    match tracedFor s part lcore.val with
    | none => .next s
    | some (g, y, l) =>
      if healthFails s.parts[part] y then
        .next (guardFail g.handle 2 0 lcore.val ((l.head?.map (·.entry.seq)).getD 0) 0 0 s)
      else .next (l.foldl startTraced s)

/-! ## The STALL guard (R111) -/

/-- A replay makes no progress: entries are left, and no task of the graph runs, is ready, is cut or is served, and no op is
live. -/
def stalledNow (s : State) (g : Graph) : Bool :=
  match replayYelm s g with
  | none => false
  | some y =>
    (g.trace.map (·.2)).sum < y.traces.length && g.pre == .running &&
    (s.tasks.all fun t => t.graph != g.handle || t.st == .bound) &&
    !s.ops.any fun o => o.graph == g.handle && o.status.isLive

/-- GUARD_STALL: the guard is tested in every cycle, and fails after 65,536 in a row. -/
def execGuardStall (g : Nat) (s : State) : Out :=
  match s.findGraph g with
  | none => .next s
  | some q =>
    if stalledNow s q then
      let s := s.updGraph g fun q => { q with idle := q.idle + 1 }
      .next (if 65536 ≤ q.idle + 1 then guardFail g 4 0 0 0 0 0 s else s)
    else .next (s.updGraph g fun q => { q with idle := 0 })

/-! ## The store (R118) -/

/-- The held revisions of a hash. -/
def heldOf (p : Part) (hash : Nat) : List Yelm := p.yelms.filter fun y => y.st == .held && y.hash == hash

/-- The revision a number names: 0xFF the newest (R76, R119). -/
def pickRev (l : List Yelm) (rev : Nat) : Option Yelm :=
  if rev = 255 then leastBy (fun y => 255 - y.rev) l else l.find? (·.rev == rev)

/-- The images of the store: 256, or fewer with fewer than seven usable stacks (R118, R363). -/
def storeLimit (s : State) : Nat :=
  let n := (List.range 12).countP fun k => !s.stackRetired k
  if 7 ≤ n then 256 else min 256 (Config.yelmRoom n)

/-- Bytes at an address that must be a device virtual one lie in that space (R28, R73, R75, R119). -/
def inDva (va n : Nat) : Bool := va + n ≤ 2 ^ 43

/-- The store has a free image (R118). -/
def storeRoom (s : State) (p : Part) : Bool := p.yelms.length < storeLimit s

/-- Stores a revision: that of the same number and the one two below go, and at most two of a hash are held (R118). DESIGN
CHOICE: where a third would be held besides, the lowest goes (notes/assumptions/98.md). -/
def storeRev (y : Yelm) (l : List Yelm) : List Yelm :=
  let l := displace (fun z => z.hash == y.hash && (z.rev == y.rev || z.rev + 2 == y.rev)) l
  let others := l.filter fun z => z.st == .held && z.hash == y.hash
  let l := if 2 ≤ others.length then
      match leastBy (·.rev) others with
      | some z => displace (fun w => w.id == z.id) l
      | none => l
    else l
  l ++ [y]

/-! ## The image (R104 to R106) -/

/-- Bytes of a part of an image: each part starts on a 64-byte boundary. -/
def partBytes (n : Nat) : Nat := roundUp 64 n

/-- Guard values of an image, counted: for an imported one, what its header says. -/
def guardCount (y : Yelm) : Nat :=
  match y.area with
  | some a => a.1
  | none => (y.traces.map (·.guards.length)).sum

/-- Bytes of the directory, the traces, the guard values and the copy order of an image. -/
def areaSize (y : Yelm) : Nat :=
  match y.area with
  | some a => a.2.length
  | none => 10240 + 64 * y.traces.length + partBytes (8 * guardCount y) + partBytes (8 * y.copies.length)

/-- The size of an image in bytes. -/
def imageSize (y : Yelm) : Nat := 256 + areaSize y + partBytes (16 * y.traces.length)

/-- Bytes padded with zeros to a 64-byte boundary. -/
def padPart (l : List Byte) : List Byte := l ++ List.replicate (partBytes l.length - l.length) 0

/-- The header (R105). -/
def headerBytes (y : Yelm) : List Byte :=
  toBytes 256 (packFields
    [(128, y.hash), (8, y.rev), (20, y.nrank), (20, y.srank), (1, y.strict.toNat), (1, y.frozen.toNat), (14, 0),
      (32, y.mapgen), (32, y.traces.length), (48, y.span), (16, 0), (32, guardCount y), (32, y.copies.length),
      (32, y.nrepl), (32, imageSize y / 64), (1600, 0)])

/-- The directory: for each logical core its first entry and their number, of the traces and of the copy order (R105). DESIGN
CHOICE: for a core with no entries TOFF and COFF are the index at which its first one would stand (notes/assumptions/130.md). -/
def directoryBytes (y : Yelm) : Nat → Nat → Nat → Nat → List Byte
  | 0, _, _, _ => []
  | k + 1, lcore, toff, coff =>
    let n := y.traces.countP (·.lcore == lcore)
    let m := y.copies.countP (·.lcore == lcore)
    toBytes 16 (packFields [(32, toff), (32, n), (32, coff), (32, m)]) ++ directoryBytes y k (lcore + 1) (toff + n) (coff + m)

/-- The trace area (R106). DESIGN CHOICE: GOFF of a task with no values is the index at which its first one would stand
(notes/assumptions/130.md). -/
def traceBytes : List Trace → Nat → List Byte
  | [], _ => []
  | e :: r, goff =>
    toBytes 64 (packFields ([(40, e.seq), (3, e.prio), (3, e.mpos), (4, e.tsize), (13, e.sbase), (1, 0), (48, e.start),
      (5, e.guards.length), (11, 0), (32, goff), (96, 0)] ++ e.chd.map fun v => (32, v))) ++
    traceBytes r (goff + e.guards.length)

/-- A measurement entry (R106). -/
def measBytes (m : Meas) : List Byte :=
  toBytes 16 (packFields [(32, wrapNat 32 m.slip), (32, m.dur), (32, m.stall), (16, m.miss), (1, m.copyX.toNat), (15, 0)])

/-- The directory, the traces, the guard values and the copy order of an image; those of an imported one stay as they were
(R104, R119). -/
def areaBytes (y : Yelm) : List Byte :=
  match y.area with
  | some a => a.2
  | none =>
    directoryBytes y 640 0 0 0 ++ traceBytes y.traces 0 ++
    padPart ((y.traces.flatMap (·.guards)).flatMap fun g => toBytes 8 g.toNat) ++
    padPart (y.copies.flatMap fun c => toBytes 8 (packFields [(32, c.ord), (2, c.ch), (22, c.tidx), (8, 0)]))

/-- The whole image (R104). -/
def imageBytes (y : Yelm) : List Byte :=
  headerBytes y ++ areaBytes y ++ padPart (y.traces.flatMap fun e => measBytes e.meas)

/-- The logical core of each entry of an area, from the directory's numbers. -/
def coresOf (d : List (Nat × Nat × Nat × Nat)) (f : Nat × Nat × Nat × Nat → Nat) : List Nat :=
  (d.zip (List.range 640)).flatMap fun p => List.replicate (f p.1) p.2

/-- The directory entries add up: each area of a core that has entries there starts where the one before it ends (R105). -/
def dirOk : List (Nat × Nat × Nat × Nat) → Nat → Nat → Option (Nat × Nat)
  | [], t, c => some (t, c)
  | (toff, n, coff, m) :: r, t, c =>
    if (n = 0 ∨ toff = t) ∧ (m = 0 ∨ coff = c) then dirOk r (t + n) (c + m) else none

/-- A trace entry, its measurements and its guard values. -/
def traceOfBytes (lcore w : Nat) (guards : List W64) (m : Nat) : Trace where
  lcore := lcore
  seq := bitsOf w 0 40
  prio := bitsOf w 40 3
  mpos := bitsOf w 43 3
  tsize := bitsOf w 46 4
  sbase := bitsOf w 50 13
  start := bitsOf w 64 48
  guards := guards
  chd := (List.range 8).map fun n => bitsOf w (256 + 32 * n) 32
  meas := ⟨signedOf 32 m, bitsOf m 32 32, bitsOf m 64 32, bitsOf m 96 16, bitOf m 112⟩

/-- A reserved field of a trace entry or of its measurements is not zero (R119). -/
def traceBad (w m : Nat) : Bool :=
  bitOf w 63 || bitsOf w 117 11 != 0 || bitsOf w 160 96 != 0 || bitsOf m 113 15 != 0

/-- Reads the trace entries of an image in order, each with its values of the guard area; a place past that area's end reads
as zero. -/
def tracesOf (bytes guards meas : List Byte) : List Nat → Nat → Option (List Trace)
  | [], _ => some []
  | c :: cs, i =>
    let w := ofBytes ((bytes.drop (64 * i)).take 64)
    let m := ofBytes ((meas.drop (16 * i)).take 16)
    let n := bitsOf w 112 5
    if traceBad w m then none
    else
      let gs := (List.range n).map fun k => BitVec.ofNat 64 (ofBytes ((guards.drop (8 * (bitsOf w 128 32 + k))).take 8))
      (tracesOf bytes guards meas cs (i + 1)).map fun r => traceOfBytes c w gs m :: r

/-- Reads the copy-order entries of an image. -/
def copiesOf (bytes : List Byte) : List Nat → Nat → Option (List CopyOrd)
  | [], _ => some []
  | c :: cs, i =>
    let w := ofBytes ((bytes.drop (8 * i)).take 8)
    if bitsOf w 56 8 != 0 then none
    else (copiesOf bytes cs (i + 1)).map fun r => ⟨c, bitsOf w 0 32, bitsOf w 32 2, bitsOf w 34 22⟩ :: r

/-- Reads an image: none when its header or directory is inconsistent, or a reserved field is not zero (R119). DESIGN CHOICE:
what is inconsistent is REV 255, a SIZE that is not the sum of the parts, and a directory that does not add up to NTASK and
NCOPY; a header with NRANK 0, SRANK at or above NRANK or HASH 0, and a copy-order entry with TIDX at or above NENT, is taken as
it stands (notes/assumptions/99.md). -/
def yelmOfBytes (id : Nat) (bs : List Byte) : Option Yelm :=
  let h := ofBytes (bs.take 256)
  let n := bitsOf h 224 32
  let ng := bitsOf h 320 32
  let nc := bitsOf h 352 32
  let dir := (List.range 640).map fun k =>
    let d := ofBytes ((bs.drop (256 + 16 * k)).take 16)
    (bitsOf d 0 32, bitsOf d 32 32, bitsOf d 64 32, bitsOf d 96 32)
  let tAt := 10496
  let gAt := tAt + 64 * n
  let cAt := gAt + partBytes (8 * ng)
  let mAt := cAt + partBytes (8 * nc)
  if bitsOf h 178 14 != 0 || bitsOf h 304 16 != 0 || bitsOf h 448 1600 != 0 || bitsOf h 128 8 == 255 ||
      64 * bitsOf h 416 32 != mAt + partBytes (16 * n) || dirOk dir 0 0 != some (n, nc) then none
  else
    match tracesOf (bs.drop tAt) ((bs.drop gAt).take (8 * ng)) (bs.drop mAt) (coresOf dir (·.2.1)) 0,
        copiesOf (bs.drop cAt) (coresOf dir (·.2.2.2)) 0 with
    | some ts, some cs => some
        { id := id, hash := bitsOf h 0 128, rev := bitsOf h 128 8, nrank := bitsOf h 136 20, srank := bitsOf h 156 20,
          strict := bitOf h 176, frozen := bitOf h 177, mapgen := bitsOf h 192 32, span := bitsOf h 256 48,
          nrepl := bitsOf h 384 32, traces := ts, copies := cs, area := some (ng, (bs.take mAt).drop 256), st := .held, users := 0 }
    | _, _ => none

/-! ## The store's commands (R119) -/

/-- The results of a command. -/
def yDone : Nat := 0
def yNotHeld : Nat := 1
def yFull : Nat := 2
def yBadImage : Nat := 3
def yPageFault : Nat := 4
def yInUse : Nat := 5

/-- A command is written: ignored while one runs; BUSY is set, and the result is in RES when it clears. -/
def yelmCommand (part : Fin 4) (f : State → State × Nat) (s : State) : State :=
  if (s.parts[part]).yregs.busy || !partReady s part then s
  else
    let r := f s
    r.1.updPart part fun p => { p with yregs := { p.yregs with busy := true, res := r.2 } }

/-- The hash that YHASH names. -/
def yHash (s : State) (part : Fin 4) : Nat := (s.parts[part]).yregs.hash.toNat

/-- The rights through which a command reads and writes at YADDR. -/
def yRights (s : State) (port : Fin 2) (part : Fin 4) (ctx : Fin 64) : Rights :=
  contextRights part.val port.val ctx.val (s.ports[port].ctx[ctx]).ptroot

/-- YELM_EXPORT: the revision, whole, to YADDR. -/
def execYelmExport (port : Fin 2) (part : Fin 4) (ctx : Fin 64) (rev : Byte) (s : State) : Out :=
  .next (yelmCommand part (fun s =>
    match pickRev (heldOf s.parts[part] (yHash s part)) rev.toNat with
    | none => (s, yNotHeld)
    | some y =>
      let at_ := (s.parts[part]).yregs.addr.toNat
      if !inDva at_ (imageSize y) then (s, yPageFault)
      else
        match ridgeWrite (portCore port) (yRights s port part ctx) at_ (imageBytes y) s with
        | (s, none) => (s, yDone)
        | (s, some _) => (s, yPageFault)) s)

/-- Stores an imported image: IN_USE while that revision is held with users, FULL without a free image. -/
def importYelm (part : Fin 4) (y : Yelm) (s : State) : State × Nat :=
  let p := s.parts[part]
  if (heldOf p y.hash).any fun z => z.rev == y.rev && z.users != 0 then (s, yInUse)
  else if !storeRoom s p then (s, yFull)
  else ({ onYelms part (storeRev y) s with nextOid := s.nextOid + 1 }, yDone)

/-- YELM_IMPORT: an image from YADDR becomes the revision its header names. -/
def execYelmImport (port : Fin 2) (part : Fin 4) (ctx : Fin 64) (s : State) : Out :=
  .next (yelmCommand part (fun s =>
    let r := yRights s port part ctx
    let c := portCore port
    let at_ := (s.parts[part]).yregs.addr.toNat
    if !inDva at_ 256 then (s, yPageFault)
    else
    match readVa s c r at_ 256 with
    | (s, .error _) => (s, yPageFault)
    | (s, .ok hd) =>
      let size := bitsOf (ofBytes hd) 416 32
      if 2 ^ 20 < size then (s, yBadImage)
      else if !inDva at_ (64 * size) then (s, yPageFault)
      else
        match readVa s c r at_ (64 * size) with
        | (s, .error _) => (s, yPageFault)
        | (s, .ok bs) =>
          match yelmOfBytes s.nextOid bs with
          | none => (s, yBadImage)
          | some y => importYelm part y s) s)

/-- YELM_DELETE: the named revisions are discarded; 0xFF names all. -/
def execYelmDelete (_port : Fin 2) (part : Fin 4) (rev : Byte) (s : State) : Out :=
  .next (yelmCommand part (fun s =>
    let hash := yHash s part
    let hit (y : Yelm) : Bool := y.hash == hash && (rev == 255 || y.rev == rev.toNat)
    if (heldOf s.parts[part] hash).any hit then (onYelms part (displace hit) s, yDone) else (s, yNotHeld)) s)

/-- FROZEN of every held revision of YHASH. -/
def setFrozen (part : Fin 4) (b : Bool) (s : State) : State × Nat :=
  let hash := yHash s part
  if (heldOf s.parts[part] hash).isEmpty then (s, yNotHeld)
  else (onYelms part (updWhere (fun y => y.st == .held && y.hash == hash) fun y => { y with frozen := b }) s, yDone)

/-- YELM_FREEZE. -/
def execYelmFreeze (_port : Fin 2) (part : Fin 4) (s : State) : Out := .next (yelmCommand part (setFrozen part true) s)

/-- YELM_THAW. -/
def execYelmThaw (_port : Fin 2) (part : Fin 4) (s : State) : Out := .next (yelmCommand part (setFrozen part false) s)

/-- YELM_COMMAND_DONE: BUSY clears. -/
def execYelmCommandDone (part : Fin 4) (s : State) : Out :=
  .next (s.updPart part fun p => { p with yregs := { p.yregs with busy := false } })

/-! ## Gang agreement (R115) -/

/-- The frame of a graph begins with a course, also when that course has begun. -/
def frameAtCourse (s : State) (course : Nat) (g : Graph) : Graph :=
  if s.course < course then { g with frameAt := some course }
  else { g with frame0 := some (s.fabric.began - (s.course - course) * Config.courseCycles), frameAt := none }

/-- The graph runs dynamically and unrecorded: its tasks that have fired enter the ready queue, and it uses no image any
more. -/
def runDynamic (g : Graph) (s : State) : State :=
  let s := s.updGraph g.handle fun g => { g with mode := .dynamic, yid := 0 }
  enqueueFired g.handle (onYelms (Fin.ofNat 4 g.part) (leaveYelm g.yid) s)

/-- The replay takes the revision that was agreed. -/
def takeRev (g : Graph) (y : Yelm) (s : State) : State :=
  let part := Fin.ofNat 4 g.part
  let use (l : List Yelm) : List Yelm :=
    leaveYelm g.yid (updWhere (·.id == y.id) (fun y => { y with users := y.users + 1 }) l)
  onYelms part use (s.updGraph g.handle fun g => { g with mode := .replay y.rev, yid := y.id })

/-- The limit of a gang's agreement has passed: 32 rounds of 32 courses after the member joined (R115). -/
def gangLate (s : State) (joined : Nat) : Bool := joined + 1024 ≤ s.course

/-- The members of a graph's gang: those of the image it joined with. -/
def gangSize (s : State) (g : Graph) : Nat :=
  (((s.parts[Fin.ofNat 4 g.part]).yelms.find? (·.id == g.yid)).map (·.nrank)).getD 0

/-- What the two barriers of a graph's agreement have given, once both are complete (R115). -/
def gangGave (s : State) (g : Graph) : Option (Nat × Nat × Bool) :=
  if gangSize s g = 0 then none else gangGives s g.part g.hash g.gang (gangSize s g)

/-- The second barrier begins at a member when its first is complete: it says whether it holds the revision of the first
(R115). -/
def gangSecond (g : Graph) (s : State) : State :=
  let n := gangSize s g
  let own := (s.parts[Fin.ofNat 4 g.part]).ownrank
  if g.joined.isNone || n = 0 || (gangSaid s g.part g.hash g.gang true).any (·.rank == own) then s
  else
    match gangFirst s g.part g.hash g.gang n with
    | none => s
    | some (rev, join) =>
      let held := (heldOf s.parts[Fin.ofNat 4 g.part] g.hash).any (·.rev == rev)
      sendGang g.part ⟨g.hash, n, g.gang, own, true, rev, join, held⟩ s

/-- The second barriers of the members on this device. -/
def gangSeconds (s : State) : State := s.graphs.foldl (fun s g => gangSecond g s) s

/-- An agreement is over at a member: what was proposed in it goes. -/
def closeGang (g : Graph) (s : State) : State :=
  { s with fabric := { s.fabric with gangs := s.fabric.gangs.filter fun e =>
      !(e.1 == g.part && e.2.hash == g.hash && e.2.index == g.gang) } }

/-- The member goes on as its gang has agreed: on its own image of the revision, or dynamically (R115). A replay that was
handed back before stays so (R112). -/
def gangOutcome (g : Graph) (rev : Nat) (held : Bool) (s : State) : State :=
  match g.mode, (s.parts[Fin.ofNat 4 g.part]).yelms.find? (·.id == g.yid) with
  | .replay _, some y =>
    let mine := (heldOf s.parts[Fin.ofNat 4 g.part] g.hash).find? (·.rev == rev)
    if !held then runDynamic g s
    else
      match mine with
      | some m => takeRev g m s
      | none => if y.rev == rev then s else runDynamic g s
  | .replay _, none => runDynamic g s
  | _, _ => s

/-- GANG_AGREEMENT: the two barriers have given the least revision proposed and the last course of joining, and whether
every member holds that revision; or 32 rounds have passed and they are not complete (R115). What the barriers have not given,
and an untimely end before the limit, changes nothing. -/
def execGangAgreement (g : Nat) (rev : Nat) (join : Nat) (held : Bool) (timely : Bool) (s : State) : Out :=
  match s.findGraph g with
  | none => .next s
  | some q =>
    match q.joined with
    | none => .next s
    | some joined =>
      let late := gangLate s joined
      let left := closeGang q (s.updGraph g fun q => { q with joined := none })
      if timely && !late && gangGave s q == some (rev, join, held) then
        .next ((gangOutcome q rev held left).updGraph g (frameAtCourse s (join + 4)))
      else if !timely && late then
        .next ((gangOutcome q rev false left).updGraph g (frameAtCourse s (s.course + 1)))
      else .next s

/-! ## What retirement does with yelms (R102, R117) -/

/-- The CHD fields of an entry: OSEQ at its start less OSEQ at the start of its core's first traced task, for the channels
that CHUSE names (R106). -/
def chdOf (first e : Trace) : List Nat :=
  (List.range 8).map fun n =>
    if e.chd.getD (8 + n) 0 = 0 then 0 else (e.chd.getD n 0 + 2 ^ 40 - first.chd.getD n 0 % 2 ^ 40) % 2 ^ 32

/-- The trace area of a recording: by logical core, each in dispatch order. -/
def recordTraces (log : List Trace) : List Trace :=
  (List.range 640).flatMap fun c =>
    match log.filter (·.lcore == c) with
    | [] => []
    | f :: r => (f :: r).map fun e => { e with chd := chdOf f e }

/-- The revision that a recording makes (R101 to R105). -/
def recordedYelm (p : Part) (g : Graph) (id : Nat) : Yelm :=
  { id := id, hash := g.hash, rev := 0, nrank := max 1 p.nrank, srank := p.ownrank, strict := g.strict, frozen := false,
    mapgen := g.mapgen, span := g.lastEnd, nrepl := 0, traces := recordTraces g.log,
    copies := (List.range 640).flatMap fun c => g.logCopy.filter (·.lcore == c), area := none, st := .held, users := 0 }

/-- A recording is not stored (R102). -/
def recordSpoiled (s : State) (p : Part) (g : Graph) (spoiled : Bool) : Bool :=
  spoiled || g.cancel != 0 || g.nkill != 0 || g.handlers || 67108864 < imageSize (recordedYelm p g 0) ||
  2 ^ 48 ≤ graphCycle s g || (g.strict && p.mapGen != g.mapgen)

/-- A recording ends: it is stored as revision 0, and the revisions held before it are discarded, or its image is free
again (R102, R118). -/
def endRecording (g : Graph) (spoiled : Bool) (s : State) : State :=
  let part := Fin.ofNat 4 g.part
  let p := s.parts[part]
  let drop (l : List Yelm) : List Yelm := l.filter fun y => !(y.st == .recording && y.hash == g.hash)
  if recordSpoiled s p g spoiled then onYelms part drop (s.updGraph g.handle fun g => { g with yout := 2 })
  else
    let y := recordedYelm p g s.nextOid
    let s := onYelms part (fun l => displace (fun z => z.hash == g.hash) (drop l) ++ [y]) s
    { s with nextOid := s.nextOid + 1 }.updGraph g.handle fun g => { g with yout := 1 }

/-- The dependences that a measured replay showed (R365). -/
def depsOf (g : Graph) : List Dep :=
  g.walks.filterMap fun w => (g.ctrs.find? (·.1 == w.handle)).map fun c => ⟨w.lcore, w.idx, c.2.1, c.2.2, w.place, w.cross⟩

/-- The measurements of a replay are written to its revision (R117). -/
def writeMeas (g : Graph) (y : Yelm) : Yelm :=
  let one (e : Trace) (i : Nat) : Trace :=
    match g.meas.find? fun m => m.1 == e.lcore && m.2.1 == i with
    | some m => { e with meas := m.2.2 }
    | none => e
  let l := (List.range 640).flatMap fun c =>
    let t := coreTrace y c
    (t.zip (List.range t.length)).map fun p => one p.1 p.2
  { y with traces := l, nrepl := y.nrepl + 1 }

/-- A replay that retires uses its image no more, unless it was cancelled before (R118). -/
def leaveReplay (g : Graph) (s : State) : State :=
  if g.kept.isSome then s else onYelms (Fin.ofNat 4 g.part) (leaveYelm g.yid) s

/-- A replay ends: when it was not handed back and the graph is DONE, its measurements are written, and a refinement pass
follows, unless the revision is frozen or 254 (R117). -/
def endReplay (g : Graph) (rev : Nat) (s : State) : State :=
  let part := Fin.ofNat 4 g.part
  let s := s.updGraph g.handle fun g => { g with yout := 3 }
  let s := if g.cancel = 0 ∧ g.nkill = 0 ∧ g.nfail = 0 then
      let s := onYelms part (updWhere (·.id == g.yid) (writeMeas g)) s
      let frozen := (s.parts[part]).yelms.any fun y => y.id == g.yid && y.frozen
      if frozen || rev == 254 then s
      else s.updPart part fun p => { p with refine := p.refine ++ [(g.yid, depsOf g)] }
    else s
  leaveReplay g s

/-- The yelm work of a retiring graph (R338 step 2). -/
def retireYelm (g : Graph) (s : State) : State :=
  match g.mode with
  | .dynamic => s
  | .recording spoiled => endRecording g spoiled s
  | .replay rev => endReplay g rev s
  | .handedBack _ => leaveReplay g (s.updGraph g.handle fun g => { g with yout := 4 })

/-! ## The refinement pass (R365) -/

/-- New starts by logical core and place: those computed so far. -/
abbrev Starts := List (Nat × Nat × Nat)

def startAt (l : Starts) (c i : Nat) : Nat :=
  match l.find? fun e => e.1 == c && e.2.1 == i with
  | some e => e.2.2
  | none => 0

/-- E' of an entry: its new start, 32 cycles and its DUR. -/
def endAt (y : Yelm) (l : Starts) (c i : Nat) : Nat :=
  startAt l c i + 32 + (((coreTrace y c)[i]?).map (·.meas.dur)).getD 0

/-- The new start of one entry, from the others as they stand: the latest of what R365 step 3 names, made even. -/
def newStart (y : Yelm) (deps : List Dep) (l : Starts) (c i : Nat) (e : Trace) : Nat :=
  let mine := deps.filter fun d => d.toCore == c && d.toIdx == i
  let byDep := mine.map fun d => endAt y l d.fromCore d.fromIdx + d.place + (if d.cross then 32 else 24)
  let before := if i = 0 then 0 else endAt y l c (i - 1)
  let own := if mine.isEmpty then e.start else 0
  roundUp 2 (byDep.foldl max (max before own))

/-- One pass over every entry; a team takes the latest value over its members. -/
def startsTurn (y : Yelm) (deps : List Dep) (l : Starts) : Starts :=
  let all := (List.range 640).flatMap fun c =>
    let t := coreTrace y c
    (t.zip (List.range t.length)).map fun p => (c, p.2, p.1)
  let raw := all.map fun p => (p, newStart y deps l p.1 p.2.1 p.2.2)
  raw.map fun r =>
    let e := r.1.2.2
    if e.tsize ≤ 1 then (r.1.1, r.1.2.1, r.2)
    else
      let mates := raw.filter fun q =>
        q.1.1 / 8 == r.1.1 / 8 && q.1.2.2.tsize == e.tsize && q.1.2.2.start == e.start
      (r.1.1, r.1.2.1, mates.foldl (fun m q => max m q.2) r.2)

/-- Passes until every start has settled: as many as there are entries, since dependences make no cycle. -/
def settleStarts (y : Yelm) (deps : List Dep) : Nat → Starts → Starts
  | 0, l => l
  | n + 1, l => settleStarts y deps n (startsTurn y deps l)

/-- The refined revision, and its predicted span. -/
def refined (y : Yelm) (deps : List Dep) (id : Nat) : Yelm :=
  let l := settleStarts y deps (y.traces.length + 1) []
  let ts := (List.range 640).flatMap fun c =>
    let t := coreTrace y c
    (t.zip (List.range t.length)).map fun p => { p.1 with start := startAt l c p.2, meas := ⟨0, 0, 0, 0, false⟩ }
  let span := l.foldl (fun m e => max m (endAt y l e.1 e.2.1)) 0
  { y with id := id, rev := y.rev + 1, frozen := false, span := span, nrepl := 0, traces := ts, area := none, st := .held, users := 0 }

/-- REFINEMENT_PASS: the next revision is stored when its predicted span is SPAN/64 below, or for a gang (R117). The remainder
of SPAN/64 is dropped, as in the example of 06_yelm.md (281 of 18,000). -/
def execRefinementPass (part : Fin 4) (s : State) : Out :=
  match (s.parts[part]).refine with
  | [] => .next s
  | (id, deps) :: rest =>
    let s := s.updPart part fun p => { p with refine := rest }
    match (s.parts[part]).yelms.find? fun y => y.id == id && y.st == .held with
    | none => .next s
    | some y =>
      let z := refined y deps s.nextOid
      if !y.frozen && storeRoom s s.parts[part] && (z.span + y.span / 64 ≤ y.span || 1 < y.nrank) then
        .next { onYelms part (storeRev z) s with nextOid := s.nextOid + 1 }
      else .next s

end Sys2Proof.Machine
end

