-- ==== Sys2Proof/Machine/Launch.lean ====
section
/-! DEFINITION. Contexts, launches and retirement: CONTEXT_DESCRIPTOR_WRITE (R68), LAUNCH and LAUNCH_PROCESS (R70 to R77),
GRAPH_RETIRE and the completion entry (R337 to R340). -/

namespace Sys2Proof.Machine

open Sys2Proof

/-! ## Contexts (R68) -/

/-- The resident graphs of a context. -/
def graphsOf (s : State) (port : Fin 2) (ctx : Fin 64) : List Graph :=
  s.graphs.filter fun g => portOf g.handle == port && ctxOf g.handle == ctx

/-- Another open context of the same device or partition holds FAB (R68). -/
def fabTaken (s : State) (port : Fin 2) (ctx : Fin 64) : Bool :=
  (List.finRange 2).any fun p => (List.finRange 64).any fun n =>
    (p != port || n != ctx) && (s.ports[p].ctx[n]).en && (s.ports[p].ctx[n]).fab && partOfCtx s n == partOfCtx s ctx

/-- The fields a descriptor write changes. -/
def writeFields (lo : Nat) (fab : Bool) (c : Context) : Context :=
  { c with en := bitOf lo 0, priv := bitOf lo 1, fab := fab, gmax := bitsOf lo 8 7, ptroot := lo / 65536 * 65536 }

/-- A context opens: its counts and its channel sequence counters start at 0 (R70, R162). DESIGN CHOICE: launches that still
wait are dropped with no status entry (notes/assumptions/60.md). -/
def openContext (c : Context) : Context :=
  { c with lcnt := 0, ldone := 0, lref := 0, queue := [], oseq := [] }

/-- CONTEXT_DESCRIPTOR_WRITE: opening one whose graphs have not all retired is ignored whole; closing one cancels its
graphs; the code lines of the context are invalidated (R68, R125). -/
def execContextDescriptorWrite (port : Fin 2) (ctx : Fin 64) (lo : W64) (s : State) : Out :=
  let w := lo.toNat
  let c := s.ports[port].ctx[ctx]
  let opens := bitOf w 0 && !c.en
  if !partReady s (partOfCtx s ctx) || (opens && !(graphsOf s port ctx).isEmpty) then .next s
  else
    let fab := bitOf w 2 && !fabTaken s port ctx
    let s := s.updContext port ctx fun c => writeFields w fab (if opens then openContext c else c)
    let s := dropCode (fun p n => p == port.val && n == ctx.val) s
    .next (if bitOf w 0 then s else (graphsOf s port ctx).foldl (fun s g => cancelGraph g.handle 3 s) s)

/-! ## The launch window (R70 to R72) -/

/-- LAUNCH: a write to the window's LAUNCH field takes a number, unless 16 launches are outstanding (R71, R72). -/
def execLaunch (port : Fin 2) (ctx : Fin 64) (off : Nat) (bytes : List Byte) (s : State) : Out :=
  let c := s.ports[port].ctx[ctx]
  if !partReady s (partOfCtx s ctx) || 64 ≤ off || bytes = [] then .next s
  else if c.lcnt - c.ldone = 16 then .next (s.updContext port ctx fun c => { c with lref := c.lref + 1 })
  else
    let l : Launch := ⟨(c.lcnt + 1).toNat, off == 0 && 64 ≤ bytes.length, bytes.take 64⟩
    .next (s.updContext port ctx fun c => { c with lcnt := c.lcnt + 1, queue := c.queue ++ [l] })

/-! ## Processing a launch (R73 to R77) -/

/-- Result codes (R77). -/
def lAccepted : Nat := 0x01
def lDynamic : Nat := 0x02
def lBadRecord : Nat := 0x10
def lBadRoot : Nat := 0x11
def lNoSlot : Nat := 0x12
def lNoCounters : Nat := 0x13
def lPageFault : Nat := 0x15
def lClosed : Nat := 0x16
def lPartial : Nat := 0x17

/-- A status entry: code, index, failing check, graph handle. -/
structure Status where
  code  : Nat
  idx   : Nat
  check : Nat
  ghnd  : Nat
  deriving DecidableEq, Repr, Inhabited

/-- A rejection. -/
def reject (code : Nat) : Status := ⟨code, 0, 0, 0⟩

/-- The checks of a launch record (R73, R74, R75 step 1). -/
def launchBad (w : Nat) : Bool :=
  bitsOf w 80 48 != 0 || bitsOf w 208 16 != 0 || bitsOf w 354 2 != 0 || bitsOf w 358 2 != 0 || bitsOf w 374 10 != 0 ||
  bitsOf w 392 24 != 0 || bitsOf w 480 32 != 0 || bitsOf w 64 16 == 0 || 4096 < bitsOf w 64 16 ||
  16384 < bitsOf w 192 16 || bitsOf w 352 2 == 3 || bitsOf w 360 8 == 0 || bitsOf w 0 64 % 8 != 0 ||
  (bitsOf w 192 16 != 0 && bitsOf w 128 64 % 8 != 0) || (bitsOf w 352 2 != 0 && bitsOf w 224 128 == 0)

/-- The home die of a launch (R75 step 4). -/
def launchDie (s : State) (port : Fin 2) (part : Fin 4) : Nat :=
  let d := if port = 0 then 0 else 3
  let dies := (s.parts[part]).dies
  if dies.contains d then d else (leastBy id dies).getD 0

/-- Free counters, but for those that their bank has served in this cycle (R36), and free live-task slots of a die. -/
def freeCounters (s : State) (die : Nat) : Nat :=
  65536 - s.counters.countP fun k => k.idx / 65536 == die && (k.st != .free || counterUsed s k)
def freeSlots (s : State) (die : Nat) : Nat := 16384 - s.tasks.countP fun t => t.slot / 16384 == die

/-- A resident-graph slot of a context that is free: the lowest. -/
def freeGraphSlot (s : State) (port : Fin 2) (ctx : Fin 64) : Option Nat :=
  let l := (graphsOf s port ctx).map fun g => gslotOf g.handle
  if max 1 (min 64 (s.ports[port].ctx[ctx]).gmax) ≤ l.length then none
  else (List.range 64).find? fun n => !l.contains n

/-- What step 3 reads: the roots and the counter block, with the check that the block can be written; or the rejection.
DESIGN CHOICE: a poisoned word there is rejected as a page that cannot be read (notes/assumptions/100.md). -/
def readLaunch (c : CoreId) (r : Rights) (w : Nat) (s : State) : State × Except Status (List Nat × List Nat) :=
  let nroot := bitsOf w 64 16
  let nctr := bitsOf w 192 16
  let cblk := bitsOf w 128 64
  if !inDva (bitsOf w 0 64) (8 * nroot) || (nctr != 0 && !inDva cblk (8 * nctr)) then (s, .error (reject lPageFault))
  else
  match readVa s c r (bitsOf w 0 64) (8 * nroot) with
  | (s, .error _) => (s, .error (reject lPageFault))
  | (s, .ok rb) =>
    if nctr = 0 then (s, .ok ((dwordsOf nroot rb).map (·.toNat), []))
    else
      match readVa s c r cblk (8 * nctr) with
      | (s, .error _) => (s, .error (reject lPageFault))
      | (s, .ok cb) =>
        match checkPieces c r true false true s (cutAligned 16 (8 * nctr + 1) cblk (8 * nctr) 0) [] none false with
        | (s, .fault _ _) => (s, .error (reject lPageFault))
        | (s, _) =>
          let es := (dwordsOf nctr cb).map (·.toNat)
          match (List.range nctr).find? fun i => 2 ^ 24 ≤ es.getD i 0 with
          | some i => (s, .error { reject lBadRecord with idx := i })
          | none => (s, .ok ((dwordsOf nroot rb).map (·.toNat), es))

/-- Step 4: creates the counter block on a die and writes the handles into the entries. -/
def makeBlock (c : CoreId) (r : Rights) (die graph : Nat) : List Nat → Nat → State → State
  | [], _, s => s
  | n :: ns, at_, s =>
    match newCounter s die graph n with
    | none => s
    | some (k, s) =>
      makeBlock c r die graph ns (at_ + 8) (ridgeWrite c r at_ (toBytes 8 (n + k.handle * 2 ^ 32)) s).1

/-- A graph as its launch record describes it, dynamic as yet. -/
def graphOf (handle part root : Nat) (x : Context) (w : Nat) : Graph where
  handle := handle
  part := part
  root := root
  fab := x.fab
  priv := x.priv
  hash := bitsOf w 224 128
  pcls := bitsOf w 356 2
  wgt := bitsOf w 360 8
  notif := bitsOf w 368 6
  tag := BitVec.ofNat 32 (bitsOf w 416 32)
  tmo := bitsOf w 448 32
  mode := .dynamic
  yid := 0
  pre := .running
  cancel := 0
  frame0 := none
  frameAt := none
  timed := 0
  nkill := 0
  nfail := 0
  fcode := 0
  fkey := 0
  note := none
  yout := 0
  log := []
  logCopy := []
  copied := []
  strict := false
  mapgen := 0
  lastEnd := 0
  trace := []
  meas := []
  walks := []
  ctrs := []
  firedAt := []
  idle := 0
  handlers := false
  joined := none
  gang := 0
  ended := none
  kept := none

/-- A member joins the agreement of its gang: the next one of the HASH on its partition. It proposes its revision and the
course (R115). -/
def joinGang (part : Fin 4) (nrank hash rev : Nat) (s : State) : Nat × State :=
  let n := countOf s.fabric.gangN (part.val, hash)
  let s := { s with fabric := { s.fabric with gangN := countUp s.fabric.gangN (part.val, hash) } }
  (n, sendGang part.val ⟨hash, nrank, n, (s.parts[part]).ownrank, false, rev, s.course, false⟩ s)

/-- Step 5: the mode (R76), with the frame that every RECORD or REPLAY launch has: the next course, or what the gang that it
joins agrees on (R100, R115). The status code says whether the mode asked for was taken. -/
def resolveMode (g : Graph) (w : Nat) (s : State) : Graph × State × Nat :=
  let part := Fin.ofNat 4 g.part
  let p := s.parts[part]
  let framed := { g with frameAt := some (s.course + 1) }
  match bitsOf w 352 2 with
  | 1 =>
    if storeRoom s p && !p.yelms.any fun y => y.st == .recording && y.hash == g.hash then
      let y : Yelm := { recordedYelm p g s.nextOid with st := .recording }
      ({ framed with mode := .recording false }, { onYelms part (· ++ [y]) s with nextOid := s.nextOid + 1 }, lAccepted)
    else (framed, s, lDynamic)
  | 2 =>
    match pickRev (heldOf p g.hash) (bitsOf w 384 8) with
    | none => (framed, s, lDynamic)
    | some y =>
      let s := onYelms part (updWhere (·.id == y.id) fun y => { y with users := y.users + 1 }) s
      if 1 < y.nrank then
        let (n, s) := joinGang part y.nrank g.hash y.rev s
        ({ g with joined := some s.course, gang := n, mode := .replay y.rev, yid := y.id }, s, lAccepted)
      else ({ framed with mode := .replay y.rev, yid := y.id }, s, lAccepted)
  | _ => (g, s, lAccepted)

/-- Step 6: publishes the roots in order, each with a fresh ripe counter, in one operation on it; the failing one, if any, with
its check. Its counter goes with those of the graph, at its retirement. -/
def publishRoots (c : CoreId) (g : Graph) (die : Nat) : List Nat → Nat → State → State × Option (Nat × Nat)
  | [], _, s => (s, none)
  | va :: r, i, s =>
    match newCounter s die g.handle 0 with
    | none => (s, some (i, 6))
    | some (k, s1) =>
      match publish c g none va (some k.handle) s1 with
      | (s2, .ok _) => publishRoots c g die r (i + 1) s2
      | (s2, .bad check _ _ _) => (s2, some (i, check))
      | (s2, .noSlot) | (s2, .notYet _) => (s2, some (i, 6))

/-- Processes a launch record up to its status (R75). DESIGN CHOICE: a launch that was received before a descriptor write and
is processed after it takes the new PTROOT, PRIV and FAB (notes/assumptions/101.md). -/
def processLaunch (port : Fin 2) (ctx : Fin 64) (l : Launch) (s : State) : State × Status :=
  let x := s.ports[port].ctx[ctx]
  let part := partOfCtx s ctx
  let c := portCore port
  let w := ofBytes l.bytes
  let r := contextRights part.val port.val ctx.val x.ptroot
  if !x.en then (s, reject lClosed)
  else if !l.whole then (s, reject lPartial)
  else if launchBad w || x.cbase = 0 then (s, reject lBadRecord)
  else
    match freeGraphSlot s port ctx with
    | none => (s, reject lNoSlot)
    | some slot =>
      match readLaunch c r w s with
      | (s, .error e) => (s, e)
      | (s, .ok (roots, block)) =>
        let die := launchDie s port part
        if freeCounters s die < block.length + roots.length || freeSlots s die < roots.length + handlersWaiting s part.val then
          (s, reject lNoCounters)
        else
          let h := packFields [(16, (x.gens[Fin.ofNat 64 slot]).toNat), (3, 0), (6, slot), (6, ctx.val), (1, port.val)]
          let s := makeBlock c r die h block (bitsOf w 128 64) s
          let (g, s, code) := resolveMode (graphOf h part.val x.ptroot x w) w s
          match publishRoots c g die roots 0 { s with graphs := s.graphs ++ [g] } with
          | (s, none) => (s, ⟨code, 0, 0, h⟩)
          | (s, some (i, k)) => (cancelGraph h 3 s, ⟨lBadRoot, i, k, h⟩)

/-- The 16 bytes of a status entry (R77). DESIGN CHOICE: IDX has 12 bits, and an index of a counter block above 4,095 is given
modulo 4,096 (notes/assumptions/102.md). -/
def statusWord (num tag : Nat) (r : Status) : BitVec 128 :=
  BitVec.ofNat 128 (packFields [(32, num), (8, r.code), (12, r.idx), (4, r.check), (8, 0), (32, r.ghnd), (32, tag)])

/-- LAUNCH_PROCESS: the oldest launch of a context is processed; its status entry is written, then LDONE rises (R72,
R77). -/
def execLaunchProcess (port : Fin 2) (ctx : Fin 64) (s : State) : Out :=
  match (s.ports[port].ctx[ctx]).queue with
  | [] => .next s
  | l :: rest =>
    let r := processLaunch port ctx l s
    let tag := if l.whole then bitsOf (ofBytes l.bytes) 416 32 else 0
    .next (r.1.updContext port ctx fun c => { c with
      queue := rest
      stat := c.stat.set (Fin.ofNat 16 l.num) (statusWord l.num tag r.2)
      ldone := c.ldone + 1 })

/-! ## Retirement (R337 to R340) -/

/-- A graph retires when no task of it lives and no op of it is live; a pre-empted one only after it is resumed, unless it
is cancelled (R333, R337). -/
def mayRetire (s : State) (g : Graph) : Bool :=
  !s.tasks.any (·.graph == g.handle) && !(s.ops.any fun o => o.graph == g.handle && o.status.isLive) &&
  (g.cancel != 0 || !(g.pre == .preempted || g.pre == .resuming))

/-- The course of this cycle, whose first cycle may be under way with its boundary still to come (R289). -/
def courseNow (s : State) : Nat := if s.fabric.began + Config.courseCycles ≤ s.cycle then (s.fabric.course + 1).toNat else s.course

/-- The graphs that retire in this cycle, the first in which R337 holds: nothing cancels them any more, and the steps of R338
follow within 4,096 cycles. -/
def markEnded (s : State) : State :=
  { s with graphs := s.graphs.map fun g =>
      if g.ended.isNone && mayRetire s g then { g with ended := some (s.cycle, courseNow s) } else g }

/-- STATE of the completion entry (R340). -/
def completionState (g : Graph) : Nat :=
  if g.cancel ≠ 0 then g.cancel else if g.nkill ≠ 0 ∨ g.nfail ≠ 0 then 2 else 1

/-- The GUARD_FAIL notice (R113). -/
def noteWord : Option GuardNote → Nat
  | none => 0
  | some n => packFields [(8, cGuardFail), (3, n.kind), (5, n.gidx), (10, n.lcore), (6, 0), (40, n.seq), (48, n.fcyc),
      (8, 0), (64, n.expv.toNat), (64, n.obsv.toNat)]

/-- YREV: the revision replayed (R340). -/
def yrevOf (g : Graph) : Nat :=
  match g.mode with
  | .replay r => r
  | .handedBack r => r
  | _ => 0

/-- The 64 bytes of a completion entry (R340). -/
def completionBytes (s : State) (g : Graph) : List Byte :=
  toBytes 64 (packFields [(32, g.handle), (3, completionState g), (5, 0), (8, g.fcode), (3, g.yout), (13, 0), (8, yrevOf g),
    (24, 0), (32, g.nkill), (32, g.nfail), (32, g.tag.toNat), (48, (g.ended.map (·.2)).getD s.course), (16, 0),
    (256, if g.yout = 4 then noteWord g.note else 0)])

/-- Frees every counter of a graph that is still allocated (R34, R338 step 1). -/
def freeGraphCounters (h : Nat) (s : State) : State :=
  (s.counters.filter fun k => k.graph == h && k.st != .free).foldl (fun s k => freeCounter k.idx s) s

/-- Writes the completion entry: bytes 8 to 63, then bytes 0 to 7 (R340). -/
def writeCompletion (g : Graph) (s : State) : State :=
  let port := portOf g.handle
  let ctx := ctxOf g.handle
  let off := 64 * gslotOf g.handle
  let bs := completionBytes s g
  match areaWrite port ctx (off + 8) (bs.drop 8) s with
  | (s, true) => (areaWrite port ctx off (bs.take 8) s).1
  | (s, false) => s

/-- The slot of a graph is free, and its generation has risen (R69, R338 step 5). -/
def freeGraph (g : Graph) (s : State) : State :=
  let n := Fin.ofNat 64 (gslotOf g.handle)
  let s := if g.pre = .running then s else showPre g.handle 0 s
  { s with graphs := s.graphs.filter (·.handle != g.handle), ops := s.ops.filter (·.graph != g.handle) }.updContext
    (portOf g.handle) (ctxOf g.handle) fun c => { c with gens := c.gens.set n (c.gens[n] + 1) }

/-- GRAPH_RETIRE: the steps of R338 in order, for a graph that retires. -/
def execGraphRetire (g : Nat) (s : State) : Out :=
  match s.findGraph g with
  | none => .next s
  | some q =>
    if q.ended.isNone then .next s
    else
      let s := retireYelm q (freeGraphCounters g s)
      match s.findGraph g with
      | none => .next s
      | some q => .next (postEvent (portOf g) (ctxOf g) q.notif (freeGraph q (writeCompletion q s)))

end Sys2Proof.Machine
end

