-- ==== Sys2Proof/Machine/Ettan.lean ====
section
/-! DEFINITION. The Ettan fabric: courses and slots (R289, R290, R296), paths (R297), the valley store (R298, R299), replay
(R302), widths, keys and lasers (R303 to R305, R357, R360), and the replica table's switch (R308). -/

namespace Sys2Proof.Machine

open Sys2Proof

/-! ## Courses, slots and fibres -/

/-- The cycle within the course. -/
def State.courseCycle (s : State) : Nat := s.cycle - s.fabric.began

/-- The course cycle in which a slot begins, at a width (R289). -/
def slotCycle (slot width : Nat) : Nat := 240 + 48 * slot / width

/-- The slots of a course at a width (R289). -/
def slotsOf (width : Nat) : Nat := 152 * width

/-- Changes a fibre. -/
def State.updFibre (s : State) (f : Fin 128) (g : Fibre → Fibre) : State :=
  { s with fabric := { s.fabric with fibres := s.fabric.fibres.set f (g s.fabric.fibres[f]) } }

/-- The fibre can carry traffic (R303, R304). -/
def Fibre.open_ (q : Fibre) : Bool := q.width != 0 && !q.hold

/-- The partner of a fibre in this course. -/
def partnerNow (s : State) (f : Fin 128) : Nat := partnerOf s.position f.val (coursePos s.course)

/-- This course is a calibration course of the fibre (R294). -/
def calibratesNow (s : State) (f : Fin 128) : Bool := isCalibration s.position f.val (coursePos s.course)

/-- REKEY (R305). -/
def Fibre.rekey (q : Fibre) : Bool := 2 ^ 39 ≤ q.ctr

/-- FIBSTAT (R305). -/
def fibstat (s : State) (f : Fin 128) : W64 :=
  let q := s.fabric.fibres[f]
  BitVec.ofNat 64 (packFields [(5, q.width), (1, q.hold.toNat), (1, q.rekey.toNat), (1, (calibratesNow s f).toNat), (8, 0),
    (40, q.ctr), (8, 0)])

/-- The block of 32 slots that a header acknowledges: the last that has been received whole, or before that block 127, which
no course has. The last slot of a course acknowledges what is left, where that is no whole block (R302,
notes/assumptions/108.md). -/
def ackedBlock (s : State) (f : Fin 128) : Nat :=
  let q := s.fabric.fibres[f]
  let n := q.rx.length
  if q.slot + 1 = slotsOf q.width && n % 32 != 0 then n / 32
  else if n < 32 then 127 else n / 32 - 1

/-- ACK for a block of 32 slots of the reverse direction (R295, R302). -/
def ackBlock (s : State) (f : Fin 128) (ablk : Nat) : W32 :=
  let l := (s.fabric.fibres[f]).rx.reverse
  BitVec.ofNat 32 (packFields ((List.range 32).map fun k => (1, (l.getD (32 * ablk + k) false).toNat)))

/-! ## Paths (R297) -/

/-- The direct hall fibre of a batten lies on a die of its partition (R297). -/
def hasDirect (s : State) (part : Nat) (b : Batten) : Bool :=
  ownFibre s part (directFibre s.fabric.index (indexOf b.dst.pos))

/-- What a source has left to send to an intermediate of its hall in this round (R298). -/
def allowed (s : State) (pos : Nat) : Bool := lookupNat s.fabric.allow (indexOf pos) < 8192

/-- This fibre reaches an eligible intermediate in a course of this position (R297). -/
def valleyHop (s : State) (b : Batten) (f : Fin 128) (c : Nat) : Bool :=
  let v := partnerOf s.position f.val c
  inHallStage s b && f.val < 64 && !isCalibration s.position f.val c && v != hallEnd s b && v != b.dst.pos && allowed s v

/-- A partition has an open fibre of its own that satisfies p. -/
def someFibre (s : State) (part : Nat) (p : Fin 128 → Bool) : Bool :=
  (List.finRange 128).any fun f => (s.fabric.fibres[f]).open_ && ownFibre s part f.val && p f

/-- The first course from n whose position is c. -/
def courseFrom (n c : Nat) : Nat := n + (c + 32 - n % 32) % 32

/-- The course cycle in which the last slot begins, at a width (R289). -/
def lastSlotCycle (width : Nat) : Nat := slotCycle (slotsOf width - 1) width

/-- The course in which a batten became ready, and the cycle in which that course began. -/
def readyCourse (s : State) (o : OutB) : Nat × Nat :=
  let back := (s.fabric.began - o.ready + Config.courseCycles - 1) / Config.courseCycles
  (s.course - back, s.fabric.began - back * Config.courseCycles)

/-- The first course in which a batten finds a usable slot on a fibre of a width (R297). -/
def firstCourse (s : State) (o : OutB) (width : Nat) : Nat :=
  let r := readyCourse s o
  if o.ready + 96 ≤ r.2 + lastSlotCycle width then r.1 else r.1 + 1

/-- The arrival course of the valley path from course n on, over the fibres as they stand: none when no intermediate is
eligible in any course of a round. -/
def valleyArrival (s : State) (o : OutB) (n : Nat) : Option Nat :=
  let d := directPos s.fabric.index (indexOf o.batten.dst.pos)
  let usable (k : Nat) (f : Fin 128) : Bool :=
    firstCourse s o (s.fabric.fibres[f]).width ≤ n + k && valleyHop s o.batten f (coursePos (n + k))
  ((List.range 33).find? fun k => someFibre s o.part (usable k)).map fun k =>
    courseFrom (n + k + 1) (d ^^^ coursePos (n + k))

/-- ANY takes the direct path when it arrives no later (R297). The prediction stands as it was when the batten became
ready, until its direct course has passed. -/
def anyDirect (s : State) (o : OutB) : Bool :=
  let b := o.batten
  let df := Fin.ofNat 128 (directFibre s.fabric.index (indexOf b.dst.pos))
  let c := directPos s.fabric.index (indexOf b.dst.pos)
  if !(s.fabric.fibres[df]).open_ || isCalibration s.position df.val c then (valleyArrival s o s.course).isNone
  else
    let first := courseFrom (firstCourse s o (s.fabric.fibres[df]).width) c
    let past := first < s.course
    match valleyArrival s o (if past then s.course else (readyCourse s o).1) with
    | none => true
    | some v => (if past then courseFrom s.course c else first) ≤ v

/-- The path that a batten takes in its hall stage: true for the direct one (R297). -/
def takesDirect (s : State) (o : OutB) : Bool :=
  if !hasDirect s o.part o.batten then false
  else
    match o.path with
    | .direct => true
    | .valley => false
    | .any => anyDirect s o

/-- The batten may go over this fibre in this course, as its path stands. An intermediate that ends the hall stage of an
inter-hall batten is charged like any other (R298). -/
def mayUseFibre (s : State) (o : OutB) (f : Fin 128) : Bool :=
  let c := coursePos s.course
  ownFibre s o.part f.val &&
  if inHallStage s o.batten then
    if takesDirect s o then
      directHop s o.batten f c && (hallEnd s o.batten == o.batten.dst.pos || allowed s (hallEnd s o.batten))
    else valleyHop s o.batten f c
  else directHop s o.batten f c

/-- In this course there is a path that the policy of the batten allows; a calibration course is none (R294, R297, R303). -/
def pathNow (s : State) (o : OutB) : Bool :=
  let c := coursePos s.course
  let direct := someFibre s o.part fun f => directHop s o.batten f c && !isCalibration s.position f.val c
  if !inHallStage s o.batten then direct
  else
    (o.path != .valley && hasDirect s o.part o.batten && direct) ||
    ((o.path != .direct || !hasDirect s o.part o.batten) && someFibre s o.part fun f => valleyHop s o.batten f c)

/-! ## Which batten a slot carries (R296, R297, R300) -/

/-- The class that a slot of a fibre is reserved for (R296). -/
def reservedClass (s : State) (part : Fin 4) (slot width : Nat) : Option Cls :=
  (List.finRange 16).find? fun n => ((s.parts[part]).rsv[n]).getLsbD (slot % (4 * width))

/-- The partition whose die holds a fibre. -/
def fibrePart (s : State) (f : Fin 128) : Fin 4 := s.partOfCore (coreOfNat (160 * fibreDie f.val))

/-- The cycle in which the next slot of a fibre begins. -/
def nextSlotAt (s : State) (f : Fin 128) : Nat :=
  s.fabric.began + slotCycle (s.fabric.fibres[f]).slot (s.fabric.fibres[f]).width

/-- The course cycle in which a slot ends: where the next begins, and for the last one where the guard begins (R289). -/
def slotEnd (slot width : Nat) : Nat := if slot + 1 < slotsOf width then slotCycle (slot + 1) width else 7536

/-- The first slot of a course that has not begun at a course cycle (R289). -/
def firstSlotFrom (at_ width : Nat) : Nat := if at_ ≤ 240 then 0 else ((at_ - 240) * width + 47) / 48

/-- The next slot of a fibre begins now, or has begun and is not used yet; in the guard nothing is carried (R289). -/
def slotDue (s : State) (f : Fin 128) : Bool :=
  let q := s.fabric.fibres[f]
  q.width != 0 && q.slot < slotsOf q.width && nextSlotAt s f ≤ s.cycle &&
  s.cycle < s.fabric.began + max (slotCycle q.slot q.width + 1) (slotEnd q.slot q.width)

/-- The battens of this device that may take the next slot of a fibre. -/
def readyFor (s : State) (f : Fin 128) : List OutB :=
  firstsOf [] (s.fabric.out.filter fun o =>
    o.batten.dst.pos != s.position && o.ready + 96 ≤ nextSlotAt s f && maySend s o && mayUseFibre s o f)

/-- Those of the class that a slot is reserved for, when there are any (R296). -/
def preferClass {α : Type} (cls : α → Cls) (r : Option Cls) (l : List α) : List α :=
  match r with
  | none => l
  | some n => if l.any fun o => cls o == n then l.filter fun o => cls o == n else l

/-- The class that the next slot of a fibre is reserved for. -/
def slotClass (s : State) (f : Fin 128) : Option Cls :=
  reservedClass s (fibrePart s f) (s.fabric.fibres[f]).slot (s.fabric.fibres[f]).width

/-- The batten of this device that the next slot carries: of its reserved class first, then in the order of the engine (R168,
R296). -/
def pickBatten (s : State) (f : Fin 128) : Option OutB :=
  leastBy (battenKey s) (preferClass (·.batten.cls) (slotClass s f) (readyFor s f))

/-- One more batten charged to the allowance at an intermediate (R298). -/
def chargeAt (pos : Nat) (f : Fabric) : Fabric :=
  { f with allow := assignNat f.allow (indexOf pos) (lookupNat f.allow (indexOf pos) + 1) }

/-- What the next slot of a fibre carries with a batten: its header with the acknowledgements, and the IV of its encryption,
the salt and the counter of the key, the encrypted payload and the tag that authenticates both; a calibration batten travels
outside the key, with none of these (R295, R304, notes/assumptions/114.md). -/
def txSlot (f : Fin 128) (b : Batten) (s : State) : TxSlot :=
  let q := s.fabric.fibres[f]
  let n := ackedBlock s f
  let h := headerWord b n (ackBlock s f n)
  let iv := q.txKey.salt ++ BitVec.ofNat 64 q.ctr
  if calibratesNow s f then ⟨q.slot, h, b.body, none, 0, 0⟩
  else ⟨q.slot, h, b.body, some iv, Config.gcmText q.txKey.key iv b.body, Config.gcmTag q.txKey.key iv h b.body⟩

/-- A slot carries a batten; outside calibration it consumes a key counter value, and the last usable one leads to KEY_HOLD,
of which firmware is told (R294, R295, R304). -/
def useSlot (f : Fin 128) (b : Batten) (s : State) : State :=
  let q := s.fabric.fibres[f]
  let e := txSlot f b s
  if calibratesNow s f then s.updFibre f fun q => { q with slot := q.slot + 1, tx := some e }
  else
    let holds := 2 ^ 40 - 1 ≤ q.ctr + 1
    let s := s.updFibre f fun q => { q with slot := q.slot + 1, ctr := q.ctr + 1, hold := holds, tx := some e }
    if holds then { s with outputs := s.outputs ++ [.toFirmware 2 f.val 0] } else s

/-- A batten from this device to the partner of a fibre, for an idle slot or calibration (R294, R295). -/
def linkBatten (s : State) (f : Fin 128) (body : BattenBody) : Batten :=
  ⟨s.party (fibrePart s f).val, ⟨partnerNow s f, 0⟩, 0, 0, 0, 0, body⟩

/-- Sends a batten in the next slot of a fibre, into the replay store; a slot that a lost wavelength spoils fails (R302,
R303). -/
def sendIn (f : Fin 128) (o : OutB) (relay : Bool) (s : State) : State :=
  let q := s.fabric.fibres[f]
  let to_ := partnerNow s f
  let spoiled := match q.spoiled with
    | some n => decide (n ≤ q.slot)
    | none => false
  let e : SentB := ⟨f.val, q.slot, s.course, o, relay, to_, spoiled⟩
  let fb := { s.fabric with replay := s.fabric.replay ++ [e] }
  let fb := if relay || to_ == o.batten.dst.pos then fb else chargeAt to_ fb
  useSlot f o.batten { s with fabric := fb }

/-- BATTEN_SEND: the next slot of a fibre carries a batten of this device, or an idle batten; in a calibration course one
with this device's COURSE (R290, R295, R297). -/
def execBattenSend (f : Fin 128) (s : State) : Out :=
  if !slotDue s f || (s.fabric.fibres[f]).hold then .next s
  else if calibratesNow s f then .next (useSlot f (linkBatten s f (.calibration s.course s.mgmt.ready)) s)
  else
    match pickBatten s f with
    | none => .next (useSlot f (linkBatten s f .idle) s)
    | some o =>
      .next (markSent o.oid (sendIn f o false { s with fabric := { s.fabric with out := s.fabric.out.erase o } }))

/-! ## Relaying (R298, R299) -/

/-- The held battens that a fibre forwards in this course: in the next direct course after their arrival, or after a sending
that failed (R297, R302). -/
def heldFor (s : State) (f : Fin 128) : List HeldB :=
  s.fabric.valley.filter fun h => h.since < s.course && directHop s h.batten f (coursePos s.course)

/-- The order in which held battens are forwarded: by course of arrival, source position, CSEQ and BIDX (R299). -/
def heldKey (h : HeldB) : Nat := packFields [(10, h.batten.bidx), (28, h.batten.cseq), (19, h.batten.src.pos), (48, h.arrived)]

/-- The held batten that the next slot of a fibre carries: none in a slot reserved for a class of which only this
device's own traffic is ready (R296, R299). -/
def pickHeld (s : State) (f : Fin 128) : Option HeldB :=
  let l := heldFor s f
  match slotClass s f with
  | none => leastBy heldKey l
  | some n =>
    if l.any fun h => h.batten.cls == n then leastBy heldKey (l.filter fun h => h.batten.cls == n)
    else if (readyFor s f).any fun o => o.batten.cls == n then none
    else leastBy heldKey l

/-- VALLEY_FORWARD: a held batten goes on in its forwarding course (R299). -/
def execValleyForward (f : Fin 128) (s : State) : Out :=
  if !slotDue s f || (s.fabric.fibres[f]).hold || calibratesNow s f then .next s
  else
    match pickHeld s f with
    | none => .next s
    | some h =>
      let o : OutB := ⟨0, h.batten.dst.part, .direct, 0, h.batten, h.arrived, 0, false, false⟩
      .next (sendIn f o true { s with fabric := { s.fabric with valley := s.fabric.valley.erase h } })

/-- How many battens of a source this device holds: until they are forwarded and acknowledged good (R298). -/
def regionUse (s : State) (src : Nat) : Nat :=
  s.fabric.valley.countP (·.from_ == src) + s.fabric.replay.countP fun e => e.relay && e.out.batten.src.pos == src

/-- Two battens are one and the same (R302): SRC, SPART, KIND, CLASS, CSEQ and BIDX. -/
def sameBatten (a b : Batten) : Bool :=
  a.src == b.src && a.dst == b.dst && a.cls == b.cls && a.cseq == b.cseq && a.bidx == b.bidx && a.body == b.body

/-- A relay holds this batten already. -/
def holdsAlready (s : State) (b : Batten) : Bool :=
  s.fabric.valley.any (fun h => sameBatten { h.batten with hop := b.hop } b) ||
  s.fabric.replay.any fun e => e.relay && sameBatten { e.out.batten with hop := b.hop } b

/-! ## Receiving (R298, R300, R302) -/

/-- The verdict on a slot received, which the reverse fibre acknowledges; outside calibration the slot has used a value of
the key counter (R295, R302, R304). -/
def verdict (f : Fin 128) (ok : Bool) (s : State) : State :=
  let n := if calibratesNow s f then 0 else 1
  s.updFibre f fun q => { q with rx := ok :: q.rx, rxCtr := q.rxCtr + n }

/-- What the ACK bits of a header say of a block of slots sent on a fibre in this course: a batten acknowledged good leaves
the replay store, another counts as failed (R295, R302). -/
def takeAcks (f : Fin 128) (a : Acks) (s : State) : State :=
  let of (e : SentB) : Option Bool :=
    if e.fibre == f.val && e.course == s.course && e.slot / 32 == a.block.val then some (a.bits.getLsbD (e.slot % 32)) else none
  { s with fabric := { s.fabric with
      replay := (s.fabric.replay.filter fun e => e.bad || of e != some true).map fun e =>
        { e with bad := e.bad || of e == some false } } }

/-- BATTEN_RECEIVE: a slot with its header's acknowledgements; a bad tag says nothing. A batten for this device is
delivered or, by a full reduction store, refused; another is held for forwarding, or refused by a full region (R298,
R302, R306). -/
def execBattenReceive (f : Fin 128) (good : Bool) (acks : Acks) (b : Batten) (s : State) : Out :=
  if !good then .next (verdict f false s)
  else
    let s := takeAcks f acks s
    match b.body with
    | .idle => .next (verdict f true s)
    | .calibration n ready =>
      if ready && b.src.pos != s.position then
        .next (verdict f true { s with fabric := { s.fabric with heard := some (n, s.fabric.began) } })
      else .next (verdict f true s)
    | _ =>
      if b.dst.pos == s.position then
        if refused s b then .next (verdict f false s) else .next (verdict f true (deliver b s))
      else if holdsAlready s b then .next (verdict f true s)
      else if 8192 ≤ regionUse s b.src.pos then .next (verdict f false s)
      else
        .next (verdict f true { s with fabric := { s.fabric with
          valley := s.fabric.valley ++ [⟨s.course, s.course, b.src.pos, { b with hop := b.hop + 1 }⟩] } })

/-! ## Retransmission (R302) -/

/-- BATTEN_RETRANSMIT: a batten that counts as failed, or that nothing has acknowledged by the end of the course after the
one it was sent in, returns to its queue or its region (R302). -/
def execBattenRetransmit (f : Fin 128) (slot : Nat) (s : State) : Out :=
  let failed (e : SentB) : Bool := e.fibre == f.val && e.slot == slot && (e.bad || e.course + 2 ≤ s.course)
  match takeFirst failed s.fabric.replay with
  | none => .next s
  | some (e, rest) =>
    let fb := { s.fabric with replay := rest }
    if e.relay then
      .next { s with fabric := { fb with valley := fb.valley ++ [⟨e.out.ready, e.course, e.out.batten.src.pos, e.out.batten⟩] } }
    else .next { s with fabric := { fb with out := requeueOut { e.out with ready := s.cycle, fresh := false } fb.out } }

/-! ## Widths, keys and lasers (R303, R304, R357, R360) -/

/-- KEY_INSTALL: a key and its salt, for one direction of a fibre, take effect at the next course boundary (R304). -/
def execKeyInstall (k : KeyGift) (s : State) : Out :=
  .next (s.updFibre k.fibre fun q =>
    if k.rx then { q with newRx := some ⟨k.key, k.salt⟩ } else { q with newTx := some ⟨k.key, k.salt⟩ })

/-- From a slot on, a course of a fibre is spoiled, and what was sent there fails. -/
def spoilFrom (f : Fin 128) (slot : Nat) (s : State) : State :=
  let s := s.updFibre f fun q => { q with spoiled := some (min slot (q.spoiled.getD slot)) }
  { s with fabric := { s.fabric with
      replay := updWhere (fun e => e.fibre == f.val && e.course == s.course && slot ≤ e.slot)
        (fun e => { e with bad := true }) s.fabric.replay } }

/-- WAVELENGTH_LOST at a slot: it spoils the rest of the course, and the next runs at the lower width (R303). -/
def execWavelengthLost (f : Fin 128) (slot : Nat) (s : State) : Out :=
  .next ((spoilFrom f slot s).updFibre f fun q => { q with next := q.next - 1 })

/-- A fibre can be lit: its module is in place, it is not above its eye-safety power in this course, and its die is in the
calendar (R18, R357, R360). -/
def fibreLit (s : State) (f : Fin 128) : Bool :=
  (s.fabric.fibres[f]).lit && !(s.fabric.fibres[f]).dark && dieMapped s (fibreDie f.val)

/-- The wavelengths of a fibre can be retrained: in a flashing interval or a calibration course (R303). -/
def retrains (s : State) (f : Fin 128) : Bool := s.courseCycle < 240 || calibratesNow s f

/-- WAVELENGTH_REGAINED: in a flashing interval or a calibration course a wavelength is retrained, and joins at the next
boundary (R303). -/
def execWavelengthRegained (f : Fin 128) (s : State) : Out :=
  if fibreLit s f && retrains s f then
    .next (s.updFibre f fun q => { q with next := min 16 (q.next + 1) })
  else .next s

/-- The fibres of a laser module (R360). -/
def moduleFibres (m : Fin 8) : List (Fin 128) := (List.finRange 128).filter fun f => f.val / 16 == m.val

/-- LASER_MODULE_REMOVED: the rest of the course fails, and from the next boundary the width is 0 (R360). -/
def execLaserModuleRemoved (m : Fin 8) (s : State) : Out :=
  .next ((moduleFibres m).foldl (fun s f =>
    (spoilFrom f (s.fabric.fibres[f]).slot s).updFibre f fun q =>
      { q with lit := false, next := 0, retrain := false }) s)

/-- LASER_MODULE_INSERTED: the fibres are retrained, in the next flashing interval or calibration course unless this is one,
and rejoin at the boundary after it (R303, R360). -/
def execLaserModuleInserted (m : Fin 8) (s : State) : Out :=
  .next ((moduleFibres m).foldl (fun s f =>
    let s := s.updFibre f fun q => { q with lit := true }
    if !dieMapped s (fibreDie f.val) then s
    else s.updFibre f fun q =>
      if retrains s f && !q.dark then { q with next := 16, retrain := false } else { q with retrain := true }) s)

/-- LASER_POWER: a fibre above its eye-safety power goes to width 0 at the next boundary, whatever is retrained before it
(R357). -/
def execLaserPower (f : Fin 128) (s : State) : Out := .next (s.updFibre f fun q => { q with next := 0, dark := true })

/-! ## The course boundary (R289, R290, R298, R303, R304, R100, R155) -/

/-- A fibre at the boundary: its new width, and its new keys, whose counters begin at 0 (R303, R304). The flashing interval that
begins retrains one that waits for it (R303, R360). -/
def Fibre.boundary (q : Fibre) : Fibre :=
  { q with
    width := q.next, spoiled := none, slot := 0, rx := [], dark := false
    next := if q.retrain then 16 else q.next, retrain := false
    txKey := q.newTx.getD q.txKey, rxKey := q.newRx.getD q.rxKey, newTx := none, newRx := none
    ctr := if q.newTx.isSome then 0 else q.ctr, hold := q.hold && q.newTx.isNone
    rxCtr := if q.newRx.isSome then 0 else q.rxCtr }

/-- What a batten that waits has seen of a round: a round that it began and that offered it no path counts (R297). -/
def countRound (s : State) (o : OutB) : OutB :=
  let o := { o with path1 := o.path1 || pathNow s o }
  if coursePos (s.course + 1) = 0 then
    let whole := o.ready ≤ s.fabric.began - 31 * Config.courseCycles
    { o with rounds := if whole && !o.path1 then o.rounds + 1 else o.rounds, path1 := false }
  else o

/-- A task's frame begins at cycle 0 of the course it names (R155). -/
def beginFrame (course cycle : Nat) (x : Ctx) : Ctx :=
  if x.fwait && x.fcourse.toNat ≤ course then { x with fwait := false, fbegan := some cycle } else x

/-- The same for the task on a core. -/
def coreFrame (course cycle : Nat) (k : Core) : Core := { k with ctx := beginFrame course cycle k.ctx }

/-- A graph's frame cycle 0 (R100): a recording takes the mapping generation, and what was handed back before is queued as
though it fired now (R112). -/
def beginGraph (s : State) (g : Graph) : State :=
  match g.frameAt with
  | none => s
  | some n =>
    if s.course < n then s
    else
      let part := Fin.ofNat 4 g.part
      let gen := (s.parts[part]).mapGen
      let s := s.updGraph g.handle fun g => { g with frame0 := some s.cycle, frameAt := none, mapgen := gen }
      match g.mode with
      | .handedBack _ =>
        let mine (e : QEntry) : Bool := (e.headTask s).any fun t => t.graph == g.handle
        s.updPart part fun p => { p with
          queue := updWhere mine (fun e => { e with firedAt := s.cycle, cand := false }) p.queue }
      | _ => s

/-- The frame of a task that was cut begins in the same way: it counts through pre-emption (R155). -/
def beginCutFrame (course cycle : Nat) (t : Task) : Task :=
  { t with image := t.image.map fun i => { i with ctx := beginFrame course cycle i.ctx } }

/-- COURSE_BOUNDARY. -/
def execCourseBoundary (s : State) : Out :=
  if s.cycle < s.fabric.began + Config.courseCycles then .next s
  else
    let out := s.fabric.out.map (countRound s)
    let n := s.fabric.course + 1
    let s := { s with
      fabric := { s.fabric with
        course := n
        began := s.cycle
        out := out
        fibres := s.fabric.fibres.map Fibre.boundary
        allow := if coursePos n.toNat = 0 then [] else s.fabric.allow }
      cores := s.cores.map fun k => coreFrame n.toNat s.cycle k
      tasks := s.tasks.map (beginCutFrame n.toNat s.cycle) }
    .next (s.graphs.foldl beginGraph s)

/-- COURSE takes a number, and the courses that have begun since a boundary (R290). -/
def courseSince (s : State) (n began : Nat) : Nat := n + (s.fabric.began - began) / Config.courseCycles

/-- COURSE from the first source that is available: a READY partner's, else the course epoch (R290). -/
def courseSource (s : State) : Option Nat :=
  match s.fabric.heard with
  | some (n, began) => some (courseSince s n began)
  | none => s.mgmt.epoch.map fun e => courseSince s (e.1.toNat / 3200) e.2

/-- CEPOCH: a device that has set COURSE ignores it (R290). -/
def execCepoch (v : W64) (s : State) : Out :=
  .next (if s.fabric.set then s else { s with mgmt := { s.mgmt with epoch := some (v, s.fabric.began) } })

/-! ## Fabric registers (R296, R308) -/

/-- RSVn: a write that sets a bit set in another RSV register is ignored whole (R296). -/
def execRsvWrite (part : Fin 4) (n : Fin 16) (v : W64) (s : State) : Out :=
  let p := s.parts[part]
  if !partReady s part || (List.finRange 16).any fun m => m != n && p.rsv[m] &&& v != 0 then .next s
  else .next (s.updPart part fun p => { p with rsv := p.rsv.set n v })

/-- A write to SWC arms a switch (R308). -/
def execReplicaSwitchArm (part : Fin 4) (v : W64) (s : State) : Out :=
  .next (if partReady s part then s.updPart part fun p => { p with swc := v.toNat % 2 ^ 48, armed := true } else s)

/-- REPLICA_SWITCH: at cycle 0 of course SWC, or of the next one when that has begun, CUR flips (R308). -/
def execReplicaSwitch (part : Fin 4) (s : State) : Out :=
  let p := s.parts[part]
  .next (if p.armed && s.cycle == s.fabric.began && p.swc ≤ s.course then
    s.updPart part fun p => { p with cur := !p.cur, armed := false } else s)

end Sys2Proof.Machine
end

