-- ==== Sys2Proof/Machine/Service.lean ====
section
/-! DEFINITION. Bring-up, trust and service (R353 to R363): power-on, recovery, updates, attestation, the thermal trip, the
power clamp, partitions (R20), die drain and return (R18), stack retirement, ECC (R228, R229), the privileged page's plain
registers (R6) with what a host reads there, and a host's memory accesses (R78). -/

namespace Sys2Proof.Machine

open Sys2Proof

/-! ## What a host reads in the privileged page and the launch window -/

/-- The device has come up, and a partition has had fewer than ten usable clusters: it stands in recovery until it starts
again (R13, R354). -/
def partShort (s : State) (part : Fin 4) : Bool := s.mgmt.ready && (s.parts[part]).used && (s.parts[part]).short

/-- DSTAT as a partition's page shows it: firmware reports a shortfall of clusters there, which leaves PHASE at 6 (R13,
R354). -/
def dstatReg (s : State) (part : Fin 4) : Nat :=
  let short := partShort s part
  packFields [(1, (partReady s part).toNat), (3, if short then 6 else s.mgmt.phase), (4, 0),
    (8, if short then 3 else s.mgmt.fail), (16, 0), (32, s.mgmt.svn.toNat)]

/-- RSTAT (R92). DESIGN CHOICE: DCLUS reads 0 while no drain is held, and PASS while there is no head
(notes/assumptions/104.md). -/
def rstatReg (s : State) (part : Fin 4) : Nat :=
  let p := s.parts[part]
  let pass := match readyOrder s part with
    | [] => 0
    | e :: _ => e.1.pass
  packFields [(1, p.drain.isSome.toNat), (7, (p.drain.map (·.1)).getD 0), (8, min 255 pass), (16, 0), (32, p.ndrain.toNat)]

/-- YSTAT (R119). -/
def ystatReg (p : Part) : Nat :=
  packFields [(1, p.yregs.busy.toNat), (7, 0), (8, p.yregs.res), (16, 0), (9, p.yelms.length), (23, 0)]

/-- ECCSTAT (R228). -/
def eccstatReg (m : Mgmt) : Nat :=
  packFields [(16, m.cesp.toNat), (16, m.celoft.toNat), (16, m.cehbm.toNat), (16, m.ue.toNat)]

/-- A context descriptor (R68). -/
def ctxReg (c : Context) : Nat :=
  packFields [(1, c.en.toNat), (1, c.priv.toNat), (1, c.fab.toNat), (5, 0), (7, c.gmax), (1, 0), (48, c.ptroot / 65536)]

/-- An outbound window (R358). -/
def windowReg (w : Window) : Nat := packFields [(64, w.base.toNat), (32, w.npg.toNat), (31, 0), (1, w.en.toNat)]

/-- CBASE (R339). -/
def cbaseReg (c : Context) : Nat := c.cbase.toNat + c.cerr.toNat

/-- The 64 bits at an offset of a port's privileged page, once READY is set: write-only fields and offsets without a
register read as zero (R6). -/
def pageReg (s : State) (port : Fin 2) (part : Fin 4) (off : Nat) : Nat :=
  let q := s.ports[port]
  let p := s.parts[part]
  if off < 0x400 then (if off % 16 = 0 then ctxReg q.ctx[Fin.ofNat 64 (off / 16)] else 0)
  else if 0x540 ≤ off && off < 0x5C0 then
    let w := windowReg q.obw[Fin.ofNat 8 ((off - 0x540) / 16)]
    if off % 16 = 0 then w % 2 ^ 64 else w / 2 ^ 64
  else if 0x900 ≤ off && off < 0x980 then (p.rsv[Fin.ofNat 16 ((off - 0x900) / 8)]).toNat
  else if 0xA00 ≤ off && off < 0xE00 then (fibstat s (Fin.ofNat 128 ((off - 0xA00) / 8))).toNat
  else if 0xE00 ≤ off && off < 0x1000 then cbaseReg q.ctx[Fin.ofNat 64 ((off - 0xE00) / 8)]
  else
    match off with
    | 0x400 => p.age
    | 0x408 => rstatReg s part
    | 0x420 => packFields [(32, (q.pstat[part]).1.toNat), (3, (q.pstat[part]).2), (29, 0)]
    | 0x430 => dstatReg s part
    | 0x450 => 0x40
    | 0x508 => p.yregs.addr.toNat
    | 0x510 => p.yregs.hash.toNat % 2 ^ 64
    | 0x518 => p.yregs.hash.toNat / 2 ^ 64
    | 0x520 => ystatReg p
    | 0x600 => (q.icinv[part]).isSome.toNat * 2 ^ 63
    | 0x610 => q.xinv.toNat * 2 ^ 63
    | 0x700 => q.hqbase.toNat
    | 0x708 => packFields [(32, q.hqhead.toNat), (32, q.hqtail.toNat)]
    | 0x710 => packFields [(32, q.hthr.toNat), (32, q.hqdrop.toNat)]
    | 0x718 => q.hnvec.toNat
    | 0x780 => eccstatReg s.mgmt
    | 0x800 => packFields [(11, s.fabric.index), (8, s.fabric.hall), (45, 0)]
    | 0x808 => p.rtbase.toNat
    | 0x810 => packFields [(20, p.nrank), (12, 0), (20, p.ownrank), (12, 0)]
    | 0x820 => packFields [(1, p.repEn.toNat), (14, 0), (13, p.repBase), (36, 0)]
    | 0x828 => packFields [(48, p.swc), (1, p.cur.toNat), (1, p.armed.toNat), (14, 0)]
    | _ => 0

/-- The reset value of the 64 bits at an offset; a FIBSTAT resets to WIDTH 16 and no more (R305). -/
def resetReg (port : Fin 2) (part : Fin 4) (off : Nat) : Nat :=
  if 0xA00 ≤ off && off < 0xE00 then 16 else pageReg State.reset port part off

/-- What a host reads: until READY of the partition every register but DSTAT reads as its reset value (R353). -/
def readPage (s : State) (port : Fin 2) (part : Fin 4) (off : Nat) : W64 :=
  BitVec.ofNat 64 (if partReady s part || off == 0x430 then pageReg s port part off else resetReg port part off)

/-- The 64 bits at an offset of a context's launch window (R70); until READY its counts read 0 (R353). -/
def readWindow (s : State) (port : Fin 2) (ctx : Fin 64) (off : Nat) : W64 :=
  let c := s.ports[port].ctx[ctx]
  if !partReady s (partOfCtx s ctx) then 0
  else if off = 0x40 then BitVec.ofNat 64 (packFields [(32, c.lcnt.toNat), (32, c.ldone.toNat)])
  else if off = 0x48 then c.lref.setWidth 64
  else if 0x100 ≤ off ∧ off < 0x200 then
    let e := (c.stat[Fin.ofNat 16 ((off - 0x100) / 16)]).toNat
    BitVec.ofNat 64 (if off % 16 = 0 then e % 2 ^ 64 else e / 2 ^ 64)
  else 0

/-! ## Plain register writes (R6, R92, R119, R226, R291, R308, R339) -/

/-- A graph of the device holds a live fabric or collective op (R291). -/
def fabricBusy (s : State) : Bool := s.ops.any fun o => o.status.isLive && (o.chan == 6 || o.chan == 7)

/-- A write of CBASE: ERR is cleared by a 1, BASE is written (R339). -/
def writeCbase (v : Nat) (c : Context) : Context :=
  { c with cerr := c.cerr && !bitOf v 0, cbase := BitVec.ofNat 64 (bitsOf v 14 29 * 2 ^ 14) }

/-- REGISTER_WRITE: a register of the privileged page with no behaviour of its own. A write to a read-only register or to
an offset without one is ignored, and so is any before READY (R6, R353). -/
def execRegisterWrite (port : Fin 2) (part : Fin 4) (off : Nat) (v : BitVec 128) (s : State) : Out :=
  let w := v.toNat
  let lo := BitVec.ofNat 64 w
  let onPart (f : Part → Part) : Out := .next (s.updPart part f)
  let onPort (f : Port → Port) : Out := .next (s.updPort port f)
  if !partReady s part then .next s
  else if 0xE00 ≤ off && off < 0x1000 && off % 8 == 0 then
    .next (s.updContext port (Fin.ofNat 64 ((off - 0xE00) / 8)) (writeCbase w))
  else
    match off with
    | 0x400 => onPart fun p => { p with age := if w % 256 = 0 then p.age else w % 256 }
    | 0x508 => onPart fun p => { p with yregs := { p.yregs with addr := lo } }
    | 0x510 => onPart fun p => { p with yregs := { p.yregs with hash := v } }
    | 0x700 => onPort fun p => { p with hqbase := lo }
    | 0x708 => onPort fun p => { p with hqhead := BitVec.ofNat 12 w }
    | 0x710 => onPort fun p => { p with hthr := BitVec.ofNat 16 w }
    | 0x718 => onPort fun p => { p with hnvec := BitVec.ofNat 64 (bitsOf w 0 12 + bitsOf w 32 10 * 2 ^ 32) }
    | 0x808 =>
      if fabricBusy s then .next s
      else onPart fun p => { p with rtbase := BitVec.ofNat 64 (bitsOf w 16 48 * 65536) }
    | 0x810 =>
      if fabricBusy s then .next s else onPart fun p => { p with nrank := bitsOf w 0 20, ownrank := bitsOf w 32 20 }
    | 0x820 => onPart fun p => { p with repEn := bitOf w 0, repBase := bitsOf w 15 13 }
    | _ => .next s

/-- HQDROP_WRITE: any value clears it (R226). -/
def execHqdropWrite (port : Fin 2) (s : State) : Out :=
  .next (if deviceReady s then s.updPort port fun p => { p with hqdrop := 0 } else s)

/-- ECCSTAT_WRITE: any value clears all four fields (R228). -/
def execEccstatWrite (s : State) : Out :=
  .next (if deviceReady s then { s with mgmt := { s.mgmt with cesp := 0, celoft := 0, cehbm := 0, ue := 0 } } else s)

/-- OUTBOUND_WINDOW_WRITE: through the port itself (R358). -/
def execOutboundWindowWrite (port : Fin 2) (n : Fin 8) (base : W64) (npg : W32) (en : Bool) (s : State) : Out :=
  .next (if deviceReady s then
    s.updPort port fun p => { p with obw := p.obw.set n ⟨base &&& 0xFFFFFFFFFFFF0000, npg, en⟩ } else s)

/-! ## Stacks (R361, R363) -/

/-- Images past the store's limit are discarded, once they have no users (R363). -/
def trimStore (s : State) : State :=
  (List.finRange 4).foldl (fun s part =>
    let l := (s.parts[part]).yelms
    if storeLimit s < l.length then
      let extra := (l.drop (storeLimit s)).map (·.id)
      onYelms part (displace fun y => extra.contains y.id) s
    else s) s

/-- STKRET: with bit 63 set the stack is retired: every access or walk that reaches it raises PAGE_PERMISSION (R361). -/
def execStkret (v : W64) (s : State) : Out :=
  let k := bitsOf v.toNat 0 4
  if deviceReady s && bitOf v.toNat 63 && k < 12 && !s.mgmt.retired.contains k then
    .next (trimStore { s with mgmt := { s.mgmt with retired := k :: s.mgmt.retired } })
  else .next s

/-! ## ECC (R228, R229) -/

/-- Memory with ECC: HBM, the Loft and the scratchpads. -/
inductive EccKind
  | spad | loft | hbm
  deriving DecidableEq, Repr, Inhabited

/-- Which memory of the device a key lies in. DESIGN CHOICE: an error in a logical Loft bank that resides in HBM counts as one
of the Loft (notes/assumptions/103.md). -/
def eccKind (key : Nat) : Option EccKind :=
  if key < Config.hbmBytes then some .hbm
  else if 2 ^ 40 ≤ key && key < 2 ^ 40 + 2 ^ 30 then some .loft
  else if 2 ^ 41 ≤ key && key < 2 ^ 41 + 640 * 2 ^ 21 then some .spad
  else none

/-- One more, saturating (R228). -/
def eccInc (v : BitVec 16) : BitVec 16 := if v = 0xFFFF then v else v + 1

/-- One corrected error more (R228). -/
def countCorrected (k : EccKind) (m : Mgmt) : Mgmt :=
  match k with
  | .spad => { m with cesp := eccInc m.cesp }
  | .loft => { m with celoft := eccInc m.celoft }
  | .hbm => { m with cehbm := eccInc m.cehbm }

/-- A count of some more, saturating (R228). -/
def eccAdd (v : BitVec 16) (n : Nat) : BitVec 16 := BitVec.ofNat 16 (min 65535 (v.toNat + n))

/-- The reads of a cycle correct soft errors, and count them. Which reads meet one is nothing that the spec fixes: how many do
is a free value, and what they read is as it was (R228, notes/assumptions/77.md). -/
def countSoft (s : State) : State :=
  if s.mgmt.ready then
    let n := Config.softErrors s.cycle
    { s with mgmt := { s.mgmt with
      cesp := eccAdd s.mgmt.cesp n.1, celoft := eccAdd s.mgmt.celoft n.2.1, cehbm := eccAdd s.mgmt.cehbm n.2.2 } }
  else s

/-- MEM_UE: the aligned word is poisoned, and firmware receives a machine-check (R229). The accesses of streams that are under
way to the word, and no longer stood at, are performed before it is marked, so that each later one finds the poison as it issues
and faults precisely (R229, R322; DEDUCED, notes/assumptions/93.md). -/
def execMemUe (addr : Nat) (s : State) : Out :=
  match eccKind addr with
  | none => .fault .noSuchAddress
  | some _ =>
    let w := addr / 8 * 8
    let s := settleWord w (unitsLeft s) s
    .next { s with
      poison := if s.poison.contains w then s.poison else w :: s.poison
      mgmt := { s.mgmt with ue := eccInc s.mgmt.ue }
      outputs := s.outputs ++ [.machineCheck w] }

/-- SCRUB: a poisoned word only counts; a soft error, which there may or may not be, is corrected, counted and written
back, so that the word reads as before (R228, R229). -/
def execScrub (addr : Nat) (s : State) : Out :=
  match eccKind addr with
  | none => .fault .noSuchAddress
  | some k =>
    if s.poison.contains (addr / 8 * 8) then .next { s with mgmt := { s.mgmt with ue := eccInc s.mgmt.ue } }
    else
      let (v, s) := s.takeFree
      .next (if v.getLsbD 0 then { s with mgmt := countCorrected k s.mgmt } else s)

/-! ## A host's memory accesses (R78) -/

/-- The key of an address that a host names: HBM by its physical address, or from 2^64 on the host's own memory by bus
address. -/
def hostAddrKey (port : Fin 2) (addr n : Nat) : Option Nat :=
  if addr + n ≤ Config.hbmBytes then some addr
  else if 2 ^ 64 ≤ addr && addr + n ≤ 2 ^ 65 then some (hostKey port.val (addr - 2 ^ 64))
  else none

/-- The bytes lie in the rank table of a partition (R291). -/
def inRankTable (s : State) (key n : Nat) : Bool :=
  s.parts.toList.any fun p => p.used && p.rtbase.toNat ≤ key && key + n ≤ p.rtbase.toNat + 4 * p.nrank

/-- A host may not reach a retired stack, nor reserved HBM but for a rank table there, which firmware writes for it (DESIGN
CHOICE, notes/assumptions/76.md). -/
def hostMayReach (s : State) (key n : Nat) : Bool :=
  let last := key + n - 1
  Config.hbmBytes ≤ key || n == 0 ||
    (((!reservedHbm key && !reservedHbm last) || inRankTable s key n) && !s.onRetired key && !s.onRetired last)

/-- HOST_MEMORY_ACCESS: the bytes are written, or as many are read and go to the host; a part of a poisoned word cannot be
written (R78, R229). -/
def execHostMemoryAccess (port : Fin 2) (write : Bool) (addr : Nat) (bytes : List Byte) (s : State) : Out :=
  match hostAddrKey port addr bytes.length with
  | none => .fault .noSuchAddress
  | some key =>
    if !hostMayReach s key bytes.length || !deviceReady s then .next s
    else if write then
      if s.partPoison key bytes.length then .next s else .next (s.store key bytes)
    else .next { s with outputs := s.outputs ++ [Output.hostRead port.val addr (s.mem.readN key bytes.length)] }

/-! ## Power-on (R353 to R355) -/

/-- The mapping of a partition as its health checks find it (R13, R15). -/
def buildMap (part : Fin 4) (s : State) : State :=
  let new := usableMap s part
  let banks := usableBanks s part
  s.updPart part fun p => if p.used then { p with map := new, banks := banks, short := new.length < 10 } else p

/-- Boot fails: recovery (R354). -/
def bootFails (code : Nat) (s : State) : State :=
  { s with mgmt := { s.mgmt with phase := 6, fail := code } }

/-- Phase 0: the boot ROM verifies the firmware image (R355). -/
def bootRom (s : State) : State :=
  if !Config.signed s.mgmt.image then bootFails 1 s
  else if s.mgmt.isvn < s.mgmt.fuse then bootFails 2 s
  else { s with mgmt := { s.mgmt with phase := 1 } }

/-- Phase 3: HBM, scratchpad and Loft are written with zero and valid ECC; the hosts' own memory is not the device's. -/
def clearMemory (s : State) : State := { s with mem := s.mem.filter (fun e => 2 ^ 65 ≤ e.1), poison := [] }

/-- The health checks of the cores and dies (R12, R353). -/
def healthChecks (s : State) : State :=
  { s with
    cores := Vector.ofFn fun i : Fin 640 => { s.cores[i] with failed := s.cores[i].failed || Config.coreFails (s.free + i.val) }
    mgmt := { s.mgmt with badDies := (List.range 4).filter fun d => Config.dieFails (s.free + d) }
    free := s.free + 640 }

/-- Phase 4: health checks, the mapping, and COURSE, for which the phase waits until a source is available (R13, R290). -/
def bootMapping (s : State) : State :=
  match courseSource s with
  | none => s
  | some n =>
    let s := healthChecks s
    let s := [0, 1, 2, 3].foldl (fun s p => buildMap p s) s
    let s := { s with fabric := { s.fabric with course := BitVec.ofNat 48 n, set := true } }
    if s.mgmt.pmode = 0 ∧ !mapReady s 0 then bootFails 3 s else { s with mgmt := { s.mgmt with phase := 5 } }

/-- Phase 2: the receivers find the flashing interval, and cycle 0 of the courses is placed at the start of the dark period
as the rotors present it: a free value (R290). -/
def placeCourse (s : State) : State :=
  let (v, s) := s.takeFree
  { s with fabric := { s.fabric with began := s.cycle - v.toNat % Config.courseCycles } }

/-- Phase 2: the self-calibration of the fibres. A wavelength that fails it is lost to the fibre's width, and a fibre without its laser module has none (R303, R353, R360). -/
def calibrate (s : State) : State :=
  { s with
    fabric := { s.fabric with fibres := Vector.ofFn fun i : Fin 128 =>
      let w := if fibreLit s i then 16 - (Config.wavesFail (s.free + i.val)).val else 0
      { s.fabric.fibres[i] with width := w, next := w } }
    free := s.free + 128 }

/-- READY in mid-course: the slots whose times have passed go unused (R289, R294). -/
def placeSlots (s : State) : State :=
  { s with fabric := { s.fabric with fibres := s.fabric.fibres.map fun q =>
      { q with slot := firstSlotFrom (s.cycle - s.fabric.began) q.width } } }

/-- POWER_ON: the work of the present phase, and the next phase (R353). -/
def execPowerOn (s : State) : Out :=
  .next (
    if s.mgmt.tripped || s.mgmt.ready then s
    else
      match s.mgmt.phase with
      | 0 => bootRom s
      | 1 => { s with mgmt := { s.mgmt with phase := 2, svn := s.mgmt.isvn } }
      | 2 =>
        let ok := Config.hbmTrains s.free
        let s := calibrate (placeCourse { s with free := s.free + 1 })
        if ok then { s with mgmt := { s.mgmt with phase := 3 } } else bootFails 4 s
      | 3 => { clearMemory s with mgmt := { s.mgmt with phase := 4 } }
      | 4 => bootMapping s
      | 5 => placeSlots { s with mgmt := { s.mgmt with ready := true } }
      | _ => s)

/-- The device as it stands when it starts again at phase 0: what its cabling, its laser modules, its fuses and the image hold
stays, and so does the hosts' own memory (R357, R360). -/
def restartAt (image ucode : List Byte) (isvn : W32) (tripped : Bool) (s : State) : State :=
  { State.reset with
    cycle := s.cycle
    free := s.free
    nextOid := s.nextOid
    inputs := s.inputs
    outputs := s.outputs
    mem := s.mem.filter (fun e => 2 ^ 65 ≤ e.1)
    cores := s.cores.map fun k => { Core.reset with failed := k.failed }
    fabric := { Fabric.reset with
      began := s.cycle, index := s.fabric.index, hall := s.fabric.hall
      fibres := s.fabric.fibres.map fun q => { Fibre.reset with lit := q.lit } }
    mgmt := { Mgmt.reset with fuse := s.mgmt.fuse, image := image, isvn := isvn, ucode := ucode, tripped := tripped } }

/-- THERMAL_TRIP: the clocks stop, and all state of the device is lost (R357). -/
def execThermalTrip (s : State) : Out := .next (restartAt s.mgmt.image s.mgmt.ucode s.mgmt.isvn true s)

/-- THERMAL_RESTART: the device starts at phase 0, with nothing of what reached it while its clocks stood (R357). -/
def execThermalRestart (s : State) : Out :=
  .next (if s.mgmt.tripped then restartAt s.mgmt.image s.mgmt.ucode s.mgmt.isvn false s else s)

/-- Recovery: boot has failed, or every partition has lost its clusters since (R354). DESIGN CHOICE: one partition in recovery
beside others that run does not restart the device, which holds them too (notes/assumptions/123.md). -/
def inRecovery (s : State) : Bool :=
  s.mgmt.phase == 6 || (s.mgmt.ready && (List.finRange 4).all fun p => !(s.parts[p]).used || partShort s p)

/-- RECOVERY_IMAGE: in recovery the image is taken, and the device restarts at phase 0 (R354). -/
def execRecoveryImage (image : List Byte) (svn : W32) (s : State) : Out :=
  .next (if inRecovery s then restartAt image s.mgmt.ucode svn false s else s)

/-! ## Trust and updates (R355, R356, R359) -/

/-- Firmware is running. -/
def firmwareRuns (s : State) : Bool := 2 ≤ s.mgmt.phase && s.mgmt.phase ≤ 5 && !s.mgmt.tripped

/-- FUSE_RAISE: on a host's request, and never down (R355). -/
def execFuseRaise (v : W32) (s : State) : Out :=
  .next (if firmwareRuns s && s.mgmt.fuse < v then { s with mgmt := { s.mgmt with fuse := v } } else s)

/-- An update verifies as the boot image does (R355, R359). -/
def updateGood (s : State) (image : List Byte) (svn : W32) : Bool := Config.signed image && s.mgmt.fuse ≤ svn

/-- Updates that wait activate once no die is being drained: the firmware's at once, the microcode's at a slot boundary,
after which at most 4,096 cycles pass without a slot (R359). -/
def activateUpdates (s : State) : State :=
  if s.mgmt.draining ≠ [] then s
  else
    let now (u : Bool × List Byte × W32) : Bool := !u.1 || s.cycle % 2 == 0
    (s.mgmt.updates.filter now).foldl (fun s u =>
      let m := { s.mgmt with updates := s.mgmt.updates.erase u }
      if u.1 then
        let (v, s) := { s with mgmt := m }.takeFree
        { s with mgmt := { s.mgmt with ucode := u.2.1, slotHold := s.cycle + v.toNat % 4097 } }
      else { s with mgmt := { m with image := u.2.1, isvn := u.2.2, svn := u.2.2 } }) s

/-- A verified update waits for its moment. -/
def requestUpdate (micro : Bool) (image : List Byte) (svn : W32) (s : State) : State :=
  if firmwareRuns s && updateGood s image svn then
    activateUpdates { s with mgmt := { s.mgmt with updates := s.mgmt.updates ++ [(micro, image, svn)] } }
  else s

/-- FIRMWARE_UPDATE (R359). -/
def execFirmwareUpdate (image : List Byte) (svn : W32) (s : State) : Out := .next (requestUpdate false image svn s)

/-- MICROCODE_UPDATE (R359). -/
def execMicrocodeUpdate (image : List Byte) (svn : W32) (s : State) : Out := .next (requestUpdate true image svn s)

/-- What an attestation report covers: the nonce, the SHA-256 digest of each image that runs, SVN, LMAP, DSTAT and the
partition layout (R356). -/
def attestedBytes (s : State) (nonce : List Byte) : List Byte :=
  nonce ++ toBytes 32 (Config.sha256 s.mgmt.image).toNat ++ toBytes 32 (Config.sha256 s.mgmt.ucode).toNat ++ toBytes 4 s.mgmt.svn.toNat ++
  ([0, 1, 2, 3] : List (Fin 4)).flatMap fun p =>
    let q := s.parts[p]
    toBytes 8 (packFields [(1, q.oneToOne.toNat), (2, s.mgmt.pmode), (2, p.val), (11, 0), (8, q.map.length), (8, 0), (32, q.mapGen)]) ++
    toBytes 8 (dstatReg s p) ++ toBytes 1 q.used.toNat ++ q.dies.flatMap (toBytes 1)

/-- ATTESTATION_REQUEST: firmware signs a report over a nonce of 32 bytes: what it covers, and the signature of 29,792 bytes
(R356, notes/assumptions/115.md). -/
def execAttestationRequest (nonce : List Byte) (s : State) : Out :=
  .next (if firmwareRuns s && nonce.length == 32 then
    let covered := attestedBytes s nonce
    { s with outputs := s.outputs ++ [.report (covered ++ (Config.attest covered).toList)] } else s)

/-! ## The power clamp (R357) -/

/-- POWER_CLAMP: from now on these cores' math streams and engines have no issue slots, and the others have theirs. -/
def execPowerClamp (cores : List CoreId) (s : State) : Out :=
  .next { s with cores := Vector.ofFn fun i : Fin 640 => { s.cores[i] with held := cores.contains i } }

/-! ## Partitions (R20) -/

/-- The dies of a partition under a layout: 0 whole, 1 halves, 2 quarters. -/
def layoutDies (mode : Nat) (p : Nat) : List Nat :=
  match mode with
  | 0 => if p = 0 then [0, 1, 2, 3] else []
  | 1 => if p < 2 then [2 * p, 2 * p + 1] else []
  | _ => [p]

/-- A partition of a layout, as the hardware stands. -/
def newPart (mode : Nat) (p : Fin 4) (s : State) : State :=
  let dies := layoutDies mode p.val
  let s := s.updPart p fun q => { Part.reset with used := dies ≠ [], dies := dies, mapGen := (q.mapGen + 1) % 2 ^ 32 }
  buildMap p s

/-- Of the open contexts with FAB that a device or partition is offered, one keeps it: the first by port and number (R68).
DESIGN CHOICE: contexts stay open under a new layout, and the spec does not say which keeps FAB
(notes/assumptions/105.md). -/
def settleFab (s : State) : State :=
  (List.finRange 2).reverse.foldl (fun s p => (List.finRange 64).reverse.foldl (fun s n =>
    if (s.ports[p].ctx[n]).en && (s.ports[p].ctx[n]).fab && fabTaken s p n then s.updContext p n fun c => { c with fab := false } else s) s) s

/-- PARTITION: while the device holds no graphs (R20). -/
def execPartition (mode : Fin 3) (s : State) : Out :=
  .next (if firmwareRuns s && s.graphs.isEmpty then
    settleFab ([0, 1, 2, 3].foldl (fun s p => newPart mode.val p s) { s with mgmt := { s.mgmt with pmode := mode.val } })
    else s)

/-! ## Die drain and return (R18) -/

/-- The fibres of a die. -/
def dieFibres (d : Fin 4) : List (Fin 128) := (List.finRange 128).filter fun f => fibreDie f.val == d.val

/-- The cores of a die. -/
def dieCores (d : Fin 4) : List CoreId := (List.finRange 640).filter fun c => dieOf c == d

/-- DIE_DRAIN: dispatch to the die stops, its tasks are evicted, and its fibres leave the calendar at the next course
boundary. FORCED_CUT goes on: once the die's pages are migrated and its stacks retired, those that the change of the mapping
moves are evicted too, and it changes (R18, R330, R361). A die that was about to return stays drained. -/
def execDieDrain (d : Fin 4) (s : State) : Out :=
  if !firmwareRuns s || !dieMapped s d.val then .next s
  else
    let m := s.mgmt
    let s := { s with mgmt := { m with
      draining := if m.drained.contains d.val then m.draining else m.draining ++ [d.val]
      returning := m.returning.filter (· != d.val) } }
    let s := (dieFibres d).foldl (fun s f => s.updFibre f fun q => { q with next := 0, retrain := false }) s
    .next (requestEvict (dieCores d) s)

/-- DIE_RETURN: the steps of a drain in reverse: its fibres join the calendar, the mapping changes with its clusters and
banks, and then its stacks come back (R18). FORCED_CUT goes on with it. -/
def execDieReturn (d : Fin 4) (s : State) : Out :=
  if !firmwareRuns s || !s.mgmt.drained.contains d.val || s.mgmt.returning.contains d.val then .next s
  else
    let s := { s with mgmt := { s.mgmt with returning := s.mgmt.returning ++ [d.val] } }
    let s := (dieFibres d).foldl (fun s f =>
      if fibreLit s f then s.updFibre f fun q => { q with next := 16 } else s) s
    .next (requestEvict (dieCores d ++ movedHosts s) s)

end Sys2Proof.Machine
end

