-- ==== Sys2Proof/Machine/Clock.lean ====
section
/-! DEFINITION. The clock: what a stream does at its turn (R121, R122, R136), what passes from one cycle to the next, and
which agents move in a cycle. An event whose moment the spec does not architect moves when the free value says so
(notes/assumptions/2.md). -/

namespace Sys2Proof.Machine

open Sys2Proof

/-! ## The turn of a stream -/

/-- What a stream's turn comes to: a state in which it executed nothing, or an instruction to execute. -/
inductive Turned
  | rest (s : State)
  | run (i : Instr) (s : State)
  deriving Inhabited

/-- The streams of a core issue in this cycle: its task runs, or took a fault in this very cycle (R323). -/
def streamsRun (s : State) (c : CoreId) : Bool :=
  match (s.core c).run with
  | .running _ => true
  | .cutting _ at_ => at_ == s.cycle
  | _ => false

/-- A stream has a turn: it has not executed END, it awaits no place, no instruction of it that has issued holds it, and it has
not issued in this cycle (R122, R126, R161). -/
def hasTurn (s : State) (c : CoreId) (st : Stream) : Bool :=
  let q := (s.ctx c).strm st
  streamsRun s c && !q.ended && q.stalled.isNone && q.issuedAt != some s.cycle && !blocked (s.ctx c) st &&
    !(st == .math && (s.core c).held)

/-- The fault of a word that the decoder refuses (R136 orders 3 to 5). -/
def rejectCode : Reject → Nat
  | .illegalStream => cIllegalStream
  | _ => cIllegalOp

/-- A fault at the fetch. The line is asked for again when the stream comes back to it (R121). -/
def fetchFault (c : CoreId) (st : Stream) (code addr : Nat) (w : W32) (s : State) : State :=
  let s := { onStream c st (fun q => { q with miss := none, missCode := 0 }) s with focus := ⟨c, st, w, 0⟩ }
  let s := if code = cMemUe then onCache c st (fun l => l.filter fun e => e.addr != lineOf addr) s else s
  takeFault s { code := code, addr := BitVec.ofNat 64 addr }

/-- A stream waits for a line. -/
def awaitLine (c : CoreId) (st : Stream) (line : Nat) (s : State) : State :=
  onStream c st (fun q =>
    if q.miss = some (BitVec.ofNat 64 line) then q else { q with miss := some (BitVec.ofNat 64 line), missCode := 0 }) s

/-- The turn of a stream: it fetches and decodes (R121, R136). -/
def turnOf (c : CoreId) (st : Stream) (s : State) : Turned :=
  if !hasTurn s c st then .rest s
  else
    match fetch s c st with
    | .miss line => .rest (awaitLine c st line s)
    | .fault code addr w => .rest (fetchFault c st code addr w s)
    | .instr w w2 =>
      let s := touchWords c st { s with focus := ⟨c, st, w, w2⟩ }
      match decode st w.toNat w2.toNat with
      | .error e => .rest (takeFault s { code := rejectCode e })
      | .ok i => .run i s

/-! ## Who moves in a cycle -/

/-- An agent that may move, and whether it must. -/
structure Chance where
  turn : Turn
  must : Bool
  deriving DecidableEq, Repr, Inhabited

/-- An event that takes place in this cycle. -/
def must (i : Instr) : Chance := ⟨.event i, true⟩

/-- An event whose moment is not architected, with whether its latest moment has come. -/
def may (i : Instr) (latest : Bool := false) : Chance := ⟨.event i, latest⟩

/-- The agents of a list that move, from the n-th free value on. -/
def chosen (n : Nat) : List Chance → List Turn
  | [] => []
  | c :: cs => if c.must || Config.mayAct n then c.turn :: chosen (n + 1) cs else chosen (n + 1) cs

/-- The partitions in use. -/
def usedParts (s : State) : List (Fin 4) := (List.finRange 4).filter fun p => s.parts[p].used

/-- The logical core of the task that stands on a core. -/
def lcoreOf (s : State) (c : CoreId) : Nat := (((s.core c).run.slot?.bind s.findTask).map (·.lcore)).getD 0

/-- The cores on which a task stands, by ascending logical core: the order in which what they do in one cycle counts (R36,
R171, R300). -/
def busyCores (s : State) : List CoreId :=
  sortBy (lcoreOf s) ((List.finRange 640).filter fun c => (s.core c).run.slot?.isSome)

/-- The course, the boot phases and the keys (R289, R304, R308, R353). -/
def courseChances (s : State) : List Chance :=
  (if s.fabric.began + Config.courseCycles ≤ s.cycle then
    must .courseBoundary :: (usedParts s).map fun p => must (.replicaSwitch p) else []) ++
  (if s.mgmt.ready then [] else [may .powerOn]) ++
  ((List.finRange 128).filter fun f => (s.fabric.fibres[f]).rekey && (s.fabric.fibres[f]).newTx.isNone).map fun f =>
    let k := Config.linkKey (s.free + f.val)
    may (.keyInstall ⟨f, false, k.1, k.2⟩)

/-- The logical cores that a replay has traces for. -/
def tracedCores (s : State) (part : Fin 4) : List (Fin 640) :=
  (s.graphs.flatMap fun g =>
    if g.part = part.val then
      match replayYelm s g with
      | some y => y.traces.map fun e => coreOfNat e.lcore
      | none => []
    else []).eraseDups

/-- Ridge's slots, candidates and traced starts, which use no slot (R81, R84, R108, R111). -/
def ridgeChances (s : State) : List Chance :=
  ((usedParts s).flatMap fun p =>
    must (.candidateReady p) :: (if slotOpens s then [must (.dispatchSlot p)] else [])) ++
  (s.tasks.filter fun t => t.again.isSome).map (fun t => must (.cutResume t.slot)) ++
  (s.tasks.filter (wantsHandler s)).map (fun t => must (.handlerSpawn t.slot)) ++
  (s.tasks.filter fun t => t.st == .cutHeld || t.st == .walkFault).map (fun t => may (.cutStoreMove t.slot)) ++
  (if s.cycle % 2 = 0 then (usedParts s).flatMap fun p => (tracedCores s p).map fun l => must (.tracedStart l p) else [])

/-- Launches that wait (R72). -/
def launchChances (s : State) : List Chance :=
  (List.finRange 2).flatMap fun p => ((List.finRange 64).filter fun n => (s.ports[p].ctx[n]).queue != []).map
    fun n => may (.launchProcess p n)

/-- Some member of a start must have its scratchpad cleared: its streams start up to 1,024 cycles later (R96). -/
def clearsFirst (s : State) (t : Task) (at_ : Nat) : Bool :=
  (startMates s t at_).any fun u => (u.st == .running || u.again == some true) && needsClear s u

/-- The starts of streams (R93, R96). -/
def startChances (s : State) : List Chance :=
  (busyCores s).filterMap fun c =>
    match (s.core c).run with
    | .starting slot at_ =>
      if s.cycle < at_ + 32 then none
      else
        match s.findTask slot with
        | none => some (must (.streamsStart c))
        | some t => some (may (.streamsStart c) (!clearsFirst s t at_ || at_ + 1056 ≤ s.cycle))
    | _ => none

/-- The streams of a core start in this cycle at the earliest: they begin to fetch in it (R93). -/
def mayStart (s : State) (c : CoreId) : Bool :=
  match (s.core c).run with
  | .starting _ at_ => at_ + 32 ≤ s.cycle
  | _ => false

/-- Results that are written, entries that land, and stamps that are missed, on a core (R148, R151, R157). -/
def resultChances (s : State) (c : CoreId) : List Chance :=
  let x := s.ctx c
  (x.pend.filter fun p => p.first ≤ s.cycle).map (fun p => may (.resultWrite c) (p.bound ≤ s.cycle)) ++
  ((List.finRange 8).filter fun q => (x.strm .load).accs.any fun a => !a.open_ && match a.kind with
    | .fill q' _ => q' == q
    | _ => false).map (fun q => may (.entryLand c q)) ++
  (allStreams.filter fun st => (x.strm st).stamp.isSome).map fun st => must (.scheduleMiss c st)

/-- The turns of a core's streams, those first that wait for a place of an op. -/
def streamTurns (s : State) (c : CoreId) : List Chance :=
  if streamsRun s c || mayStart s c then
    ((allStreams.filter fun st => ((s.ctx c).strm st).stalled.isSome).map fun st => must (.opAccept c st)) ++
    [Stream.load, .math, .store, .ctl].map (fun st => (⟨.stream c st, true⟩ : Chance))
  else []

/-- A KMRG in flight on a core is written back, before the math stream's next turn (R266). -/
def mergeChances (s : State) (c : CoreId) : List Chance :=
  match (s.ctx c).kmrg with
  | some k => if k.first ≤ s.cycle then [may (.kmrgWriteback c) (k.bound ≤ s.cycle)] else []
  | none => []

/-- What is fetched for a core, and the accesses it has under way (R124, R311). -/
def accessChances (s : State) (c : CoreId) : List Chance :=
  let x := s.ctx c
  (allStreams.filter fun st => mayStart s c || (wantedLine s c st).isSome).map (fun st => must (.fetchRequest c st)) ++
  allStreams.flatMap fun st =>
    let n := (x.strm st).accs.length
    (List.range n).reverse.filterMap fun i =>
      match (x.strm st).accs[i]? with
      | some a => if a.units = [] then none else some (may (.accessPerformed c st i))
      | none => none

/-- The units of the live ops, their pulls and their waits. A core that the power clamp holds begins none (R168, R176,
R357). -/
def opChances (s : State) : List Chance :=
  s.ops.flatMap fun o =>
    if !o.status.isLive then []
    else
      (if (s.core (engineOf o)).held then []
      else
        match o.kind with
        | .copy .. => [may (.copyBurst o.oid), must (.copyOrderWaitExpired o.oid)]
        | .gather .. => [may (.gatherElement o.oid)]
        | .mma .. =>
          may (.kGroup o.oid) :: (if mayPull s o then
            ((List.range 8).map fun j => may (.opPull (coreOfNat (o.rights.pcore / 8 * 8 + j)) o.oid)) else [])
        | .zld .. | .zst .. => [may (.accumulatorRow o.oid)]
        | .fabric .. | .rred .. | .coll .. =>
          if (unreachable s o).isSome then [must (.fabricUnreachable o.oid)] else [])

/-- The ends of the live ops, after what their units have done in the cycle (R166, R177). -/
def opEndChances (s : State) : List Chance := (s.ops.filter (·.status.isLive)).map fun o => must (.opComplete o.oid)

/-- The pushes to mq and gq of the cores, whatever stands on them (R153). -/
def pushChances (s : State) : List Chance :=
  (List.finRange 640).flatMap fun c =>
    if (s.core c).held then []
    else
      (if drainsMove s c then [may (.enginePush c false)] else []) ++
      (if s.ops.any fun o => o.rights.pcore == c.val && pushesNow s o then [may (.enginePush c true)] else [])

/-- A core has not completed a forced cut, or one at TYLD, within 65,536 cycles of the cut event (R332). -/
def cutOverdue (s : State) (c : CoreId) : Bool :=
  match (s.core c).run with
  | .cutting slot at_ => at_ + 65536 < s.cycle && (s.findTask slot).any (·.forced) && !cutSettled s c slot
  | _ => false

/-- Walks and decrements, by ascending logical core (R36, R38). -/
def walkChances (s : State) : List Chance :=
  ((sortBy (lcoreOf s) ((s.tasks.filter fun t => t.st == .ending).map (·.pcore)).eraseDups).map
    fun c => must (.successorWalk c)) ++
  (s.decrs.filter (decrDue s)).map fun _ => must .counterDecrement

/-- Answers, cuts, and cores lost in a cut (R19, R195, R324, R331, R332). -/
def taskChances (s : State) : List Chance :=
  ((s.answers.filter fun a => a.at_ ≤ s.cycle).map fun a => must (.tsigAnswer a.core)) ++
  ((busyCores s).filter fun c => match (s.core c).run with
    | .cutting _ _ => true
    | _ => false).map (fun c => must (.cutComplete c)) ++
  ((busyCores s).filter (cutOverdue s)).map (fun c => must (.coreLost c)) ++
  (if s.evict != [] || s.saves != [] || s.graphs.any (fun g => g.pre != .running) || s.ops.any (goesOn s) then [must .forcedCut]
    else [])

/-- An agreement of a gang is over at a member: its barriers are complete, or their limit has passed (R115). -/
def gangChance (s : State) (g : Graph) : List Chance :=
  if g.joined.any (gangLate s) then [must (.gangAgreement g.handle 0 0 false false)]
  else
    match g.joined.bind fun _ => gangGave s g with
    | some (rev, join, held) => [must (.gangAgreement g.handle rev join held true)]
    | none => []

/-- The graphs: the STALL guard, the agreement of a gang, the yelm store, and retirement (R111, R115, R117, R337). -/
def graphChances (s : State) : List Chance :=
  (s.graphs.filter fun g => (replayYelm s g).isSome).map (fun g => must (.guardStall g.handle)) ++
  s.graphs.flatMap (gangChance s) ++
  ((usedParts s).flatMap fun p =>
    (if s.parts[p].yregs.busy then [may (.yelmCommandDone p)] else []) ++
    (if s.parts[p].refine = [] then [] else [may (.refinementPass p)])) ++
  (s.graphs.filter (·.ended.isSome)).map fun g =>
    may (.graphRetire g.handle) (g.ended.any fun e => e.1 + 4096 ≤ s.cycle)

/-- What comes to an op or an access from outside it, before the ops that end and the streams: the turns of held writes, and
the timeouts of graphs (R166, R227, R335, R336). -/
def heldChances (s : State) : List Chance :=
  ((heldRefs s).flatMap fun r => [must (.heldWriteRewalk r.key), must (.writeHoldExpired r.key)]) ++
  (s.graphs.filter fun g => 0 < g.tmo).map (fun g => must (.graphTimeout g.handle))

/-- Invalidations, fills and messages (R124, R126, R223, R226, R341). -/
def agentChances (s : State) : List Chance :=
  ((List.finRange 4).flatMap fun d => (List.range s.dies[d].fills.length).reverse.map fun k => may (.fetchFill d k)) ++
  ((List.finRange 2).flatMap fun p => (List.finRange 4).filterMap fun q =>
    (s.ports[p].icinv[q]).map fun i => may (.icinvComplete p q) (i.2 + 4096 ≤ s.cycle)) ++
  (s.invals.map fun v => may (.tinvComplete v.num)) ++
  ((List.finRange 2).flatMap fun p =>
    (List.finRange 64).flatMap fun n => ((s.ports[p].ctx[n]).notes.filter (·.2.2)).map
      fun e => must (.notifierMessage p n (Fin.ofNat 64 e.1)))

/-- The hot-page messages, after everything that may have written a notice (R226). -/
def hotChances (s : State) : List Chance :=
  ((List.finRange 2).filter fun p => s.ports[p].hnwait || s.ports[p].hqbase != 0).map fun p => must (.hotPageMessage p)

/-- The fabric (R244, R246, R297 to R302, R364). -/
def fabricChances (s : State) : List Chance :=
  (((List.finRange 128).filter (slotDue s)).flatMap fun f => [must (.valleyForward f), must (.battenSend f)]) ++
  ((s.fabric.replay.filter fun e => e.bad || e.course + 2 ≤ s.course).map fun e =>
    may (.battenRetransmit (Fin.ofNat 128 e.fibre) e.slot) (e.course + 2 ≤ s.course)) ++
  ((s.fabric.out.filter fun o => o.batten.dst.pos == s.position).map fun o =>
    may .internalDelivery (o.ready + Config.courseCycles ≤ s.cycle)) ++
  (s.fabric.seqs.flatMap fun q =>
    if q.head.isSome then [may (.commit q.src (Fin.ofNat 4 q.part) q.cls), must (.notifyHoldExpired q.src (Fin.ofNat 4 q.part) q.cls)]
    else []) ++
  ((usedParts s).filter fun p => s.fabric.rreds.any (·.1 == p.val)).map fun p => may (.reductionFold p)

/-- Everybody who may move in this cycle, in order. Ridge sees the hardware as the cycle before left it (R84, R99); then comes
the outside, and the launches before the operations of tasks (R36). What arrives, and the ops that end, come before the streams
(R166, R177, R212, R321); graphs retire last (R36). -/
def chances (s : State) : List Chance :=
  let busy := busyCores s
  let outside := (s.inputs.filter fun e => e.1 ≤ s.cycle).map fun e => must e.2
  if s.mgmt.ready then
    courseChances s ++ ridgeChances s ++ outside ++ launchChances s ++ startChances s ++
    fabricChances s ++ (s.notifies.map fun _ => may .landingNotify) ++
    opChances s ++ pushChances s ++ heldChances s ++ opEndChances s ++
    busy.flatMap (resultChances s) ++ busy.flatMap (streamTurns s) ++ busy.flatMap (mergeChances s) ++ walkChances s ++
    busy.flatMap (accessChances s) ++ taskChances s ++ agentChances s ++ graphChances s ++ hotChances s
  else courseChances s ++ outside

/-! ## From one cycle to the next -/

/-- The math stream of a traced task issued nothing while it waited for a token, an entry or an operand, or for the cycle of
its stamp in an ELASTIC frame. It does not wait for these while it has a line to fetch, a KMRG or a held write in flight, no
place for an op or no issue slots, nor for the cycle of a stamp in a STRICT frame (R106). -/
def stallsNow (s : State) (t : Task) : Bool :=
  let x := s.ctx t.pcore
  let q := x.strm .math
  t.traced.isSome && t.st == .running && (s.core t.pcore).run == .running t.slot && !(s.core t.pcore).held &&
    !q.ended && q.issuedAt != some s.cycle && q.miss.isNone && q.stalled.isNone && !blocked x .math &&
    !(gate s.cycle x q == .early && x.frmode == 2)

/-- An op waits for no access that has been performed. -/
def Op.pruned (s : State) (o : Op) : Op :=
  { o with after := o.after.filter fun e => ((s.ctx e.1).strm e.2.1).accs.any fun a => a.id == e.2.2 && a.open_ }

/-- What the end of a cycle counts: STALL of traced tasks, and the time of graphs that are not pre-empted (R106, R335). Ops
that have ended go, once their notifications are applied. -/
def endCycle (s : State) : State :=
  { s with
    tasks := s.tasks.map fun t => if stallsNow s t then { t with stall := t.stall + 1 } else t
    graphs := s.graphs.map fun g => if g.pre = .running && g.ended.isNone then { g with timed := g.timed + 1 } else g
    debts := s.debts.filter (·.live s)
    pubs := s.pubs.filter (·.seen == s.cycle)
    ops := (s.ops.map (Op.pruned s)).filter fun o => o.status.isLive || s.notifies.any (·.oid == o.oid) || match o.doneAt with
      | some n => s.cycle ≤ n + 1
      | none => true }

/-- The next cycle, before anybody moves in it. The graphs that retire in it do so first (R337, R343), and the members of a gang
whose first barrier is complete begin the second (R115). -/
def nextCycle (s : State) : State :=
  if s.mgmt.tripped then { s with cycle := s.cycle + 1 }
  else gangSeconds (markEnded (trimStore (activateUpdates (countSoft { endCycle s with cycle := s.cycle + 1 }))))

/-- The next cycle: who moves in it, and in which order. While the clocks are stopped only the outside moves (R357). -/
def tick (s : State) : State :=
  let s := nextCycle s
  let due := s.inputs.filter fun e => e.1 ≤ s.cycle
  let l := if s.mgmt.tripped then due.map fun e => must e.2 else chances s
  { s with agenda := chosen s.free l, free := s.free + l.length, inputs := s.inputs.filter fun e => s.cycle < e.1 }

/-! ## An instruction placed for the next step -/

/-- The stream whose map reads a word of the opcode table, in decodeTableWord's order. -/
def tableStream (lo hi : Nat) : Stream :=
  match decode .ctl lo hi, decode .math lo hi, decode .load lo hi with
  | .ok _, _, _ => .ctl
  | _, .ok _, _ => .math
  | _, _, .ok _ => .load
  | _, _, _ => .store

/-- Core 0 works for a task: the one it works for, or slot 0. -/
def runningSlot (s : State) : Nat := ((s.core 0).run.slot?).getD 0

/-- Places the words of an instruction, and zeros after them, in the first line of an image at address 0 of a stream of
core 0, with that line in its instruction cache, and gives the stream the next turn. -/
def placeWords (lo hi : Nat) (s : State) : State :=
  let st := tableStream lo hi
  let x := (s.ctx 0).setStrm st { StreamSt.reset with lines := 1, ended := false }
  let s := s.setCore 0 { s.core 0 with ctx := x, run := .running (runningSlot s), held := false }
  let r := rightsOf s 0
  let l : ILine := ⟨r.port, r.ctx, 0, st, 0, toBytes 4 lo ++ toBytes 4 hi ++ List.replicate 120 0, []⟩
  let s := onCache 0 st (putLine l) s
  { s with agenda := .stream 0 st :: s.agenda }

end Sys2Proof.Machine
end

