-- ==== Sys2Proof/Machine/Branch.lean ====
section
/-! DEFINITION. Branches, jumps, loops and END in every stream (R185 to R188, R234, R267), and TRAP (R192). -/

namespace Sys2Proof.Machine

open Sys2Proof

/-- A conditional branch: when the condition holds, to its own address plus 4 × i (R185). -/
def branch (t : Tok) (a b : GReg) (i : Fin 4096) (cond : W64 → W64 → Bool) (s : State) : State :=
  issue t (planOf [a.val, b.val] fun _ s =>
    let x := s.ctx s.fcore
    if cond (x.gr a) (x.gr b) then .go s false (.jump ((x.strm s.fstr).pc + branch12 i)) else .go s false .seq) s

def execBeq (t : Tok) (a b : GReg) (i : Fin 4096) (s : State) : Out := .next (branch t a b i (fun x y => x == y) s)
def execBne (t : Tok) (a b : GReg) (i : Fin 4096) (s : State) : Out := .next (branch t a b i (fun x y => x != y) s)
def execBlt (t : Tok) (a b : GReg) (i : Fin 4096) (s : State) : Out := .next (branch t a b i BitVec.slt s)
def execBge (t : Tok) (a b : GReg) (i : Fin 4096) (s : State) : Out :=
  .next (branch t a b i (fun x y => !x.slt y) s)
def execBltu (t : Tok) (a b : GReg) (i : Fin 4096) (s : State) : Out := .next (branch t a b i BitVec.ult s)
def execBgeu (t : Tok) (a b : GReg) (i : Fin 4096) (s : State) : Out :=
  .next (branch t a b i (fun x y => !x.ult y) s)

/-- JAL: gD := its address + 4, then the branch (R186). -/
def execJal (t : Tok) (d : GReg) (i : Fin 131072) (s : State) : Out :=
  .next (issue t (planOf [d.val] fun _ s =>
    let pc := ((s.ctx s.fcore).strm s.fstr).pc
    .go (onCtx (·.setG d (pc + 4)) s) false (.jump (pc + branch17 i))) s)

/-- JALR: the target is read before gD is written; a target that is no multiple of 4 raises ALIGN (R186). -/
def execJalr (t : Tok) (d a : GReg) (i : Fin 4096) (s : State) : Out :=
  .next (issue t (planOf [d.val, a.val] fun _ s =>
    let x := s.ctx s.fcore
    let pc := (x.strm s.fstr).pc
    let to_ := x.gr a + branch12 i
    if aligned to_ 4 then .go (onCtx (·.setG d (pc + 4)) s) false (.jump to_)
    else .fault { code := cAlign, addr := to_ }) s)

/-- JMP in the load, store and math streams (R234, R267). -/
def jmp (t : Tok) (i : Fin 131072) (s : State) : State :=
  issue t (planOf [] fun _ s => .go s false (.jump (((s.ctx s.fcore).strm s.fstr).pc + branch17 i))) s

def execJmpLoadStore (t : Tok) (i : Fin 131072) (s : State) : Out := .next (jmp t i s)
def execJmpMath (t : Tok) (i : Fin 131072) (s : State) : Out := .next (jmp t i s)

/-- END: the stream issues nothing more in the task (R234). -/
def execEndLoadStore (t : Tok) (s : State) : Out :=
  .next (issue t (planOf [] fun _ s => .go (onStrm (fun q => { q with ended := true }) s) false .stay) s)

/-- END in the math stream: nothing can pop mq or gq any more, and their entries are discarded (R153, R267). -/
def execEndMath (t : Tok) (s : State) : Out :=
  .next (issue t (planOf [] fun _ s =>
    .go (onCtx (fun x => { x with mathEnd := true, mq := [], gq := [] })
      (onStrm (fun q => { q with ended := true }) s)) false .stay) s)

/-- Starts a loop on counter n, count times over the len words that follow (R187, R188). A counter active in another
stream is ILLEGAL_OP. -/
def startLoop (ix : Ix) (n : Fin 4) (count : W32) (len : Nat) (s : State) : Try :=
  let x := s.ctx s.fcore
  let l := x.lc[n]
  let b := (x.strm s.fstr).pc + 4
  let e := b + BitVec.ofNat 64 (4 * (len - 1))
  if l.active && l.owner != s.fstr then .fault { code := cIllegalOp }
  else if count = 0 then
    .go (s.setCtx s.fcore { x with lc := x.lc.set n { l with value := 0, owner := s.fstr, active := false } }) false
      (.past (e + 4))
  else .go (s.setCtx s.fcore { x with lc := x.lc.set n ⟨0, s.fstr, true, count, b, e, ix.id⟩ }) false .seq

/-- LOOP in the control stream: the count is bits 31:0 of gA (R187). -/
def execLoopControl (t : Tok) (n : Fin 4) (a : GReg) (l : Fin 4096) (s : State) : Out :=
  .next (issue t (planOf [a.val] fun ix s =>
    startLoop ix n (((s.ctx s.fcore).gr a).setWidth 32) l.val s) s)

/-- LOOP in the load and store streams (R187). -/
def execLoopLoadStore (t : Tok) (n : Fin 4) (a : AReg) (l : Fin 4096) (s : State) : Out :=
  .next (issue t (planOf [a.val] fun ix s =>
    startLoop ix n (((s.ctx s.fcore).ar s.fstr a).setWidth 32) l.val s) s)

/-- LOOP in the math stream: the count is bits 31:0 of lane 0, of a v register or of a popped entry (R187). -/
def execLoopMath (t : Tok) (n : Fin 4) (a : VSrc) (l : Fin 4096) (s : State) : Out :=
  .next (issue t (planOf [] fun ix s =>
    match readSrc s s.fcore a with
    | .empty => if ix.must then .wait else .fault { code := cQueueUnderflow }
    | .poison => .fault { code := cMemUe }
    | .ok v s => startLoop ix n v[0] l.val (onCtx (popQueues · (srcQueues [a])) s)) s)

/-- LOOPI: the count is in the word (R187). -/
def loopi (t : Tok) (n : Fin 4) (c l : Fin 1024) (s : State) : State :=
  issue t (planOf [] fun ix s => startLoop ix n (BitVec.ofNat 32 c.val) l.val s) s

def execLoopiControl (t : Tok) (n : Fin 4) (c l : Fin 1024) (s : State) : Out := .next (loopi t n c l s)
def execLoopiLoadStore (t : Tok) (n : Fin 4) (c l : Fin 1024) (s : State) : Out := .next (loopi t n c l s)
def execLoopiMath (t : Tok) (n : Fin 4) (c l : Fin 1024) (s : State) : Out := .next (loopi t n c l s)

/-- TRAP takes its tokens and makes its posts, and then raises USER_TRAP (R192). The pc stays at it: a resume continues
after it, by the SKIP of the fault record. -/
def execTrap (t : Tok) (_c : Fin 4194304) (s : State) : Out :=
  .next (issue t (planOf [] fun _ s' =>
    .go (raiseAt s' s'.fcore (instrFault s' { code := cUserTrap, skip := true })) false .stay) s)

end Sys2Proof.Machine
end

