-- ==== Sys2Proof/Machine/Vector.lean ====
section
/-! DEFINITION. The vector instructions of the math stream (13_vector_isa.md R252 to R264, with the numbers of
03_numbers.md) and the event RESULT_WRITE that writes their results (R148 to R150). -/

namespace Sys2Proof.Machine

open Sys2Proof

/-! ## The form of a vector instruction (R252) -/

/-- Several sources, read in field order. -/
inductive SrcsRes
  | ok (vs : List Vec) (s : State)
  | empty
  | poison
  deriving Inhabited

/-- Reads sources in field order; nothing is popped yet (R133). -/
def readSrcs (c : CoreId) : State → List VSrc → SrcsRes
  | s, [] => .ok [] s
  | s, a :: as =>
    match readSrc s c a with
    | .empty => .empty
    | .poison => .poison
    | .ok v s =>
      match readSrcs c s as with
      | .ok vs s => .ok (v :: vs) s
      | r => r

/-- A result to be written within a latency bound, with the flags it raises (R148, R252). -/
def addResult (d : VDst) (id : Nat) (v : Option Vec) (fl : Flags) (bound : Nat) (s : State) : State :=
  onCtx (fun x => { x with pend := x.pend ++ [⟨id, d, id, v, fl, s.cycle + 1, s.cycle + bound⟩] }) s

/-- A vector instruction: reads its sources at issue, pops the queues they name, reserves a place of its destination
queue, and writes its result within its bound, with its posts (R133, R145, R148, R151, R252). -/
def vecOp (t : Tok) (srcs : List VSrc) (d : VDst) (bound : Nat) (f : Ctx → List Vec → Vec × Flags) (s : State) :
    State :=
  issue t (planOf [] fun ix s =>
    match readSrcs s.fcore s srcs with
    | .empty => if ix.must then .wait else .fault { code := cQueueUnderflow }
    | .poison => .fault { code := cMemUe }
    | .ok vs s =>
      let x := s.ctx s.fcore
      if dstFull x d then (if ix.must then .wait else .fault { code := cQueueOverflow })
      else
        let (v, fl) := f x vs
        .go (addResult d ix.id (some v) fl bound
          (onCtx (fun x => reserveDst (popQueues x (srcQueues srcs)) d ix.id) s)) true .seq) s

/-- Applies a function to each lane of its sources; the flags of all lanes are merged. -/
def lanewise (g : List W32 → W32 × Flags) (vs : List Vec) : Vec × Flags :=
  let l := (List.finRange 64).map fun j => g (vs.map fun v => v[j])
  (vecOfWords (l.map (·.1)), (l.map (·.2)).foldl (· ||| ·) fNone)

/-- The number format of FMT (R253). -/
def fpFormat : FpFmt → Format
  | .f32 => fmtF32
  | .bf16 => fmtBF16
  | .f16 => fmtF16

/-- Applies a function of codes to each element of a lane: one FP32 value, or two halves computed apart (R49). -/
def perElem (fmt : FpFmt) (g : List Nat → Nat × Flags) (ws : List W32) : W32 × Flags :=
  if fmt = .f32 then
    let r := g (ws.map (·.toNat))
    (BitVec.ofNat 32 r.1, r.2)
  else
    let lo := g (ws.map (·.toNat % 65536))
    let hi := g (ws.map (·.toNat / 65536))
    (BitVec.ofNat 32 (lo.1 + 65536 * hi.1), lo.2 ||| hi.2)

/-- The first and second code of a list. -/
def arg (l : List Nat) (i : Nat) : Nat := l.getD i 0

/-! ## Floating point (R253 to R257) -/

/-- A rounding step of a vector instruction, with the NV of an invalid operation. -/
def roundOp (f : FpCtl) (x : Ctx) (v : Val × Bool) : Nat × Flags :=
  let r := roundVal (fpFormat f.fmt) (resolveRm x f.rm) f.fzo false v.1
  (r.1, r.2 ||| invalidFlags v.2)

/-- The value of an element after FZI (R57). -/
def elemIn (fmt : FpFmt) (fzi : Bool) (c : Nat) : Val := flushIn (fpFormat fmt) fzi (unpack (fpFormat fmt) c)

/-- A rounding instruction of two sources. -/
def fpBinary (t : Tok) (d : VDst) (a b : VSrc) (f : FpCtl) (bound : Nat) (g : Rm → Val → Val → Val × Bool)
    (s : State) : State :=
  vecOp t [a, b] d bound (fun x => lanewise (perElem f.fmt fun l =>
    roundOp f x (g (resolveRm x f.rm) (elemIn f.fmt f.fzi (arg l 0)) (elemIn f.fmt f.fzi (arg l 1))))) s

/-- FADD (R254). -/
def execFadd (t : Tok) (d : VDst) (a b : VSrc) (f : FpCtl) (s : State) : Out :=
  .next (fpBinary t d a b f 6 (fun rm x y => sumVals rm [x, y]) s)

/-- FSUB: the sum of x and −y (R50, R254). -/
def execFsub (t : Tok) (d : VDst) (a b : VSrc) (f : FpCtl) (s : State) : Out :=
  .next (fpBinary t d a b f 6 (fun rm x y => sumVals rm [x, y.neg]) s)

/-- FMUL (R254). -/
def execFmul (t : Tok) (d : VDst) (a b : VSrc) (f : FpCtl) (s : State) : Out :=
  .next (fpBinary t d a b f 6 (fun _ x y => mulVal x y) s)

/-- An instruction that does not round, on the codes of two sources. -/
def fpPlain2 (t : Tok) (d : VDst) (a b : VSrc) (f : FpCtlX) (g : Format → Nat → Nat → Nat) (s : State) : State :=
  vecOp t [a, b] d 6 (fun _ => lanewise (perElem f.fmt fun l => (g (fpFormat f.fmt) (arg l 0) (arg l 1), fNone))) s

/-- FMIN (R255). -/
def execFmin (t : Tok) (d : VDst) (a b : VSrc) (f : FpCtlX) (s : State) : Out :=
  .next (fpPlain2 t d a b f (fun g x y => minMaxCode g f.fzi false x y) s)

/-- FMAX (R255). -/
def execFmax (t : Tok) (d : VDst) (a b : VSrc) (f : FpCtlX) (s : State) : Out :=
  .next (fpPlain2 t d a b f (fun g x y => minMaxCode g f.fzi true x y) s)

/-- The code of a magnitude with a sign, a NaN canonical (R44, R254). -/
def signedCode (g : Format) (fzi : Bool) (x : Nat) (sign : Bool → Bool) : Nat :=
  match flushIn g fzi (unpack g x) with
  | .nan => g.nanCode
  | .inf n => (roundVal g .rne false false (.inf (sign n))).1
  | .fin n m e => (roundVal g .rne false false (.fin (sign n) m e)).1

/-- FABS (R254). -/
def execFabs (t : Tok) (d : VDst) (a : VSrc) (f : FpCtlX) (s : State) : Out :=
  .next (vecOp t [a] d 6 (fun _ => lanewise (perElem f.fmt fun l =>
    (signedCode (fpFormat f.fmt) f.fzi (arg l 0) (fun _ => false), fNone))) s)

/-- FNEG (R254). -/
def execFneg (t : Tok) (d : VDst) (a : VSrc) (f : FpCtlX) (s : State) : Out :=
  .next (vecOp t [a] d 6 (fun _ => lanewise (perElem f.fmt fun l =>
    (signedCode (fpFormat f.fmt) f.fzi (arg l 0) (fun n => !n), fNone))) s)

/-- FCPS: |x| with the sign of y; + when y is NaN (R254). -/
def execFcps (t : Tok) (d : VDst) (a b : VSrc) (f : FpCtlX) (s : State) : Out :=
  .next (fpPlain2 t d a b f (fun g x y => signedCode g f.fzi x (fun _ => (unpack g y).isNeg)) s)

/-- A comparison mask: all ones or zero; false with a NaN (R255). -/
def cmpMask (f : FpCtlX) (p : Int → Bool) (g : Format) (x y : Nat) : Nat :=
  let vx := flushIn g f.fzi (unpack g x)
  let vy := flushIn g f.fzi (unpack g y)
  if vx = .nan ∨ vy = .nan then 0 else if p (cmpVal vx vy) then 2 ^ g.width - 1 else 0

/-- FCEQ (R255). -/
def execFceq (t : Tok) (d : VDst) (a b : VSrc) (f : FpCtlX) (s : State) : Out :=
  .next (fpPlain2 t d a b f (cmpMask f fun i => i == 0) s)

/-- FCLT (R255). -/
def execFclt (t : Tok) (d : VDst) (a b : VSrc) (f : FpCtlX) (s : State) : Out :=
  .next (fpPlain2 t d a b f (cmpMask f fun i => i < 0) s)

/-- FCLE (R255). -/
def execFcle (t : Tok) (d : VDst) (a b : VSrc) (f : FpCtlX) (s : State) : Out :=
  .next (fpPlain2 t d a b f (cmpMask f fun i => i ≤ 0) s)

/-- A function of one source with its own result and flags (R256). -/
def fpFunction (t : Tok) (d : VDst) (a : VSrc) (f : FpCtl) (bound : Nat)
    (g : Format → Rm → Bool → Val → Nat × Flags) (s : State) : State :=
  vecOp t [a] d bound (fun x => lanewise (perElem f.fmt fun l =>
    g (fpFormat f.fmt) (resolveRm x f.rm) f.fzo (elemIn f.fmt f.fzi (arg l 0)))) s

def execFrcp (t : Tok) (d : VDst) (a : VSrc) (f : FpCtl) (s : State) : Out :=
  .next (fpFunction t d a f 12 rcpCode s)
def execFrsq (t : Tok) (d : VDst) (a : VSrc) (f : FpCtl) (s : State) : Out :=
  .next (fpFunction t d a f 12 rsqCode s)
def execFexp2 (t : Tok) (d : VDst) (a : VSrc) (f : FpCtl) (s : State) : Out :=
  .next (fpFunction t d a f 12 exp2Code s)
def execFlog2 (t : Tok) (d : VDst) (a : VSrc) (f : FpCtl) (s : State) : Out :=
  .next (fpFunction t d a f 12 log2Code s)
def execFsqrt (t : Tok) (d : VDst) (a : VSrc) (f : FpCtl) (s : State) : Out :=
  .next (fpFunction t d a f 20 sqrtCode s)

/-- The FMA family: the exact sum of ±d and ±(x × y), rounded once (R257). -/
def fpFused (t : Tok) (d : VReg) (a b : VSrc) (f : FpCtl) (negD negP : Bool) (s : State) : State :=
  vecOp t [.v d, a, b] (.v d) 8 (fun x => lanewise (perElem f.fmt fun l =>
    let vd := elemIn f.fmt f.fzi (arg l 0)
    let p := mulVal (elemIn f.fmt f.fzi (arg l 1)) (elemIn f.fmt f.fzi (arg l 2))
    let r := sumVals (resolveRm x f.rm) [if negD then vd.neg else vd, if negP then p.1.neg else p.1]
    roundOp f x (r.1, r.2 || p.2))) s

/-- FMA: d + x × y (R257). -/
def execFma (t : Tok) (d : VReg) (a b : VSrc) (f : FpCtl) (s : State) : Out :=
  .next (fpFused t d a b f false false s)
/-- FMS: x × y − d (R257). -/
def execFms (t : Tok) (d : VReg) (a b : VSrc) (f : FpCtl) (s : State) : Out :=
  .next (fpFused t d a b f true false s)
/-- FNMA: d − x × y (R257). -/
def execFnma (t : Tok) (d : VReg) (a b : VSrc) (f : FpCtl) (s : State) : Out :=
  .next (fpFused t d a b f false true s)

/-! ## Integers and selection (R258, R259) -/

/-- Element bits of a width (R258). -/
def iwBits : IWidth → Nat
  | .w32 => 32
  | .w16 => 16
  | .w8 => 8

/-- The functions of IOP on two elements of w bits (R258). -/
def iopFn (f : IopOp) (w a b : Nat) : Nat × Flags :=
  let m := 2 ^ w
  let sa := signedOf w a
  let sb := signedOf w b
  let mask (p : Bool) : Nat := if p then m - 1 else 0
  let sh := b % w
  match f with
  | .add => ((a + b) % m, wrapFlags w (sa + sb))
  | .sub => (wrapNat w (sa - sb), wrapFlags w (sa - sb))
  | .and => (a &&& b, fNone)
  | .or => (a ||| b, fNone)
  | .xor => (a ^^^ b, fNone)
  | .andn => (a &&& (m - 1 - b), fNone)
  | .shl => (a * 2 ^ sh % m, fNone)
  | .shr => (a / 2 ^ sh, fNone)
  | .sar => (wrapNat w (sa / ((2 ^ sh : Nat) : Int)), fNone)
  | .cmplt => (mask (sa < sb), fNone)
  | .cmpltu => (mask (a < b), fNone)
  | .min => (if sb < sa then b else a, fNone)
  | .max => (if sa < sb then b else a, fNone)
  | .minu => (min a b, fNone)
  | .maxu => (max a b, fNone)
  | .cmpeq => (mask (a == b), fNone)
  | .mul => (wrapNat w (sa * sb), wrapFlags w (sa * sb))
  | .mulh => (wrapNat w (sa * sb / (m : Int)), fNone)

/-- Applies a function to each of the n elements of w bits of a lane. -/
def perInt (w : Nat) (g : Nat → Nat → Nat × Flags) (a b : Nat) : Nat → Nat × Flags
  | 0 => (0, fNone)
  | n + 1 =>
    let r := perInt w g a b n
    let e := g (a / 2 ^ (w * n) % 2 ^ w) (b / 2 ^ (w * n) % 2 ^ w)
    (r.1 + e.1 * 2 ^ (w * n), r.2 ||| e.2)

/-- The bound of an IOP (R149). -/
def iopBound : IopOp → Nat
  | .mul | .mulh => 6
  | _ => 4

/-- IOP (R258). -/
def execIop (t : Tok) (h : IWidth) (f : IopOp) (d : VDst) (a b : VSrc) (s : State) : Out :=
  let w := iwBits h
  .next (vecOp t [a, b] d (iopBound f) (fun _ => lanewise fun l =>
    let r := perInt w (iopFn f w) (l.getD 0 0).toNat (l.getD 1 0).toNat (32 / w)
    (BitVec.ofNat 32 r.1, r.2)) s)

/-- SEL (R259). -/
def execSel (t : Tok) (d : VDst) (a b : VSrc) (m : VReg) (s : State) : Out :=
  .next (vecOp t [a, b, .v m] d 2 (fun _ => lanewise fun l =>
    let k := l.getD 2 0
    ((l.getD 0 0 &&& k) ||| (l.getD 1 0 &&& ~~~k), fNone)) s)

/-! ## Conversions (R260, R261) -/

/-- Writes n bits of v at place lo of a lane. -/
def insertBits (old : W32) (lo n v : Nat) : W32 :=
  BitVec.ofNat 32 (old.toNat - bitsOf old.toNat lo n * 2 ^ lo + v % 2 ^ n * 2 ^ lo)

/-- FP32 to a narrow format of n bits. -/
def cvtNarrow (g : Format) (rm : Rm) (m : CvtCtl) (a : W32) : Nat × Flags :=
  roundVal g rm m.fzo m.sat (flushIn fmtF32 m.fzi (f32 a))

/-- A narrow format to FP32: exact, so that FZO alone can change it (R55, R57). -/
def cvtWiden (g : Format) (rm : Rm) (m : CvtCtl) (c : Nat) : W32 × Flags :=
  let r := roundVal fmtF32 rm m.fzo false (flushIn g m.fzi (unpack g c))
  (BitVec.ofNat 32 r.1, r.2)

/-- FP32 to an integer of a range. -/
def cvtInt (rm : Rm) (m : CvtCtl) (lo hi : Int) (a : W32) : Int × Flags :=
  toIntSat rm lo hi (flushIn fmtF32 m.fzi (f32 a))

/-- A pair of CVT on the lanes of a, b and d (R261). -/
def cvtFn (p : CvtPair) (rm : Rm) (m : CvtCtl) (a b d : W32) : W32 × Flags :=
  let q := m.q.val
  let half (w : W32) : Nat := bitsOf w.toNat (16 * q) 16
  let byte (w : W32) : Nat := bitsOf w.toNat (8 * q) 8
  let nib (w : W32) : Nat := bitsOf w.toNat (4 * q) 4
  let two (g : Format) : W32 × Flags :=
    let lo := cvtNarrow g rm m a
    let hi := cvtNarrow g rm m b
    (BitVec.ofNat 32 (lo.1 + 65536 * hi.1), lo.2 ||| hi.2)
  let intoByte (r : Nat × Flags) : W32 × Flags := (insertBits d (8 * q) 8 r.1, r.2)
  let intByte (r : Int × Flags) : W32 × Flags := (insertBits d (8 * q) 8 (wrapNat 8 r.1), r.2)
  match p with
  | .bf16_f32 => two fmtBF16
  | .f16_f32 => two fmtF16
  | .f32_bf16 => cvtWiden fmtBF16 rm m (half a)
  | .f32_f16 => cvtWiden fmtF16 rm m (half a)
  | .fp8e4_f32 => intoByte (cvtNarrow fmtFP8e4 rm m a)
  | .fp8e5_f32 => intoByte (cvtNarrow fmtFP8e5 rm m a)
  | .f32_fp8e4 => cvtWiden fmtFP8e4 rm m (byte a)
  | .f32_fp8e5 => cvtWiden fmtFP8e5 rm m (byte a)
  | .fp6e3_f32 => intoByte (cvtNarrow fmtFP6e3 rm m a)
  | .fp6e2_f32 => intoByte (cvtNarrow fmtFP6e2 rm m a)
  | .fp4_f32 =>
    let r := cvtNarrow fmtFP4 rm m a
    (insertBits d (4 * q) 4 r.1, r.2)
  | .f32_fp6e3 => cvtWiden fmtFP6e3 rm m (byte a % 64)
  | .f32_fp6e2 => cvtWiden fmtFP6e2 rm m (byte a % 64)
  | .f32_fp4 => cvtWiden fmtFP4 rm m (nib a)
  | .int32_f32 =>
    let r := cvtInt rm m (-2147483648) 2147483647 a
    (BitVec.ofInt 32 r.1, r.2)
  | .f32_int32 => roundF32 rm m.fzo (Val.ofInt a.toInt)
  | .int8_f32 => intByte (cvtInt rm m (-128) 127 a)
  | .uint8_f32 => intByte (cvtInt rm m 0 255 a)
  | .int8_int32 => intByte (satInt (-128) 127 a.toInt)
  | .uint8_int32 => intByte (satInt 0 255 a.toInt)
  | .int32_int8 => (BitVec.ofInt 32 (signedOf 8 (byte a)), fNone)
  | .int32_uint8 => (BitVec.ofNat 32 (byte a), fNone)
  | .int32_int4 => (BitVec.ofInt 32 (signedOf 4 (nib a)), fNone)

/-- CVT (R260, R261): the insert forms read d. -/
def execCvt (t : Tok) (p : CvtPair) (d : VDst) (a b : VSrc) (m : CvtCtl) (s : State) : Out :=
  let third : List VSrc := match d with
    | .v r => if p.inserts then [.v r] else []
    | .oq _ => []
  let srcs := if p.packs then [a, b] else a :: third
  .next (vecOp t srcs d 8 (fun x => lanewise fun l =>
    cvtFn p (resolveRm x m.rm) m (l.getD 0 0) (l.getD 1 0) (l.getD 1 0)) s)

/-! ## Lanes (R262, R66) -/

/-- BCAST (R262). -/
def execBcast (t : Tok) (d : VDst) (a : VSrc) (lane : Fin 64) (s : State) : Out :=
  .next (vecOp t [a] d 6 (fun _ vs => (vecAll ((vs.getD 0 Vec.zero)[lane]), fNone)) s)

/-- PERM (R262). -/
def execPerm (t : Tok) (d : VDst) (a b : VSrc) (s : State) : Out :=
  .next (vecOp t [a, b] d 6 (fun _ vs =>
    let x := vs.getD 0 Vec.zero
    (Vector.map (fun (i : W32) => x[Fin.ofNat 64 i.toNat]) (vs.getD 1 Vec.zero), fNone)) s)

/-- One level of the tree: the lower lane is the left operand (R66). -/
def treeLevel (op : Nat → Nat → Nat × Flags) : List Nat → List Nat × Flags
  | a :: b :: r =>
    let e := op a b
    let rest := treeLevel op r
    (e.1 :: rest.1, e.2 ||| rest.2)
  | l => (l, fNone)

/-- n levels of the tree. -/
def treeFold (op : Nat → Nat → Nat × Flags) : Nat → List Nat → Nat × Flags
  | 0, l => (l.getD 0 0, fNone)
  | n + 1, l =>
    let r := treeLevel op l
    let e := treeFold op n r.1
    (e.1, r.2 ||| e.2)

/-- The running values of a scan: lane n holds the sum of lanes 0 to n (R66). -/
def scanFold (op : Nat → Nat → Nat × Flags) : Nat → List Nat → List Nat × Flags
  | _, [] => ([], fNone)
  | acc, x :: xs =>
    let e := op acc x
    let r := scanFold op e.1 xs
    (e.1 :: r.1, e.2 ||| r.2)

/-- The format of a reduction; INT32 as FP32's width (R262). -/
def redFmt : RedFmt → FpFmt
  | .bf16 => .bf16
  | .f16 => .f16
  | _ => .f32

/-- The codes of half h of the lanes; of the whole lanes in FP32 and INT32. -/
def laneCodes (w : RedFmt) (h : Nat) (v : Vec) : List Nat :=
  match w with
  | .bf16 | .f16 => v.toList.map fun x => bitsOf x.toNat (16 * h) 16
  | _ => v.toList.map (·.toNat)

/-- Puts the results of the two halves together, lane by lane. -/
def joinHalves (w : RedFmt) (lo hi : List Nat) : Vec :=
  match w with
  | .bf16 | .f16 => vecOfWords ((lo.zip hi).map fun p => BitVec.ofNat 32 (p.1 + 65536 * p.2))
  | _ => vecOfWords (lo.map (BitVec.ofNat 32))

/-- Runs a reduction on each half apart and puts half h of the result into half h of the lanes (R262). -/
def eachHalf (w : RedFmt) (g : List Nat → List Nat × Flags) (v : Vec) : Vec × Flags :=
  match w with
  | .bf16 | .f16 =>
    let lo := g (laneCodes w 0 v)
    let hi := g (laneCodes w 1 v)
    (joinHalves w lo.1 hi.1, lo.2 ||| hi.2)
  | _ =>
    let lo := g (laneCodes w 0 v)
    (joinHalves w lo.1 [], lo.2)

/-- FZI on a code, which stays a code. -/
def flushCode (g : Format) (fzi : Bool) (c : Nat) : Nat :=
  match flushIn g fzi (unpack g c) with
  | .fin n 0 _ => withSign g n 0
  | _ => c

/-- The addition of a reduction or scan on codes, rounded at each step (R66, R262). -/
def redAdd (w : RedFmt) (rm : Rm) (fzo : Bool) (a b : Nat) : Nat × Flags :=
  match w with
  | .int32 =>
    let i := signedOf 32 a + signedOf 32 b
    (wrapNat 32 i, wrapFlags 32 i)
  | _ =>
    let g := fpFormat (redFmt w)
    let v := sumVals rm [unpack g a, unpack g b]
    let r := roundVal g rm fzo false v.1
    (r.1, r.2 ||| invalidFlags v.2)

/-- The codes a reduction starts from: after FZI, but for INT32. -/
def redIn (w : RedFmt) (fzi : Bool) (l : List Nat) : List Nat :=
  match w with
  | .int32 => l
  | _ => l.map (flushCode (fpFormat (redFmt w)) fzi)

/-- REDADD (R262). -/
def execRedadd (t : Tok) (d : VDst) (a : VSrc) (w : RedFmt) (rm : Rm) (fzi fzo : Bool) (s : State) : Out :=
  .next (vecOp t [a] d 14 (fun x vs => eachHalf w (fun l =>
    let r := treeFold (redAdd w (resolveRm x rm) fzo) 6 (redIn w fzi l)
    (List.replicate 64 r.1, r.2)) (vs.getD 0 Vec.zero)) s)

/-- The lesser or greater of two codes: R255, signed for INT32 (R262). -/
def redMinMax (w : RedFmt) (big : Bool) (a b : Nat) : Nat × Flags :=
  match w with
  | .int32 =>
    let takeB := if big then signedOf 32 a < signedOf 32 b else signedOf 32 b < signedOf 32 a
    (if takeB then b else a, fNone)
  | _ => (minMaxCode (fpFormat (redFmt w)) false big a b, fNone)

/-- A min or max reduction. -/
def redSelect (t : Tok) (d : VDst) (a : VSrc) (w : RedFmt) (fzi big : Bool) (s : State) : State :=
  vecOp t [a] d 14 (fun _ vs => eachHalf w (fun l =>
    let r := treeFold (redMinMax w big) 6 (redIn w fzi l)
    (List.replicate 64 r.1, r.2)) (vs.getD 0 Vec.zero)) s

def execRedmax (t : Tok) (d : VDst) (a : VSrc) (w : RedFmt) (fzi : Bool) (s : State) : Out :=
  .next (redSelect t d a w fzi true s)
def execRedmin (t : Tok) (d : VDst) (a : VSrc) (w : RedFmt) (fzi : Bool) (s : State) : Out :=
  .next (redSelect t d a w fzi false s)

/-- Lane 0 of SCANADD: after FZI, unrounded, a NaN made canonical (R66). -/
def scanFirst (w : RedFmt) (c : Nat) : Nat :=
  match w with
  | .int32 => c
  | _ => if unpack (fpFormat (redFmt w)) c = .nan then (fpFormat (redFmt w)).nanCode else c

/-- SCANADD (R66, R262). -/
def execScanadd (t : Tok) (d : VDst) (a : VSrc) (w : RedFmt) (rm : Rm) (fzi fzo : Bool) (s : State) : Out :=
  .next (vecOp t [a] d 24 (fun x vs => eachHalf w (fun l =>
    match redIn w fzi l with
    | [] => ([], fNone)
    | c :: cs =>
      let r := scanFold (redAdd w (resolveRm x rm) fzo) (scanFirst w c) cs
      (scanFirst w c :: r.1, r.2)) (vs.getD 0 Vec.zero)) s)

/-- IOTA (R262). -/
def execIota (t : Tok) (d : VDst) (s : State) : Out :=
  .next (vecOp t [] d 6 (fun _ _ => (Vector.ofFn fun j => BitVec.ofNat 32 j.val, fNone)) s)

/-- LROT (R262). -/
def execLrot (t : Tok) (d : VDst) (a : VSrc) (n : Fin 64) (s : State) : Out :=
  .next (vecOp t [a] d 6 (fun _ vs =>
    let x := vs.getD 0 Vec.zero
    (Vector.ofFn fun j => x[Fin.ofNat 64 (j.val + n.val)], fNone)) s)

/-- LPOPC (R262). -/
def execLpopc (t : Tok) (d : VDst) (a : VSrc) (s : State) : Out :=
  .next (vecOp t [a] d 6 (fun _ vs =>
    (vecAll (BitVec.ofNat 32 ((vs.getD 0 Vec.zero).toList.countP fun w => w != 0)), fNone)) s)

/-! ## Moves (R263, R264) -/

/-- MOVI (R263). -/
def execMovi (t : Tok) (d : VDst) (w2 : W32) (s : State) : Out :=
  .next (vecOp t [] d 2 (fun _ _ => (vecAll w2, fNone)) s)

/-- MOV; with PEEK the oldest poppable entry is read and not popped (R263). -/
def execMov (t : Tok) (d : VDst) (a : VSrc) (peek : Bool) (s : State) : Out :=
  .next (issue t (planOf [] fun ix s =>
    match readSrc s s.fcore a with
    | .empty => if ix.must then .wait else .fault { code := cQueueUnderflow }
    | .poison => .fault { code := cMemUe }
    | .ok v s =>
      if dstFull (s.ctx s.fcore) d then (if ix.must then .wait else .fault { code := cQueueOverflow })
      else
        let pops := if peek then [] else srcQueues [a]
        .go (addResult d ix.id (some v) fNone 2
          (onCtx (fun x => reserveDst (popQueues x pops) d ix.id) s)) true .seq) s)

/-- MVQ (R153, R264): a stalled MVQ does not issue; a not-ready one on an empty queue writes nothing, sets QSTAT.NR and
posts one cycle after issue. -/
def execMvq (t : Tok) (d : VDst) (gq nr : Bool) (s : State) : Out :=
  .next (issue t (planOf [] fun ix s =>
    let x := s.ctx s.fcore
    let q := if gq then x.gq else x.mq
    match oldest q s.cycle with
    | none =>
      if !nr then .wait
      else if dstFull x d then (if ix.must then .wait else .fault { code := cQueueOverflow })
      else .go (addResult d ix.id none fNone 1 (onCtx (fun x => { x with nr := true }) s)) true .seq
    | some p =>
      if dstFull x d then (if ix.must then .wait else .fault { code := cQueueOverflow })
      else
        let pop (x : Ctx) : Ctx := if gq then { x with gq := x.gq.drop 1 } else { x with mq := x.mq.drop 1 }
        .go (addResult d ix.id (some p.data) fNone 6 (onCtx (fun x => reserveDst (pop x) d ix.id) s)) true .seq) s)

/-! ## Writing a result (R148, R150) -/

/-- Writes a value to a destination: a v register, or the reserved place of an oq, which lands (R148, R151). An
earlier instruction's result for the same v register, still to come, is superseded. -/
def writeDst (x : Ctx) (cycle id place : Nat) (d : VDst) (v : Option Vec) : Ctx :=
  match d, v with
  | _, none => x
  | .oq q, some v => { x with oq := x.oq.set q (landPlace x.oq[q] place cycle v false) }
  | .v r, some v =>
    { x with v := x.v.set r v
             pend := updWhere (fun p => p.dst == .v r && p.id < id) (fun p => { p with value := none }) x.pend }

/-- Writes one pending result: its destination, its flags and its posts (R145, R148, R252). -/
def writeResult (x : Ctx) (cycle : Nat) (p : PendRes) : Ctx :=
  let x := { x with pend := x.pend.filter (·.id != p.id) }
  makePosts ((writeDst x cycle p.id p.place p.dst p.value).flag p.flags) cycle .math p.id

/-- The result RESULT_WRITE writes: one whose bound has come, else the oldest (R148). -/
def nextResult (x : Ctx) (cycle : Nat) : Option PendRes :=
  match x.pend.find? (fun p => p.bound ≤ cycle) with
  | some p => some p
  | none => x.pend.find? fun p => p.first ≤ cycle

/-- RESULT_WRITE (R148). -/
def execResultWrite (c : CoreId) (s : State) : Out :=
  match nextResult (s.ctx c) s.cycle with
  | none => .next s
  | some p => .next (s.setCtx c (writeResult (s.ctx c) s.cycle p))

end Sys2Proof.Machine
end

