-- ==== Sys2Proof/Machine/Heap.lean ====
section
/-! DEFINITION. The heap merge KMRG and its write-back (R265, R266). -/

namespace Sys2Proof.Machine

open Sys2Proof

/-- A heap entry: FP32 score and token. -/
abbrev HEntry := W32 × W32

/-- x is worse than y (R265): scores are compared as values. -/
def worse (x y : HEntry) : Bool :=
  let a := f32 x.1
  let b := f32 y.1
  if a = .nan ∨ b = .nan then false
  else
    let c := cmpVal a b
    c < 0 || (c == 0 && y.2.toNat < x.2.toNat)

/-- The entries form a heap: none is worse than its parent (R265). -/
def isHeap (e : List HEntry) : Bool :=
  (List.range e.length).all fun n => n == 0 || !worse (e.getD n (0, 0)) (e.getD ((n - 1) / 2) (0, 0))

/-- Moves entry n up while it is worse than its parent; in a heap the worst entry is entry 0 (R265, R266). -/
def siftUp : Nat → List HEntry → Nat → List HEntry
  | 0, e, _ => e
  | k + 1, e, n =>
    if n = 0 then e
    else
      let p := (n - 1) / 2
      if worse (e.getD n (0, 0)) (e.getD p (0, 0)) then
        siftUp k ((e.set n (e.getD p (0, 0))).set p (e.getD n (0, 0))) p
      else e

/-- Moves entry n down while a child is worse than it, swapping with the worse child, the left one when neither child is worse
than the other (R266). -/
def siftDown : Nat → List HEntry → Nat → List HEntry
  | 0, e, _ => e
  | k + 1, e, n =>
    let l := 2 * n + 1
    let r := 2 * n + 2
    if e.length ≤ l then e
    else
      let two := r < e.length
      let c := if two ∧ worse (e.getD r (0, 0)) (e.getD l (0, 0)) then r else l
      if worse (e.getD l (0, 0)) (e.getD n (0, 0)) || (two && worse (e.getD r (0, 0)) (e.getD n (0, 0))) then
        siftDown k ((e.set n (e.getD c (0, 0))).set c (e.getD n (0, 0))) c
      else e

/-- Two entries are equal: their scores as values, of which a NaN equals none, and their tokens (R265, R266). -/
def sameEntry (x y : HEntry) : Bool :=
  f32 x.1 != .nan && f32 y.1 != .nan && cmpVal (f32 x.1) (f32 y.1) == 0 && x.2 == y.2

/-- One lane: the heap after it and what d receives (R266). -/
def mergeLane (cap : Nat) (e : List HEntry) (x : HEntry) : List HEntry × W32 :=
  if 0xFFFFFFFE ≤ x.2.toNat ∨ f32 x.1 = .nan then (e, 0xFFFFFFFF)
  else if e.length < cap then (siftUp 13 (e ++ [x]) e.length, 0xFFFFFFFE)
  else
    let top := e.getD 0 (0, 0)
    if worse x top || sameEntry x top then (e, 0xFFFFFFFF)
    else (siftDown 13 (e.set 0 x) 0, top.2)

/-- The lanes in ascending order. -/
def mergeLanes (cap : Nat) : List HEntry → List HEntry → List HEntry × List W32
  | e, [] => (e, [])
  | e, x :: xs =>
    let r := mergeLane cap e x
    let t := mergeLanes cap r.1 xs
    (t.1, r.2 :: t.2)

/-- The entries of a record's bytes. -/
def heapEntries : Nat → List Byte → List HEntry
  | 0, _ => []
  | n + 1, bs =>
    (BitVec.ofNat 32 (ofBytes (bs.take 4)), BitVec.ofNat 32 (ofBytes ((bs.drop 4).take 4))) :: heapEntries n (bs.drop 8)

/-- The bytes of entries. -/
def entryBytes (e : List HEntry) : List Byte := (e.map fun x => toBytes 4 x.1.toNat ++ toBytes 4 x.2.toNat).flatten

/-- The bound of a KMRG on a heap of capacity CAP: 64 × (6 + 2 × ceil(log2(CAP + 1))) (R266). -/
def kmrgBound (cap : Nat) : Nat := 64 * (6 + 2 * bitLen cap)

/-- The merge of a record of n bytes: d and the new bytes. A record whose entries form no heap gives results that are
not defined but confined to d and the record: free values (R266, notes/assumptions/8.md). -/
def kmrgResult (free : Nat) (cap count : Nat) (old : List Byte) (a b : Vec) : Vec × List Byte :=
  let e := heapEntries count (old.drop 16)
  if isHeap e then
    let r := mergeLanes cap e (a.toList.zip b.toList)
    (vecOfWords r.2, overlay old 0 (toBytes 4 cap ++ toBytes 4 r.1.length ++ toBytes 8 0 ++ entryBytes r.1))
  else (vecOfBytes (Config.brokenHeap free []), overlay old 0 (Config.brokenHeap (free + 1) old))

/-- KMRG (R266): its reading of the record follows what it has acquired (R314). It holds the math stream until its write-back. -/
def execKmrg (t : Tok) (d : VDst) (a b : VSrc) (h : VReg) (s : State) : Out :=
  .next (issue t (planOf [] fun ix s =>
    match readSrcs s.fcore s [a, b, .v h] with
    | .empty => if ix.must then .wait else .fault { code := cQueueUnderflow }
    | .poison => .fault { code := cMemUe }
    | .ok vs s =>
      let x := s.ctx s.fcore
      let r := rightsOf s s.fcore
      let off := ((vs.getD 2 Vec.zero)[(0 : Fin 64)]).toNat
      let fits (n : Nat) : Bool := x.base ≤ off && off + n ≤ x.base + x.size
      let key := spadKey s.fcore.val off
      let cap := s.mem.num key 4
      let count := s.mem.num (key + 4) 4
      let n := 16 + 8 * cap
      let addr := BitVec.ofNat 64 (2 ^ 56 + off)
      if 2 ^ 21 ≤ off || !fits 16 then .fault { code := cSpace, addr := addr }
      else if off % 16 != 0 then .fault { code := cAlign, addr := addr }
      else if mustFollow s [⟨key, 16, 0⟩] then .wait
      else if s.poisoned key 16 then .fault { code := cMemUe, addr := addr }
      else if cap = 0 || 4096 < cap || cap < count || s.mem.num (key + 8) 8 != 0 then
        .fault { code := cHeapRecord, addr := addr }
      else if !fits n then .fault { code := cSpace, addr := addr }
      else if inForeign s r r.lcore off n then .fault { code := cOwnership, addr := addr }
      else if mustFollow s [⟨key, n, 0⟩] then .wait
      else if s.poisoned key n then .fault { code := cMemUe, addr := addr }
      else if dstFull x d then (if ix.must then .wait else .fault { code := cQueueOverflow })
      else
        let (v, bs) := kmrgResult s.free cap count (s.load key n) (vs.getD 0 Vec.zero) (vs.getD 1 Vec.zero)
        let k : PendKmrg := ⟨ix.id, d, ix.id, v, key, bs, s.cycle + 1, s.cycle + kmrgBound cap⟩
        .go (onCtx (fun x => { reserveDst (popQueues x (srcQueues [a, b])) d ix.id with kmrg := some k })
          { s with free := s.free + 2 }) true .seq) s)

/-- KMRG_WRITEBACK: in cycle w it writes d and the record, and posts its tokens (R266). -/
def execKmrgWriteback (c : CoreId) (s : State) : Out :=
  let x := s.ctx c
  match x.kmrg with
  | none => .next s
  | some k =>
    if s.cycle < k.first then .next s
    else
      let x := writeDst { x with kmrg := none } s.cycle k.id k.place k.dst (some k.value)
      .next ((s.store k.key k.bytes).setCtx c (makePosts x s.cycle .math k.id))

end Sys2Proof.Machine
end

