-- ==== Sys2Proof/Machine/Dispatch.lean ====
section
/-! DEFINITION. The one step of each constructor: one arm, one meaning. -/

namespace Sys2Proof.Machine

open Sys2Proof

/-- The meaning of a step of the machine. -/
def exec (i : Instr) (s : State) : Host.Outcome State Fault Refusal :=
  match i with
  | .nop t => Sys2Proof.Machine.execNop t s
  | .stamp t k => Sys2Proof.Machine.execStamp t k s
  | .udf t v => Sys2Proof.Machine.execUdf t v s
  | .alu t f d a b => Sys2Proof.Machine.execAlu t f d a b s
  | .addi t d a im => Sys2Proof.Machine.execAddi t d a im s
  | .andi t d a im => Sys2Proof.Machine.execAndi t d a im s
  | .ori t d a im => Sys2Proof.Machine.execOri t d a im s
  | .xori t d a im => Sys2Proof.Machine.execXori t d a im s
  | .shi t f d a sh => Sys2Proof.Machine.execShi t f d a sh s
  | .slti t d a im => Sys2Proof.Machine.execSlti t d a im s
  | .sltiu t d a im => Sys2Proof.Machine.execSltiu t d a im s
  | .setw t f d w2 => Sys2Proof.Machine.execSetw t f d w2 s
  | .ld t sz d a c o => Sys2Proof.Machine.execLd t sz d a c o s
  | .ldu t sz d a c o => Sys2Proof.Machine.execLdu t sz d a c o s
  | .st t sz a b c o => Sys2Proof.Machine.execSt t sz a b c o s
  | .amo t op d a b cmp sz c sc ord => Sys2Proof.Machine.execAmo t op d a b cmp sz c sc ord s
  | .fenceControl t k sc m => Sys2Proof.Machine.execFenceControl t k sc m s
  | .beq t a b im => Sys2Proof.Machine.execBeq t a b im s
  | .bne t a b im => Sys2Proof.Machine.execBne t a b im s
  | .blt t a b im => Sys2Proof.Machine.execBlt t a b im s
  | .bge t a b im => Sys2Proof.Machine.execBge t a b im s
  | .bltu t a b im => Sys2Proof.Machine.execBltu t a b im s
  | .bgeu t a b im => Sys2Proof.Machine.execBgeu t a b im s
  | .jal t d im => Sys2Proof.Machine.execJal t d im s
  | .jalr t d a im => Sys2Proof.Machine.execJalr t d a im s
  | .loopControl t n a l => Sys2Proof.Machine.execLoopControl t n a l s
  | .loopiControl t n c l => Sys2Proof.Machine.execLoopiControl t n c l s
  | .sysr t d r => Sys2Proof.Machine.execSysr t d r s
  | .sysw t a r => Sys2Proof.Machine.execSysw t a r s
  | .trap t c => Sys2Proof.Machine.execTrap t c s
  | .tnew t d a b => Sys2Proof.Machine.execTnew t d a b s
  | .tsig t a => Sys2Proof.Machine.execTsig t a s
  | .tsigAnswer c => Sys2Proof.Machine.execTsigAnswer c s
  | .tctr t d a k => Sys2Proof.Machine.execTctr t d a k s
  | .tyld t => Sys2Proof.Machine.execTyld t s
  | .tend wp wn orphan => Sys2Proof.Machine.execTend wp wn orphan s
  | .successorWalk c => Sys2Proof.Machine.execSuccessorWalk c s
  | .guard t a => Sys2Proof.Machine.execGuard t a s
  | .hnote t a n => Sys2Proof.Machine.execHnote t a n s
  | .tresResume t a => Sys2Proof.Machine.execTresResume t a s
  | .tresRetry t a => Sys2Proof.Machine.execTresRetry t a s
  | .tkill t a => Sys2Proof.Machine.execTkill t a s
  | .owait t d a => Sys2Proof.Machine.execOwait t d a s
  | .otest t d a => Sys2Proof.Machine.execOtest t d a s
  | .ocancel t d a => Sys2Proof.Machine.execOcancel t d a s
  | .odetach t d a => Sys2Proof.Machine.execOdetach t d a s
  | .oadopt t d a => Sys2Proof.Machine.execOadopt t d a s
  | .oprio t d a p => Sys2Proof.Machine.execOprio t d a p s
  | .orec t d a b c => Sys2Proof.Machine.execOrec t d a b c s
  | .bmake t d a b => Sys2Proof.Machine.execBmake t d a b s
  | .bgive t a b => Sys2Proof.Machine.execBgive t a b s
  | .btake t d a => Sys2Proof.Machine.execBtake t d a s
  | .bdrop t a => Sys2Proof.Machine.execBdrop t a s
  | .rot t prev a u => Sys2Proof.Machine.execRot t prev a u s
  | .shape t n a => Sys2Proof.Machine.execShape t n a s
  | .nest t n a => Sys2Proof.Machine.execNest t n a s
  | .fmt t e a c => Sys2Proof.Machine.execFmt t e a c s
  | .lexpControl t d a im => Sys2Proof.Machine.execLexpControl t d a im s
  | .lwaitControl t d a im => Sys2Proof.Machine.execLwaitControl t d a im s
  | .frame t m a im => Sys2Proof.Machine.execFrame t m a im s
  | .tokwControl t next n => Sys2Proof.Machine.execTokwControl t next n s
  | .tokpControl t next n => Sys2Proof.Machine.execTokpControl t next n s
  | .aalu t f d a b => Sys2Proof.Machine.execAalu t f d a b s
  | .aaddi t d a im => Sys2Proof.Machine.execAaddi t d a im s
  | .aset t f d w2 => Sys2Proof.Machine.execAset t f d w2 s
  | .loopLoadStore t n a l => Sys2Proof.Machine.execLoopLoadStore t n a l s
  | .loopiLoadStore t n c l => Sys2Proof.Machine.execLoopiLoadStore t n c l s
  | .jmpLoadStore t im => Sys2Proof.Machine.execJmpLoadStore t im s
  | .endLoadStore t => Sys2Proof.Machine.execEndLoadStore t s
  | .rdq t q a c o => Sys2Proof.Machine.execRdq t q a c o s
  | .rdqs t q a b c p => Sys2Proof.Machine.execRdqs t q a b c p s
  | .wrq t q a c o => Sys2Proof.Machine.execWrq t q a c o s
  | .wrqs t q a b c p => Sys2Proof.Machine.execWrqs t q a b c p s
  | .entryLand c q => Sys2Proof.Machine.execEntryLand c q s
  | .cpy t d a n ch w notify => Sys2Proof.Machine.execCpy t d a n ch w notify s
  | .cpyc t d a n ch w notify vreg => Sys2Proof.Machine.execCpyc t d a n ch w notify vreg s
  | .gath t g w => Sys2Proof.Machine.execGath t g w s
  | .scat t g w => Sys2Proof.Machine.execScat t g w s
  | .gred t g w => Sys2Proof.Machine.execGred t g w s
  | .loftAcc t d a b c => Sys2Proof.Machine.execLoftAcc t d a b c s
  | .loftAccb t d a b c => Sys2Proof.Machine.execLoftAccb t d a b c s
  | .loftMax t d a b c => Sys2Proof.Machine.execLoftMax t d a b c s
  | .loftMin t d a b c => Sys2Proof.Machine.execLoftMin t d a b c s
  | .loftScale t d a b c => Sys2Proof.Machine.execLoftScale t d a b c s
  | .loftZero t d b c => Sys2Proof.Machine.execLoftZero t d b c s
  | .rld t q a im => Sys2Proof.Machine.execRld t q a im s
  | .rst t q a im => Sys2Proof.Machine.execRst t q a im s
  | .ramo t op d a b dword ret => Sys2Proof.Machine.execRamo t op d a b dword ret s
  | .mcst t q a b => Sys2Proof.Machine.execMcst t q a b s
  | .rred t q a f => Sys2Proof.Machine.execRred t q a f s
  | .collAllgather t d a b p det nw => Sys2Proof.Machine.execCollAllgather t d a b p det nw s
  | .collRedscat t d a b p det nw => Sys2Proof.Machine.execCollRedscat t d a b p det nw s
  | .collAllred t d a b p det nw => Sys2Proof.Machine.execCollAllred t d a b p det nw s
  | .collBcast t d a b p det nw => Sys2Proof.Machine.execCollBcast t d a b p det nw s
  | .collBarrier t a p det nw => Sys2Proof.Machine.execCollBarrier t a p det nw s
  | .lexpLoadStore t d a im => Sys2Proof.Machine.execLexpLoadStore t d a im s
  | .lwaitLoadStore t d a im => Sys2Proof.Machine.execLwaitLoadStore t d a im s
  | .fenceLoadStore t k sc m => Sys2Proof.Machine.execFenceLoadStore t k sc m s
  | .tokwLoadStore t next n => Sys2Proof.Machine.execTokwLoadStore t next n s
  | .tokpLoadStore t next n => Sys2Proof.Machine.execTokpLoadStore t next n s
  | .tinv t => Sys2Proof.Machine.execTinv t s
  | .tinvComplete n => Sys2Proof.Machine.execTinvComplete n s
  | .ald t sz d a c o => Sys2Proof.Machine.execAld t sz d a c o s
  | .fadd t d a b f => Sys2Proof.Machine.execFadd t d a b f s
  | .fsub t d a b f => Sys2Proof.Machine.execFsub t d a b f s
  | .fmul t d a b f => Sys2Proof.Machine.execFmul t d a b f s
  | .fmin t d a b f => Sys2Proof.Machine.execFmin t d a b f s
  | .fmax t d a b f => Sys2Proof.Machine.execFmax t d a b f s
  | .fabs t d a f => Sys2Proof.Machine.execFabs t d a f s
  | .fneg t d a f => Sys2Proof.Machine.execFneg t d a f s
  | .fcps t d a b f => Sys2Proof.Machine.execFcps t d a b f s
  | .fceq t d a b f => Sys2Proof.Machine.execFceq t d a b f s
  | .fclt t d a b f => Sys2Proof.Machine.execFclt t d a b f s
  | .fcle t d a b f => Sys2Proof.Machine.execFcle t d a b f s
  | .frcp t d a f => Sys2Proof.Machine.execFrcp t d a f s
  | .frsq t d a f => Sys2Proof.Machine.execFrsq t d a f s
  | .fexp2 t d a f => Sys2Proof.Machine.execFexp2 t d a f s
  | .flog2 t d a f => Sys2Proof.Machine.execFlog2 t d a f s
  | .fsqrt t d a f => Sys2Proof.Machine.execFsqrt t d a f s
  | .fma t d a b f => Sys2Proof.Machine.execFma t d a b f s
  | .fms t d a b f => Sys2Proof.Machine.execFms t d a b f s
  | .fnma t d a b f => Sys2Proof.Machine.execFnma t d a b f s
  | .iop t w f d a b => Sys2Proof.Machine.execIop t w f d a b s
  | .sel t d a b m => Sys2Proof.Machine.execSel t d a b m s
  | .cvt t p d a b m => Sys2Proof.Machine.execCvt t p d a b m s
  | .bcast t d a lane => Sys2Proof.Machine.execBcast t d a lane s
  | .perm t d a b => Sys2Proof.Machine.execPerm t d a b s
  | .redadd t d a w rm fzi fzo => Sys2Proof.Machine.execRedadd t d a w rm fzi fzo s
  | .redmax t d a w fzi => Sys2Proof.Machine.execRedmax t d a w fzi s
  | .redmin t d a w fzi => Sys2Proof.Machine.execRedmin t d a w fzi s
  | .scanadd t d a w rm fzi fzo => Sys2Proof.Machine.execScanadd t d a w rm fzi fzo s
  | .iota t d => Sys2Proof.Machine.execIota t d s
  | .lrot t d a sh => Sys2Proof.Machine.execLrot t d a sh s
  | .lpopc t d a => Sys2Proof.Machine.execLpopc t d a s
  | .movi t d w2 => Sys2Proof.Machine.execMovi t d w2 s
  | .mov t d a peek => Sys2Proof.Machine.execMov t d a peek s
  | .mvq t d gq nr => Sys2Proof.Machine.execMvq t d gq nr s
  | .kmrg t d a b h => Sys2Proof.Machine.execKmrg t d a b h s
  | .kmrgWriteback c => Sys2Proof.Machine.execKmrgWriteback c s
  | .mma t m => Sys2Proof.Machine.execMma t m s
  | .mmas t m hm => Sys2Proof.Machine.execMmas t m hm s
  | .mmat t m => Sys2Proof.Machine.execMmat t m s
  | .mmal t m bits => Sys2Proof.Machine.execMmal t m bits s
  | .zdrn t z fsel vs row nblk => Sys2Proof.Machine.execZdrn t z fsel vs row nblk s
  | .zclr t z => Sys2Proof.Machine.execZclr t z s
  | .zld t z h p => Sys2Proof.Machine.execZld t z h p s
  | .zst t z h det p => Sys2Proof.Machine.execZst t z h det p s
  | .fidx t h a add => Sys2Proof.Machine.execFidx t h a add s
  | .loopMath t n a l => Sys2Proof.Machine.execLoopMath t n a l s
  | .loopiMath t n c l => Sys2Proof.Machine.execLoopiMath t n c l s
  | .jmpMath t im => Sys2Proof.Machine.execJmpMath t im s
  | .endMath t => Sys2Proof.Machine.execEndMath t s
  | .tokwMath t next n => Sys2Proof.Machine.execTokwMath t next n s
  | .tokpMath t next n => Sys2Proof.Machine.execTokpMath t next n s
  | .opAccept c st => Sys2Proof.Machine.execOpAccept c st s
  | .copyBurst o => Sys2Proof.Machine.execCopyBurst o s
  | .gatherElement o => Sys2Proof.Machine.execGatherElement o s
  | .kGroup o => Sys2Proof.Machine.execKGroup o s
  | .accumulatorRow o => Sys2Proof.Machine.execAccumulatorRow o s
  | .enginePush c gq => Sys2Proof.Machine.execEnginePush c gq s
  | .opComplete o => Sys2Proof.Machine.execOpComplete o s
  | .opPull c o => Sys2Proof.Machine.execOpPull c o s
  | .heldWriteRewalk h => Sys2Proof.Machine.execHeldWriteRewalk h s
  | .writeHoldExpired h => Sys2Proof.Machine.execWriteHoldExpired h s
  | .scheduleMiss c st => Sys2Proof.Machine.execScheduleMiss c st s
  | .fetchRequest c st => Sys2Proof.Machine.execFetchRequest c st s
  | .fetchFill die k => Sys2Proof.Machine.execFetchFill die k s
  | .launch port ctx off bytes => Sys2Proof.Machine.execLaunch port ctx off bytes s
  | .launchProcess port ctx => Sys2Proof.Machine.execLaunchProcess port ctx s
  | .gcan port ctx handle => Sys2Proof.Machine.execGcan port ctx handle s
  | .contextDescriptorWrite port ctx lo => Sys2Proof.Machine.execContextDescriptorWrite port ctx lo s
  | .icinvContext port ctx => Sys2Proof.Machine.execIcinvContext port ctx s
  | .icinvAll port part => Sys2Proof.Machine.execIcinvAll port part s
  | .icinvComplete port part => Sys2Proof.Machine.execIcinvComplete port part s
  | .xinv port ctx => Sys2Proof.Machine.execXinv port ctx s
  | .yelmExport port part ctx rev => Sys2Proof.Machine.execYelmExport port part ctx rev s
  | .yelmImport port part ctx => Sys2Proof.Machine.execYelmImport port part ctx s
  | .yelmDelete port part rev => Sys2Proof.Machine.execYelmDelete port part rev s
  | .yelmFreeze port part => Sys2Proof.Machine.execYelmFreeze port part s
  | .yelmThaw port part => Sys2Proof.Machine.execYelmThaw port part s
  | .yelmCommandDone part => Sys2Proof.Machine.execYelmCommandDone part s
  | .preemptGraph port handle => Sys2Proof.Machine.execPreemptGraph port handle s
  | .resumeGraph port handle => Sys2Proof.Machine.execResumeGraph port handle s
  | .cutComplete c => Sys2Proof.Machine.execCutComplete c s
  | .handlerSpawn slot => Sys2Proof.Machine.execHandlerSpawn slot s
  | .cutResume slot => Sys2Proof.Machine.execCutResume slot s
  | .eviction cores => Sys2Proof.Machine.execEviction cores s
  | .coreLost c => Sys2Proof.Machine.execCoreLost c s
  | .graphTimeout g => Sys2Proof.Machine.execGraphTimeout g s
  | .dispatchSlot part => Sys2Proof.Machine.execDispatchSlot part s
  | .candidateReady part => Sys2Proof.Machine.execCandidateReady part s
  | .streamsStart c => Sys2Proof.Machine.execStreamsStart c s
  | .tracedStart lcore part => Sys2Proof.Machine.execTracedStart lcore part s
  | .guardStall g => Sys2Proof.Machine.execGuardStall g s
  | .gangAgreement g rev join held timely => Sys2Proof.Machine.execGangAgreement g rev join held timely s
  | .graphRetire g => Sys2Proof.Machine.execGraphRetire g s
  | .refinementPass part => Sys2Proof.Machine.execRefinementPass part s
  | .notifierMessage port ctx n => Sys2Proof.Machine.execNotifierMessage port ctx n s
  | .hotPageMessage port => Sys2Proof.Machine.execHotPageMessage port s
  | .battenSend f => Sys2Proof.Machine.execBattenSend f s
  | .battenReceive f good acks b => Sys2Proof.Machine.execBattenReceive f good acks b s
  | .valleyForward f => Sys2Proof.Machine.execValleyForward f s
  | .battenRetransmit f slot => Sys2Proof.Machine.execBattenRetransmit f slot s
  | .commit src part cls => Sys2Proof.Machine.execCommit src part cls s
  | .commitRecord b => Sys2Proof.Machine.execCommitRecord b s
  | .reply b => Sys2Proof.Machine.execReply b s
  | .skipRecord b => Sys2Proof.Machine.execSkipRecord b s
  | .notifyHoldExpired src part cls => Sys2Proof.Machine.execNotifyHoldExpired src part cls s
  | .fabricUnreachable o => Sys2Proof.Machine.execFabricUnreachable o s
  | .keyInstall f => Sys2Proof.Machine.execKeyInstall f s
  | .reductionFold part => Sys2Proof.Machine.execReductionFold part s
  | .wavelengthLost f slot => Sys2Proof.Machine.execWavelengthLost f slot s
  | .wavelengthRegained f => Sys2Proof.Machine.execWavelengthRegained f s
  | .laserModuleRemoved m => Sys2Proof.Machine.execLaserModuleRemoved m s
  | .laserModuleInserted m => Sys2Proof.Machine.execLaserModuleInserted m s
  | .laserPower f => Sys2Proof.Machine.execLaserPower f s
  | .cepoch v => Sys2Proof.Machine.execCepoch v s
  | .rsvWrite part n v => Sys2Proof.Machine.execRsvWrite part n v s
  | .replicaSwitchArm part v => Sys2Proof.Machine.execReplicaSwitchArm part v s
  | .replicaSwitch part => Sys2Proof.Machine.execReplicaSwitch part s
  | .hqdropWrite port => Sys2Proof.Machine.execHqdropWrite port s
  | .outboundWindowWrite port n base npg en => Sys2Proof.Machine.execOutboundWindowWrite port n base npg en s
  | .stkret v => Sys2Proof.Machine.execStkret v s
  | .registerWrite port part off v => Sys2Proof.Machine.execRegisterWrite port part off v s
  | .attestationRequest nonce => Sys2Proof.Machine.execAttestationRequest nonce s
  | .fuseRaise v => Sys2Proof.Machine.execFuseRaise v s
  | .firmwareUpdate image svn => Sys2Proof.Machine.execFirmwareUpdate image svn s
  | .microcodeUpdate image svn => Sys2Proof.Machine.execMicrocodeUpdate image svn s
  | .recoveryImage image svn => Sys2Proof.Machine.execRecoveryImage image svn s
  | .partition mode => Sys2Proof.Machine.execPartition mode s
  | .dieDrain d => Sys2Proof.Machine.execDieDrain d s
  | .dieReturn d => Sys2Proof.Machine.execDieReturn d s
  | .memUe addr => Sys2Proof.Machine.execMemUe addr s
  | .scrub addr => Sys2Proof.Machine.execScrub addr s
  | .resultWrite c => Sys2Proof.Machine.execResultWrite c s
  | .accessPerformed c st im => Sys2Proof.Machine.execAccessPerformed c st im s
  | .hostMemoryAccess port write addr bytes => Sys2Proof.Machine.execHostMemoryAccess port write addr bytes s
  | .copyOrderWaitExpired o => Sys2Proof.Machine.execCopyOrderWaitExpired o s
  | .cutStoreMove slot => Sys2Proof.Machine.execCutStoreMove slot s
  | .powerClamp cores => Sys2Proof.Machine.execPowerClamp cores s
  | .counterDecrement => Sys2Proof.Machine.execCounterDecrement s
  | .courseBoundary => Sys2Proof.Machine.execCourseBoundary s
  | .internalDelivery => Sys2Proof.Machine.execInternalDelivery s
  | .landingNotify => Sys2Proof.Machine.execLandingNotify s
  | .forcedCut => Sys2Proof.Machine.execForcedCut s
  | .eccstatWrite => Sys2Proof.Machine.execEccstatWrite s
  | .powerOn => Sys2Proof.Machine.execPowerOn s
  | .thermalTrip => Sys2Proof.Machine.execThermalTrip s
  | .thermalRestart => Sys2Proof.Machine.execThermalRestart s

end Sys2Proof.Machine
end

