-- ==== Sys2Proof/Machine/Step.lean ====
section
/-! DEFINITION. One step of the machine, and an instruction placed for the next step. -/

namespace Sys2Proof.Machine

open Sys2Proof

/-- One step: the next agent of the cycle moves, a stream by executing the instruction it fetches; after the last one the
next cycle begins. -/
def step (s : State) : Host.Outcome State Fault Refusal :=
  match s.agenda with
  | [] => .next (tick s)
  | .event i :: r => exec i { s with agenda := r }
  | .stream c st :: r =>
    match turnOf c st { s with agenda := r } with
    | .rest t => .next t
    | .run i t => exec i t

/-- The words of an instruction placed where the next step fetches them, numbered as the opcode table numbers their bits:
bit 0 is the least significant bit of the first word (notes/assumptions/20.md). -/
def State.withFetchWord (s : State) (_nbits w : Nat) : State :=
  placeWords (w % 4294967296) (w / 4294967296 % 4294967296) s

end Sys2Proof.Machine
end

