-- ==== Sys2Proof/Safety.lean ====
section
/-! DEFINITION. What claims are stated in: when an instruction may issue, what the issue leaves as it was besides the
instruction's own effect, and the forms of the state that every step is to keep. -/

namespace Sys2Proof.Machine

open Sys2Proof

/-- The memory is in its canonical form. -/
def State.MemGood (s : State) : Prop := s.mem.wf = true

/-- The step of the machine stops: the machine has no next state. -/
def Stops (s : State) : Prop := ∀ t, step s ≠ .next t

/-- The registers of the task on the executing core. -/
def State.fctx (s : State) : Ctx := s.ctx s.fcore

/-- The executing stream. -/
def State.fstrm (s : State) : StreamSt := s.fctx.strm s.fstr

/-- The state once a pending stamp that is past its cycle has counted its miss (R157). -/
def State.counted (s : State) : State :=
  if gate s.cycle s.fctx s.fstrm = .missed then s.setCtx s.fcore (countMiss s.fctx s.fstr) else s

/-- When an instruction may issue, as far as it is not its own operands: its stream is not held, no loop ends inside
it, its stamp lets it pass (R157), no register it names is interlocked (R148), the tokens it takes are there (R144) and
the tokens it posts fit (R145). It takes tp and tn tokens, and posts pp and pn, besides those of its token bits. -/
structure ReadyWith (t : Tok) (regs : List Nat) (tp tn pp pn : Nat) (s : State) : Prop where
  free   : blocked s.fctx s.fstr = false
  whole  : loopSplits s = false
  onTime : gate s.cycle s.fctx s.fstrm = .pass ∨ gate s.cycle s.fctx s.fstrm = .missed
  clear  : ∀ r ∈ regs, r ∉ s.fstrm.busy
  tokens : tokensThere s.fctx s.cycle s.fstr (t.wp.toNat + tp) (t.wn.toNat + tn) = true
  room   : tokensOver s.fctx s.fstr (t.pp.toNat + pp) (t.pn.toNat + pn) = false

/-- The same for an instruction whose only tokens are those of its token bits. -/
abbrev Ready (t : Tok) (regs : List Nat) (s : State) : Prop := ReadyWith t regs 0 0 0 0 s

/-- The state an instruction reads its operands in: its tokens are taken and its stamp is used. -/
def State.entered (t : Tok) (tp tn : Nat) (s : State) : State :=
  enter t { takeP := tp, takeN := tn, body := fun _ s => .go s false .seq } s.counted

/-- The token queues after an issue: tokens taken, places reserved, and posted at once unless they come late. -/
def tokensAfter (t : Tok) (tp tn pp pn : Nat) (late : Bool) (s : State) : Vector TokQ 8 :=
  let x := takeTokens s.fctx s.fstr (t.wp.toNat + tp) (t.wn.toNat + tn)
  let x := reservePosts x s.fstr (s.fctx.serial + 1) (t.pp.toNat + pp) (t.pn.toNat + pn)
  (if late then x else makePosts x s.cycle s.fstr (s.fctx.serial + 1)).tok

/-- Everything of a task's registers but token queues, with what the counted tokens released, loop counters, the streams
themselves, the schedule misses and the model's own numbering, which the frame of an issue treats one by one. -/
def Ctx.rest (x : Ctx) : Ctx :=
  { x with tok := Vector.replicate 8 TokQ.empty, snaps := Vector.replicate 8 [], owed := Vector.replicate 8 [], lc := Vector.replicate 4 LoopCtr.reset,
           serial := 0, smiss := 0, str := Vector.replicate 4 StreamSt.reset }

/-- Everything of a stream but what any issue of it changes: its pc, its stamp, what it has acquired and when it issued. -/
def StreamSt.rest (q : StreamSt) : StreamSt :=
  { q with pc := 0, acq := Vector.replicate 4 0, stamp := none, missed := false, stalled := none, issuedAt := none }

/-- The frame of an issue. x is the task's registers with the instruction's own effect, y those after it: besides that
effect only the token queues, the loop counters, and the issuing stream's own pc, stamp and issue cycle differ, and nothing
of another stream. -/
structure KeepsWith (t : Tok) (tp tn pp pn : Nat) (late : Bool) (s : State) (x y : Ctx) : Prop where
  rest   : y.rest = x.rest
  others : ∀ st, st ≠ s.fstr → y.strm st = x.strm st
  own    : (y.strm s.fstr).rest = (x.strm s.fstr).rest
  used   : (y.strm s.fstr).missed = false ∧ (y.strm s.fstr).stalled = none ∧ (y.strm s.fstr).issuedAt = some s.cycle
  tok    : y.tok = tokensAfter t tp tn pp pn late s
  smiss  : y.smiss = x.smiss

/-- The frame for an instruction whose only tokens are those of its token bits. -/
abbrev Keeps (t : Tok) (late : Bool) (s : State) (x y : Ctx) : Prop := KeepsWith t 0 0 0 0 late s x y

/-- The address of the executing instruction's last word. -/
def State.lastWord (s : State) : W64 := s.fstrm.pc + BitVec.ofNat 64 (4 * s.words) - 4

/-- No active loop of the stream ends at the instruction: the next one follows it in memory, and the loop counters
stay (R188). -/
def Sequential (s : State) (x y : Ctx) : Prop :=
  loopAt s.fctx s.fstr s.lastWord = none →
    y.lc = x.lc ∧ (y.strm s.fstr).pc = s.fstrm.pc + BitVec.ofNat 64 (4 * s.words)

/-- The instruction executes: it answers a next state in which the machine is m, and the task's registers are x with
the frame of an issue, going on to the next instruction in memory order. -/
def DoesWith (o : Out) (t : Tok) (tp tn pp pn : Nat) (late : Bool) (s m : State) (x : Ctx) : Prop :=
  ∃ y, o = .next (m.setCtx s.fcore y) ∧ KeepsWith t tp tn pp pn late s x y ∧ (y.strm s.fstr).stamp = none ∧
    Sequential s x y

/-- The same for an instruction whose only tokens are those of its token bits. -/
abbrev Does (o : Out) (t : Tok) (late : Bool) (s m : State) (x : Ctx) : Prop := DoesWith o t 0 0 0 0 late s m x

/-- The instruction executes and goes to an address. The loops of the stream whose body the address is outside become
inactive, and every other loop counter stays (R188). -/
def Goes (o : Out) (t : Tok) (s : State) (x : Ctx) (target : W64) : Prop :=
  ∃ y, o = .next (s.setCtx s.fcore y) ∧ Keeps t false s x y ∧ (y.strm s.fstr).stamp = none ∧
    (y.strm s.fstr).pc = target ∧
    ∀ k : Fin 4, y.lc[k] =
      if (x.lc[k].active = true ∧ x.lc[k].owner = s.fstr) ∧ ¬(x.lc[k].b.toNat ≤ target.toNat ∧ target.toNat ≤ x.lc[k].e.toNat)
      then { x.lc[k] with active := false } else x.lc[k]

/-- The instruction executes and its stream's pc and the loop counters stay. -/
def Stays (o : Out) (t : Tok) (late : Bool) (s m : State) (x : Ctx) : Prop :=
  ∃ y, o = .next (m.setCtx s.fcore y) ∧ Keeps t late s x y ∧ (y.strm s.fstr).stamp = none ∧ y.lc = x.lc ∧
    (y.strm s.fstr).pc = (x.strm s.fstr).pc

/-- The fault record of the executing instruction (R326), with its code, its address and whether a resume skips it. -/
def recordOf (s : State) (code : Nat) (addr : W64) (skip : Bool) : FaultInfo where
  code := code
  stream := s.fstr
  src := 0
  lost := false
  stale := false
  walk := false
  skip := skip
  late := false
  pc := s.fstrm.pc
  word := s.focus.word
  w2 := s.focus.w2
  addr := addr
  optok := 0
  widx := 0
  course := s.course
  at_ := s.cycle

/-- The state in which the task of a live-task slot is being cut at this cycle, with its fault. -/
def State.cutFor (s : State) (slot : Nat) (f : FaultInfo) : State :=
  (s.setCore s.fcore { s.core s.fcore with run := .cutting slot s.cycle }).updTask slot fun t =>
    { t with fault := some f }

/-! ## Accesses -/

/-- The registers with one access more of a stream. -/
def Ctx.withAccess (x : Ctx) (st : Stream) (a : Access) : Ctx :=
  x.setStrm st { x.strm st with accs := (x.strm st).accs ++ [a] }

/-- The registers with a register of a stream interlocked; g0 never is (R132, R148). -/
def Ctx.withBusy (x : Ctx) (st : Stream) (r : Nat) : Ctx :=
  if st = .ctl ∧ r = 0 then x else x.setStrm st { x.strm st with busy := r :: (x.strm st).busy }

/-- An access that its check refuses: the instruction takes the fault; but where the word it meets is poisoned and accesses of the
stream are still to be performed in m, it waits, for they may yet write that word whole (R229, R312, R314). -/
def Refused (o : Out) (s m : State) (code : Nat) (addr : W64) : Prop :=
  (code = 0x10 ∧ releasePending (m.ctx s.fcore) s.fstr = true → o = .next s.counted) ∧
  (¬(code = 0x10 ∧ releasePending (m.ctx s.fcore) s.fstr = true) →
    o = .next (takeFault s.counted { code := code, addr := addr }))

/-- The check and translation of an access by the executing task at its issue: the state the walk leaves, and whether the
access is allowed, held or faults (R178, R216, R221). A load of a queue does not fault on poison (R229, R235). -/
def State.checked (s : State) (t : Tok) (write ue : Bool) (l : List Piece) : State × Checked :=
  let e := s.entered t 0 0
  checkPieces s.fcore (rightsOf e s.fcore) write ue true e l [] none false

/-- Everything of the state but what a translation may change: the translation caches, the hot-page counters in memory,
the hot-page queue's place, and the model's own count of free values (R222, R225, R226). -/
def State.sansCaches (s : State) : State :=
  { s with free := 0, mem := [], cores := s.cores.map fun k => { k with tlb := [] },
           dies := s.dies.map fun d => { d with tlb := [] },
           ports := s.ports.map fun p => { p with hqtail := 0, hqdrop := 0, hnwait := false } }

end Sys2Proof.Machine
end

