-- ==== Sys2Proof/Certificates/Slice0/Obligations.lean ====
section
/-! DEFINITION. The statements for the provers. -/

open Sys2Proof Sys2Proof.Machine

/-! ## The integer instructions -/

/-- The control-stream instructions that write gD from registers and the word: the token bits, gD, the registers read
and the value (R179 to R181). -/
def gForm : Instr → Option (Tok × GReg × List GReg × (Ctx → W64))
  | .alu t f d a b => some (t, d, [a, b], fun x => aluFn f (x.gr a) (x.gr b))
  | .addi t d a i => some (t, d, [a], fun x => x.gr a + imm12 i)
  | .andi t d a i => some (t, d, [a], fun x => x.gr a &&& imm12 i)
  | .ori t d a i => some (t, d, [a], fun x => x.gr a ||| imm12 i)
  | .xori t d a i => some (t, d, [a], fun x => x.gr a ^^^ imm12 i)
  | .shi t f d a n => some (t, d, [a], fun x => shiftFn f (x.gr a) n)
  | .slti t d a i => some (t, d, [a], fun x => if (x.gr a).toInt < (imm12 i).toInt then 1 else 0)
  | .sltiu t d a i => some (t, d, [a], fun x => if (x.gr a).toNat < (imm12 i).toNat then 1 else 0)
  | .setw t f d w2 => some (t, d, [d], fun x => setFn f (x.gr d) w2)
  | _ => none

/-- ALU, ADDI, ANDI, ORI, XORI, SHI, SLTI, SLTIU and SETW, when they may issue, answer the next state in which gD holds
the value of the table, and everything else is as the frame of an issue says. -/
def Sys2Proof.Claims.ControlIntegersExecute : Prop :=
  ∀ (i : Instr) (t : Tok) (d : GReg) (srcs : List GReg) (f : Ctx → W64) (s : State),
    gForm i = some (t, d, srcs, f) → Ready t (d.val :: srcs.map (·.val)) s →
    Does (exec i s) t false s s (s.counted.fctx.setG d (f s.fctx))

/-- What ALU computes, function by function, in the numbers that R179 names: r is op(a, b). -/
def AluResult (f : AluOp) (a b r : W64) : Prop :=
  match f with
  | .add => r.toNat = (a.toNat + b.toNat) % 2 ^ 64
  | .sub => (r.toNat + b.toNat) % 2 ^ 64 = a.toNat
  | .and => ∀ k, r.getLsbD k = (a.getLsbD k && b.getLsbD k)
  | .or => ∀ k, r.getLsbD k = (a.getLsbD k || b.getLsbD k)
  | .xor => ∀ k, r.getLsbD k = (a.getLsbD k ^^ b.getLsbD k)
  | .andn => ∀ k < 64, r.getLsbD k = (a.getLsbD k && !b.getLsbD k)
  | .shl => r.toNat = a.toNat * 2 ^ (b.toNat % 64) % 2 ^ 64
  | .shr => r.toNat = a.toNat / 2 ^ (b.toNat % 64)
  | .sar => r.toInt = a.toInt / ((2 ^ (b.toNat % 64) : Nat) : Int)
  | .slt => r = if a.toInt < b.toInt then 1 else 0
  | .sltu => r = if a.toNat < b.toNat then 1 else 0
  | .min => r.toInt = Min.min a.toInt b.toInt
  | .max => r.toInt = Max.max a.toInt b.toInt
  | .minu => r.toNat = Min.min a.toNat b.toNat
  | .maxu => r.toNat = Max.max a.toNat b.toNat
  | .mul => r.toNat = a.toNat * b.toNat % 2 ^ 64
  | .mulh => r.toInt = a.toInt * b.toInt / ((2 ^ 64 : Nat) : Int)
  | .mulhu => r.toNat = a.toNat * b.toNat / 2 ^ 64
  | .div =>
    if b = 0 then ∀ k < 64, r.getLsbD k = true
    else if a.toInt = -2 ^ 63 ∧ b.toInt = -1 then r = a
    else r.toInt = a.toInt.tdiv b.toInt
  | .divu => if b = 0 then ∀ k < 64, r.getLsbD k = true else r.toNat = a.toNat / b.toNat
  | .rem =>
    if b = 0 then r = a
    else if a.toInt = -2 ^ 63 ∧ b.toInt = -1 then r = 0
    else r.toInt = a.toInt.tmod b.toInt
  | .remu => if b = 0 then r = a else r.toNat = a.toNat % b.toNat
  | .clz =>
    r.toNat ≤ 64 ∧ a.toNat < 2 ^ (64 - r.toNat) ∧ (r.toNat < 64 → 2 ^ (63 - r.toNat) ≤ a.toNat)
  | .popc => r.toNat = (List.range 64).countP fun k => a.getLsbD k

/-- ALU computes what R179 says, for every function and all operands, the edge cases of division among them. -/
def Sys2Proof.Claims.AluComputesTheTable : Prop :=
  ∀ (f : AluOp) (a b : W64), AluResult f a b (aluFn f a b)

/-- The forms of SHI and of SETW and ASET, by bits (R180, R181, R232). -/
def Sys2Proof.Claims.ShiftAndSetForms : Prop :=
  ∀ (a : W64) (n : Fin 64) (w : W32),
    (shiftFn .shl a n).toNat = a.toNat * 2 ^ n.val % 2 ^ 64 ∧ (shiftFn .shr a n).toNat = a.toNat / 2 ^ n.val ∧
    (shiftFn .sar a n).toInt = a.toInt / ((2 ^ n.val : Nat) : Int) ∧
    (∀ k < 64, (shiftFn .ror a n).getLsbD k = a.getLsbD ((k + n.val) % 64)) ∧
    (setFn .signed a w).toInt = w.toInt ∧ (setFn .zero a w).toNat = w.toNat ∧
    (setFn .high a w).toNat = w.toNat * 2 ^ 32 + a.toNat % 2 ^ 32

/-- g0 reads as 0, and a write to it changes nothing; a write to another register changes it alone (R132). -/
def Sys2Proof.Claims.RegisterZero : Prop :=
  ∀ (x : Ctx) (d r : GReg) (v : W64),
    x.gr 0 = 0 ∧ x.setG 0 v = x ∧ (d ≠ 0 → (x.setG d v).gr d = v) ∧ (r ≠ d → (x.setG d v).gr r = x.gr r)

/-- The load- and store-stream instructions that write aD (R231, R232), for the stream that executes them. -/
def aForm : Instr → Option (Tok × AReg × List AReg × (Stream → Ctx → W64))
  | .aalu t f d a b => some (t, d, [a, b], fun st x => aaluFn f (x.ar st a) (x.ar st b))
  | .aaddi t d a i => some (t, d, [a], fun st x => x.ar st a + imm12 i)
  | .aset t f d w2 => some (t, d, [d], fun st x => setFn f (x.ar st d) w2)
  | _ => none

/-- AALU, AADDI and ASET, when they may issue, answer the next state in which aD of the executing stream holds the value
of the table; the a registers of the other stream stay. -/
def Sys2Proof.Claims.LoadStoreIntegersExecute : Prop :=
  ∀ (i : Instr) (t : Tok) (d : AReg) (srcs : List AReg) (f : Stream → Ctx → W64) (s : State),
    aForm i = some (t, d, srcs, f) → Ready t (d.val :: srcs.map (·.val)) s →
    ∃ x, Does (exec i s) t false s s x ∧
      x = (if s.fstr = .store then { s.counted.fctx with aS := s.fctx.aS.set d (f s.fstr s.fctx) }
           else { s.counted.fctx with aL := s.fctx.aL.set d (f s.fstr s.fctx) }) ∧
      x.ar s.fstr d = f s.fstr s.fctx

/-! ## Tokens and stamps -/

/-- NOP, TOKW and TOKP: the token bits, and the tokens they take of the previous and next and post to the previous and
next neighbour besides. -/
def tokenForm : Instr → Option (Tok × Nat × Nat × Nat × Nat)
  | .nop t => some (t, 0, 0, 0, 0)
  | .tokwControl t next n => some (if next then (t, 0, n.val, 0, 0) else (t, n.val, 0, 0, 0))
  | .tokwLoadStore t next n => some (if next then (t, 0, n.val, 0, 0) else (t, n.val, 0, 0, 0))
  | .tokwMath t next n => some (if next then (t, 0, n.val, 0, 0) else (t, n.val, 0, 0, 0))
  | .tokpControl t next n => some (if next then (t, 0, 0, 0, n.val) else (t, 0, 0, n.val, 0))
  | .tokpLoadStore t next n => some (if next then (t, 0, 0, 0, n.val) else (t, 0, 0, n.val, 0))
  | .tokpMath t next n => some (if next then (t, 0, 0, 0, n.val) else (t, 0, 0, n.val, 0))
  | _ => none

/-- NOP, TOKW and TOKP of every stream, when they may issue, answer the next state in which their tokens are taken and
posted and nothing else is done. -/
def Sys2Proof.Claims.TokenInstructionsExecute : Prop :=
  ∀ (i : Instr) (t : Tok) (tp tn pp pn : Nat) (s : State),
    tokenForm i = some (t, tp, tn, pp, pn) → ReadyWith t [] tp tn pp pn s →
    DoesWith (exec i s) t tp tn pp pn false s s s.counted.fctx

/-- Toward idle neighbours, the counts after an issue are those before less what was taken and plus what was posted,
and no place stays reserved; a queue of other sequencers stays as it was (R144, R145). -/
def Sys2Proof.Claims.TokenCounts : Prop :=
  ∀ (t : Tok) (tp tn pp pn : Nat) (s : State) (q : Fin 8),
    (∀ k : Fin 8, s.fctx.tok[k].pending = []) →
    (tokensAfter t tp tn pp pn false s)[q].pending = [] ∧
    (tokensAfter t tp tn pp pn false s)[q].count =
      s.fctx.tok[q].count
        - (if q = waitQ s.fstr false then t.wp.toNat + tp else 0)
        - (if q = waitQ s.fstr true then t.wn.toNat + tn else 0)
        + (if q = postQ s.fstr false then t.pp.toNat + pp else 0)
        + (if q = postQ s.fstr true then t.pn.toNat + pn else 0)

/-- An instruction whose tokens are not there waits: the state stays as it was. An instruction whose posts would make an
occupancy exceed 63 takes TOKEN_OVERFLOW and neither takes a token nor posts one (R144, R145, R147). -/
def Sys2Proof.Claims.TokenWaitAndOverflow : Prop :=
  ∀ (i : Instr) (t : Tok) (tp tn pp pn : Nat) (s : State),
    tokenForm i = some (t, tp, tn, pp, pn) → blocked s.fctx s.fstr = false → loopSplits s = false →
    s.fstrm.stamp = none →
    (tokensThere s.fctx s.cycle s.fstr (t.wp.toNat + tp) (t.wn.toNat + tn) = false → exec i s = .next s) ∧
    (tokensThere s.fctx s.cycle s.fstr (t.wp.toNat + tp) (t.wn.toNat + tn) = true →
      tokensOver s.fctx s.fstr (t.pp.toNat + pp) (t.pn.toNat + pn) = true →
      exec i s = .next (takeFault s { code := 0x06 }))

/-- STAMP issues without reference to the frame only in so far as no earlier stamp is pending; it leaves its own stamp
pending, and nothing else but its tokens (R156). -/
def Sys2Proof.Claims.StampExecutes : Prop :=
  ∀ (t : Tok) (k : Fin 4194304) (s : State), Ready t [] s →
    ∃ y, exec (.stamp t k) s = .next (s.setCtx s.fcore y) ∧ Keeps t false s s.counted.fctx y ∧
      (y.strm s.fstr).stamp = some k.val ∧ Sequential s s.counted.fctx y

/-- A stamped instruction of an ELASTIC or STRICT frame waits before cycle k and while the frame has not begun; past
k + SLACK it takes SCHEDULE_MISS in a STRICT frame. A FREE frame ignores the stamp (R157). -/
def Sys2Proof.Claims.StampGate : Prop :=
  ∀ (t : Tok) (s : State) (k : Nat), s.fstrm.stamp = some k → blocked s.fctx s.fstr = false → loopSplits s = false →
    (s.fctx.frmode ≠ 0 → (s.fctx.fbegan = none ∨ frameCycle s.cycle s.fctx < k) → exec (.nop t) s = .next s) ∧
    (s.fctx.frmode = 2 → s.fctx.fbegan ≠ none → k + s.fctx.slack.toNat < frameCycle s.cycle s.fctx →
      exec (.nop t) s = .next (takeFault s { code := 0x0D })) ∧
    (s.fctx.frmode = 0 → gate s.cycle s.fctx s.fstrm = .pass)

/-! ## Branches, jumps, loops and ends -/

/-- The conditional branches: the token bits, the registers compared, the offset, and the condition (R185). -/
def branchForm : Instr → Option (Tok × GReg × GReg × Fin 4096 × (W64 → W64 → Prop))
  | .beq t a b i => some (t, a, b, i, fun x y => x = y)
  | .bne t a b i => some (t, a, b, i, fun x y => x ≠ y)
  | .blt t a b i => some (t, a, b, i, fun x y => x.toInt < y.toInt)
  | .bge t a b i => some (t, a, b, i, fun x y => y.toInt ≤ x.toInt)
  | .bltu t a b i => some (t, a, b, i, fun x y => x.toNat < y.toNat)
  | .bgeu t a b i => some (t, a, b, i, fun x y => y.toNat ≤ x.toNat)
  | _ => none

/-- When the condition holds, a branch goes to its own address plus 4 × i, i sign-extended; else it goes on. It changes
no register. -/
def Sys2Proof.Claims.BranchesExecute : Prop :=
  ∀ (i : Instr) (t : Tok) (a b : GReg) (o : Fin 4096) (c : W64 → W64 → Prop) (s : State),
    branchForm i = some (t, a, b, o, c) → Ready t [a.val, b.val] s →
    (c (s.fctx.gr a) (s.fctx.gr b) →
      Goes (exec i s) t s s.counted.fctx
        (s.fstrm.pc + BitVec.ofInt 64 (4 * (if o.val < 2048 then (o.val : Int) else o.val - 4096)))) ∧
    (¬c (s.fctx.gr a) (s.fctx.gr b) → Does (exec i s) t false s s s.counted.fctx)

/-- JAL sets gD to its own address plus 4 and goes to its address plus 4 × i; JMP of the load, store and math streams
only goes there. JALR goes to gA + 4 × i, read before gD is written, and takes ALIGN with gD unwritten when that is no
multiple of 4 (R186, R234, R267). -/
def Sys2Proof.Claims.JumpsExecute : Prop :=
  ∀ (t : Tok) (d a : GReg) (i : Fin 131072) (j : Fin 4096) (s : State),
    let far : W64 := BitVec.ofInt 64 (4 * (if i.val < 65536 then (i.val : Int) else i.val - 131072))
    let near : W64 := BitVec.ofInt 64 (4 * (if j.val < 2048 then (j.val : Int) else j.val - 4096))
    (Ready t [d.val] s → Goes (exec (.jal t d i) s) t s (s.counted.fctx.setG d (s.fstrm.pc + 4)) (s.fstrm.pc + far)) ∧
    (Ready t [] s → Goes (exec (.jmpLoadStore t i) s) t s s.counted.fctx (s.fstrm.pc + far) ∧
      Goes (exec (.jmpMath t i) s) t s s.counted.fctx (s.fstrm.pc + far)) ∧
    (Ready t [d.val, a.val] s →
      ((s.fctx.gr a + near).toNat % 4 = 0 →
        Goes (exec (.jalr t d a j) s) t s (s.counted.fctx.setG d (s.fstrm.pc + 4)) (s.fctx.gr a + near)) ∧
      ((s.fctx.gr a + near).toNat % 4 ≠ 0 →
        exec (.jalr t d a j) s = .next (takeFault s.counted { code := 0x07, addr := s.fctx.gr a + near })))

/-- The loop instructions of every stream: token bits, counter, length, the registers read under interlock, and the
count. LOOP of the math stream reads a v register without interlock. -/
def loopForm : Instr → Option (Tok × Fin 4 × Nat × List Nat × (Ctx → Stream → W32))
  | .loopControl t n a l => some (t, n, l.val, [a.val], fun x _ => (x.gr a).setWidth 32)
  | .loopLoadStore t n a l => some (t, n, l.val, [a.val], fun x st => (x.ar st a).setWidth 32)
  | .loopMath t n (.v r) l => some (t, n, l.val, [], fun x _ => x.v[r][0])
  | .loopiControl t n c l => some (t, n, l.val, [], fun _ _ => BitVec.ofNat 32 c.val)
  | .loopiLoadStore t n c l => some (t, n, l.val, [], fun _ _ => BitVec.ofNat 32 c.val)
  | .loopiMath t n c l => some (t, n, l.val, [], fun _ _ => BitVec.ofNat 32 c.val)
  | _ => none

/-- A loop of count 0 has made counter n inactive and skipped its body, to the address past it: y holds the loop counters and the
stream's pc. The innermost loop that ends at the instruction itself, where there is one, is tested first (R188). -/
def Skips (s : State) (n : Fin 4) (past : W64) (y : Ctx) : Prop :=
  let lc := s.fctx.lc.set n { s.fctx.lc[n] with value := 0, owner := s.fstr, active := false }
  let at_ := loopAt { s.fctx with lc := lc } s.fstr s.lastWord
  (at_ = none → y.lc = lc ∧ (y.strm s.fstr).pc = past) ∧
  ∀ k, at_ = some k → (∀ j : Fin 4, lc[j].serial ≤ s.fctx.serial) →
    (lc[k].value.toNat + 1 < lc[k].count.toNat →
      y.lc = lc.set k { lc[k] with value := lc[k].value + 1 } ∧ (y.strm s.fstr).pc = lc[k].b) ∧
    (¬lc[k].value.toNat + 1 < lc[k].count.toNat → (∀ j : Fin 4, j ≠ k → lc[j].active = false) →
      y.lc = lc.set k { lc[k] with value := lc[k].count, active := false } ∧ (y.strm s.fstr).pc = past)

/-- LOOP and LOOPI of every stream, with a count over 0, start the counter at 0 over the len words that follow; with a
count of 0 they skip the body, unless their own word is the last of an enclosing loop, which then goes round or ends as it
does at any instruction there; on a counter that is active in another stream they take ILLEGAL_OP (R187, R188). -/
def Sys2Proof.Claims.LoopsStart : Prop :=
  ∀ (i : Instr) (t : Tok) (n : Fin 4) (len : Nat) (regs : List Nat) (count : Ctx → Stream → W32) (s : State),
    loopForm i = some (t, n, len, regs, count) → 1 ≤ len → Ready t regs s → s.words = 1 →
    (∀ p ∈ s.fctx.pend, ∀ t' n' r l, i = .loopMath t' n' (.v r) l → p.dst ≠ .v r) →
    let l := s.fctx.lc[n]
    let b := s.fstrm.pc + 4
    let c := count s.fctx s.fstr
    (¬(l.active = true ∧ l.owner ≠ s.fstr) →
      (c ≠ 0 → Does (exec i s) t false s s
        { s.counted.fctx with
            lc := s.fctx.lc.set n ⟨0, s.fstr, true, c, b, b + BitVec.ofNat 64 (4 * (len - 1)), s.fctx.serial + 1⟩ }) ∧
      (c = 0 → ∃ y, exec i s = .next (s.setCtx s.fcore y) ∧ Keeps t false s s.counted.fctx y ∧
        (y.strm s.fstr).stamp = none ∧ Skips s n (b + BitVec.ofNat 64 (4 * (len - 1)) + 4) y)) ∧
    (l.active = true → l.owner ≠ s.fstr → exec i s = .next (takeFault s.counted { code := 0x01 }))

/-- LOOP of the math stream from an iq pops its oldest entry and counts with its lane 0; a count of 0 skips the body (R133, R187,
R188). -/
def Sys2Proof.Claims.LoopFromQueue : Prop :=
  ∀ (t : Tok) (n : Fin 4) (q : QNum) (len : Fin 4096) (s : State) (p : QPlace),
    Ready t [] s → s.words = 1 → 1 ≤ len.val → oldest s.fctx.iq[q] s.cycle = some p → p.poison = false →
    ¬(s.fctx.lc[n].active = true ∧ s.fctx.lc[n].owner ≠ s.fstr) →
    let e := s.fstrm.pc + 4 + BitVec.ofNat 64 (4 * (len.val - 1))
    let x := { s.counted.fctx with iq := s.fctx.iq.set q (s.fctx.iq[q].drop 1) }
    (p.data[0] ≠ 0 → Does (exec (.loopMath t n (.iq q) len) s) t false s s
      { x with lc := s.fctx.lc.set n ⟨0, s.fstr, true, p.data[0], s.fstrm.pc + 4, e, s.fctx.serial + 1⟩ }) ∧
    (p.data[0] = 0 → ∃ y, exec (.loopMath t n (.iq q) len) s = .next (s.setCtx s.fcore y) ∧ Keeps t false s x y ∧
      (y.strm s.fstr).stamp = none ∧ Skips s n (e + 4) y)

/-- The end of a loop, shown on a NOP whose word is the last of the body: the innermost loop that ends there goes round
again while its counter plus 1 is below its count; else it ends, with its counter at its count, and the next loop out is
tested (R188). -/
def Sys2Proof.Claims.LoopEnds : Prop :=
  ∀ (t : Tok) (s : State) (i : Fin 4), Ready t [] s → loopAt s.fctx s.fstr s.lastWord = some i →
    (∀ k : Fin 4, s.fctx.lc[k].serial ≤ s.fctx.serial) →
    let l := s.fctx.lc[i]
    (l.active = true ∧ l.owner = s.fstr ∧ l.e = s.lastWord ∧
      ∀ k : Fin 4, s.fctx.lc[k].active = true → s.fctx.lc[k].owner = s.fstr → s.fctx.lc[k].e = s.lastWord →
        s.fctx.lc[k].serial ≤ l.serial) ∧
    ∃ y, exec (.nop t) s = .next (s.setCtx s.fcore y) ∧ Keeps t false s s.counted.fctx y ∧
      (l.value.toNat + 1 < l.count.toNat →
        y.lc = s.fctx.lc.set i { l with value := l.value + 1 } ∧ (y.strm s.fstr).pc = l.b) ∧
      (¬l.value.toNat + 1 < l.count.toNat → (∀ k : Fin 4, k ≠ i → s.fctx.lc[k].active = false) →
        y.lc = s.fctx.lc.set i { l with value := l.count, active := false } ∧
        (y.strm s.fstr).pc = s.fstrm.pc + BitVec.ofNat 64 (4 * s.words))

/-- END ends its stream and its pc stays. In the math stream the entries of mq and gq are discarded, and so is every
later one (R153, R234, R267). -/
def Sys2Proof.Claims.EndsExecute : Prop :=
  ∀ (t : Tok) (s : State), Ready t [] s →
    let x := s.counted.fctx.setStrm s.fstr { s.fstrm with ended := true }
    Stays (exec (.endLoadStore t) s) t false s s x ∧
    Stays (exec (.endMath t) s) t false s s { x with mathEnd := true, mq := [], gq := [] }

/-! ## Faults -/

/-- An instruction's fault is precise: the task is cut with the record of the fault, and nothing else changes; so UDF
takes ILLEGAL_OP at once, without its tokens, while TRAP takes its tokens, makes its posts and then takes USER_TRAP with
its pc at itself and SKIP set (R128, R136, R192, R323, R326). -/
def Sys2Proof.Claims.FaultsAndTraps : Prop :=
  ∀ (s : State) (slot : Nat), (s.core s.fcore).run = .running slot →
    (∀ f : Flt, f.stale = false → takeFault s f = s.cutFor slot (recordOf s f.code f.addr f.skip)) ∧
    (∀ (t : Tok) (v : Fin 4194304), exec (.udf t v) s = .next (s.cutFor slot (recordOf s 0x01 0 false))) ∧
    (∀ (t : Tok) (v : Fin 4194304), Ready t [] s →
      Stays (exec (.trap t v) s) t false s (s.cutFor slot (recordOf s 0x0F 0 true)) s.counted.fctx)

/-- Of the stream faults of one cycle the one of the first stream in the order C, L, M, S is kept, and it is kept before
an op's; a fault of a later cycle does not replace it (R323). -/
def Sys2Proof.Claims.FirstFaultOfACycle : Prop :=
  ∀ (s : State) (c : CoreId) (slot at_ : Nat) (task : Task) (f g : FaultInfo),
    (s.core c).run = .cutting slot at_ → s.findTask slot = some task → task.fault = some g →
    (at_ ≠ s.cycle → raiseAt s c f = s) ∧
    (at_ = s.cycle → ∃ task', (raiseAt s c f).findTask slot = some task' ∧
      task'.fault = some (if f.src = 0 ∧ (g.src ≠ 0 ∨ f.stream.idx < g.stream.idx) then f else g))

/-! ## System registers -/

/-- SYSR writes gD with the system register as it stands once its tokens are taken; it changes no system register
(R189). -/
def Sys2Proof.Claims.SysrExecutes : Prop :=
  ∀ (t : Tok) (d : GReg) (r : SysReg) (s : State), Ready t [d.val] s →
    Does (exec (.sysr t d r) s) t false s s (s.counted.fctx.setG d (readSys (s.entered t 0 0) s.fcore r))

/-- SYSW writes the fields that a program may write, each by its access: DEMOTE and NR and the FSTAT flags are cleared by
writing 1, FCTL keeps its value when the mode is not one of 0 to 4, FTB takes bits 6:0, SLACK and SMISS their widths.
Every other register ignores it (R22, R51, R52, R60, R154, R158, R189, R190). -/
def Sys2Proof.Claims.SyswExecutes : Prop :=
  ∀ (t : Tok) (a : GReg) (r : SysReg) (s : State), Ready t [a.val] s →
    let v := s.fctx.gr a
    let x := s.counted.fctx
    Does (exec (.sysw t a r) s) t false s s
      (match r with
       | .lmap => { x with demote := x.demote && !v.getLsbD 5 }
       | .fctl => { x with fctl := if v.toNat % 8 ≤ 4 then BitVec.ofNat 64 (v.toNat % 8) else x.fctl }
       | .fstat => { x with fstat := x.fstat &&& ~~~v }
       | .ftb => { x with ftb := BitVec.ofNat 64 (v.toNat % 128) }
       | .slack => { x with slack := BitVec.ofNat 16 v.toNat }
       | .smiss => { x with smiss := BitVec.ofNat 32 v.toNat }
       | .qstat => { x with nr := x.nr && !v.getLsbD 58 }
       | _ => x)

/-- What a program reads of itself: its logical core and cluster, its task and graph, the counts of its token queues, the
frame cycle, the course, and a loop counter with its owner and whether it is active (R21, R29, R31, R154, R158, R191). -/
def Sys2Proof.Claims.SysregValues : Prop :=
  ∀ (s : State) (c : CoreId) (n : Fin 4) (q : Fin 8),
    (readSys s c .lcore).toNat = (s.ctx c).lcore.toNat ∧ (readSys s c .lclus).toNat = (s.ctx c).lcore.toNat / 8 ∧
    (readSys s c .task).toNat = (s.ctx c).task.toNat ∧ (readSys s c .graph).toNat = (s.ctx c).graph.toNat ∧
    (readSys s c (.oseq q)).toNat = (s.ctx c).oseq[q].toNat ∧
    (readSys s c .course).toNat = s.fabric.course.toNat ∧ readSys s c .round = readSys s c .course ∧
    (readSys s c .tokq).toNat / 2 ^ (6 * q.val) % 64 = (s.ctx c).tok[q].count % 64 ∧
    (readSys s c (.lc n)).toNat =
      (s.ctx c).lc[n].value.toNat + 2 ^ 32 * (s.ctx c).lc[n].owner.idx.val + 2 ^ 34 * (s.ctx c).lc[n].active.toNat ∧
    ((s.ctx c).fbegan = none → readSys s c .frmc = 0)

/-- What it reads of the machine and of its own state, field by field: the physical core and how many logical cores share it,
the mapping, the task's flags, the entries of the queues, the frame's mode, and the progress of its oldest matrix op, of those
stopped before the others (R21, R22, R94, R154, R158, R286). -/
def Sys2Proof.Claims.SysregFields : Prop :=
  ∀ (s : State) (c : CoreId) (q : QNum),
    let x := s.ctx c
    let p := s.parts[s.partOfCore c]
    let pc := (readSys s c .pcore).toNat
    let lm := (readSys s c .lmap).toNat
    let qs := (readSys s c .qstat).toNat
    let fm := (readSys s c .frmode).toNat
    let entries := fun l : List QPlace => ((l.takeWhile fun e => e.landed.any (· < s.cycle)).length) % 8
    (pc % 8 = c.val % 8 ∧ pc / 8 % 32 = c.val / 8 % 20 ∧ pc / 2 ^ 8 % 4 = c.val / 160 ∧ pc / 2 ^ 10 % 64 = 0 ∧
      pc / 2 ^ 16 = ((List.range 80).countP fun k => p.map.getD (k % max 1 p.map.length) 0 == c.val / 8) % 16) ∧
    (lm % 2 = (p.map.length == 80 && p.banks == 512).toNat ∧ lm / 2 % 4 = s.mgmt.pmode % 4 ∧
      lm / 8 % 4 = (s.partOfCore c).val ∧ lm / 32 % 2 = x.demote.toNat ∧ lm / 64 % 2 ^ 10 = 0 ∧
      lm / 2 ^ 16 % 2 ^ 8 = p.map.length % 2 ^ 8 ∧ lm / 2 ^ 24 % 2 ^ 8 = 0 ∧ lm / 2 ^ 32 = p.mapGen % 2 ^ 32) ∧
    (readSys s c .tstat).toNat = x.tstat.toNat ∧
    (qs / 2 ^ (3 * q.val) % 8 = entries x.iq[q] ∧ qs / 2 ^ (24 + 3 * q.val) % 8 = entries x.oq[q] ∧
      qs / 2 ^ 48 % 32 = x.mq.length % 32 ∧ qs / 2 ^ 53 % 32 = x.gq.length % 32 ∧ qs / 2 ^ 58 = x.nr.toNat) ∧
    (fm % 4 = x.frmode.toNat ∧ fm / 4 % 2 = x.fwait.toNat ∧ fm / 8 % 2 = x.resumed.toNat ∧ fm / 16 % 2 ^ 12 = 0 ∧
      fm / 2 ^ 16 = x.fcourse.toNat)

/-- OWMn: the counter of the channel when it has no live op of the context on the logical core, and else the sequence of the
live op that precedes all others; 0 for a channel that the task does not use (R95, R162, R165). ZRP: 0 when the task has no live op on
channel 4; else the progress, the accumulator and the sequence of the oldest, of those paused or faulted where there are any
(R94, R286). -/
def Sys2Proof.Claims.OpRegisters : Prop :=
  ∀ (s : State) (c : CoreId) (n : Fin 8) (o : Op),
    let r := rightsOf s c
    let live := fun (ch : Nat) (p : Op) => p.status.isLive = true ∧ p.rights.port = r.port ∧ p.rights.ctx = r.ctx ∧
      p.rights.lcore = r.lcore ∧ p.chan.val = ch
    let precedes := fun a b : Nat => 1 ≤ (b + 2 ^ 40 - a % 2 ^ 40) % 2 ^ 40 ∧ (b + 2 ^ 40 - a % 2 ^ 40) % 2 ^ 40 < 2 ^ 39
    let mine := fun p : Op => live 4 p ∧ p.rights.slot = r.slot ∧ p.gen = (s.ctx c).task.toNat % 65536
    let stopped := fun p : Op => p.status = .paused ∨ p.status = .faulted
    let first := fun p : Op => mine p ∧ (stopped p ∨ ∀ e ∈ s.ops, mine e → ¬stopped e)
    let z := (readSys s c .zrp).toNat
    ((s.ctx c).chuse.getLsbD n.val = false → readSys s c (.owm n) = 0) ∧
    ((s.ctx c).chuse.getLsbD n.val = true →
      ((∀ p ∈ s.ops, ¬live n.val p) → readSys s c (.owm n) =
        BitVec.ofNat 64 (lookupNat (s.ports[Fin.ofNat 2 r.port].ctx[Fin.ofNat 64 r.ctx]).oseq (8 * r.lcore + n.val))) ∧
      (o ∈ s.ops → live n.val o → (∀ p ∈ s.ops, live n.val p → p ≠ o → precedes o.seq p.seq) →
        readSys s c (.owm n) = BitVec.ofNat 64 o.seq)) ∧
    ((∀ p ∈ s.ops, ¬mine p) → z = 0) ∧
    (o ∈ s.ops → first o → (∀ p ∈ s.ops, first p → p ≠ o → precedes o.seq p.seq) →
      z % 2 ^ 9 = (if o.kind.isMma then o.cursor % 2 ^ 9 else 0) ∧
      z / 2 ^ 9 % 2 ^ 7 = (if o.kind.isMma then 0 else o.cursor % 2 ^ 7) ∧
      (∀ a, o.kind.acc? = some a → z / 2 ^ 16 % 4 = a.val) ∧ z / 2 ^ 18 % 2 = 1 ∧
      z / 2 ^ 19 % 2 = o.kind.isAway.toNat ∧ z / 2 ^ 20 % 16 = 0 ∧ z / 2 ^ 24 = o.seq % 2 ^ 40)

/-! ## Loads, stores, AMO, LOFT and fences -/

/-- The scalar loads: token bits, destination, base register, bytes, sign extension, class, base and address. -/
def loadForm : Instr → Option (Tok × Nat × Nat × Nat × Bool × Cls × (Stream → Ctx → W64) × Fin 64)
  | .ld t sz d a c o => some (t, d.val, a.val, sizeBytes sz, true, c, fun _ x => x.gr a, o)
  | .ldu t sz d a c o => some (t, d.val, a.val, sizeBytes sz, false, c, fun _ x => x.gr a, o)
  | .ald t sz d a c o => some (t, d.val, a.val, sizeBytes sz, false, c, fun st x => x.ar st a, o)
  | _ => none

/-- LD, LDU and ALD at base + OFF × size, OFF signed. A misaligned address takes ALIGN, and one in no space takes SPACE, as does
one of ALD whose sum changes what the base holds above its space; else, when the check and walk of the address allow it, the
instruction executes: its destination is interlocked and the access is pending, and its tokens are posted with its write; and
when the check refuses it the instruction takes that fault, a poisoned word only once no access is before it (R145, R182,
R229, R230, R233, R312). -/
def Sys2Proof.Claims.LoadsExecute : Prop :=
  ∀ (i : Instr) (t : Tok) (d a n : Nat) (sg : Bool) (c : Cls) (base : Stream → Ctx → W64) (o : Fin 64) (s : State),
    loadForm i = some (t, d, a, n, sg, c, base, o) → Ready t [d, a] s →
    let b := base s.fstr s.fctx
    let va := b + BitVec.ofInt 64 ((if o.val < 32 then (o.val : Int) else o.val - 64) * n)
    let p := s.checked t false true [⟨va.toNat, n, 0⟩]
    (va.toNat % n ≠ 0 → exec i s = .next (takeFault s.counted { code := 0x07, addr := va })) ∧
    let spills := s.fstr ≠ .ctl ∧ addrSpills b va = true
    (va.toNat % n = 0 → (spills ∨ placeOf va.toNat = none) →
      exec i s = .next (takeFault s.counted { code := 0x0A, addr := va })) ∧
    (va.toNat % n = 0 → ¬spills → placeOf va.toNat ≠ none →
      (∀ us, p.2 = .ok us →
        Does (exec i s) t true s p.1 (((p.1.ctx s.fcore).withBusy s.fstr d).withAccess s.fstr
          (mkAccess p.1 (s.fctx.serial + 1) (.load d n sg) c us (List.replicate n 0) va))) ∧
      (∀ code v, p.2 = .fault code v → Refused (exec i s) s (s.entered t 0 0) code (BitVec.ofNat 64 v)))

/-- ST at gA + OFF × size: a misaligned address takes ALIGN, and one in no space SPACE; when the check allows it the store is
pending with the low size bytes of gB, and its tokens are posted as it issues, the cycle in which the memory pipeline accepts it
being the model's reading (notes/assumptions/7.md); when a leaf with WB holds it, the stream stands at it, posts nothing and no
byte is written; when the check refuses it, it takes that fault (R182, R227, R229). -/
def Sys2Proof.Claims.StoreExecutes : Prop :=
  ∀ (t : Tok) (sz : Size) (a b : GReg) (c : Cls) (o : Fin 64) (s : State), Ready t [a.val, b.val] s →
    let n := sizeBytes sz
    let va := memAddr (s.fctx.gr a) o sz
    let p := s.checked t true true [⟨va.toNat, n, 0⟩]
    let data := toBytes n (s.fctx.gr b).toNat
    (va.toNat % n ≠ 0 → exec (.st t sz a b c o) s = .next (takeFault s.counted { code := 0x07, addr := va })) ∧
    (va.toNat % n = 0 → placeOf va.toNat = none →
      exec (.st t sz a b c o) s = .next (takeFault s.counted { code := 0x0A, addr := va })) ∧
    (va.toNat % n = 0 → placeOf va.toNat ≠ none →
    (∀ us, p.2 = .ok us →
      Does (exec (.st t sz a b c o) s) t false s p.1
        ((p.1.ctx s.fcore).withAccess s.fstr (mkAccess p.1 (s.fctx.serial + 1) .store c us data va))) ∧
    (p.2 = .held →
      Stays (exec (.st t sz a b c o) s) t true s p.1 ((p.1.ctx s.fcore).withAccess s.fstr
        { mkAccess p.1 (s.fctx.serial + 1) .store c [] data va with
            all := [⟨va.toNat, n, 0⟩]
            heldAt := some s.cycle
            stalls := true
            took := (t.wp.toNat, t.wn.toNat)
            posts := (t.pp, t.pn) })) ∧
    (∀ code v, p.2 = .fault code v → Refused (exec (.st t sz a b c o) s) s (s.entered t 0 0) code (BitVec.ofNat 64 v)))

/-- AMO at gA: a misaligned address takes ALIGN, and one in no space SPACE. When the check allows it and no word of it is
poisoned, it executes: gD is interlocked and the access is pending with gB and gC as operand and compare; its tokens come with its
write. When a leaf with WB holds it, its stream stands at it, gD is interlocked and nothing is performed. A refused check and a poisoned word
are its fault. Every later access of its stream follows an acquiring one, for every party; a releasing one follows every earlier
access still to be performed, for the parties of its scope (R145, R183, R227, R229, R310, R312, R314). -/
def Sys2Proof.Claims.AmoExecutes : Prop :=
  ∀ (t : Tok) (op : AmoOp) (d a b cmp : GReg) (sz : Size) (c : Cls) (sc : Scope) (ord : AmoOrder) (s : State),
    Ready t [d.val, a.val, b.val, cmp.val] s →
    let n := sizeBytes sz
    let va := s.fctx.gr a
    let e := s.entered t 0 0
    let p := s.checked t true true [⟨va.toNat, n, 0⟩]
    let o := exec (.amo t op d a b cmp sz c sc ord) s
    let rel := ord = .rel ∨ ord = .ar
    let acq := ord = .acq ∨ ord = .ar
    let pending := fun (x : Ctx) (m : Access) =>
      x.rest = s.fctx.rest ∧ (x.strm s.fstr).accs = s.fstrm.accs ∧
      (x.strm s.fstr).busy = (if s.fstr = .ctl ∧ d = 0 then s.fstrm.busy else d.val :: s.fstrm.busy) ∧
      m.id = s.fctx.serial + 1 ∧ m.cls = c ∧ m.va = va ∧
      m.kind = .amo d.val op n (s.fctx.gr b) (s.fctx.gr cmp) rel acq sc ∧
      m.after = s.fstrm.behind.filter (fun e => e.mask.getLsbD c.val) ++
        (if rel then (s.fstrm.accs.filter Access.open_).map fun e => ⟨e.id, sc, false, -1⟩ else []) ∧
      (x.strm s.fstr).behind = s.fstrm.behind ++ (if acq then [⟨s.fctx.serial + 1, .device, false, -1⟩] else [])
    (va.toNat % n ≠ 0 → o = .next (takeFault s.counted { code := 0x07, addr := va })) ∧
    (va.toNat % n = 0 → placeOf va.toNat = none → o = .next (takeFault s.counted { code := 0x0A, addr := va })) ∧
    (va.toNat % n = 0 → placeOf va.toNat ≠ none →
      (∀ us, p.2 = .ok us → (∀ u ∈ us, p.1.poisoned u.key u.len = false) →
        ∃ (x : Ctx) (m : Access), Does o t true s p.1 (x.withAccess s.fstr m) ∧ pending x m ∧
          m.units = us ∧ m.all = us ∧ m.heldAt = none ∧ m.stalls = false) ∧
      (p.2 = .held →
        ∃ (x : Ctx) (m : Access), Stays o t true s p.1 (x.withAccess s.fstr m) ∧ pending x m ∧
          m.units = [] ∧ m.all = [⟨va.toNat, n, 0⟩] ∧ m.heldAt = some s.cycle ∧ m.stalls = true ∧
          m.took = (t.wp.toNat, t.wn.toNat) ∧ m.posts = (t.pp, t.pn)) ∧
      (∀ us, p.2 = .ok us → (∃ u ∈ us, p.1.poisoned u.key u.len = true) → Refused o s p.1 0x10 va) ∧
      (∀ code v, p.2 = .fault code v → Refused o s e code (BitVec.ofNat 64 v)))

/-- What AMO stores and returns, by its function on a location of 4 or 8 bytes (R183): old is the location's value, y the
operand and cmp the compare, cut to the size. -/
def Sys2Proof.Claims.AmoComputesTheTable : Prop :=
  ∀ (n old y cmp : Nat), (n = 4 ∨ n = 8) → old < 2 ^ (8 * n) → y < 2 ^ (8 * n) → cmp < 2 ^ (8 * n) →
    let new := fun op => (amoFn op n old y cmp).1
    let sgn := fun v : Nat => if v < 2 ^ (8 * n - 1) then (v : Int) else (v : Int) - 2 ^ (8 * n)
    new .add = (old + y) % 2 ^ (8 * n) ∧ new .and = old &&& y ∧ new .or = old ||| y ∧ new .xor = old ^^^ y ∧
    sgn (new .min) = Min.min (sgn old) (sgn y) ∧ sgn (new .max) = Max.max (sgn old) (sgn y) ∧
    new .minu = Min.min old y ∧ new .maxu = Max.max old y ∧ new .xchg = y ∧
    new .cas = (if old = cmp then y else old) ∧
    (∀ op : AmoOp, new op < 2 ^ (8 * n) ∨ op.isFp = true) ∧
    (∀ op : AmoOp, op.isFp = true ∨ op = .minu ∨ op = .maxu → (amoOld op n old).toNat = old) ∧
    (∀ op : AmoOp, op.isFp = false → op ≠ .minu → op ≠ .maxu → (amoOld op n old).toInt = sgn old)

/-- ACCESS_PERFORMED of an access whose every earlier access it must follow has been performed, and whose bytes no narrower scope
keeps from it. A scalar load of one unit writes its register with the bytes of memory, sign- or zero-extended, and changes
no byte; a store of one unit writes its bytes and no other and no register; an AMO does both and sets the flags of amofadd.
What it overtakes is noted for the parties that must not see it: that it may overtake, party by party, is the model's reading
(notes/assumptions/92.md and 93.md). Poison met by an access at which its stream stands is a MEM_UE at its instruction, and nothing of it
is performed; once the task has yielded in this cycle it waits for the cut instead (R182, R183, R229, R233, R311 to R313, R336). -/
def Sys2Proof.Claims.AccessesPerform : Prop :=
  ∀ (c : CoreId) (st : Stream) (k : Nat) (s : State) (a : Access) (key n : Nat),
    ((s.ctx c).strm st).accs[k]? = some a → a.units = [⟨key, n, 0⟩] → mayPerform (s.ctx c) st k a = true →
    (∀ b ∈ ((s.ctx c).strm st).accs, b.id = a.id → b = a) → s.mem.wf = true →
    let u : AUnit := ⟨key, n, 0⟩
    scopesLet s c st k a u = true →
    let noted := { s with debts := s.debts ++ newDebts s c st k a u }
    (a.stalls = true → unitUe s a u = true →
      (yieldedNow s c = false → exec (.accessPerformed c st k) s = .next (heldFault c st a 0x10 (ueAddr a u) s)) ∧
      (yieldedNow s c = true → exec (.accessPerformed c st k) s = .next s)) ∧
    (a.stalls = false → ∀ d sg, a.kind = .load d n sg → a.data.length = n →
      ∃ y, exec (.accessPerformed c st k) s = .next (noted.setCtx c y) ∧
        y.rest = ((s.ctx c).setReg st d (loadValue n sg (s.load key n))).rest ∧
        (∀ su, su ≠ st → y.strm su = (s.ctx c).strm su) ∧ a ∉ (y.strm st).accs) ∧
    (a.stalls = false → a.kind = .store → a.data.length = n →
      ∃ y m, exec (.accessPerformed c st k) s = .next ((noted.setCtx c y).store key a.data) ∧
        y.rest = (s.ctx c).rest ∧ (∀ su, su ≠ st → y.strm su = (s.ctx c).strm su) ∧ a ∉ (y.strm st).accs ∧
        m = (s.store key a.data).mem ∧ m.readN key n = a.data ∧
        ∀ j, j < key ∨ key + n ≤ j → m.read j = s.mem.read j) ∧
    (a.stalls = false → ∀ d op v cmp rel acq sc, a.kind = .amo d op n v cmp rel acq sc →
      ∃ y m, exec (.accessPerformed c st k) s =
          .next ((noted.store key (toBytes n (amoFn op n (s.mem.num key n) v.toNat cmp.toNat).1)).setCtx c y) ∧
        y.rest = (((s.ctx c).flag (amoFn op n (s.mem.num key n) v.toNat cmp.toNat).2).setReg st d
          (amoOld op n (ofBytes (toBytes n (s.mem.num key n))))).rest ∧
        (∀ su, su ≠ st → y.strm su = (s.ctx c).strm su) ∧ a ∉ (y.strm st).accs ∧
        m = (s.store key (toBytes n (amoFn op n (s.mem.num key n) v.toNat cmp.toNat).1)).mem ∧
        ∀ j, j < key ∨ key + n ≤ j → m.read j = s.mem.read j)

/-- An access that must follow an earlier one of its stream, by its class, a common byte, an acquire, or a release or fence at
device or gang scope, is not performed while the earlier one is not (R312, R313). -/
def Sys2Proof.Claims.OrderedAccessesWait : Prop :=
  ∀ (c : CoreId) (st : Stream) (j k : Nat) (s : State) (a b : Access),
    ((s.ctx c).strm st).accs[k]? = some a → ((s.ctx c).strm st).accs[j]? = some b → j < k →
    (b.units ≠ [] ∨ b.heldAt ≠ none) →
    (b.cls = a.cls ∨ (∃ u ∈ a.units, ∃ v ∈ b.units, u.key < v.key + v.len ∧ v.key < u.key + u.len) ∨
      b.id < a.acq[st.idx] ∨ (∃ e ∈ a.after, e.id = b.id ∧ (e.scope = .device ∨ e.scope = .gang))) →
    exec (.accessPerformed c st k) s = .next s

/-- A FENCE with no covered access pending completes at issue; with one, it takes its tokens and its stream stands at it;
once every covered access is performed it completes, posts and goes on, and until then nothing changes. One at a scope
within the device may complete sooner: which it does is a free value, and later accesses of its mask then follow the
covered ones for the parties of the scope; that it may is the model's reading (notes/assumptions/92.md) (R184, R310, R313). -/
def Sys2Proof.Claims.FencesExecute : Prop :=
  ∀ (i : Instr) (t : Tok) (k : FenceKind) (sc : Scope) (m : BitVec 16) (s : State),
    (i = .fenceControl t k sc m ∨ i = .fenceLoadStore t k sc m) →
    let covers := fun a : Access => (a.units ≠ [] ∨ a.heldAt ≠ none) ∧ m.getLsbD a.cls.val = true ∧
      (k = .acq → a.kind.reads = true) ∧ (k = .ss → a.kind.writes = true)
    (s.fstrm.taken = false → Ready t [] s → (∀ a ∈ s.fstrm.accs, ¬covers a) →
      Does (exec i s) t false s s s.counted.fctx) ∧
    let wide := sc = .device ∨ sc = .gang
    let stands := fun y : Ctx => (y.strm s.fstr).taken = true ∧ (y.strm s.fstr).pc = s.fstrm.pc ∧
      (y.strm s.fstr).behind = s.fstrm.behind
    let goesOn := fun y : Ctx => (y.strm s.fstr).taken = false ∧
      (loopAt s.fctx s.fstr s.lastWord = none → (y.strm s.fstr).pc = s.fstrm.pc + BitVec.ofNat 64 (4 * s.words)) ∧
      (y.strm s.fstr).behind = s.fstrm.behind ++ (s.fstrm.accs.filter fun a => decide (covers a)).map fun a =>
        ⟨a.id, sc, decide (k = .rel ∨ k = .ss), m⟩
    (s.fstrm.taken = false → Ready t [] s → (∃ a ∈ s.fstrm.accs, covers a) → wide →
      ∃ y, exec i s = .next (s.setCtx s.fcore y) ∧ y.rest = s.fctx.rest ∧ stands y ∧
        (y.strm s.fstr).accs = s.fstrm.accs) ∧
    (s.fstrm.taken = true → (∃ a ∈ s.fstrm.accs, covers a) → wide → exec i s = .next s) ∧
    ((s.fstrm.taken = true ∨ Ready t [] s) → (∃ a ∈ s.fstrm.accs, covers a) → ¬wide →
      ∃ y, exec i s = .next ({ s with free := s.free + 1 }.setCtx s.fcore y) ∧ y.rest = s.fctx.rest ∧
        (stands y ∨ goesOn y) ∧ (y.strm s.fstr).accs = s.fstrm.accs) ∧
    (s.fstrm.taken = true → (∀ a ∈ s.fstrm.accs, ¬covers a) → loopAt s.fctx s.fstr s.lastWord = none →
      ∃ y, exec i s = .next (s.setCtx s.fcore y) ∧ y.rest = s.fctx.rest ∧ y.lc = s.fctx.lc ∧
        (y.strm s.fstr).taken = false ∧ (y.strm s.fstr).accs = s.fstrm.accs ∧
        (y.strm s.fstr).pc = s.fstrm.pc + BitVec.ofNat 64 (4 * s.words) ∧
        y.tok = (makePosts s.fctx s.cycle s.fstr 0).tok)

/-- RDQ and RDQS: the iq, the class, the registers, the base address, the pieces, and whether the address is aligned and
stays in its space (R235, R236). -/
def fillForm : Instr → Option (Tok × QNum × Cls × List Nat × (Stream → Ctx → W64 × List Piece × Prop))
  | .rdq t q a c o => some (t, q, c, [a.val], fun st x =>
      let va := x.ar st a + BitVec.ofNat 64 (256 * o.val)
      (va, entryPieces va.toNat, va.toNat % 16 = 0 ∧ addrSpills (x.ar st a) va = false ∧ placeOf va.toNat ≠ none))
  | .rdqs t q a b c p => some (t, q, c, [a.val, b.val], fun st x =>
      (x.ar st a, stridedPieces (x.ar st a) (x.ar st b) (4 * 2 ^ p.val),
        (x.ar st a).toNat % (4 * 2 ^ p.val) = 0 ∧ (x.ar st b).toNat % (4 * 2 ^ p.val) = 0))
  | _ => none

/-- RDQ and RDQS, when the check allows every piece and the iq has room, execute: a place of the iq is reserved and the
access is pending; their tokens come with the landing of the entry. With four entries or reservations in the iq an
unstamped one takes QUEUE_OVERFLOW (R145, R151, R235, R236). -/
def Sys2Proof.Claims.QueueFillsExecute : Prop :=
  ∀ (i : Instr) (t : Tok) (q : QNum) (c : Cls) (regs : List Nat) (f : Stream → Ctx → W64 × List Piece × Prop) (s : State)
    (us : List AUnit),
    fillForm i = some (t, q, c, regs, f) → Ready t regs s →
    let r := f s.fstr s.fctx
    let p := s.checked t false false r.2.1
    r.2.2 → p.2 = .ok us →
    (s.fctx.iq[q].length < 4 →
      Does (exec i s) t true s p.1
        ({ p.1.ctx s.fcore with iq := s.fctx.iq.set q (s.fctx.iq[q] ++ [newPlace (s.fctx.serial + 1)]) }.withAccess s.fstr
          (mkAccess p.1 (s.fctx.serial + 1) (.fill q (s.fctx.serial + 1)) c us (List.replicate 256 0) r.1))) ∧
    (4 ≤ s.fctx.iq[q].length → s.fstrm.stamp = none →
      exec i s = .next (takeFault s.counted { code := 0x05 }))

/-- WRQ and WRQS, as RDQ and RDQS are laid out. -/
def drainForm : Instr → Option (Tok × QNum × Cls × List Nat × (Stream → Ctx → W64 × List Piece × Prop))
  | .wrq t q a c o => fillForm (.rdq t q a c o)
  | .wrqs t q a b c p => fillForm (.rdqs t q a b c p)
  | _ => none

/-- WRQ and WRQS, when the check allows every piece and the oq has a poppable entry, execute: the oldest entry leaves the
oq, its 256 bytes are pending as a store, and their tokens are posted as they issue, the cycle in which the memory pipeline accepts
them being the model's reading (notes/assumptions/7.md). With none an unstamped one takes QUEUE_UNDERFLOW
(R145, R151, R235, R236). -/
def Sys2Proof.Claims.QueueDrainsExecute : Prop :=
  ∀ (i : Instr) (t : Tok) (q : QNum) (c : Cls) (regs : List Nat) (f : Stream → Ctx → W64 × List Piece × Prop) (s : State)
    (us : List AUnit),
    drainForm i = some (t, q, c, regs, f) → Ready t regs s →
    let r := f s.fstr s.fctx
    let p := s.checked t true true r.2.1
    r.2.2 → p.2 = .ok us →
    (∀ e, oldest s.fctx.oq[q] s.cycle = some e →
      Does (exec i s) t false s p.1
        ({ p.1.ctx s.fcore with oq := s.fctx.oq.set q (s.fctx.oq[q].drop 1) }.withAccess s.fstr
          (mkAccess p.1 (s.fctx.serial + 1) (.drain q) c us (vecBytes e.data) r.1))) ∧
    (oldest s.fctx.oq[q] s.cycle = none → s.fstrm.stamp = none →
      exec i s = .next (takeFault s.counted { code := 0x04 }))

/-- ENTRY_LAND: of the accesses whose bytes have all been read, the oldest that fills the iq lands in its place, poppable from the next
cycle; it is gone, whatever stands before it stays, and its tokens are posted. With none nothing changes (R145, R151). -/
def Sys2Proof.Claims.EntryLands : Prop :=
  ∀ (c : CoreId) (q : QNum) (s : State) (a : Access) (earlier later : List Access) (place : Nat),
    let fills := fun b : Access => b.units = [] ∧ b.heldAt = none ∧ ∃ p, b.kind = .fill q p
    ((∀ b ∈ ((s.ctx c).strm .load).accs, ¬fills b) → exec (.entryLand c q) s = .next s) ∧
    (((s.ctx c).strm .load).accs = earlier ++ a :: later → (∀ b ∈ earlier, ¬fills b) →
      a.units = [] → a.heldAt = none → a.kind = .fill q place →
      (∀ p ∈ (s.ctx c).iq[q], ∀ r ∈ (s.ctx c).iq[q], p.id = place → r.id = place → p.landed = none → r.landed = none → p = r) →
      let landed := (s.ctx c).iq[q].map fun p => if p.id = place ∧ p.landed = none then
        { p with data := vecOfBytes a.data, poison := a.poison, landed := some s.cycle } else p
      ∃ y, exec (.entryLand c q) s = .next (s.setCtx c y) ∧
        y.rest = { s.ctx c with iq := (s.ctx c).iq.set q landed }.rest ∧
        (y.strm .load).accs = earlier ++ later ∧ (∀ su, su ≠ Stream.load → y.strm su = (s.ctx c).strm su) ∧ y.lc = (s.ctx c).lc ∧
        y.tok = (makePosts (s.ctx c) s.cycle .load a.id).tok)

/-- The LOFT instructions: token bits, operation, destination, source and count registers, class. -/
def loftForm : Instr → Option (Tok × LoftOp × AReg × AReg × AReg × Cls)
  | .loftAcc t d a b c => some (t, .acc, d, a, b, c)
  | .loftAccb t d a b c => some (t, .accb, d, a, b, c)
  | .loftMax t d a b c => some (t, .max, d, a, b, c)
  | .loftMin t d a b c => some (t, .min, d, a, b, c)
  | .loftScale t d a b c => some (t, .scale, d, a, b, c)
  | .loftZero t d b c => some (t, .zero, d, d, b, c)
  | _ => none

/-- LOFT over aB bytes, a multiple of 16 from 16 to 1,048,576, at an aligned Loft address, from an aligned source of its
own scratchpad or window where it has one, executes: one pending element operation for each 4 bytes, in ascending
offset. The stream stands at a LOFT that would meet poison, as the model reads a precise MEM_UE at it (notes/assumptions/112.md), and
goes on past any other (R218, R229, R243). -/
def Sys2Proof.Claims.LoftsExecute : Prop :=
  ∀ (i : Instr) (t : Tok) (op : LoftOp) (d a b : AReg) (c : Cls) (s : State) (us : List AUnit),
    loftForm i = some (t, op, d, a, b, c) → Ready t [d.val, a.val, b.val] s →
    let dst := s.fctx.ar s.fstr d
    let src := s.fctx.ar s.fstr a
    let n := (s.fctx.ar s.fstr b).toNat
    let e := s.entered t 0 0
    let part := (rightsOf e s.fcore).part
    let off := dst.toNat % 2 ^ 28
    let size := if op = .accb then 2 else if op = .scale ∨ op = .zero then 0 else 4
    let p := if size = 0 then (e, Checked.ok us)
      else checkPieces s.fcore (rightsOf e s.fcore) false true true e [⟨src.toNat, size * (n / 4), 0⟩] [] none false
    dst.toNat % 16 = 0 → dst.toNat / 2 ^ 28 = 3 * 2 ^ 28 → n % 16 = 0 → 16 ≤ n → n ≤ 1048576 → off + n ≤ 2 ^ 28 →
    s.inAlias part off n = false →
    (size ≠ 0 → src.toNat % 16 = 0 ∧ (tagOf src = 1 ∨ tagOf src = 2) ∧ placeOf src.toNat ≠ none) →
    p.2 = .ok us →
    ∃ m : Access,
      (p.1.poisoned (loftKey part off) n = false →
        Does (exec i s) t true s p.1 ((p.1.ctx s.fcore).withAccess s.fstr m) ∧ m.stalls = false) ∧
      (p.1.poisoned (loftKey part off) n = true →
        Stays (exec i s) t true s p.1 ((p.1.ctx s.fcore).withAccess s.fstr m) ∧ m.stalls = true) ∧
      m.id = s.fctx.serial + 1 ∧ m.kind = .loft op (src.setWidth 32) ∧ m.cls = c ∧ m.va = dst ∧ m.heldAt = none ∧
      m.units = ((List.range (n / 4)).map fun j => ⟨loftKey part off + 4 * j, 4, 4 * j⟩) ∧
      (size ≠ 0 → ∀ v vs, us = v :: vs →
        m.all = (List.range (n / 4)).map fun j => ⟨v.key + size * j, size, 4 * j⟩)

/-- The checks of a LOFT, of which the first that fails is its fault: its two addresses are aligned (ALIGN), the destination lies in the
Loft and the source, where it has one, in a scratchpad (SPACE), the count is a multiple of 16 from 16 to 1,048,576 (RECORD), the elements
stay in the Loft and outside the reserved range (SPACE), and the source may be read and holds no poison (R178, R215, R218, R229, R243). -/
def Sys2Proof.Claims.LoftChecks : Prop :=
  ∀ (i : Instr) (t : Tok) (op : LoftOp) (d a b : AReg) (c : Cls) (s : State) (code : Nat) (v : Nat),
    loftForm i = some (t, op, d, a, b, c) → Ready t [d.val, a.val, b.val] s →
    let dst := s.fctx.ar s.fstr d
    let src := s.fctx.ar s.fstr a
    let n := (s.fctx.ar s.fstr b).toNat
    let e := s.entered t 0 0
    let part := (rightsOf e s.fcore).part
    let off := dst.toNat % 2 ^ 28
    let size := if op = .accb then 2 else if op = .scale ∨ op = .zero then 0 else 4
    let faults := fun (code : Nat) (va : W64) => exec i s = .next (takeFault s.counted { code := code, addr := va })
    let srcOk := size = 0 ∨ src.toNat % 16 = 0
    let srcIn := size = 0 ∨ ((tagOf src = 1 ∨ tagOf src = 2) ∧ placeOf src.toNat ≠ none)
    let dstIn := tagOf dst = 3 ∧ placeOf dst.toNat ≠ none
    let counts := n % 16 = 0 ∧ 16 ≤ n ∧ n ≤ 1048576
    let fits := off + n ≤ 2 ^ 28 ∧ s.inAlias part off n = false
    (dst.toNat % 16 ≠ 0 → faults 0x07 dst) ∧
    (dst.toNat % 16 = 0 → ¬srcOk → faults 0x07 src) ∧
    (dst.toNat % 16 = 0 → srcOk → ¬dstIn → faults 0x0A dst) ∧
    (dst.toNat % 16 = 0 → srcOk → dstIn → ¬srcIn → faults 0x0A src) ∧
    (dst.toNat % 16 = 0 → srcOk → dstIn → srcIn → ¬counts → faults 0x1A dst) ∧
    (dst.toNat % 16 = 0 → srcOk → dstIn → srcIn → counts → ¬fits → faults 0x0A dst) ∧
    (dst.toNat % 16 = 0 → srcOk → dstIn → srcIn → counts → fits → size ≠ 0 →
      (checkPieces s.fcore (rightsOf e s.fcore) false true true e [⟨src.toNat, size * (n / 4), 0⟩] [] none false).2 =
        .fault code v →
      Refused (exec i s) s e code (BitVec.ofNat 64 v))

/-- A bank ALU's element operation performed: the element becomes the FP32 sum, maximum, minimum or product that its
operation names, or +0, and no other byte of memory changes and no register of any task. One that meets poison is a MEM_UE
at the LOFT, with the element's address (R218, R229, R243). -/
def Sys2Proof.Claims.LoftElementPerforms : Prop :=
  ∀ (c : CoreId) (st : Stream) (k : Nat) (s : State) (a : Access) (u : AUnit) (rest : List AUnit) (op : LoftOp)
    (factor : W32),
    ((s.ctx c).strm st).accs[k]? = some a → a.kind = .loft op factor → a.units = u :: rest → u.len = 4 →
    mayPerform (s.ctx c) st k a = true → scopesLet s c st k a u = true → s.mem.wf = true →
    (∀ b ∈ ((s.ctx c).strm st).accs, b.id = a.id → b = a) →
    (a.stalls = true → unitUe s a u = true → yieldedNow s c = false →
      exec (.accessPerformed c st k) s = .next (heldFault c st a 0x10 (a.va + BitVec.ofNat 64 u.off) s)) ∧
    (a.stalls = false ∨ unitUe s a u = false →
    let src := ((a.all.find? (·.off == u.off)).map (·.key)).getD 0
    let x : W32 := BitVec.ofNat 32 (s.mem.num u.key 4)
    let y : W32 := BitVec.ofNat 32 (s.mem.num src 4)
    let half : W32 := BitVec.ofNat 32 (s.mem.num src 2) <<< 16
    ∃ t, exec (.accessPerformed c st k) s = .next t ∧
      t.mem.num u.key 4 = (match op with
        | .acc => (addF32 .rne false x y).1
        | .accb => (addF32 .rne false x half).1
        | .max => minMaxF32 true x y
        | .min => minMaxF32 false x y
        | .scale => (mulF32 .rne false x factor).1
        | .zero => 0).toNat ∧
      (∀ j, j < u.key ∨ u.key + 4 ≤ j → t.mem.read j = s.mem.read j) ∧
      (∀ d, d ≠ c → t.core d = s.core d) ∧ (t.ctx c).rest = (s.ctx c).rest)

/-! ## Spaces and translation -/

/-- An access to the task's own scratchpad reaches it exactly when it lies in the task's range (SPACE else) and touches no
buffer that another task holds (OWNERSHIP else); it needs no walk and changes nothing (R215, R216). -/
def Sys2Proof.Claims.OwnScratchpad : Prop :=
  ∀ (s : State) (c : CoreId) (r : Rights) (off n blocks : Nat) (w : Bool),
    (¬(r.base ≤ off ∧ off + n ≤ r.base + r.size) → reach s c r (.own off) n blocks w = (s, .fault 0x0A)) ∧
    (r.base ≤ off → off + n ≤ r.base + r.size → inForeign s r r.lcore off n = true →
      reach s c r (.own off) n blocks w = (s, .fault 0x0B)) ∧
    (r.base ≤ off → off + n ≤ r.base + r.size → inForeign s r r.lcore off n = false →
      reach s c r (.own off) n blocks w = (s, .ok (spadKey r.pcore off)))

/-- Bits 63:56 select the space, and each space requires its high bits zero; a tag from 4 up is none that an access other
than a fabric op may name (R178, R215). -/
def Sys2Proof.Claims.SpaceTags : Prop :=
  ∀ a : Nat, a < 2 ^ 64 →
    (a < 2 ^ 43 → placeOf a = some (.dv a)) ∧
    (∀ off, off < 2 ^ 21 → a = 2 ^ 56 + off → placeOf a = some (.own off)) ∧
    (∀ q off, q < 8 → off < 2 ^ 21 → a = 2 * 2 ^ 56 + q * 2 ^ 21 + off → placeOf a = some (.window q off)) ∧
    (∀ off, off < 2 ^ 28 → a = 3 * 2 ^ 56 + off → placeOf a = some (.loft off)) ∧
    (2 ^ 43 ≤ a → a < 2 ^ 56 → placeOf a = none) ∧ (2 ^ 56 + 2 ^ 21 ≤ a → a < 2 * 2 ^ 56 → placeOf a = none) ∧
    (2 * 2 ^ 56 + 2 ^ 24 ≤ a → a < 3 * 2 ^ 56 → placeOf a = none) ∧ (3 * 2 ^ 56 + 2 ^ 28 ≤ a → placeOf a = none)

/-- Whatever an access names, its check and walk change nothing but the translation caches, the hot-page counters and
queue, and the model's count of free values; outside device virtual space they change nothing at all. -/
def Sys2Proof.Claims.TranslationFrame : Prop :=
  ∀ (s : State) (c : CoreId) (r : Rights) (pl : Place) (n blocks : Nat) (w : Bool),
    (reach s c r pl n blocks w).1.sansCaches = s.sansCaches ∧
    ((∀ va, pl ≠ .dv va) → (reach s c r pl n blocks w).1 = s)

/-- The check of a leaf (R220, R221): a frame that is not aligned to its page, or an HBM frame that does not exist, is
PAGE_NOT_PRESENT; an HBM frame that is reserved or retired, a write without W, a fetch without X and a host frame outside
every open window are PAGE_PERMISSION; a write to a leaf with WB is held; anything else reaches the frame. -/
def Sys2Proof.Claims.LeafChecks : Prop :=
  ∀ (s : State) (pte sh va : Nat) (w f : Bool),
    let p := pte / 4096 * 4096 + va % 2 ^ sh
    let host := pte / 16 % 2 = 1
    let port := pte / 32 % 2
    (pte / 4096 * 4096 % 2 ^ sh ≠ 0 → leafReach s pte sh va w f = .fault 0x08) ∧
    (pte / 4096 * 4096 % 2 ^ sh = 0 →
      (¬host → 618475290624 ≤ p → leafReach s pte sh va w f = .fault 0x08) ∧
      (¬host → p < 618475290624 → (reservedHbm p = true ∨ s.onRetired p = true) → leafReach s pte sh va w f = .fault 0x09) ∧
      ((host ∨ p < 618475290624 ∧ reservedHbm p = false ∧ s.onRetired p = false) →
        ((w = true ∧ pte / 4 % 2 = 0) ∨ (f = true ∧ pte / 8 % 2 = 0) ∨
          (host ∧ s.busOpen (Fin.ofNat 2 port) p = false) → leafReach s pte sh va w f = .fault 0x09) ∧
        ((w = true → pte / 4 % 2 = 1) → (f = true → pte / 8 % 2 = 1) →
          (host → s.busOpen (Fin.ofNat 2 port) p = true) →
          leafReach s pte sh va w f =
            if w = true ∧ pte / 128 % 2 = 1 then .held else if host then .ok (hostKey port p) else .ok p)))

/-- Reserved HBM is the top 4 GiB of each of the twelve stacks of 48 GiB, 48 GiB in all. The frames below, 528 GiB in all, are the
ones a page table may name: an aligned leaf that names one of them and that firmware has not retired is reached by a read, and one
that names a reserved frame is PAGE_PERMISSION (R363). -/
def Sys2Proof.Claims.ReservedFrames : Prop :=
  let gib : Nat := 2 ^ 30
  12 * Config.rsvBytes = 48 * gib ∧ 12 * (Config.stackBytes - Config.rsvBytes) = 528 * gib ∧
  (∀ p, p < 12 * (48 * gib) →
    (reservedHbm p = true ↔ ∃ st, st < 12 ∧ 48 * gib * (st + 1) - 4 * gib ≤ p ∧ p ≤ 48 * gib * (st + 1) - 1)) ∧
  ∀ (s : State) (pte sh va : Nat), pte / 16 % 2 = 0 → pte / 4096 * 4096 % 2 ^ sh = 0 →
    let p := pte / 4096 * 4096 + va % 2 ^ sh
    p < 12 * (48 * gib) →
    (reservedHbm p = true → leafReach s pte sh va false false = .fault 0x09) ∧
    (reservedHbm p = false → s.onRetired p = false → leafReach s pte sh va false false = .ok p)

/-- An access counts on a leaf of level 3 with HOST and HC: the blocks it touches are added to the page's counter, which
saturates at 65,535; on any other leaf nothing changes. When the addition takes the count from below HTHR to HTHR or above, with neither
HTHR nor HQBASE 0, one notice is due: with the queue full it is dropped and HQDROP increments; else its 16 bytes are written at HQTAIL,
HQTAIL advances and the port's message is due; a queue that does not lie in HBM is not written, which is the model's choice
(notes/assumptions/75.md). A counter in a poisoned word is MEM_UE and stays (R219, R225, R226, R229). -/
def Sys2Proof.Claims.HotPagesCount : Prop :=
  ∀ (s : State) (c : CoreId) (r : Rights) (pte at_ sh va blocks : Nat), s.mem.wf = true →
    let cAt := at_ / 4096 * 4096 + 256 + 2 * (at_ / 8 % 32)
    let old := s.mem.num cAt 2
    let new := Min.min 65535 (old + blocks)
    let port := Fin.ofNat 2 r.port
    let p := s.ports[port]
    let hot := sh = 16 ∧ pte / 16 % 2 = 1 ∧ pte / 64 % 2 = 1
    let crosses := p.hthr ≠ 0 ∧ p.hqbase ≠ 0 ∧ old < p.hthr.toNat ∧ p.hthr.toNat ≤ new
    let full := p.hqtail + 1 = p.hqhead
    let entry := p.hqbase.toNat + 16 * p.hqtail.toNat
    let inHbm := entry + 16 ≤ 618475290624
    let t := hotCount s r pte at_ sh va blocks
    (¬hot → t = s) ∧
    (hot →
      (¬crosses ∨ full ∨ ¬inHbm → t.mem.num cAt 2 = new ∧ ∀ j, j < cAt ∨ cAt + 2 ≤ j → t.mem.read j = s.mem.read j) ∧
      (¬crosses → t.ports = s.ports) ∧
      (crosses → full → t.ports = s.ports.set port { p with hqdrop := p.hqdrop + 1 }) ∧
      (crosses → ¬full →
        t.ports = s.ports.set port { p with hqtail := p.hqtail + 1, hnwait := p.hnwait || p.hnvec.getLsbD 11 } ∧
        (inHbm → (cAt + 2 ≤ entry ∨ entry + 16 ≤ cAt) →
          t.mem.num cAt 2 = new ∧
          t.mem.num entry 16 =
            r.ctx % 64 + new * 2 ^ 16 + va / 2 ^ 16 % 2 ^ 27 * 2 ^ 32 + s.course % 2 ^ 32 * 2 ^ 96 ∧
          ∀ j, (j < cAt ∨ cAt + 2 ≤ j) → (j < entry ∨ entry + 16 ≤ j) → t.mem.read j = s.mem.read j))) ∧
    ∀ (m : State) (w f : Bool), leafOf m c r va = (s, .ok (pte, at_, sh)) →
      (∀ e, leafReach s pte sh va w f ≠ .fault e) → foreignFrame s r (leafReach s pte sh va w f) = false →
      translate m c r va blocks w f =
        if blocks ≠ 0 ∧ hot ∧ s.poisoned cAt 2 = true then (s, .fault 0x10) else (t, leafReach s pte sh va w f)

/-! ## Records, frames and landing words -/

/-- The bytes of a record at an aligned address of the task's own scratchpad, in its range, in no buffer of another task and
not poisoned, are read; a misaligned address is ALIGN, another space or a place outside the range SPACE (R178, R207). -/
def Sys2Proof.Claims.RecordsAreRead : Prop :=
  ∀ (s : State) (a : W64) (al n off : Nat), 0 < al →
    let r := rightsOf s s.fcore
    (a.toNat % al ≠ 0 → recordBytes s a al n = .error { code := 0x07, addr := a }) ∧
    (a.toNat % al = 0 → (∀ o, placeOf a.toNat ≠ some (.own o)) → recordBytes s a al n = .error { code := 0x0A, addr := a }) ∧
    (a.toNat % al = 0 → placeOf a.toNat = some (.own off) → ¬(r.base ≤ off ∧ off + n ≤ r.base + r.size) →
      recordBytes s a al n = .error { code := 0x0A, addr := a }) ∧
    (a.toNat % al = 0 → placeOf a.toNat = some (.own off) → r.base ≤ off → off + n ≤ r.base + r.size →
      inForeign s r r.lcore off n = false →
      (s.poisoned (spadKey r.pcore off) n = true → recordBytes s a al n = .error { code := 0x10, addr := a }) ∧
      (s.poisoned (spadKey r.pcore off) n = false → recordBytes s a al n = .ok (s.load (spadKey r.pcore off) n)))

/-- SHAPE, NEST and FMT, once the accesses that the reading of the record follows are performed and the record is read, write
hN, nN or the entries when the record passes its checks; SHAPE takes SPACE when the tag of the base is none of 0x00 to 0x03,
SHAPE and NEST RECORD and FMT FORMAT when it fails, and then nothing is written. One that must follow an access waits (R207,
R209, R211, R312, R314). -/
def Sys2Proof.Claims.RecordsExecute : Prop :=
  ∀ (t : Tok) (a : GReg) (s : State) (bs : List Byte), Ready t [a.val] s →
    let e := s.entered t 0 0
    let va := s.fctx.gr a
    let w := ofBytes bs
    (∀ h : Fin 16, mustFollowAt e va 32 = true → exec (.shape t h a) s = .next s.counted) ∧
    (∀ h : Fin 16, mustFollowAt e va 32 = false → recordBytes e va 32 32 = .ok bs →
      (3 < w / 2 ^ 56 % 256 → exec (.shape t h a) s = .next (takeFault s.counted { code := 0x0A, addr := va })) ∧
      (w / 2 ^ 56 % 256 ≤ 3 → shapeBad w = true →
        exec (.shape t h a) s = .next (takeFault s.counted { code := 0x1A, addr := va })) ∧
      (w / 2 ^ 56 % 256 ≤ 3 → shapeBad w = false →
        Does (exec (.shape t h a) s) t false s s
          { s.counted.fctx with h := s.fctx.h.set h (some { shapeOf w with recAt := va }) })) ∧
    (∀ n : Fin 8, mustFollowAt e va 96 = true → exec (.nest t n a) s = .next s.counted) ∧
    (∀ n : Fin 8, mustFollowAt e va 96 = false → recordBytes e va 16 96 = .ok bs →
      (nestBad w = true → exec (.nest t n a) s = .next (takeFault s.counted { code := 0x1A, addr := va })) ∧
      (nestBad w = false →
        Does (exec (.nest t n a) s) t false s s
          { s.counted.fctx with n := s.fctx.n.set n (some { nestOf w with recAt := va }) })) ∧
    (∀ (k : Fin 32) (n : Fin 64), mustFollowAt e va (8 * n.val) = true → exec (.fmt t k a n) s = .next s.counted) ∧
    (∀ (k : Fin 32) (n : Fin 64), mustFollowAt e va (8 * n.val) = false → recordBytes e va 8 (8 * n.val) = .ok bs → k.val + n.val ≤ 32 →
      ((dwordsOf n.val bs).any entryBad = true →
        exec (.fmt t k a n) s = .next (takeFault s.counted { code := 0x19, addr := va })) ∧
      ((dwordsOf n.val bs).any entryBad = false →
        Does (exec (.fmt t k a n) s) t false s s
          { s.counted.fctx with fmt := Vector.ofFn fun j =>
              if k.val ≤ j.val ∧ j.val < k.val + n.val then (dwordsOf n.val bs).getD (j.val - k.val) 0
              else s.fctx.fmt[j] }))

/-- FRAME sets the mode, the course, WAIT and the slack, 16 × i, and leaves SMISS. A course that has not begun is kept,
course 0 and a course begun before this cycle give the next one; the frame counts at once only when it begins in this
cycle. STRICT under a mapping that is not one-to-one becomes ELASTIC and sets DEMOTE; one that stands is recorded in the
graph. RESUMED clears, as the model reads what RESUMED says of the frame that stands (notes/assumptions/111.md) (R16, R103, R155,
R158, R214). -/
def Sys2Proof.Claims.FrameExecutes : Prop :=
  ∀ (t : Tok) (m : FrameMode) (a : GReg) (i : Fin 4096) (s : State), Ready t [a.val] s →
    let demoted : Bool := m = .strict ∧ (s.parts[s.partOfCore s.fcore]).oneToOne = false
    let named := (s.fctx.gr a).toNat % 2 ^ 48
    let cur := s.course
    let now : Prop := named = cur ∧ named ≠ 0 ∧ s.cycle ≤ s.fabric.began
    let course := if named = 0 then cur + 1 else if cur < named ∨ now then named else cur + 1
    ∃ x, Does (exec (.frame t m a i) s) t false s
        (if m = .strict ∧ demoted = false then s.updGraph s.fctx.graph.toNat fun g => { g with strict := true } else s) x ∧
      x.frmode.toNat = (if m = .free then 0 else if m = .elastic ∨ demoted = true then 1 else 2) ∧
      x.fcourse = BitVec.ofNat 48 course ∧ (x.fwait = false ↔ now) ∧ (now → x.fbegan = some s.fabric.began) ∧
      (¬now → x.fbegan = none) ∧ x.slack.toNat = 16 * i.val ∧ x.demote = (s.fctx.demote || demoted) ∧
      x = { s.counted.fctx with
        frmode := x.frmode, fcourse := x.fcourse, fwait := x.fwait, resumed := false, fbegan := x.fbegan,
        slack := x.slack, demote := x.demote }

/-- LEXP and LWAIT of every stream: token bits, the registers, the base, the value and the offset. -/
def landForm : Instr → Option (Bool × Tok × List Nat × (Stream → Ctx → W64) × (Stream → Ctx → W64) × Fin 4096)
  | .lexpControl t d a i => some (true, t, [d.val, a.val], fun _ x => x.gr a, fun _ x => x.gr d, i)
  | .lexpLoadStore t d a i => some (true, t, [d.val, a.val], fun st x => x.ar st a, fun st x => x.ar st d, i)
  | .lwaitControl t d a i => some (false, t, [d.val, a.val], fun _ x => x.gr a, fun _ x => x.gr d, i)
  | .lwaitLoadStore t d a i => some (false, t, [d.val, a.val], fun st x => x.ar st a, fun st x => x.ar st d, i)
  | _ => none

/-- LEXP adds bits 31:0 of the register d names to the target of the landing word and applies the match test, in one step:
a match takes the target off the count, clears it and advances the generation. A sum over 2^32 − 1 takes RECORD. It writes
12 bytes of the word and no other byte. It waits for the accesses that it follows (R212, R312, R314). -/
def Sys2Proof.Claims.LexpExecutes : Prop :=
  ∀ (j : Instr) (t : Tok) (regs : List Nat) (base val : Stream → Ctx → W64) (i : Fin 4096) (s : State) (key : Nat),
    landForm j = some (true, t, regs, base, val, i) → Ready t regs s → s.mem.wf = true →
    let e := s.entered t 0 0
    let b := base s.fstr s.fctx
    (mustFollowAt e (landAddr b i) 16 = true → exec j s = .next s.counted) ∧
    (mustFollowAt e (landAddr b i) 16 = false → landKey e b (landAddr b i) = .ok key →
    let w := landRead s.mem key
    let tg := w.target + (val s.fstr s.fctx).toNat % 2 ^ 32
    (2 ^ 32 ≤ tg → exec j s = .next (takeFault s.counted { code := 0x1A, addr := landAddr b i })) ∧
    (tg < 2 ^ 32 → ∃ m, Does (exec j s) t false s { s with mem := m } s.counted.fctx ∧
      landRead m key =
        (if 0 < tg ∧ tg ≤ w.count then ⟨0, w.count - tg, (w.gen + 1) % 2 ^ 32⟩ else ⟨tg, w.count, w.gen⟩) ∧
      ∀ k, k < key ∨ key + 12 ≤ k → m.read k = s.mem.read k))

/-- LWAIT completes when no access of its own that its reading of the word follows is still to be performed and the generation of the
landing word has reached or passed the value of gD; else it takes its tokens and its stream stands at it, and it completes at the turn at
which both are so. Its word refused is its fault (R213, R312, R314). -/
def Sys2Proof.Claims.LwaitExecutes : Prop :=
  ∀ (j : Instr) (t : Tok) (regs : List Nat) (base val : Stream → Ctx → W64) (i : Fin 4096) (s : State) (key : Nat) (f : Flt),
    landForm j = some (false, t, regs, base, val, i) →
    let b := base s.fstr s.fctx
    let e := s.entered t 0 0
    let va := landAddr b i
    let passed := ((landRead s.mem key).gen + 2 ^ 32 - (val s.fstr s.fctx).toNat % 2 ^ 32) % 2 ^ 32 < 2 ^ 31
    (s.fstrm.taken = false → Ready t regs s → landKey e b va = .ok key →
      (passed → mustFollowAt e va 16 = false → Does (exec j s) t false s s s.counted.fctx) ∧
      (¬passed ∨ mustFollowAt e va 16 = true →
        ∃ y, exec j s = .next (s.setCtx s.fcore y) ∧ y.rest = s.fctx.rest ∧ (y.strm s.fstr).taken = true ∧
          (y.strm s.fstr).pc = s.fstrm.pc)) ∧
    (s.fstrm.taken = false → Ready t regs s → landKey e b va = .error f → f.code ≠ 0x10 ∨ mustFollowAt e va 16 = false →
      exec j s = .next (takeFault s.counted f)) ∧
    (s.fstrm.taken = true → landKey s b va = .ok key →
      (¬passed ∨ mustFollowAt s va 16 = true → exec j s = .next s) ∧
      (passed → mustFollowAt s va 16 = false → loopAt s.fctx s.fstr s.lastWord = none →
        ∃ y, exec j s = .next (s.setCtx s.fcore y) ∧ y.rest = s.fctx.rest ∧ (y.strm s.fstr).taken = false ∧
          (y.strm s.fstr).pc = s.fstrm.pc + BitVec.ofNat 64 (4 * s.words) ∧
          y.tok = (makePosts s.fctx s.cycle s.fstr 0).tok))

/-- The landing word that LEXP and LWAIT name: 16-aligned (ALIGN), an address of the own scratchpad in the task's range (SPACE), which in a
load or store stream must not differ from its base above the space, in no buffer of another task (OWNERSHIP) and not poisoned (MEM_UE)
(R178, R212, R215, R229, R230). -/
def Sys2Proof.Claims.LandingWordsAreChecked : Prop :=
  ∀ (s : State) (base a : W64) (off : Nat),
    let r := rightsOf s s.fcore
    let spills := s.fstr ≠ .ctl ∧ addrSpills base a = true
    let inRange := r.base ≤ off ∧ off + 16 ≤ r.base + r.size
    let foreign := inForeign s r r.lcore off 16
    (a.toNat % 16 ≠ 0 → landKey s base a = .error { code := 0x07, addr := a }) ∧
    (a.toNat % 16 = 0 → (spills ∨ ∀ o, placeOf a.toNat ≠ some (.own o)) → landKey s base a = .error { code := 0x0A, addr := a }) ∧
    (a.toNat % 16 = 0 → ¬spills → placeOf a.toNat = some (.own off) →
      (¬inRange → landKey s base a = .error { code := 0x0A, addr := a }) ∧
      (inRange → foreign = true → landKey s base a = .error { code := 0x0B, addr := a }) ∧
      (inRange → foreign = false → s.poisoned (spadKey r.pcore off) 16 = true →
        landKey s base a = .error { code := 0x10, addr := a }) ∧
      (inRange → foreign = false → s.poisoned (spadKey r.pcore off) 16 = false →
        landKey s base a = .ok (spadKey r.pcore off)))

/-! ## The math stream -/

/-- The value of a source of the math stream at issue: a v register without a pending write, or the oldest poppable entry
of an iq (R133, R148, R151). -/
def srcValue (s : State) : VSrc → Option Vec
  | .v r => if s.fctx.pend.all (fun p => p.dst != .v r) then some s.fctx.v[r] else none
  | .iq q =>
    match oldest s.fctx.iq[q] s.cycle with
    | some p => if p.poison then none else some p.data
    | none => none

/-- The values of sources, in field order. -/
def srcValues (s : State) : List VSrc → Option (List Vec)
  | [] => some []
  | a :: as =>
    match srcValue s a, srcValues s as with
    | some v, some vs => some (v :: vs)
    | _, _ => none

/-- A destination has room: an oq with fewer than four entries or reservations (R151). -/
def hasRoom (s : State) (d : VDst) : Prop := ∀ q, d = .oq q → s.fctx.oq[q].length < 4

/-- The registers after the issue of a vector instruction: each iq its sources name is popped once, a place of a
destination oq is reserved, and the result is pending within its bound (R133, R148, R151). -/
def vectorIssued (s : State) (pops : List VSrc) (d : VDst) (v : Option Vec) (fl : Flags) (bound : Nat) : Ctx :=
  { s.counted.fctx with
      iq := Vector.ofFn fun q => if pops.contains (.iq q) then s.fctx.iq[q].drop 1 else s.fctx.iq[q]
      oq := Vector.ofFn fun q => if d = .oq q then s.fctx.oq[q] ++ [newPlace (s.fctx.serial + 1)] else s.fctx.oq[q]
      pend := s.fctx.pend ++
        [⟨s.fctx.serial + 1, d, s.fctx.serial + 1, v, fl, s.cycle + 1, s.cycle + bound⟩] }

/-- A rounding instruction of two sources, element by element (R49, R253). -/
def fpTwo (f : FpCtl) (g : Rm → Val → Val → Val × Bool) (x : Ctx) : List Vec → Vec × Flags :=
  lanewise (perElem f.fmt fun l =>
    roundOp f x (g (resolveRm x f.rm) (elemIn f.fmt f.fzi (arg l 0)) (elemIn f.fmt f.fzi (arg l 1))))

/-- An instruction of two sources that does not round. -/
def fpTwoX (f : FpCtlX) (g : Format → Nat → Nat → Nat) : List Vec → Vec × Flags :=
  lanewise (perElem f.fmt fun l => (g (fpFormat f.fmt) (arg l 0) (arg l 1), 0))

/-- A sign instruction of one source. -/
def fpSign (f : FpCtlX) (sign : Bool → Bool) : List Vec → Vec × Flags :=
  lanewise (perElem f.fmt fun l => (signedCode (fpFormat f.fmt) f.fzi (arg l 0) sign, 0))

/-- A function of R256, or the square root. -/
def fpOne (f : FpCtl) (g : Format → Rm → Bool → Val → Nat × Flags) (x : Ctx) : List Vec → Vec × Flags :=
  lanewise (perElem f.fmt fun l =>
    g (fpFormat f.fmt) (resolveRm x f.rm) f.fzo (elemIn f.fmt f.fzi (arg l 0)))

/-- The FMA family on d, a and b: the exact sum of the terms, rounded once (R257). -/
def fpThree (f : FpCtl) (nd np : Bool) (x : Ctx) : List Vec → Vec × Flags :=
  lanewise (perElem f.fmt fun l =>
    let vd := elemIn f.fmt f.fzi (arg l 0)
    let p := mulVal (elemIn f.fmt f.fzi (arg l 1)) (elemIn f.fmt f.fzi (arg l 2))
    let r := sumVals (resolveRm x f.rm) [if nd then vd.neg else vd, if np then p.1.neg else p.1]
    roundOp f x (r.1, r.2 || p.2))

/-- A reduction of each format element of the 64 lanes to one value, in every lane (R66, R262). -/
def reduced (w : RedFmt) (fzi : Bool) (op : Nat → Nat → Nat × Flags) (vs : List Vec) : Vec × Flags :=
  eachHalf w (fun l => let r := treeFold op 6 (redIn w fzi l); (List.replicate 64 r.1, r.2)) (vs.getD 0 Vec.zero)

/-- The vector instructions: token bits, sources in field order, destination, latency bound in cycles (R149), and the
result with its flags as a function of the task's registers, for the dynamic rounding mode, and of the sources. -/
def vectorForm : Instr → Option (Tok × List VSrc × VDst × Nat × (Ctx → List Vec → Vec × Flags))
  | .fadd t d a b f => some (t, [a, b], d, 6, fpTwo f fun rm x y => sumVals rm [x, y])
  | .fsub t d a b f => some (t, [a, b], d, 6, fpTwo f fun rm x y => sumVals rm [x, y.neg])
  | .fmul t d a b f => some (t, [a, b], d, 6, fpTwo f fun _ x y => mulVal x y)
  | .fmin t d a b f => some (t, [a, b], d, 6, fun _ => fpTwoX f fun g x y => minMaxCode g f.fzi false x y)
  | .fmax t d a b f => some (t, [a, b], d, 6, fun _ => fpTwoX f fun g x y => minMaxCode g f.fzi true x y)
  | .fabs t d a f => some (t, [a], d, 6, fun _ => fpSign f fun _ => false)
  | .fneg t d a f => some (t, [a], d, 6, fun _ => fpSign f fun n => !n)
  | .fcps t d a b f =>
    some (t, [a, b], d, 6, fun _ => fpTwoX f fun g x y => signedCode g f.fzi x fun _ => (unpack g y).isNeg)
  | .fceq t d a b f => some (t, [a, b], d, 6, fun _ => fpTwoX f (cmpMask f fun i => i == 0))
  | .fclt t d a b f => some (t, [a, b], d, 6, fun _ => fpTwoX f (cmpMask f fun i => i < 0))
  | .fcle t d a b f => some (t, [a, b], d, 6, fun _ => fpTwoX f (cmpMask f fun i => i ≤ 0))
  | .frcp t d a f => some (t, [a], d, 12, fpOne f rcpCode)
  | .frsq t d a f => some (t, [a], d, 12, fpOne f rsqCode)
  | .fexp2 t d a f => some (t, [a], d, 12, fpOne f exp2Code)
  | .flog2 t d a f => some (t, [a], d, 12, fpOne f log2Code)
  | .fsqrt t d a f => some (t, [a], d, 20, fpOne f sqrtCode)
  | .fma t d a b f => some (t, [.v d, a, b], .v d, 8, fpThree f false false)
  | .fms t d a b f => some (t, [.v d, a, b], .v d, 8, fpThree f true false)
  | .fnma t d a b f => some (t, [.v d, a, b], .v d, 8, fpThree f false true)
  | .iop t h f d a b =>
    some (t, [a, b], d, if f = .mul ∨ f = .mulh then 6 else 4, fun _ => lanewise fun l =>
      let r := perInt (iwBits h) (iopFn f (iwBits h)) (l.getD 0 0).toNat (l.getD 1 0).toNat (32 / iwBits h)
      (BitVec.ofNat 32 r.1, r.2))
  | .sel t d a b m =>
    some (t, [a, b, .v m], d, 2, fun _ => lanewise fun l =>
      ((l.getD 0 0 &&& l.getD 2 0) ||| (l.getD 1 0 &&& ~~~(l.getD 2 0)), 0))
  | .cvt t p d a b m =>
    some (t, if p.packs then [a, b] else a :: (match d with | .v r => if p.inserts then [.v r] else [] | .oq _ => []),
      d, 8, fun x => lanewise fun l => cvtFn p (resolveRm x m.rm) m (l.getD 0 0) (l.getD 1 0) (l.getD 1 0))
  | .bcast t d a k => some (t, [a], d, 6, fun _ vs => (Vector.ofFn fun _ => (vs.getD 0 Vec.zero)[k], 0))
  | .perm t d a b =>
    some (t, [a, b], d, 6, fun _ vs =>
      (Vector.ofFn fun j => (vs.getD 0 Vec.zero)[Fin.ofNat 64 ((vs.getD 1 Vec.zero)[j]).toNat], 0))
  | .redadd t d a w rm fzi fzo => some (t, [a], d, 14, fun x => reduced w fzi (redAdd w (resolveRm x rm) fzo))
  | .redmax t d a w fzi => some (t, [a], d, 14, fun _ => reduced w fzi (redMinMax w true))
  | .redmin t d a w fzi => some (t, [a], d, 14, fun _ => reduced w fzi (redMinMax w false))
  | .scanadd t d a w rm fzi fzo =>
    some (t, [a], d, 24, fun x vs => eachHalf w (fun l =>
      match redIn w fzi l with
      | [] => ([], 0)
      | c :: cs =>
        let r := scanFold (redAdd w (resolveRm x rm) fzo) (scanFirst w c) cs
        (scanFirst w c :: r.1, r.2)) (vs.getD 0 Vec.zero))
  | .iota t d => some (t, [], d, 6, fun _ _ => (Vector.ofFn fun j => BitVec.ofNat 32 j.val, 0))
  | .lrot t d a n =>
    some (t, [a], d, 6, fun _ vs => (Vector.ofFn fun j => (vs.getD 0 Vec.zero)[Fin.ofNat 64 (j.val + n.val)], 0))
  | .lpopc t d a =>
    some (t, [a], d, 6, fun _ vs =>
      (Vector.ofFn fun _ => BitVec.ofNat 32 ((vs.getD 0 Vec.zero).toList.countP fun w => w != 0), 0))
  | .movi t d w => some (t, [], d, 2, fun _ _ => (Vector.ofFn fun _ => w, 0))
  | .mov t d a false => some (t, [a], d, 2, fun _ vs => (vs.getD 0 Vec.zero, 0))
  | _ => none

/-- Every vector instruction, when it may issue, its sources are there and its destination has room, executes: it reads
its sources, pops each queue once, reserves its place and has its result pending, to be written within its bound, its
flags with it; its tokens come with the write (R133, R145, R148, R149, R151, R252). -/
def Sys2Proof.Claims.VectorInstructionsExecute : Prop :=
  ∀ (i : Instr) (t : Tok) (srcs : List VSrc) (d : VDst) (bound : Nat) (f : Ctx → List Vec → Vec × Flags) (s : State)
    (vs : List Vec),
    vectorForm i = some (t, srcs, d, bound, f) → Ready t [] s → srcValues s srcs = some vs → hasRoom s d →
    Does (exec i s) t true s s (vectorIssued s srcs d (some (f s.fctx vs).1) (f s.fctx vs).2 bound)

/-- MOV with PEEK reads the oldest poppable entry of an iq and leaves it there (R151, R263). -/
def Sys2Proof.Claims.PeekExecutes : Prop :=
  ∀ (t : Tok) (d : VDst) (q : QNum) (s : State) (v : Vec),
    Ready t [] s → srcValue s (.iq q) = some v → hasRoom s d →
    Does (exec (.mov t d (.iq q) true) s) t true s s (vectorIssued s [] d (some v) 0 2)

/-- MVQ pops the oldest poppable entry of mq or gq; on an empty queue a stalled one does not issue, and a not-ready one
writes nothing, reserves nothing that stays and sets QSTAT.NR. Where its destination oq has no place, one that would not
stall takes QUEUE_OVERFLOW (R151, R153, R264). -/
def Sys2Proof.Claims.MvqExecutes : Prop :=
  ∀ (t : Tok) (d : VDst) (gq nr : Bool) (s : State), Ready t [] s →
    let q := if gq then s.fctx.gq else s.fctx.mq
    (∀ p, oldest q s.cycle = some p → hasRoom s d →
      Does (exec (.mvq t d gq nr) s) t true s s
        { vectorIssued s [] d (some p.data) 0 6 with
            mq := if gq then s.fctx.mq else s.fctx.mq.drop 1
            gq := if gq then s.fctx.gq.drop 1 else s.fctx.gq }) ∧
    (oldest q s.cycle ≠ none ∨ nr = true → s.fstrm.stamp = none → (∃ o, d = .oq o ∧ 4 ≤ s.fctx.oq[o].length) →
      exec (.mvq t d gq nr) s = .next (takeFault s { code := 0x05 })) ∧
    (oldest q s.cycle = none → nr = true → hasRoom s d →
      ∃ x, Does (exec (.mvq t d gq nr) s) t true s s x ∧ x.nr = true ∧ x.v = s.fctx.v ∧ x.oq = s.fctx.oq ∧
        x.mq = s.fctx.mq ∧ x.gq = s.fctx.gq ∧ x.fstat = s.fctx.fstat ∧
        x.pend = s.fctx.pend ++ [⟨s.fctx.serial + 1, d, s.fctx.serial + 1, none, 0, s.cycle + 1, s.cycle + 1⟩]) ∧
    (oldest q s.cycle = none → nr = false → exec (.mvq t d gq nr) s = .next s.counted)

/-- An unstamped vector instruction with a source queue that has no poppable entry takes QUEUE_UNDERFLOW, and one whose
destination oq already has four entries or reservations QUEUE_OVERFLOW; nothing is popped or pushed (R151). -/
def Sys2Proof.Claims.QueueFaults : Prop :=
  ∀ (i : Instr) (t : Tok) (srcs : List VSrc) (d : VDst) (bound : Nat) (f : Ctx → List Vec → Vec × Flags) (s : State),
    vectorForm i = some (t, srcs, d, bound, f) → Ready t [] s → s.fstrm.stamp = none →
    ((∃ q, VSrc.iq q ∈ srcs ∧ oldest s.fctx.iq[q] s.cycle = none) →
      (∀ q p, VSrc.iq q ∈ srcs → oldest s.fctx.iq[q] s.cycle = some p → p.poison = false) →
      exec i s = .next (takeFault s { code := 0x04 })) ∧
    (∀ vs q, srcValues s srcs = some vs → d = .oq q → 4 ≤ s.fctx.oq[q].length →
      exec i s = .next (takeFault s { code := 0x05 }))

/-- A lane of a v register read inside the latency window of one pending write is the old value or the new one, and from
the bound on it is the new one (R148). -/
def Sys2Proof.Claims.WindowReads : Prop :=
  ∀ (s : State) (c : CoreId) (r : VReg) (p : PendRes) (n : Vec) (j : Fin 64),
    (s.ctx c).pend = [p] → p.dst = .v r → p.value = some n →
    ((readV s c r).1[j] = (s.ctx c).v[r][j] ∨ (readV s c r).1[j] = n[j]) ∧
    (p.bound ≤ s.cycle → (readV s c r).1[j] = n[j])

/-- A vector instruction whose sources before it are there and which then names an iq whose oldest poppable entry is poisoned takes
MEM_UE; so does a MOV with PEEK, which would leave the entry there; nothing is popped or written (R151, R229, R235). -/
def Sys2Proof.Claims.PoisonedEntries : Prop :=
  ∀ (i : Instr) (t : Tok) (l m : List VSrc) (q : QNum) (d : VDst) (bound : Nat) (f : Ctx → List Vec → Vec × Flags) (s : State)
    (p : QPlace), Ready t [] s → oldest s.fctx.iq[q] s.cycle = some p → p.poison = true →
    (vectorForm i = some (t, l ++ .iq q :: m, d, bound, f) → (∀ a ∈ l, ∃ v, srcValue s a = some v) →
      exec i s = .next (takeFault s.counted { code := 0x10 })) ∧
    exec (.mov t d (.iq q) true) s = .next (takeFault s.counted { code := 0x10 })

/-- RESULT_WRITE writes one pending result, from the cycle after its issue on: one whose bound has come, else the oldest that may be
written. It writes the v register, or the entry that lands in its oq, its flags into FSTAT, and its posts; a result still to come
of an earlier instruction for the same v register is superseded, and writes no register any more, while its flags and posts
still come; every other pending result stays, and nothing else changes (R52, R145, R148, R151). -/
def Sys2Proof.Claims.ResultsAreWritten : Prop :=
  ∀ (c : CoreId) (s : State) (p : PendRes) (l m : List PendRes), 
    let x := s.ctx c
    let o := exec (.resultWrite c) s
    ((∀ e ∈ x.pend, s.cycle < e.first ∧ s.cycle < e.bound) → o = .next s) ∧
    (x.pend = l ++ p :: m → (∀ e ∈ l ++ m, e.id ≠ p.id) →
      ((p.bound ≤ s.cycle ∧ ∀ e ∈ l, s.cycle < e.bound) ∨
        ((∀ e ∈ l ++ p :: m, s.cycle < e.bound) ∧ p.first ≤ s.cycle ∧ ∀ e ∈ l, s.cycle < e.first)) →
      ∃ y, o = .next (s.setCtx c y) ∧ y.str = x.str ∧ y.lc = x.lc ∧ y.tok = (makePosts x s.cycle .math p.id).tok ∧
        (∀ r v, p.dst = .v r → p.value = some v →
          y.rest = { x with
            v := x.v.set r v
            pend := (l ++ m).map fun e : PendRes => if e.dst = VDst.v r ∧ e.id < p.id then { e with value := none } else e
            fstat := x.fstat ||| p.flags.setWidth 64 }.rest) ∧
        (∀ q v, p.dst = .oq q → p.value = some v →
          y.rest = { x with
            oq := x.oq.set q (landPlace x.oq[q] p.place s.cycle v false)
            pend := l ++ m
            fstat := x.fstat ||| p.flags.setWidth 64 }.rest) ∧
        (p.value = none → y.rest = { x with pend := l ++ m, fstat := x.fstat ||| p.flags.setWidth 64 }.rest))

/-- KMRG on a heap record in the task's range, valid by the checks of R266 and unpoisoned, executes: it holds the math
stream with its result pending, to be written with the record within its bound. On a heap the result and the record are
those of the lanes merged in ascending order. It waits for the accesses that its reading of the record follows (R265, R266,
R312, R314). -/
def Sys2Proof.Claims.KmrgExecutes : Prop :=
  ∀ (t : Tok) (d : VDst) (a b : VSrc) (h : VReg) (s : State) (va vb vh : Vec),
    Ready t [] s → srcValues s [a, b, .v h] = some [va, vb, vh] → hasRoom s d →
    let off := (vh[(0 : Fin 64)]).toNat
    let key := spadKey s.fcore.val off
    let cap := s.mem.num key 4
    let count := s.mem.num (key + 4) 4
    off < 2 ^ 21 → off % 16 = 0 → s.fctx.base ≤ off → off + 16 + 8 * cap ≤ s.fctx.base + s.fctx.size →
    0 < cap → cap ≤ 4096 → count ≤ cap → s.mem.num (key + 8) 8 = 0 → s.poisoned key (16 + 8 * cap) = false →
    s.poisoned key 16 = false → inForeign s (rightsOf s s.fcore) s.fctx.lcore.toNat off (16 + 8 * cap) = false →
    (mustFollow (s.entered t 0 0) [⟨key, 16, 0⟩] = true → exec (.kmrg t d a b h) s = .next s.counted) ∧
    (mustFollow (s.entered t 0 0) [⟨key, 16, 0⟩] = false →
      mustFollow (s.entered t 0 0) [⟨key, 16 + 8 * cap, 0⟩] = false →
    let e := heapEntries count ((s.load key (16 + 8 * cap)).drop 16)
    let r := mergeLanes cap e (va.toList.zip vb.toList)
    ∃ v bs, Does (exec (.kmrg t d a b h) s) t true s { s with free := s.free + 2 }
        { vectorIssued s [a, b] d none 0 0 with
            pend := s.fctx.pend
            kmrg := some ⟨s.fctx.serial + 1, d, s.fctx.serial + 1, v, key, bs, s.cycle + 1,
              s.cycle + 64 * (6 + 2 * bitLen cap)⟩ } ∧
      (isHeap e = true → v = vecOfWords r.2 ∧
        bs.take (16 + 8 * r.1.length) =
          toBytes 4 cap ++ toBytes 4 r.1.length ++ toBytes 8 0 ++ entryBytes r.1))

/-- One lane of a merge into a heap: a skipped token or a NaN changes nothing and gives 0xFFFFFFFF; below its capacity the heap takes
the entry and gives 0xFFFFFFFE; a full heap refuses an entry that is worse than its root or equal to it, score as a value and token,
and else takes it in the place of its root, whose token it gives. What is left is a heap again, of exactly those entries (R265, R266). -/
def Sys2Proof.Claims.MergeLane : Prop :=
  ∀ (cap : Nat) (e : List HEntry) (x : HEntry), e.length ≤ cap → 0 < cap → cap ≤ 4096 → isHeap e = true →
    let r := mergeLane cap e x
    let root := e.getD 0 (0, 0)
    let equal := x.2 = root.2 ∧ f32 root.1 ≠ .nan ∧ cmpVal (f32 x.1) (f32 root.1) = 0
    ((0xFFFFFFFE ≤ x.2.toNat ∨ f32 x.1 = .nan) → r = (e, 0xFFFFFFFF)) ∧
    (x.2.toNat < 0xFFFFFFFE → f32 x.1 ≠ .nan →
      (e.length < cap → r.2 = 0xFFFFFFFE ∧ r.1.Perm (x :: e) ∧ isHeap r.1 = true) ∧
      (e.length = cap → (worse x root = true ∨ equal) → r = (e, 0xFFFFFFFF)) ∧
      (e.length = cap → ¬(worse x root = true ∨ equal) →
        r.2 = root.2 ∧ r.1.Perm (x :: e.drop 1) ∧ isHeap r.1 = true))

/-- KMRG_WRITEBACK writes d and the record, from the cycle after issue on, posts and frees the math stream; no byte outside
the record changes (R266). -/
def Sys2Proof.Claims.KmrgWritesBack : Prop :=
  ∀ (c : CoreId) (s : State) (k : PendKmrg), (s.ctx c).kmrg = some k → k.first ≤ s.cycle → s.mem.wf = true →
    ∃ y, exec (.kmrgWriteback c) s = .next ((s.store k.key k.bytes).setCtx c y) ∧ y.kmrg = none ∧
      y.str = (s.ctx c).str ∧ y.tok = (makePosts (s.ctx c) s.cycle .math k.id).tok ∧ y.g = (s.ctx c).g ∧
      y.fstat = (s.ctx c).fstat ∧
      (∀ r, k.dst = .v r → y.v = (s.ctx c).v.set r k.value ∧ y.oq = (s.ctx c).oq) ∧
      (∀ q, k.dst = .oq q → y.v = (s.ctx c).v ∧
        y.oq = (s.ctx c).oq.set q (landPlace (s.ctx c).oq[q] k.place s.cycle k.value false)) ∧
      (s.store k.key k.bytes).mem.readN k.key k.bytes.length = k.bytes ∧
      ∀ j, j < k.key ∨ k.key + k.bytes.length ≤ j → (s.store k.key k.bytes).mem.read j = s.mem.read j

/-! ## Numbers -/

/-- A magnitude m · 2^e rounded to multiples of 2^q by each mode, and whether that was inexact: to nearest with ties to the
even multiple or away from zero, toward zero, down and up (R50). -/
def Sys2Proof.Claims.RoundingModes : Prop :=
  ∀ (neg : Bool) (m : Nat) (e q : Int),
    let d := (q - e).toNat
    let hi := m / 2 ^ d
    let low := m % 2 ^ d
    let r := fun rm => roundAt rm neg m e false q
    (q ≤ e → ∀ rm, r rm = (m * 2 ^ (e - q).toNat, false)) ∧
    (e < q →
      (∀ rm, (r rm).2 = (low != 0)) ∧ (r .rtz).1 = hi ∧
      (r .rdn).1 = (if neg = true ∧ low ≠ 0 then hi + 1 else hi) ∧
      (r .rup).1 = (if neg = false ∧ low ≠ 0 then hi + 1 else hi) ∧
      (r .rna).1 = (if 2 ^ d ≤ 2 * low then hi + 1 else hi) ∧
      (r .rne).1 = (if 2 ^ d < 2 * low ∨ (2 * low = 2 ^ d ∧ hi % 2 = 1) then hi + 1 else hi))

/-- Every finite code of the eight floating-point formats is the rounding of its own value, exactly and without a flag, in
every mode (R43, R50, R55). -/
def Sys2Proof.Claims.CodesRoundToThemselves : Prop :=
  ∀ (f : Format) (rm : Rm) (c : Nat),
    f ∈ [fmtF32, fmtBF16, fmtF16, fmtFP8e4, fmtFP8e5, fmtFP6e3, fmtFP6e2, fmtFP4] → c < 2 ^ f.width →
    (∃ n m e, unpack f c = .fin n m e) → roundVal f rm false false (unpack f c) = (c, 0)

/-- ∞ − ∞ and 0 × ∞ give the canonical NaN 0x7FC00000 and NV, whichever comes first and whatever the signs; a NaN operand gives it
without a flag; an infinity absorbs every finite term, from either side; and the exact zero sum of a finite x and −x, unlike zeros among
them, is +0, but −0 in mode RDN (R44, R50). -/
def Sys2Proof.Claims.SpecialNumbers : Prop :=
  ∀ (rm : Rm) (x y z i : W32), rm ≠ .dyn → (i = 0x7F800000 ∨ i = 0xFF800000) → (z = 0 ∨ z = 0x80000000) →
    let finite := ∃ n m e, f32 x = .fin n m e
    let nan : W32 := 0x7FC00000
    addF32 rm false i (i ^^^ 0x80000000) = (nan, 1) ∧ addF32 rm false i i = (i, 0) ∧
    mulF32 rm false z i = (nan, 1) ∧ mulF32 rm false i z = (nan, 1) ∧
    (f32 x = .nan → addF32 rm false x y = (nan, 0) ∧ addF32 rm false y x = (nan, 0) ∧
      mulF32 rm false x y = (nan, 0) ∧ mulF32 rm false y x = (nan, 0)) ∧
    (finite → addF32 rm false x i = (i, 0) ∧ addF32 rm false i x = (i, 0)) ∧
    (finite → addF32 rm false x (x ^^^ 0x80000000) = (if rm = .rdn then 0x80000000 else 0, 0)) ∧
    addF32 rm false z z = (z, 0)

/-- IOP on elements of 32, 16 or 8 bits: wrapping sums, differences and products with IOV when the exact signed result lies
outside the width, bits, shifts by the amount modulo the width, masks, minima and maxima (R258). -/
def Sys2Proof.Claims.IopComputesTheTable : Prop :=
  ∀ (w a b : Nat), (w = 32 ∨ w = 16 ∨ w = 8) → a < 2 ^ w → b < 2 ^ w →
    let sgn := fun v : Nat => if v < 2 ^ (w - 1) then (v : Int) else (v : Int) - 2 ^ w
    let out := fun i : Int => if i < -2 ^ (w - 1) ∨ 2 ^ (w - 1) ≤ i then fIOV else 0
    let r := fun f => iopFn f w a b
    let ones := 2 ^ w - 1
    r .add = ((a + b) % 2 ^ w, out (sgn a + sgn b)) ∧
    r .sub = ((a + 2 ^ w - b) % 2 ^ w, out (sgn a - sgn b)) ∧
    ((r .mul).1 = a * b % 2 ^ w ∧ (r .mul).2 = out (sgn a * sgn b)) ∧
    r .and = (a &&& b, 0) ∧ r .or = (a ||| b, 0) ∧ r .xor = (a ^^^ b, 0) ∧ r .andn = (a &&& (ones - b), 0) ∧
    r .shl = (a * 2 ^ (b % w) % 2 ^ w, 0) ∧ r .shr = (a / 2 ^ (b % w), 0) ∧
    (sgn (r .sar).1 = sgn a / 2 ^ (b % w) ∧ (r .sar).2 = 0) ∧
    r .cmplt = (if sgn a < sgn b then ones else 0, 0) ∧ r .cmpltu = (if a < b then ones else 0, 0) ∧
    r .cmpeq = (if a = b then ones else 0, 0) ∧
    (sgn (r .min).1 = Min.min (sgn a) (sgn b) ∧ (r .min).2 = 0) ∧
    (sgn (r .max).1 = Max.max (sgn a) (sgn b) ∧ (r .max).2 = 0) ∧
    r .minu = (Min.min a b, 0) ∧ r .maxu = (Max.max a b, 0) ∧
    (sgn (r .mulh).1 = sgn a * sgn b / 2 ^ w ∧ (r .mulh).2 = 0)

/-! ## Ops as objects -/

/-- OTEST, OPRIO, ODETACH and OADOPT: the token bits, the registers, what they do to an op that the name resolves to and
write of it, and what they write for a name that is not yet given and for one that is gone. An op that is detached keeps the
range, the place and the buffers that its task has then; where it was adopted from another core, that its place is that task's is the
model's reading (notes/assumptions/15.md). One that is adopted takes those of its new task at each access (R169, R171, R216). -/
def opManageForm : Instr → Option (Tok × GReg × GReg × (State → Op → State × W64) × W64 × W64)
  | .otest t d a => some (t, d, a, fun s o => (s, BitVec.ofNat 64 o.status.code), 6, 7)
  | .oprio t d a p => some (t, d, a, fun s o =>
      (if (o.owner = none ∨ o.owner = some s.myslot) ∧ o.status.isLive = true then
        s.updOp o.oid fun o => { o with prio := p } else s, BitVec.ofNat 64 o.status.code), 6, 7)
  | .odetach t d a => some (t, d, a, fun s o =>
      if (o.owner = none ∨ o.owner = some s.myslot) ∧ o.status.isLive = true ∧ o.kind.cannotDetach = false then
        (if o.owner = none then s else s.updOp o.oid fun q => { q with
            owner := none
            rights := { o.rights with
              base := ((s.findTask s.myslot).map (·.base)).getD o.rights.base
              size := ((s.findTask s.myslot).map (·.size)).getD o.rights.size
              me := ((s.findTask s.myslot).map (·.lcore)).getD o.rights.me
              live := false
              held := (s.buffers.filter fun b => b.live && b.holder == some s.myslot).map fun b =>
                (b.orig, b.addr, b.size) } },
          BitVec.ofNat 64 (orphanName o.rights.lcore o.chan.val o.seq))
      else (s, BitVec.ofNat 64 o.status.code), 6, 7)
  | .oadopt t d a => some (t, d, a, fun s o =>
      if o.status.isLive = true ∧ o.owner = none then
        (s.updOp o.oid fun o => { o with owner := some s.myslot, adopted := true }, 1)
      else (s, 0), 0, 0)
  | _ => none

/-- The management instructions but OWAIT, OCANCEL and OREC, when they may issue: on an op they do what R169 gives them
and write its state, its orphan name or whether it was taken; NOTYET and GONE write their codes; a name with a channel over
7 or a core over 639 takes ILLEGAL_OP (R163, R164, R169, R171). -/
def Sys2Proof.Claims.OpManagementExecutes : Prop :=
  ∀ (i : Instr) (t : Tok) (d a : GReg) (f : State → Op → State × W64) (ny gone : W64) (s : State),
    opManageForm i = some (t, d, a, f, ny, gone) → Ready t [d.val, a.val] s →
    match resolveName s s.fcore (s.fctx.gr a) with
    | .op o => Does (exec i s) t false s (f s o).1 (s.counted.fctx.setG d (f s o).2)
    | .notYet => Does (exec i s) t false s s (s.counted.fctx.setG d ny)
    | .gone => Does (exec i s) t false s s (s.counted.fctx.setG d gone)
    | .illegal => exec i s = .next (takeFault s.counted { code := 0x01 })

/-- The rights of an op at its accesses: while it is attached, the range and the place of the task it is attached to as they stand, and
that task's live buffers; once detached, those it had then (R171, R216). That an op adopted from another core reaches as own the place of
its new task is the model's reading (notes/assumptions/15.md). -/
def Sys2Proof.Claims.OpsHaveRights : Prop :=
  ∀ (s : State) (o : Op) (k : Task) (slot : Nat),
    (o.owner = none → o.accessRights s = { o.rights with oid := o.oid }) ∧
    (o.owner = some slot → s.findTask slot = some k →
      o.accessRights s =
        { o.rights with base := k.base, size := k.size, me := k.lcore, slot := slot, live := true, oid := o.oid })

/-- What a name resolves to (R163, R164): a task-local token of the task's own generation names a live op of its own logical
core and graph with its channel, sequence and generation, an orphan name a live op of the core it names, and ops of other graphs are never
found; a channel over 7, a core over 639 or a bit set in bits 9:0 of an orphan name is illegal. -/
def Sys2Proof.Claims.NamesResolve : Prop :=
  ∀ (s : State) (c : CoreId) (w : W64),
    let n := w.toNat
    (n < 2 ^ 63 → 8 ≤ n / 2 ^ 56 → resolveName s c w = .illegal) ∧
    (2 ^ 63 ≤ n → (640 ≤ n / 2 ^ 53 % 2 ^ 10 ∨ n % 2 ^ 10 ≠ 0) → resolveName s c w = .illegal) ∧
    (∀ o, resolveName s c w = .op o → o ∈ s.ops ∧ o.graph = (s.ctx c).graph.toNat ∧
      (o.status.isLive = true ∨ ∃ k, o.doneAt = some k ∧ s.cycle ≤ k) ∧
      ((n < 2 ^ 63 ∧ o.rights.lcore = (s.ctx c).lcore.toNat ∧ o.gen = (s.ctx c).task.toNat % 65536 ∧ n = opToken o.chan.val o.seq o.gen) ∨
        (2 ^ 63 ≤ n ∧ o.rights.lcore = n / 2 ^ 53 % 2 ^ 10 ∧ o.chan.val = n / 2 ^ 50 % 8 ∧
          o.seq = n / 2 ^ 10 % 2 ^ 40))) ∧
    (∀ o ∈ s.ops, o.graph = (s.ctx c).graph.toNat → o.status.isLive = true → o.rights.lcore = (s.ctx c).lcore.toNat →
      o.seq < 2 ^ 40 → o.gen = (s.ctx c).task.toNat % 65536 → n = opToken o.chan.val o.seq o.gen → ∃ p, resolveName s c w = .op p)

/-- OCANCEL on an op that is the task's or detached: a QUEUED or FAULTED copy or gather is CANCELLED at once and its record
says so; a RUNNING or PAUSED one is told to stop at its boundary and keeps its state; a completed op and a RRED or COLL are
left as they are. gD gets the state that is left (R169, R170). -/
def Sys2Proof.Claims.OcancelExecutes : Prop :=
  ∀ (t : Tok) (d a : GReg) (s : State), Ready t [d.val, a.val] s →
    let i := Instr.ocancel t d a
    let code := fun st : OpStatus => BitVec.ofNat 64 st.code
    (resolveName s s.fcore (s.fctx.gr a) = .notYet → Does (exec i s) t false s s (s.counted.fctx.setG d 6)) ∧
    (resolveName s s.fcore (s.fctx.gr a) = .gone → Does (exec i s) t false s s (s.counted.fctx.setG d 7)) ∧
    (resolveName s s.fcore (s.fctx.gr a) = .illegal → exec i s = .next (takeFault s.counted { code := 0x01 })) ∧
    ∀ o, resolveName s s.fcore (s.fctx.gr a) = .op o →
      (¬(o.owner = none ∨ o.owner = some s.myslot) ∨ o.status.isLive = false ∨ o.kind.runsOn = true →
        Does (exec i s) t false s s (s.counted.fctx.setG d (code o.status))) ∧
      ((o.owner = none ∨ o.owner = some s.myslot) → o.status.isLive = true → o.kind.runsOn = false →
        o.kind.isFabric = false →
        ((o.kind.isCopy = true ∨ o.kind.isGather = true) → (o.status = .queued ∨ o.status = .faulted) →
          Does (exec i s) t false s
            (dropBattens (s.updOp o.oid fun o => { o with
              status := .cancelled, doneAt := some s.cycle, held := none, cancel := false, flying := false
              array := false, pausing := false }) o.oid)
            (s.counted.fctx.setG d 10)) ∧
        ((o.status = .running ∨ o.status = .paused) →
          Does (exec i s) t false s
            (s.updOp o.oid fun o => { o with cancel := true, kind := o.kind.unstaged })
            (s.counted.fctx.setG d (code o.status)))) ∧
      ∃ t', exec i s = .next t' ∧
        (d ≠ 0 → (o.owner = none ∨ o.owner = some s.myslot) →
          (t'.ctx s.fcore).gr d = code (cancelOp o s).2)

/-- OWAIT completes on a completed op with its state and on a name that is GONE with 7; on a live op and on a name not yet
given it takes its tokens and its stream stands at it, and it completes at the turn at which the op has completed. An
illegal name takes ILLEGAL_OP. (R145, R164, R166, R169). -/
def Sys2Proof.Claims.OwaitExecutes : Prop :=
  ∀ (t : Tok) (d a : GReg) (s : State),
    let i := Instr.owait t d a
    let w := s.fctx.gr a
    let ended := fun n : Named => match n with
      | .gone => some (7 : W64)
      | .op o => if o.status.isLive then none else some (BitVec.ofNat 64 o.status.code)
      | _ => none
    let waits := fun n : Named => match n with
      | .notYet => True
      | .op o => o.status.isLive = true
      | _ => False
    (s.fstrm.taken = false → Ready t [d.val, a.val] s →
      (∀ v, ended (resolveName s s.fcore w) = some v → Does (exec i s) t false s s (s.counted.fctx.setG d v)) ∧
      (resolveName s s.fcore w = .illegal → exec i s = .next (takeFault s.counted { code := 0x01 })) ∧
      (waits (resolveName s s.fcore w) →
        ∃ y, exec i s = .next (s.setCtx s.fcore y) ∧ y.rest = s.fctx.rest ∧ (y.strm s.fstr).taken = true ∧
          (y.strm s.fstr).pc = s.fstrm.pc)) ∧
    (s.fstrm.taken = true →
      (waits (resolveFrom (s.cycle - 1) s s.fcore w) → exec i s = .next s) ∧
      (∀ v, ended (resolveFrom (s.cycle - 1) s s.fcore w) = some v → loopAt s.fctx s.fstr s.lastWord = none →
        ∃ y, exec i s = .next (s.setCtx s.fcore y) ∧ y.rest = (s.fctx.setG d v).rest ∧ (y.strm s.fstr).taken = false ∧
          (y.strm s.fstr).pc = s.fstrm.pc + BitVec.ofNat 64 (4 * s.words) ∧
          y.tok = (makePosts s.fctx s.cycle s.fstr 0).tok))

/-- OREC on an op copies its 64-byte record to the 64-aligned address in gB as one pending write, when the check allows it,
and writes the op's state to gD; NOTYET and GONE write their codes and no byte. The address is checked whatever the name
resolves to, but for an illegal name, whose ILLEGAL_OP comes first: that order is the model's (notes/assumptions/118.md). A write that
a leaf with WB holds has written neither a byte nor gD, which any other writes as it issues (notes/assumptions/43.md); and that its tokens
are posted as it issues is the model's reading too (notes/assumptions/7.md) (R167, R169, R200, R227). -/
def Sys2Proof.Claims.OrecExecutes : Prop :=
  ∀ (t : Tok) (d a b : GReg) (c : Cls) (s : State), Ready t [d.val, a.val, b.val] s →
    let i := Instr.orec t d a b c
    let va := s.fctx.gr b
    let p := s.checked t true true [⟨va.toNat, 64, 0⟩]
    let n := resolveName s s.fcore (s.fctx.gr a)
    (n = .illegal → exec i s = .next (takeFault s.counted { code := 0x01 })) ∧
    (n ≠ .illegal →
      (va.toNat % 64 ≠ 0 → exec i s = .next (takeFault s.counted { code := 0x07, addr := va })) ∧
      (va.toNat % 64 = 0 → placeOf va.toNat = none → exec i s = .next (takeFault s.counted { code := 0x0A, addr := va })) ∧
      (va.toNat % 64 = 0 → placeOf va.toNat ≠ none → ∀ code v, p.2 = .fault code v →
        exec i s = .next (takeFault s.counted { code := code, addr := BitVec.ofNat 64 v }))) ∧
    (va.toNat % 64 = 0 → placeOf va.toNat ≠ none → (∀ code v, p.2 ≠ .fault code v) →
      (n = .notYet → Does (exec i s) t false s s (s.counted.fctx.setG d 6)) ∧
      (n = .gone → Does (exec i s) t false s s (s.counted.fctx.setG d 7)) ∧
      ∀ o, n = .op o →
        (∀ us, p.2 = .ok us →
          Does (exec i s) t false s p.1 (((p.1.ctx s.fcore).withAccess s.fstr
            (mkAccess p.1 (s.fctx.serial + 1) .store c us o.record va)).setG d (BitVec.ofNat 64 o.status.code))) ∧
        (p.2 = .held →
          Stays (exec i s) t true s p.1 ((p.1.ctx s.fcore).withAccess s.fstr
            { mkAccess p.1 (s.fctx.serial + 1) (.orec d (BitVec.ofNat 64 o.status.code)) c [] o.record va with
                all := [⟨va.toNat, 64, 0⟩]
                heldAt := some s.cycle
                stalls := true
                took := (t.wp.toNat, t.wn.toNat)
                posts := (t.pp, t.pn) })))

/-! ## The creation of ops -/

/-- What an op-creating instruction asks for: its kind, channel, priority, whether it is relocatable and detached, its
class, what it releases, its total, its completion bitmap and its NW. -/
structure NewOp where
  kind  : OpKind
  chan  : Fin 8
  prio  : Fin 4
  rel   : Bool
  det   : Bool
  cls   : Cls
  rmask : BitVec 16
  total : Nat
  bmap  : W64
  nw    : Bool

/-- An op as it is accepted by the executing core in a state: QUEUED, at cursor 0, with the sequence of its channel, the
generation of its task, and the rights of its task, which are a snapshot when it is created detached; its accesses follow those that
its acceptance releases and that are still to be performed (R161, R162, R167, R216, R314). bad is the fault that clearing its
bitmap met. -/
def newOp (s : State) (n : NewOp) (bad : Option (Nat × W64)) : Op where
  oid := s.nextOid
  graph := s.fctx.graph.toNat
  rights := if n.det then
      { rightsOf s s.fcore with
        live := false
        held := (s.buffers.filter fun b => b.live && b.holder == some (rightsOf s s.fcore).slot).map fun b =>
          (b.orig, b.addr, b.size) }
    else rightsOf s s.fcore
  chan := n.chan
  seq := seqCounter s (Fin.ofNat 2 (rightsOf s s.fcore).port) (Fin.ofNat 64 (rightsOf s s.fcore).ctx)
    (rightsOf s s.fcore).lcore n.chan.val
  gen := s.fctx.task.toNat % 65536
  owner := if n.det then none else some (rightsOf s s.fcore).slot
  adopted := false
  prio := n.prio
  rel := n.rel && s.fctx.reloc
  opc := s.focus.word.toNat / 2 ^ 26
  stream := s.fstr
  cls := n.cls
  status := .queued
  fcode := (bad.map (·.1)).getD 0
  faddr := (bad.map (·.2)).getD 0
  cursor := 0
  total := n.total
  bmap := n.bmap
  fflags := 0
  accepted := s.cycle
  begun := false
  flying := false
  array := false
  elems := 0
  pausing := false
  after := maskAccs s.fcore s.fctx s.fstr n.rmask
  copyAt :=
    if n.kind.isCopy then (s.findTask (rightsOf s s.fcore).slot).bind fun t =>
      copyEntry t n.chan.val (seqCounter s (Fin.ofNat 2 (rightsOf s s.fcore).port) (Fin.ofNat 64 (rightsOf s s.fcore).ctx)
        (rightsOf s s.fcore).lcore n.chan.val)
    else none
  copyFree := n.kind.isCopy && (s.findTask (rightsOf s s.fcore).slot).any (·.copyX)
  recAt := 0
  cancel := false
  held := none
  reply := none
  doneAt := none
  kind := n.kind

/-- The machine with a sequence of a channel of the executing core used (R162). -/
def seqTaken (s : State) (chan : Fin 8) : State :=
  let r := rightsOf s s.fcore
  let port : Fin 2 := Fin.ofNat 2 r.port
  let ctx : Fin 64 := Fin.ofNat 64 r.ctx
  let n := seqCounter s port ctx r.lcore chan.val
  { s.updContext port ctx fun q => { q with
      oseq := assignNat q.oseq (8 * r.lcore + chan.val) ((n + 1) % 2 ^ 40) } with nextOid := s.nextOid + 1 }

/-- The machine with one op more: its sequence is used, its completion bitmap is cleared, and it is the newest op, ahead of the
markers of its context that were placed in this cycle (R251). A bitmap that cannot be cleared is the op's first fault, as the model reads
that acceptance clears it (notes/assumptions/14.md). A copy op that the recorded order of its core does not name
gives the order up for its task (R110). -/
def withNewOp (s : State) (n : NewOp) : State :=
  let p : State × Option (Nat × W64) :=
    if n.bmap = 0 then (seqTaken s n.chan, none)
    else clearBitmap (seqTaken s n.chan) s.fcore (newOp s n none).rights n.bmap n.total
  let o := newOp s n p.2
  let m : State := { p.1 with
    ops := s.ops ++ [o]
    invals := s.invals.map fun v =>
      if v.since = s.cycle ∧ v.port = o.rights.port ∧ v.ctx = o.rights.ctx then { v with ahead := v.ahead ++ [s.nextOid] }
      else v }
  if unnamedOp m o then giveUpOrder o m else m

/-- When an op-creating instruction may issue: its kernel names its channel (R27), the channel has a free place (R161), and where it
clears a bitmap at acceptance no earlier access that the op releases is pending (R240, R314). -/
structure MayCreate (t : Tok) (regs : List Nat) (n : NewOp) (s : State) : Prop where
  ready : Ready t regs s
  chuse : s.fctx.chuse.getLsbD n.chan.val = true
  place : placesTaken s s.fcore n.chan < 8
  mask  : n.bmap = 0 ∨ maskPending (s.entered t 0 0).fctx s.fstr n.rmask = false

/-- A full channel: with NW the instruction takes OP_TABLE_FULL; else nothing of it is done, and its stream notes the channel (R161). -/
def Full (o : Out) (s : State) (chan : Fin 8) (nw : Bool) : Prop :=
  (nw = true → o = .next (takeFault s.counted { code := 0x13 })) ∧
  (nw = false → ∃ y : Ctx, o = .next (s.setCtx s.fcore y) ∧ y.rest = s.fctx.rest ∧ y.tok = s.fctx.tok ∧ y.lc = s.fctx.lc ∧
    (y.strm s.fstr).pc = s.fstrm.pc ∧ (y.strm s.fstr).stalled = some chan)

/-- The instruction creates its op: a next state with that op, in which the op of a matrix engine stands last in the order of
its accumulator (R270). At a full channel it does as Full says; and where it is to clear a bitmap and its acceptance releases an access
that is still pending, it waits (R161, R240, R314). -/
def Creates (o : Out) (t : Tok) (regs : List Nat) (s : State) (n : NewOp) : Prop :=
  (MayCreate t regs n s →
    Does o t false s (withNewOp (s.entered t 0 0) n)
      { s.counted.fctx with zorder := s.fctx.zorder ++
          (match n.kind.acc? with
          | some z => [(z, .op s.nextOid)]
          | none => []) }) ∧
  (Ready t regs s → s.fctx.chuse.getLsbD n.chan.val = true → 8 ≤ placesTaken s s.fcore n.chan → Full o s n.chan n.nw) ∧
  (Ready t regs s → s.fctx.chuse.getLsbD n.chan.val = true → placesTaken s s.fcore n.chan < 8 → n.bmap ≠ 0 →
    maskPending (s.entered t 0 0).fctx s.fstr n.rmask = true → o = .next s.counted)

/-- CPY and CPYC through a nest register that is not null (a null one is RECORD), of 16-aligned addresses in local spaces, with a landing word where
they notify, and a CPYC of at most 65,536 bytes with a version word and a version register a0 to a15, create a copy op of
channel 0 to 3 with the fields of their op word; each check that fails is its fault, in the order of R237 (R237 to
R239). -/
def Sys2Proof.Claims.CopiesCreate : Prop :=
  ∀ (t : Tok) (d a : AReg) (n : Fin 8) (ch : Fin 4) (w : OpWord) (notify : Bool) (v : Fin 32) (s : State) (r : NestReg),
    let chan : Fin 8 := ⟨ch.val, by omega⟩
    let dst := s.fctx.ar s.fstr d
    let src := s.fctx.ar s.fstr a
    let ask := fun kind : OpKind => (⟨kind, chan, w.prio, false, w.det, w.cls, w.rmask, r.total, 0, w.nw⟩ : NewOp)
    let vregs := if v.val < 16 then [d.val, a.val, v.val] else [d.val, a.val]
    let flt := fun (i : Instr) (code : Nat) (x : W64) => exec i s = .next (takeFault s.counted { code := code, addr := x })
    let checks := fun (i : Instr) =>
      (notify = true → r.lwaddr = 0 → flt i 0x1A r.recAt) ∧
      ((notify = true → r.lwaddr ≠ 0) →
        (dst.toNat % 16 ≠ 0 → flt i 0x07 dst) ∧
        (dst.toNat % 16 = 0 → src.toNat % 16 ≠ 0 → flt i 0x07 src) ∧
        (dst.toNat % 16 = 0 → src.toNat % 16 = 0 →
          (placeOf dst.toNat = none → flt i 0x0A dst) ∧
          (placeOf dst.toNat ≠ none → placeOf src.toNat = none → flt i 0x0A src)))
    let ok := (notify = true → r.lwaddr ≠ 0) ∧ dst.toNat % 16 = 0 ∧ src.toNat % 16 = 0 ∧ placeOf dst.toNat ≠ none ∧
      placeOf src.toNat ≠ none
    (s.fctx.n[n] = none → s.fctx.chuse.getLsbD chan.val = true →
      (Ready t [d.val, a.val] s → flt (.cpy t d a n ch w notify) 0x1A 0) ∧
      (Ready t vregs s → flt (.cpyc t d a n ch w notify v) 0x1A 0)) ∧
    (s.fctx.n[n] = some r →
    (ok → Creates (exec (.cpy t d a n ch w notify) s) t [d.val, a.val] s (ask (.copy src dst r notify none none))) ∧
    (Ready t [d.val, a.val] s → s.fctx.chuse.getLsbD chan.val = true → checks (.cpy t d a n ch w notify)) ∧
    (ok → r.vwaddr ≠ 0 → r.total ≤ 65536 → v.val < 16 →
      Creates (exec (.cpyc t d a n ch w notify v) s) t vregs s
        (ask (.copy src dst r notify (some (s.fctx.ar s.fstr (Fin.ofNat 16 v.val))) (some [])))) ∧
    (Ready t vregs s → s.fctx.chuse.getLsbD chan.val = true →
      (r.vwaddr = 0 ∨ 65536 < r.total ∨ 16 ≤ v.val → flt (.cpyc t d a n ch w notify v) 0x1A r.recAt) ∧
      (r.vwaddr ≠ 0 → r.total ≤ 65536 → v.val < 16 → checks (.cpyc t d a n ch w notify v))))

/-- GATH, SCAT and GRED: the kind, the token bits and the fields. -/
def gatherForm : Instr → Option (GatherKind × Tok × GatherBody × OpWord)
  | .gath t g w => some (.gath, t, g, w)
  | .scat t g w => some (.scat, t, g, w)
  | .gred t g w => some (.gred, t, g, w)
  | _ => none

/-- GATH, SCAT and GRED over an INT32 index record of 1 to 65,536 elements in the scratchpads, to an aligned local
destination or to gq, create a gather op of channel 5, whose completion bitmap, where it has one, is cleared, or wait with it for what
the acceptance releases; with a null
register or a bad index record they take RECORD, and a GRED of a table in another format than FP32, BF16 and FP16 FORMAT
(R237, R240 to R242). -/
def Sys2Proof.Claims.GathersCreate : Prop :=
  ∀ (i : Instr) (k : GatherKind) (t : Tok) (g : GatherBody) (w : OpWord) (s : State),
    gatherForm i = some (k, t, g, w) →
    let regs := (if g.togq then [] else [g.d.val]) ++ (if g.bm then [g.m.val] else [])
    let dst : W64 := if g.togq then 0 else s.fctx.ar s.fstr g.d
    let bm : W64 := if g.bm then s.fctx.ar s.fstr g.m else 0
    let flt := fun (code : Nat) (x : W64) => exec i s = .next (takeFault s.counted { code := code, addr := x })
    (Ready t regs s → s.fctx.chuse.getLsbD 5 = true → (s.fctx.h[g.ht] = none ∨ s.fctx.h[g.hi] = none) → flt 0x1A 0) ∧
    ∀ ht hi, s.fctx.h[g.ht] = some ht → s.fctx.h[g.hi] = some hi →
      let count := if k = .gred then hi.rows.toNat else hi.rows.toNat * hi.cols.toNat
      let index := hi.fmt = 12 ∧ 1 ≤ count ∧ count ≤ 65536 ∧
        (k = .gred → hi.cols.toNat % 2 = 0 ∧ 2 ≤ hi.cols.toNat ∧ hi.cols.toNat ≤ 32)
      let places := dst.toNat % 16 = 0 ∧ bm.toNat % 8 = 0 ∧ placeOf dst.toNat ≠ none ∧ placeOf ht.base.toNat ≠ none ∧
        (tagOf hi.base = 1 ∨ tagOf hi.base = 2) ∧ placeOf hi.base.toNat ≠ none ∧
        (g.bm = true → tagOf bm = 1 ∧ placeOf bm.toNat ≠ none)
      (index → places → (k = .gred → ht.fmt.toNat ≤ 2) →
        Creates (exec i s) t regs s
          ⟨.gather k dst ht hi g.togq [] [], 5, w.prio, false, w.det, w.cls, w.rmask, count, bm, w.nw⟩) ∧
      (Ready t regs s → s.fctx.chuse.getLsbD 5 = true →
        (¬index → flt 0x1A hi.recAt) ∧ (index → places → k = .gred → 2 < ht.fmt.toNat → flt 0x19 0))

/-- The matrix instructions: the kind, the token bits, the fields and the metadata register of MMAS. -/
def mmaForm : Instr → Option (MmaKind × Tok × MmaBody × Option (Fin 16))
  | .mma t m => some (.mma, t, m, none)
  | .mmas t m hm => some (.mmas, t, m, some hm)
  | .mmat t m => some (.mmat, t, m, none)
  | .mmal t m b => some (.mmal (b.val + 1), t, m, none)
  | _ => none

/-- A shape register gives a tile of n × m elements: its origin lies inside the record, and the rest of the record holds the
tile unless the record pads (R272 to R274). -/
def Tile (h : ShapeReg) (n m : Nat) : Prop :=
  h.row0.toNat < h.rows.toNat ∧ h.col0.toNat < h.cols.toNat ∧
    (h.pad = true ∨ (h.row0.toNat + n ≤ h.rows.toNat ∧ h.col0.toNat + m ≤ h.cols.toNat))

/-- The column of its origin begins at a multiple of 16 bytes of a row (R272). -/
def OriginAligned (h : ShapeReg) : Prop :=
  if h.fmt = 11 then h.col0.toNat % 80 = 0 else h.col0.toNat * elemBits h.fmt.toNat % 128 = 0

/-- MMA, MMAS, MMAT and MMAL on shape registers that give their tiles, in formats that the entry names and that the
instruction takes, create an op of channel 4 of one unit for each 16 of K; each of the three checks that fails is its
fault, RECORD before ALIGN before FORMAT, with the address of the first record that fails, in the order ha, hb, hm, or of its
base; a null register is RECORD (R61, R272 to R275, R326). -/
def Sys2Proof.Claims.MatrixOpsCreate : Prop :=
  ∀ (i : Instr) (k : MmaKind) (t : Tok) (m : MmaBody) (hm : Option (Fin 16)) (s : State) (a b : ShapeReg)
    (md : Option ShapeReg),
    mmaForm i = some (k, t, m, hm) →
    (s.fctx.h[m.ha] = none ∨ s.fctx.h[m.hb] = none ∨ (∃ n, hm = some n ∧ s.fctx.h[n] = none) → Ready t [] s →
      s.fctx.chuse.getLsbD 4 = true → exec i s = .next (takeFault s.counted { code := 0x1A })) ∧
    (s.fctx.h[m.ha] = some a → s.fctx.h[m.hb] = some b →
    (∀ n, hm = some n → s.fctx.h[n] = md ∧ md ≠ none) → (hm = none → md = none) →
    let e := fmtEntry s.fctx m.fsel
    let left := if m.ta then a.rows.toNat - a.row0.toNat else a.cols.toNat - a.col0.toNat
    let kk := (Min.min 4096 left + 15) / 16 * 16
    let kb := if k = .mmas then kk / 2 else kk
    let tileA := a.sparse = false ∧ (if m.ta then Tile a kk 64 else Tile a 64 kk)
    let tileB := b.sparse = false ∧ (if m.tb then Tile b 64 kb else Tile b kb 64)
    let tiles := tileA ∧ tileB ∧ (∀ r, md = some r → r.sparse = true ∧ Tile r (kk / 4) 32)
    let origins := OriginAligned a ∧ OriginAligned b ∧ (∀ r, md = some r → OriginAligned r)
    let formats := entryFits k e = true ∧ a.fmt.toNat = entA e ∧ b.fmt.toNat = entB e ∧
      (m.ta = true → mayTranspose a.fmt.toNat = true) ∧ (m.tb = true → mayTranspose b.fmt.toNat = true)
    let flt := fun (code : Nat) (x : W64) => exec i s = .next (takeFault s.counted { code := code, addr := x })
    (tiles → origins → formats →
      Creates (exec i s) t [] s
        ⟨.mma k m.z a b md e (entRm s.fctx e) m.acc m.ta m.tb none, 4, m.prio, m.rel, false, 0, 0xFFFF, kk / 16, 0, false⟩) ∧
    (Ready t [] s → s.fctx.chuse.getLsbD 4 = true →
      (¬tileA → flt 0x1A a.recAt) ∧ (tileA → ¬tileB → flt 0x1A b.recAt) ∧
      (tileA → tileB → ¬tiles → ∀ r, md = some r → flt 0x1A r.recAt) ∧
      (tiles → (¬OriginAligned a → flt 0x07 a.base) ∧ (OriginAligned a → ¬OriginAligned b → flt 0x07 b.base) ∧
        (OriginAligned a → OriginAligned b → ¬origins → ∀ r, md = some r → flt 0x07 r.base)) ∧
      (tiles → origins → ¬formats → flt 0x19 0)))

/-- ZLD and ZST of an FP32 or INT32 record that gives a 64 × 64 tile create an op of channel 4 of 64 rows; a null register or
no such tile is RECORD, a misaligned origin ALIGN, another format FORMAT (R274, R283). -/
def Sys2Proof.Claims.AccumulatorMovesCreate : Prop :=
  ∀ (t : Tok) (z : Fin 4) (h : Fin 16) (det : Bool) (p : Fin 4) (s : State),
    let flts := fun (code : Nat) (x : W64) =>
      exec (.zld t z h p) s = .next (takeFault s.counted { code := code, addr := x }) ∧
      exec (.zst t z h det p) s = .next (takeFault s.counted { code := code, addr := x })
    (Ready t [] s → s.fctx.chuse.getLsbD 4 = true → s.fctx.h[h] = none → flts 0x1A 0) ∧
    ∀ r, s.fctx.h[h] = some r →
      let tile := r.sparse = false ∧ Tile r 64 64
      let fmt := r.fmt = 0 ∨ r.fmt = 12
      (tile → OriginAligned r → fmt →
        Creates (exec (.zld t z h p) s) t [] s ⟨.zld z r, 4, p, false, false, 0, 0xFFFF, 64, 0, false⟩ ∧
        Creates (exec (.zst t z h det p) s) t [] s ⟨.zst z r, 4, p, false, det, 0, 0xFFFF, 64, 0, false⟩) ∧
      (Ready t [] s → s.fctx.chuse.getLsbD 4 = true →
        (¬tile → flts 0x1A r.recAt) ∧ (tile → ¬OriginAligned r → flts 0x07 r.base) ∧
        (tile → OriginAligned r → ¬fmt → flts 0x19 0))

/-- The instructions that create ops of channels 0 to 5 for every task, with their channel. -/
def opChannel : Instr → Option (Fin 8)
  | .cpy _ _ _ _ ch _ _ => some ⟨ch.val, by omega⟩
  | .cpyc _ _ _ _ ch _ _ _ => some ⟨ch.val, by omega⟩
  | .gath _ _ _ => some 5
  | .scat _ _ _ => some 5
  | .gred _ _ _ => some 5
  | .mma _ _ => some 4
  | .mmas _ _ _ => some 4
  | .mmat _ _ => some 4
  | .mmal _ _ _ => some 4
  | .zld _ _ _ _ => some 4
  | .zst _ _ _ _ _ => some 4
  | _ => none

/-- In a task whose kernel does not name the channel an op-creating instruction takes ILLEGAL_OP before anything else. A stream that found
its channel full is given its turn again by OP_ACCEPT once a place of the channel is free, which changes nothing else: at
that turn the instruction is checked and issued, with the registers and records as they then are (R27, R161, R237). -/
def Sys2Proof.Claims.FullChannel : Prop :=
  (∀ (i : Instr) (chan : Fin 8) (s : State), opChannel i = some chan →
    blocked s.fctx s.fstr = false → loopSplits s = false → s.fctx.chuse.getLsbD chan.val = false →
    exec i s = .next (takeFault s { code := 0x01 })) ∧
  ∀ (c : CoreId) (st : Stream) (k : Fin 8) (s : State), ((s.ctx c).strm st).stalled = some k →
    (8 ≤ placesTaken s c k → exec (.opAccept c st) s = .next s) ∧
    (placesTaken s c k < 8 → exec (.opAccept c st) s =
      .next (s.setCtx c ((s.ctx c).setStrm st { (s.ctx c).strm st with stalled := none })))

/-! ## Drains, tile origins and invalidation -/

/-- FIDX sets the row and the column of a tile origin to bits 15:0 and 31:16 of lane 0 of its source, or adds them modulo
65,536; a queue source is popped; a shape register that nothing has loaded is RECORD, as the model reads R94 for it
(notes/assumptions/16.md) (R94, R285). -/
def Sys2Proof.Claims.FidxExecutes : Prop :=
  ∀ (t : Tok) (h : Fin 16) (a : VSrc) (add : Bool) (s : State) (v : Vec), Ready t [] s →
    (∀ r, a = .v r → (∀ p ∈ s.fctx.pend, p.dst ≠ .v r) ∧ v = s.fctx.v[r]) →
    (∀ q, a = .iq q → ∃ p, oldest s.fctx.iq[q] s.cycle = some p ∧ p.poison = false ∧ v = p.data) →
    (s.fctx.h[h] = none → exec (.fidx t h a add) s = .next (takeFault s.counted { code := 0x1A })) ∧
    ∀ r, s.fctx.h[h] = some r → ∃ r', Does (exec (.fidx t h a add) s) t false s s
        { s.counted.fctx with
            iq := Vector.ofFn fun q => if a = .iq q then s.fctx.iq[q].drop 1 else s.fctx.iq[q]
            h := s.fctx.h.set h (some r') } ∧
        r' = { r with row0 := r'.row0, col0 := r'.col0 } ∧
        r'.row0.toNat = ((if add then r.row0.toNat else 0) + (v[(0 : Fin 64)]).toNat) % 65536 ∧
        r'.col0.toNat = ((if add then r.col0.toNat else 0) + (v[(0 : Fin 64)]).toNat / 65536) % 65536

/-- ZDRN of an entry that may be drained takes a place of the drain queue and of its accumulator's order, with the scale
and bias vectors that its SCL names as they stand at issue; ZCLR takes one of each too; with sixteen entries in the queue
either waits; an entry that may not be drained is FORMAT. (R61, R270, R280, R282). -/
def Sys2Proof.Claims.DrainsIssue : Prop :=
  ∀ (t : Tok) (z : Fin 4) (fsel : Fin 32) (vs : VReg) (row : Fin 64) (nblk : Fin 16) (s : State), Ready t [] s →
    let i := Instr.zdrn t z fsel vs row nblk
    let e := fmtEntry s.fctx fsel
    let scl := entScl e
    let good := (entC e = 0 ∨ entC e = 12) ∧ (entO e ≤ 9 ∨ entO e = 12) ∧ (scl = 0 → vs.val = 0) ∧
      (scl = 1 → vs.val ≤ 22) ∧ (scl = 2 → vs.val ≤ 21)
    let id := s.fctx.serial + 1
    let reg := fun k : Nat => s.fctx.v[Fin.ofNat 24 (vs.val + k)]
    (¬good → exec i s = .next (takeFault s.counted { code := 0x19 })) ∧
    (good → s.fctx.drains.length < 16 → (∀ p ∈ s.fctx.pend, ∀ k ≤ scl, scl ≠ 0 → p.dst ≠ .v (Fin.ofNat 24 (vs.val + k))) →
      Does (exec i s) t false s s { s.counted.fctx with
        drains := s.fctx.drains ++ [⟨id, z, false, e, entRm s.fctx e, if scl = 0 then Vec.zero else reg 0,
          if scl = 0 then Vec.zero else reg 1, if scl = 2 then reg 2 else Vec.zero, row.val, 4 * (nblk.val + 1), []⟩]
        zorder := s.fctx.zorder ++ [(z, .drain id)] }) ∧
    (s.fctx.drains.length < 16 →
      ∃ d : Drain, d.id = id ∧ d.z = z ∧ d.clear = true ∧ Does (exec (.zclr t z) s) t false s s { s.counted.fctx with
        drains := s.fctx.drains ++ [d]
        zorder := s.fctx.zorder ++ [(z, .drain id)] }) ∧
    (16 ≤ s.fctx.drains.length → exec (.zclr t z) s = .next s.counted ∧ (good → exec i s = .next s.counted))

/-- ENGINE_PUSH of the matrix engine, over the one entry of the drain queue, whose turn in its accumulator's order has
come, on a core whose task runs, is being cut or has ended, or has left its cut for a new start. A clear leaves every element of the accumulator 0 and leaves the queue and the order. A drain of one block of 64 FP32
elements a row, unscaled, pushes the row as an entry of mq, poppable from the next cycle; an INT32 one too (R65, R153, R270,
R280 to R282). -/
def Sys2Proof.Claims.DrainsRun : Prop :=
  ∀ (c : CoreId) (s : State) (d : Drain), (s.ctx c).drains = [d] → zFree (s.ctx c) d.z (.drain d.id) = true →
    (drainsMove s c = false → exec (.enginePush c false) s = .next s) ∧
    (((∃ k, (s.core c).run = .running k) ∨ (∃ k a, (s.core c).run = .cutting k a) ∨
        ((s.core c).run = .idle ∧ (s.ctx c).mathEnd = true) ∨
        ((∃ k task, (s.core c).run = .held k ∧ s.findTask k = some task ∧ task.again = some true) ∧ (s.ctx c).mathEnd = true)) →
      drainsMove s c = true) ∧
    (drainsMove s c = true → d.clear = true → ∃ y, exec (.enginePush c false) s = .next (s.setCtx c y) ∧
      y = { s.ctx c with
        z := (s.ctx c).z.set d.z Acc.zero
        drains := []
        zorder := (s.ctx c).zorder.filter (·.2 != .drain d.id) }) ∧
    (drainsMove s c = true → d.clear = false → d.rows = 1 → d.out = [] → (s.ctx c).mathEnd = false → (s.ctx c).mq.length < 16 →
      entScl d.ent = 0 → ((entC d.ent = 0 ∧ entO d.ent = 0 ∧ entFzo d.ent = false) ∨ (entC d.ent = 12 ∧ entO d.ent = 12)) →
      ∃ y v, exec (.enginePush c false) s = .next (s.setCtx c y) ∧
        y.mq = (s.ctx c).mq ++ [⟨0, v, false, some s.cycle⟩] ∧ y.drains = [] ∧ y.z = (s.ctx c).z ∧
        y.zorder = (s.ctx c).zorder.filter (·.2 != .drain d.id) ∧ y.str = (s.ctx c).str ∧ y.v = (s.ctx c).v ∧
        ∀ j : Fin 64, (f32 ((s.ctx c).z[d.z][Fin.ofNat 64 d.row][j]) ≠ .nan ∨ entC d.ent = 12) →
          v[j] = (s.ctx c).z[d.z][Fin.ofNat 64 d.row][j])

/-- TINV in a graph with PRIV begins an invalidation of the task's context: no cached translation of it is left on any core
or die, the marker stands behind every accepted op of the context that runs, and its posts wait, while its stream goes on, which is the model's
choice (notes/assumptions/36.md); no byte of memory changes.
Without PRIV it takes PRIVILEGE (R136, R145, R223). -/
def Sys2Proof.Claims.TinvExecutes : Prop :=
  ∀ (t : Tok) (s : State), blocked s.fctx s.fstr = false → loopSplits s = false →
    let r := rightsOf s s.fcore
    (s.fctx.priv = false → exec (.tinv t) s = .next (takeFault s { code := 0x16 })) ∧
    (s.fctx.priv = true → Ready t [] s →
      ∃ (m : State) (v : Inval), Does (exec (.tinv t) s) t true s m s.counted.fctx ∧ m.invals = s.invals ++ [v] ∧
        v.port = r.port ∧ v.ctx = r.ctx ∧ v.host = false ∧ v.post = s.fctx.serial + 1 ∧ v.stream = s.fstr ∧
        (∀ o ∈ s.ops, o.status.isLive = true → o.status ≠ .paused → o.rights.port = r.port → o.rights.ctx = r.ctx →
          o.oid ∈ v.ahead) ∧
        (∀ c : CoreId, ∀ e ∈ (m.core c).tlb, e ∈ (s.core c).tlb ∧ ¬(e.port = r.port ∧ e.ctx = r.ctx)) ∧
        (∀ d : Fin 4, ∀ e ∈ m.dies[d].tlb, ¬(e.port = r.port ∧ e.ctx = r.ctx)) ∧
        m.mem = s.mem ∧ m.ops = s.ops ∧ m.tasks = s.tasks ∧ m.graphs = s.graphs)

/-- TINV_COMPLETE and XINV. An XINV while BUSY is set, or before its partition is ready, changes nothing; else it sets BUSY and
begins the same invalidation; that a port has one BUSY for all of its partitions is the model's choice (notes/assumptions/84.md).
An invalidation completes once the ops ahead of its marker have settled and the accesses translated before it are performed:
the instruction lines of the context are gone everywhere, which the model does at the completion (notes/assumptions/36.md), a
host's BUSY is clear, and before that nothing changes. An op has settled that has ended or stopped, or whose unit is held
(R125, R223, R224, R227, R353). -/
def Sys2Proof.Claims.InvalidationsComplete : Prop :=
  ∀ (s : State) (v : Inval) (port : Fin 2) (ctx : Fin 64),
    let ready := partReady s (partOfCtx s ctx)
    (∀ o, settled s o = true ↔ s.findOp o = none ∨ ∃ q, s.findOp o = some q ∧
      (q.status.isLive = false ∨ q.status = .paused ∨ q.status = .faulted ∨ q.held ≠ none)) ∧
    ((s.ports[port].xinv = true ∨ ready = false) → exec (.xinv port ctx) s = .next s) ∧
    (s.ports[port].xinv = false → ready = true →
      ∃ t w, exec (.xinv port ctx) s = .next t ∧ t.ports[port].xinv = true ∧ t.invals = s.invals ++ [w] ∧
        w.port = port.val ∧ w.ctx = ctx.val ∧ w.host = true ∧ t.mem = s.mem ∧
        (∀ c : CoreId, t.ctx c = s.ctx c ∧ ∀ e ∈ (t.core c).tlb, ¬(e.port = port.val ∧ e.ctx = ctx.val)) ∧
        ∀ d : Fin 4, ∀ e ∈ t.dies[d].tlb, ¬(e.port = port.val ∧ e.ctx = ctx.val)) ∧
    (s.invals.find? (·.num == v.num) = some v →
      ((∃ o ∈ v.ahead, settled s o = false) ∨ (∃ e ∈ v.accs, stillOpen s e = true) →
        exec (.tinvComplete v.num) s = .next s) ∧
      ((∀ o ∈ v.ahead, settled s o = true) → (∀ e ∈ v.accs, stillOpen s e = false) → heldRefs s = [] →
        ∃ t, exec (.tinvComplete v.num) s = .next t ∧ t.invals = s.invals.filter (·.num != v.num) ∧ t.mem = s.mem ∧
          t.ops = s.ops ∧
          (∀ (c : CoreId) (k : Fin 4), ∀ l ∈ (t.core c).icache[k], ¬(l.port = v.port ∧ l.ctx = v.ctx)) ∧
          (∀ d : Fin 4, ∀ l ∈ t.dies[d].buffer, ¬(l.port = v.port ∧ l.ctx = v.ctx)) ∧
          (v.host = true → t.ports[Fin.ofNat 2 v.port].xinv = false ∧ ∀ c : CoreId, t.ctx c = s.ctx c) ∧
          (∀ c, v.host = false → s.coreOfSlot v.slot = some c →
            t.ctx c = makePosts (s.ctx c) s.cycle v.stream v.post)))

/-! ## Fabric ops -/

/-- The instruction has issued in t', the task's registers being x with the frame of an issue, and goes on. -/
def IssuedIn (o : Out) (t : Tok) (late : Bool) (s t' : State) (x : Ctx) : Prop :=
  o = .next t' ∧ Keeps t late s x (t'.ctx s.fcore) ∧ ((t'.ctx s.fcore).strm s.fstr).stamp = none ∧
    Sequential s x (t'.ctx s.fcore)

/-- The descriptor's fields as R244 places them: class, path, priority, NOTIFY, DET, NW, RMASK and the landing word. -/
def descFields (w : Nat) : Cls × Nat × Nat × Bool × Bool × Bool × Nat × Nat × Nat :=
  (Fin.ofNat 16 (w % 16), w / 2 ^ 4 % 4, w / 2 ^ 6 % 4, w / 2 ^ 8 % 2 = 1, w / 2 ^ 9 % 2 = 1, w / 2 ^ 10 % 2 = 1,
    w / 2 ^ 16 % 2 ^ 16, w / 2 ^ 32 % 2 ^ 10, w / 2 ^ 43 % 2 ^ 21)

/-- RLD, RST, RAMO and MCST in the registers of the issuing stream: token bits, registers, gang base, address and
alignment, descriptor, whether the descriptor and the rank set pass R244 and R245, the act, the battens of a request, the
ranks, the bytes, the oq popped, the iq filled and the register of a RAMO with RET. -/
structure FabAsk where
  tok   : Tok
  regs  : List Nat
  base  : W64
  va    : W64
  align : Nat
  good  : Prop
  act   : FabAct
  count : Nat
  ranks : List Nat
  total : Nat
  pop   : Option QNum
  fill  : Option QNum
  reg   : Option AReg
  desc  : W64

/-- A descriptor passes the RECORD checks of R244. -/
def descGood (w : W64) : Prop :=
  w.toNat / 2 ^ 4 % 4 ≠ 3 ∧ w.toNat / 2 ^ 11 % 2 ^ 5 = 0 ∧ w.toNat / 2 ^ 42 % 2 = 0 ∧ w.toNat / 2 ^ 32 % 2 ^ 10 < 640 ∧
    w.toNat / 2 ^ 43 % 2 ^ 21 % 16 = 0

/-- What a fabric instruction of channel 6 asks for (R245). -/
def fabricForm : Instr → Stream → Ctx → Option FabAsk
  | .rld t q a i, st, x =>
    let va := x.ar st a + BitVec.ofNat 64 (256 * i.val)
    let w := x.ar st (a + 1)
    some ⟨t, [a.val, a.val + 1], x.ar st a, va, 16, descGood w ∧ w.toNat / 2 ^ 8 % 2 = 0, .read, 1,
      [va.toNat / 2 ^ 43 % 2 ^ 20], 256, none, some q, none, w⟩
  | .rst t q a i, st, x =>
    let va := x.ar st a + BitVec.ofNat 64 (256 * i.val)
    let w := x.ar st (a + 1)
    let bs := match x.oq[q] with
      | p :: _ => vecBytes p.data
      | [] => []
    some ⟨t, [a.val, a.val + 1], x.ar st a, va, 16, descGood w, .write bs, 2, [va.toNat / 2 ^ 43 % 2 ^ 20], 256, some q,
      none, none, w⟩
  | .ramo t op d a b dword ret, st, x =>
    let w := x.ar st (a + 1)
    let n := if dword then 8 else 4
    some ⟨t, [a.val, a.val + 1] ++ (if op = .cas then [b.val, b.val + 1] else [b.val]) ++ (if ret then [d.val] else []),
      x.ar st a, x.ar st a, n, descGood w,
      .amo op (if dword then .b8 else .b4) (if op = .cas then x.ar st (b + 1) else x.ar st b) (x.ar st b) ret, 1,
      [(x.ar st a).toNat / 2 ^ 43 % 2 ^ 20], n, none, none, if ret then some d else none, w⟩
  | .mcst t q a b, st, x =>
    let w := x.ar st (a + 1)
    let r := (x.ar st b).toNat
    let n := r / 2 ^ 20 % 2 ^ 20
    let bs := match x.oq[q] with
      | p :: _ => vecBytes p.data
      | [] => []
    some ⟨t, [a.val, a.val + 1, b.val], x.ar st a, x.ar st a, 16,
      descGood w ∧ n ≠ 0 ∧ r / 2 ^ 40 % 2 ^ 20 ≠ 0 ∧ r / 2 ^ 60 = 0, .write bs, 2,
      (List.range n).map fun k => r % 2 ^ 20 + k * (r / 2 ^ 40 % 2 ^ 20), 256 * n, some q, none, none, w⟩
  | _, _, _ => none

/-- RLD, RST, RAMO and MCST in a graph with FAB, of a task whose kernel names channel 6, on a good descriptor, an aligned gang
address that does not carry out of bit 42, an entry to pop or a place to fill, and a free place of the channel, create a
fabric op: QUEUED, with a destination for each rank in order, the entry of its oq popped, a place of its iq reserved, or
its register interlocked; its accesses follow those that its acceptance releases; an RLD's posts come with its entry. A full channel
is as Full says (R145, R161, R244, R245, R314). -/
def Sys2Proof.Claims.FabricOpsCreate : Prop :=
  ∀ (i : Instr) (s : State) (f : FabAsk), fabricForm i s.fstr s.fctx = some f →
    Ready f.tok f.regs s → s.fctx.fab = true → s.fctx.chuse.getLsbD 6 = true → f.good →
    f.va.toNat % f.align = 0 → 2 ^ 63 ≤ f.base.toNat → f.base.toNat / 2 ^ 43 = f.va.toNat / 2 ^ 43 →
    (∀ q, f.pop = some q → oldest s.fctx.oq[q] s.cycle ≠ none) → (∀ q, f.fill = some q → s.fctx.iq[q].length < 4) →
    let (cls, path, prio, notify, det, nw, rmask, lwcore, lwoff) := descFields f.desc.toNat
    (8 ≤ placesTaken s s.fcore 6 → Full (exec i s) s 6 nw) ∧
    (placesTaken s s.fcore 6 < 8 →
    ∃ (t' : State) (op : Op) (ds : List FabDest),
      IssuedIn (exec i s) f.tok f.fill.isSome s t'
        (let x := { s.counted.fctx with
            oq := Vector.ofFn fun q => if f.pop = some q then s.fctx.oq[q].drop 1 else s.fctx.oq[q]
            iq := Vector.ofFn fun q =>
              if f.fill = some q then s.fctx.iq[q] ++ [newPlace (s.fctx.serial + 1)] else s.fctx.iq[q] }
        match f.reg with
        | some a => x.setStrm s.fstr { x.strm s.fstr with busy := a.val :: (x.strm s.fstr).busy }
        | none => x) ∧
      t'.ops = s.ops ++ [op] ∧ t'.nextOid = s.nextOid + 1 ∧ op.oid = s.nextOid ∧ op.status = .queued ∧ op.chan = 6 ∧
      op.cls = cls ∧ op.prio.val = prio ∧ (op.owner = none ↔ det = true ∧ f.fill = none) ∧ op.total = f.total ∧
      op.cursor = 0 ∧ op.accepted = s.cycle ∧
      op.after = maskAccs s.fcore (s.entered f.tok 0 0).fctx s.fstr (BitVec.ofNat 16 rmask) ∧
      op.kind = .fabric ⟨f.va.toNat % 2 ^ 43, s.myHash, f.act, if notify then some ⟨lwcore, lwoff⟩ else none, f.count, 0⟩ ds
        (if path = 0 then .direct else if path = 1 then .valley else .any) false
        (f.fill.map fun q => (q, s.fctx.serial + 1)) f.reg 0 ∧
      ds.map (·.rank) = f.ranks ∧
      (∀ d ∈ ds, d.party = rankParty s (Fin.ofNat 4 op.rights.part) d.rank ∧ d.done = false) ∧
      t'.mem = s.mem ∧ t'.tasks = s.tasks ∧ t'.graphs = s.graphs ∧ (∀ c, c ≠ s.fcore → t'.core c = s.core c))

/-- The checks of the fabric instructions, in order: PRIVILEGE in a graph without FAB, ILLEGAL_OP when the kernel does not
name the channel; then RECORD, ALIGN, SPACE, and an empty oq or a full iq of an unstamped one (R68, R136, R151, R244,
R245). -/
def Sys2Proof.Claims.FabricChecks : Prop :=
  ∀ (i : Instr) (s : State) (f : FabAsk), fabricForm i s.fstr s.fctx = some f →
    let flt := fun (s : State) (code : Nat) (x : W64) => exec i s = .next (takeFault s { code := code, addr := x })
    (blocked s.fctx s.fstr = false → loopSplits s = false →
      (s.fctx.fab = false → flt s 0x16 0) ∧
      (s.fctx.fab = true → s.fctx.chuse.getLsbD 6 = false → flt s 0x01 0)) ∧
    (Ready f.tok f.regs s → s.fstrm.stamp = none → s.fctx.fab = true → s.fctx.chuse.getLsbD 6 = true →
      (¬f.good → flt s 0x1A 0) ∧
      (f.good → f.va.toNat % f.align ≠ 0 → flt s 0x07 f.va) ∧
      (f.good → f.va.toNat % f.align = 0 →
        (f.base.toNat < 2 ^ 63 ∨ f.base.toNat / 2 ^ 43 ≠ f.va.toNat / 2 ^ 43 → flt s 0x0A f.va) ∧
        (2 ^ 63 ≤ f.base.toNat → f.base.toNat / 2 ^ 43 = f.va.toNat / 2 ^ 43 →
          (∀ q, f.pop = some q → oldest s.fctx.oq[q] s.cycle = none → flt s 0x04 0) ∧
          (∀ q, f.fill = some q → 4 ≤ s.fctx.iq[q].length → flt s 0x05 0))))

/-- The op of a number in a state has a property. -/
def OpIs (t : State) (o : Nat) (p : Op → Prop) : Prop := ∃ q, t.findOp o = some q ∧ p q

/-- RRED of a member of its set, with a good descriptor and gang address and a place of its iq, is accepted: a place of the
iq is reserved, and an op of channel 7 numbered among those of its HASH, reduction point and address is QUEUED, with nothing of its
256 bytes read yet. A full channel is as Full says (R74, R145, R161, R246, R306, R316). -/
def Sys2Proof.Claims.RredExecutes : Prop :=
  ∀ (t : Tok) (q : QNum) (a : AReg) (f : RedFunc) (s : State),
    let base := s.fctx.ar s.fstr a
    let w := (s.fctx.ar s.fstr (a + 1)).toNat
    let point := base.toNat / 2 ^ 43 % 2 ^ 20
    let va := base.toNat % 2 ^ 43
    let count := w / 2 ^ 43 % 2 ^ 20
    let own := (s.parts[s.partOfCore s.fcore]).ownrank
    Ready t [a.val, a.val + 1] s → s.fctx.fab = true → s.fctx.chuse.getLsbD 7 = true →
    w / 2 ^ 4 % 4 ≠ 3 → w / 2 ^ 11 % 2 ^ 5 = 0 → w / 2 ^ 42 % 2 = 0 → w / 2 ^ 32 % 2 ^ 10 < 640 → w / 2 ^ 63 = 0 →
    w / 2 ^ 8 % 2 = 0 → 1 ≤ count → count ≤ 524288 → point ≤ own → own < point + count → base.toNat % 16 = 0 →
    2 ^ 63 ≤ base.toNat → s.fctx.iq[q].length < 4 →
    (8 ≤ placesTaken s s.fcore 7 → Full (exec (.rred t q a f) s) s 7 (w / 2 ^ 10 % 2 = 1)) ∧
    (placesTaken s s.fcore 7 < 8 →
    ∃ (t' : State) (op : Op) (m : RredMsg),
      exec (.rred t q a f) s = .next t' ∧ t'.ops = s.ops ++ [op] ∧ op.oid = s.nextOid ∧ op.chan = 7 ∧
      op.kind = .rred m q (s.fctx.serial + 1) []
        (if w / 2 ^ 4 % 4 = 0 then .direct else if w / 2 ^ 4 % 4 = 1 then .valley else .any) 0 ∧
      m.hash = s.myHash ∧ m.point = point ∧ m.va = va ∧ m.rank = own ∧ m.func = f ∧ m.data = [] ∧
      m.count = count ∧ m.index = countOf s.fabric.rredN (op.rights.part, s.myHash, point, va) ∧
      op.status = .queued ∧ op.begun = false ∧ op.fcode = 0 ∧ t'.mem = s.mem ∧
      op.after = maskAccs s.fcore (s.entered t 0 0).fctx s.fstr (BitVec.ofNat 16 (w / 2 ^ 16 % 2 ^ 16)) ∧
      ((t'.ctx s.fcore).iq[q]).length = s.fctx.iq[q].length + 1 ∧
      ((t'.ctx s.fcore).strm s.fstr).stamp = none ∧ (t'.ctx s.fcore).aL = s.fctx.aL ∧ (t'.ctx s.fcore).aS = s.fctx.aS)

/-- The kinds of COLL: the kind, token bits, destination and source registers, record register, priority, DET and NW. -/
def collForm : Instr → Option (CollKind × Tok × Option (AReg × AReg) × AReg × Fin 4 × Bool × Bool)
  | .collAllgather t d a b p det nw => some (.allgather, t, some (d, b), a, p, det, nw)
  | .collRedscat t d a b p det nw => some (.redscat, t, some (d, b), a, p, det, nw)
  | .collAllred t d a b p det nw => some (.allred, t, some (d, b), a, p, det, nw)
  | .collBcast t d a b p det nw => some (.bcast, t, some (d, b), a, p, det, nw)
  | .collBarrier t a p det nw => some (.barrier, t, none, a, p, det, nw)
  | _ => none

/-- COLL of a member of the set that its record names, once the accesses that its reading of the record follows are performed, with an
aligned source and destination in device memory, the own scratchpad or the Loft, and a free place of channel 7, is accepted as an op with
the set, the function and the bytes of the record, numbered among the COLLs of its HASH and set: QUEUED, with nothing of its source read
yet; its registers are read and none is written. A full channel is as Full says (R74, R161, R247, R248, R312, R316). -/
def Sys2Proof.Claims.CollsExecute : Prop :=
  ∀ (i : Instr) (k : CollKind) (t : Tok) (ab : Option (AReg × AReg)) (a : AReg) (p : Fin 4) (det nw : Bool) (s : State)
    (bs : List Byte), collForm i = some (k, t, ab, a, p, det, nw) →
    let e := s.entered t 0 0
    let own := (s.parts[s.partOfCore s.fcore]).ownrank
    let w := ofBytes bs
    let dst : W64 := match ab with
      | some (d, _) => s.fctx.ar s.fstr d
      | none => 0
    let src : W64 := match ab with
      | some (_, b) => s.fctx.ar s.fstr b
      | none => 0
    let space := fun x : W64 => (tagOf x = 0 ∨ tagOf x = 1 ∨ tagOf x = 3) ∧ placeOf x.toNat ≠ none
    Ready t (a.val :: (match ab with
      | some (d, b) => [d.val, b.val]
      | none => [])) s → s.fctx.fab = true → s.fctx.chuse.getLsbD 7 = true →
    (mustFollowAt e (s.fctx.ar s.fstr a) 32 = true → exec i s = .next s.counted) ∧
    (∀ flt, mustFollowAt e (s.fctx.ar s.fstr a) 32 = false → recordBytes e (s.fctx.ar s.fstr a) 32 32 = .error flt →
      exec i s = .next (takeFault s.counted flt)) ∧
    (mustFollowAt e (s.fctx.ar s.fstr a) 32 = false → recordBytes e (s.fctx.ar s.fstr a) 32 32 = .ok bs →
    (collBad k w own = true → exec i s = .next (takeFault s.counted { code := 0x1A, addr := s.fctx.ar s.fstr a })) ∧
    (collBad k w own = false → dst.toNat % 16 = 0 → src.toNat % 16 = 0 → (k ≠ .barrier → space dst ∧ space src) →
    (8 ≤ placesTaken s s.fcore 7 → Full (exec i s) s 7 nw) ∧
    (placesTaken s s.fcore 7 < 8 →
    ∃ (t' : State) (op : Op) (c : CollMsg) (lw : W64),
      exec i s = .next t' ∧ t'.ops = s.ops ++ [op] ∧ op.oid = s.nextOid ∧ op.chan = 7 ∧ op.prio = p ∧
      op.kind = .coll c src dst lw false false ∧ c.kind = k ∧ c.first = w % 2 ^ 20 ∧ c.count = w / 2 ^ 20 % 2 ^ 20 ∧
      c.stride = w / 2 ^ 40 % 2 ^ 20 ∧ c.func = w / 2 ^ 60 % 16 ∧ c.bytes = w / 2 ^ 64 % 2 ^ 32 ∧
      c.root = w / 2 ^ 96 % 2 ^ 20 ∧ lw.toNat = w / 2 ^ 128 % 2 ^ 64 ∧ c.fcode = 0 ∧
      c.index = countOf s.fabric.collN (op.rights.part, s.myHash, c.first, c.count, c.stride) ∧
      c.hash = s.myHash ∧ op.recAt = s.fctx.ar s.fstr a ∧ op.status = .queued ∧ op.begun = false ∧
      op.after = maskAccs s.fcore e.fctx s.fstr (-1) ∧ t'.mem = s.mem ∧
      ((t'.ctx s.fcore).strm s.fstr).stamp = none ∧ (t'.ctx s.fcore).aL = s.fctx.aL ∧ (t'.ctx s.fcore).aS = s.fctx.aS)))

/-- What a member of a COLL sends to another member: in an allgather and an allreduce its whole source, in a reduce-scatter that member's
block of it, in a broadcast the source when it is the root, and in a barrier no byte; in one or more messages of the same COLL, of at
most 131,072 bytes each (R248, R295). -/
def Sys2Proof.Claims.CollShares : Prop :=
  ∀ (c : CollMsg) (src : List Byte) (m : Nat),
    let l := collMsgs c src m
    (∀ e ∈ l, e = { c with off := e.off, data := e.data } ∧ e.data.length ≤ 131072) ∧ l ≠ [] ∧
    (src.length = (match c.kind with
      | .allgather | .allred => c.bytes
      | .redscat => c.count * c.bytes
      | .bcast => if c.member = c.root then c.bytes else 0
      | .barrier => 0) →
      (l.map (·.data)).flatten = match c.kind with
        | .redscat => (src.drop (m * c.bytes)).take c.bytes
        | _ => src)

/-- OP_COMPLETE of an accepted RRED or COLL that has not begun: when it is the next of its die's engine it begins, at a moment that is a
free value. It reads its source; a RRED sends its 256 bytes to the reduction point, and a COLL to each other member that member's
share. A read that faults, a rank that the table does not name, and for a COLL a message that is there already and does not agree with it,
end it FAILED, with the code of its first fault (R168, R246, R248, R250, R306, R307, R316). -/
def Sys2Proof.Claims.CollectivesBegin : Prop :=
  ∀ (o : Nat) (s : State) (op : Op), s.findOp o = some op → op.status = .queued → op.cancel = false → op.pausing = false →
    op.begun = false → op.reply = none →
    let mine := (collPick s (op.rights.pcore / 160)).map (·.oid) = some o
    let b := { s with free := s.free + 1 }
    let core := coreOfNat op.rights.pcore
    let part := op.rights.part
    let out := exec (.opComplete o) s
    let fails := fun code : Nat => ∃ t, out = .next t ∧ OpIs t o fun q => q.status = .failed ∧
      q.fcode = if op.fcode = 0 then code else op.fcode
    ((∃ m q place got path sent, op.kind = .rred m q place got path sent) ∨
        (∃ c src dst land w, op.kind = .coll c src dst land false w) → ¬mine → out = .next s) ∧
    (∀ m q place path sent, op.kind = .rred m q place [] path sent → mine →
      let rd := readVa b core (op.accessRights b) m.va 256
      out = .next b ∨
      ((∀ e va, rd.2 = .error (e, va) → fails e) ∧
        ∀ bs, rd.2 = .ok bs →
          (rankParty b (Fin.ofNat 4 part) m.point = none → fails 0x11) ∧
          ∀ dst, rankParty b (Fin.ofNat 4 part) m.point = some dst → ∃ t, out = .next t ∧ t.mem = rd.1.mem ∧
            (OpIs t o fun e => e.status = .running ∧ e.begun = true ∧ e.kind = .rred { m with data := bs } q place [] path 0) ∧
            ∀ k < 2, ∃ e ∈ t.fabric.out, e.oid = o ∧ e.batten.dst = dst ∧ e.batten.bidx = k ∧
              e.batten.body = .rred { m with data := bs })) ∧
    (∀ c src dst land, op.kind = .coll c src dst land false false → mine →
      let n := match c.kind with
        | .allgather | .allred => c.bytes
        | .redscat => c.count * c.bytes
        | .bcast => if c.member = c.root then c.bytes else 0
        | .barrier => 0
      let rd := if n = 0 then (b, Except.ok []) else readVa b core (op.accessRights b) src.toNat n
      let named := ∀ m < c.count, m ≠ c.member → memberParty b part c m ≠ none
      out = .next b ∨
      ((∀ e va, rd.2 = .error (e, va) → fails e) ∧
        ∀ bs, rd.2 = .ok bs →
          (¬named → fails 0x11) ∧
          (named → ∃ t, out = .next t ∧
            (∀ m < c.count, m ≠ c.member → ∀ p, memberParty b part c m = some p → ∀ msg ∈ collMsgs c bs m,
              ∃ e ∈ t.fabric.out, e.oid = o ∧ e.batten.dst = p ∧ e.batten.body = .coll msg) ∧
            (c.fcode = 0 → collBroken b part c = none → t.mem = rd.1.mem ∧
              OpIs t o fun e => e.status = .running ∧ e.begun = true ∧ e.kind = .coll c src dst land true false) ∧
            (∀ code, c.fcode = 0 → collBroken b part c = some code → OpIs t o fun e => e.status = .failed ∧
              e.fcode = if op.fcode = 0 then code else op.fcode))))

/-- OP_COMPLETE of a COLL that has begun: while the data of a member that it needs is not there nothing changes. Once all is there it
writes its destination: an allgather every member's bytes and a broadcast the root's, a reduce-scatter and an allreduce the fold of
every member's bytes, element by element, in ascending member index, with the flags of the fold; a barrier writes nothing. Then its
landing word, where it has one, is notified of each message, and it is DONE with the last notification. A write that is held keeps the
bytes, and one that faults ends it FAILED (R67, R173, R227, R248, R317). -/
def Sys2Proof.Claims.CollsComplete : Prop :=
  ∀ (o : Nat) (s : State) (op : Op) (c : CollMsg) (src dst land : W64) (d : Nat → List Byte),
    s.findOp o = some op → op.status = .running → op.cancel = false → op.pausing = false → isSaved s op = false →
    let out := exec (.opComplete o) s
    let needs := fun q : Nat => if c.kind = .bcast then q = c.root else q < c.count
    let from_ := collFrom s op.rights.part c
    let all := (List.range c.count).map d
    let fold := redFold c.func (all.map wordsOf)
    let bs := match c.kind with
      | .bcast => d c.root
      | .redscat | .allred => (fold.1.map fun w => toBytes 4 w.toNat).flatten
      | _ => all.flatten
    let fl : Flags := match c.kind with
      | .redscat | .allred => fold.2
      | _ => 0
    let notes := if land = 0 then [] else (collNotes c).map fun n => (⟨o, land, n⟩ : Notify)
    let wrote := fun t : State => t.notifies = s.notifies ++ notes ∧
      OpIs t o fun q => q.status = .running ∧ q.kind = .coll c src dst land true true ∧ q.held = none
    (op.kind = .coll c src dst land true true →
      ((∃ n ∈ s.notifies, n.oid = o) → out = .next s) ∧
      ((∀ n ∈ s.notifies, n.oid ≠ o) → ∃ t, out = .next t ∧ t.mem = s.mem ∧ OpIs t o fun q => q.status = .done)) ∧
    (op.kind = .coll c src dst land true false → op.held = none → (s.issuer op).bind (·.image) = none →
      ((∃ q, needs q ∧ from_ q = none) → out = .next s) ∧
      ((∀ q, needs q → from_ q = some (d q)) →
        let b := opFlags s op fl
        (bs = [] → ∃ t, out = .next t ∧ wrote t ∧ t.mem = s.mem) ∧
        (bs ≠ [] →
          let wr := writeVa b (coreOfNat op.rights.pcore) (op.accessRights b) dst.toNat bs
          (wr.2 = .done → ∃ t, out = .next t ∧ wrote t ∧ t.mem = wr.1.mem) ∧
          (wr.2 = .held → ∃ t, out = .next t ∧ t.mem = wr.1.mem ∧
            OpIs t o fun q => q.held = some ⟨s.cycle, dst, bs, 0⟩) ∧
          (∀ e va, wr.2 = .fault e va → ∃ t, out = .next t ∧ OpIs t o fun q => q.status = .failed ∧
            q.fcode = if op.fcode = 0 then e else op.fcode))))

/-- A message of a COLL that this partition has begun and that has not ended: one whose member has met a fault fails the COLL with that
fault, one that differs in kind, FUNC, BYTES or ROOT with RECORD, at the address of its record; any other is kept, with the batten
that came, and changes nothing else (R248, R250). -/
def Sys2Proof.Claims.CollMismatches : Prop :=
  ∀ (part : Nat) (m : CollMsg) (bidx : Nat) (s : State) (op : Op) (c : CollMsg) (src dst land : W64) (w : Bool),
    s.findOp op.oid = some op → op ∈ s.ops → op.status.isLive = true → op.rights.part = part →
    op.kind = .coll c src dst land true w → sameColl c m = true →
    (∀ q ∈ s.ops, q ≠ op → ∀ e x y z v, q.kind = .coll e x y z true v → sameColl e m = true → q.rights.part = part →
      q.status.isLive = false) →
    let t := arriveColl part m bidx s
    let differs := m.kind ≠ c.kind ∨ m.func ≠ c.func ∨ m.bytes ≠ c.bytes ∨ m.root ≠ c.root
    (m.fcode ≠ 0 ∨ differs → OpIs t op.oid fun q => q.status = .failed ∧
      (op.fcode = 0 → q.fcode = (if m.fcode ≠ 0 then m.fcode else 0x1A) ∧ q.faddr = op.recAt)) ∧
    (m.fcode = 0 → ¬differs → t = { s with fabric := { s.fabric with colls := t.fabric.colls } } ∧
      ∃ e ∈ t.fabric.colls, e.1 = part ∧ sameColl e.2.1 m = true ∧ e.2.1.member = m.member ∧ e.2.1.off = m.off ∧ bidx ∈ e.2.2)

/-! ## The units of ops -/

/-- An engine takes, of the ops of its core that may begin a unit, one of the highest priority, of those the one accepted
first, of those the one of the lowest channel (R168). An op whose task is being cut, that is held, that is to be cancelled or
paused, that waits behind an invalidation's marker, whose acceptance has released an access that is still to be performed, or whose
held range is saved, may not (R170, R173, R223, R227, R314, R325). -/
def Sys2Proof.Claims.EngineOrder : Prop :=
  ∀ (s : State) (pcore : Nat) (p : Op → Bool) (o : Op), (∀ q ∈ s.ops, q.accepted < 2 ^ 64) →
    enginePick s pcore p = some o →
    o ∈ s.ops ∧ p o = true ∧ o.rights.pcore = pcore ∧ (o.status = .queued ∨ o.status = .running) ∧ o.held = none ∧
    o.cancel = false ∧ o.pausing = false ∧ behindMarker s o = false ∧ ownerRuns s o = true ∧ isSaved s o = false ∧
    (∀ e ∈ o.after, ∀ a ∈ ((s.ctx e.1).strm e.2.1).accs, a.id = e.2.2 → a.units = [] ∧ a.heldAt = none) ∧
    ∀ q ∈ s.ops, q.rights.pcore = pcore → canUnit s q = true → p q = true →
      q.prio < o.prio ∨ (q.prio = o.prio ∧ (o.accepted < q.accepted ∨ (o.accepted = q.accepted ∧ o.chan ≤ q.chan)))

/-- The burst of a copy at a cursor: each base plus the sum over the six loops of the loop's index times its signed stride,
plus the offset in the element; at most 256 bytes and never past the element (R210, R238). -/
def Sys2Proof.Claims.BurstAddresses : Prop :=
  ∀ (src dst : W64) (n : NestReg) (cursor : Nat),
    let e := n.ebytes.toNat
    let cnt := fun k : Nat => (n.counts.toList.getD k 1).toNat
    let below := fun k : Nat => ((List.range k).map cnt).prod
    let ix := fun k : Nat => cursor / e / below k % cnt k
    let sum := fun str : Vector W32 6 => ((List.range 6).map fun k => (str.toList.getD k 0).toInt * (ix k : Int)).sum
    (∀ c ∈ n.counts.toList, c ≠ 0) → 0 < e →
    burstAt src dst n cursor =
      (src + BitVec.ofInt 64 (sum n.sstr) + BitVec.ofNat 64 (cursor % e),
        dst + BitVec.ofInt 64 (sum n.dstr) + BitVec.ofNat 64 (cursor % e), Min.min 256 (e - cursor % e))

/-- An op that meets a fault at an access keeps the first fault's code and address; detached it is FAILED, attached it is
FAULTED (R167, R172). One that is to be cancelled keeps its state, and goes on to be CANCELLED: that is the model's choice
(notes/assumptions/113.md). -/
def Faulted (t : State) (op : Op) (code va : Nat) : Prop :=
  OpIs t op.oid fun q =>
    (q.status = if op.cancel = true then op.status else if op.owner = none then .failed else .faulted) ∧
    (op.cancel = true → q.cancel = true) ∧
    q.fcode = (if op.fcode = 0 then code else op.fcode) ∧
    q.faddr = (if op.fcode = 0 then BitVec.ofNat 64 va else op.faddr) ∧ q.cursor = op.cursor

/-- The turn of an op at its engine, whose step answers o. A unit that has begun is finished when nothing keeps it; else, when it
is the op's turn, its next unit begins, and whether it is finished in the same step is a free value; else nothing changes
(R168, R170). -/
def UnitDue (s : State) (op : Op) (mine : Prop) (o : Out) (begun : State → State) (done : State → Prop) : Prop :=
  (op.flying = true → canFinish s op = true → done s) ∧
  (op.flying = true → canFinish s op = false → o = .next s) ∧
  (op.flying = false → mine → o = .next (begun { s with free := s.free + 1 }) ∨ done { s with free := s.free + 1 }) ∧
  (op.flying = false → ¬mine → o = .next s)

/-- It is the op's turn at the copy engine of its core: it is the first of those whose next burst may begin (R110, R168). -/
def CopyTurn (s : State) (op : Op) : Prop :=
  (enginePick s op.rights.pcore fun q => copyTurn s q && match q.kind with
    | .copy src dst n _ _ _ => q.burstLeft src dst n
    | _ => false).map (·.oid) = some op.oid

/-- COPY_BURST of a plain copy op whose turn it is, or whose burst has begun: it reads the burst and writes it, the cursor passes its bytes, and a
notification of them is on its way when the copy notifies; a read or a write that faults leaves the cursor, and a write that
is held keeps the burst's bytes (R227, R238, R317). -/
def Sys2Proof.Claims.CopyBursts : Prop :=
  ∀ (o : Nat) (s : State) (op : Op) (src dst : W64) (n : NestReg) (notify : Bool),
    s.findOp o = some op → op.kind = .copy src dst n notify none none →
    let c := coreOfNat op.rights.pcore
    let u := burstAt src dst n op.cursor
    UnitDue s op (CopyTurn s op) (exec (.copyBurst o) s) (fun b => unitBegins op (beginCopy b op)) fun b0 =>
    let b := beginCopy b0 op
    let rd := readVa b c (op.accessRights b) u.1.toNat u.2.2
    (∀ e va, rd.2 = .error (e, va) → ∃ t, exec (.copyBurst o) s = .next t ∧ Faulted t op e va ∧ t.mem = rd.1.mem) ∧
    ∀ bs, rd.2 = .ok bs →
      let wr := writeVa rd.1 c (op.accessRights rd.1) u.2.1.toNat bs
      (wr.2 = .done → ∃ t, exec (.copyBurst o) s = .next t ∧ t.mem = wr.1.mem ∧
        (OpIs t o fun q => q.cursor = op.cursor + bs.length ∧ q.kind = op.kind ∧ q.flying = false ∧
          (op.status = .queued ∨ op.status = .running → q.status = .running)) ∧
        t.notifies = s.notifies ++ (if notify then [⟨op.oid, n.lwaddr, bs.length⟩] else [])) ∧
      (wr.2 = .held → ∃ t, exec (.copyBurst o) s = .next t ∧ t.mem = wr.1.mem ∧ t.notifies = s.notifies ∧
        (OpIs t o fun q => q.cursor = op.cursor ∧ q.held = some ⟨s.cycle, u.2.1, bs, 0⟩)) ∧
      (∀ e va, wr.2 = .fault e va → ∃ t, exec (.copyBurst o) s = .next t ∧ Faulted t op e va)

/-- COPY_BURST of a CPYC: while its stage is short it reads a burst into it and writes nothing; then it reads its version
word and commits when the word is the expected value, and is CANCELLED with FCODE 0, without having written a byte, when it is not; only a
committed one writes its stage (R239). -/
def Sys2Proof.Claims.ConditionalCopies : Prop :=
  ∀ (o : Nat) (s : State) (op : Op) (src dst : W64) (n : NestReg) (notify : Bool) (v : W64) (st : List Byte),
    s.findOp o = some op → op.kind = .copy src dst n notify (some v) (some st) →
    let c := coreOfNat op.rights.pcore
    UnitDue s op (CopyTurn s op) (exec (.copyBurst o) s) (fun b => unitBegins op (beginCopy b op)) fun b0 =>
    let b := beginCopy b0 op
    let r := op.accessRights b
    (st.length < op.total →
      let rd := readVa b c r (burstAt src dst n st.length).1.toNat (burstAt src dst n st.length).2.2
      ∀ bs, rd.2 = .ok bs → ∃ t, exec (.copyBurst o) s = .next t ∧ t.mem = rd.1.mem ∧
        OpIs t o fun q => q.cursor = op.cursor ∧ q.kind = .copy src dst n notify (some v) (some (st ++ bs))) ∧
    (op.total ≤ st.length →
      let rd := readVa b c r n.vwaddr.toNat 8
      ∀ bs, rd.2 = .ok bs →
        (BitVec.ofNat 64 (ofBytes bs) = v → ∃ t, exec (.copyBurst o) s = .next t ∧ t.mem = rd.1.mem ∧
          OpIs t o fun q => q.status = op.status ∧ q.kind = .copy src dst n notify none (some st)) ∧
        (BitVec.ofNat 64 (ofBytes bs) ≠ v → ∃ t, exec (.copyBurst o) s = .next t ∧ t.mem = rd.1.mem ∧
          t.notifies = s.notifies ∧ OpIs t o fun q => q.status = .cancelled ∧ q.cursor = op.cursor ∧ q.fcode = 0 ∧ q.faddr = 0))

/-- A copy op waits for its turn in the order that its core recorded, until every op before it there has begun; when it has
waited 4,096 cycles COPY_ORDER_WAIT_EXPIRED gives the order up for its task: for its other ops, COPYX says so, in what has been
measured of the task too when that is taken already, and for this one and its accepted ones, which no longer wait (R106, R110). -/
def Sys2Proof.Claims.CopyOrderExpires : Prop :=
  ∀ (o : Nat) (s : State) (op : Op) (e : CopyOrd), s.findOp o = some op → op.copyAt = some e → op.kind.isCopy = true →
    (copyTurn s op = false ↔ op.begun = false ∧ op.copyFree = false ∧ ∃ g l, recordedOrder s op e.lcore = some (g, l) ∧
      e ∈ l ∧ ∃ d ∈ l.takeWhile (· != e), d ∉ g.copied) ∧
    (op.status = .queued → canUnit s op = true → copyTurn s op = false →
    (op.accepted + 4096 ≤ s.cycle → ∃ t, exec (.copyOrderWaitExpired o) s = .next t ∧ t.mem = s.mem ∧ t.cores = s.cores ∧
      (OpIs t o fun q => q = { op with copyFree := true }) ∧
      (∀ k, s.issuer op = some k → ∀ k', t.findTask k.slot = some k' → k'.copyX = true) ∧
      (∀ g, t.findGraph op.graph = some g → ∀ m ∈ g.meas, m.1 = e.lcore → m.2.1 = e.tidx → m.2.2.copyX = true) ∧
      t.ops = s.ops.map fun q =>
        if q.graph = op.graph ∧ ∃ d, q.copyAt = some d ∧ d.lcore = e.lcore ∧ d.tidx = e.tidx then { q with copyFree := true }
        else q) ∧
    (s.cycle < op.accepted + 4096 → exec (.copyOrderWaitExpired o) s = .next s))

/-- The pairs of a GRED row are added in ascending index, those of one index in the order of the record, without the index 0xFFFFFFFF;
no other pair is left out (R242). -/
def Sys2Proof.Claims.GredPairs : Prop :=
  ∀ bs : List Byte, (gredPairs bs).Pairwise (fun p q => p.1 ≤ q.1) ∧ (∀ p ∈ gredPairs bs, p.1 ≠ 0xFFFFFFFF) ∧
    ∀ u, u ≠ 0xFFFFFFFF → (gredPairs bs).filter (·.1 == u) =
      ((List.range (bs.length / 8)).map fun k =>
        (ofBytes ((bs.drop (8 * k)).take 4), (BitVec.ofNat 32 (ofBytes ((bs.drop (8 * k + 4)).take 4)) : W32))).filter (·.1 == u)

/-- An element of a GRED: its pairs are read, a pair past the table is SPACE, the rows of the others are read in the order of the pairs,
and each column is the sum, from +0, of weight times value, exact in each step and rounded once to FP32, to nearest, in that order;
its flags are those of every step of every column (R52, R242). -/
def Sys2Proof.Claims.GredSums : Prop :=
  ∀ (o : Op) (dst : W64) (ht hi : ShapeReg) (e : Nat) (s s1 : State) (bs : List Byte),
    opRead o s (hi.row e) (4 * hi.cols.toNat) = (s1, .ok bs) →
    let l := gredPairs bs
    let fmt := ht.fmt.toNat
    let cols := ht.cols.toNat
    (∀ p, l.find? (fun p => ht.rows.toNat ≤ p.1) = some p →
      element o .gred dst ht hi e s = (s1, .error (0x0A, ht.row p.1))) ∧
    ((∀ p ∈ l, p.1 < ht.rows.toNat) →
      (∀ s2 flt, readRows o ht s1 (l.map (·.1)) = (s2, .error flt) → element o .gred dst ht hi e s = (s2, .error flt)) ∧
      ∀ s2 rows, readRows o ht s1 (l.map (·.1)) = (s2, .ok rows) →
        let terms := (l.map (·.2)).zip rows
        let step := fun (c : Nat) (acc : W32) (p : W32 × List Byte) =>
          let prod := mulVal (f32 p.1) (tableValue fmt p.2 c)
          let sum := sumVals .rne [f32 acc, prod.1]
          ((roundF32 .rne false sum.1).1, (roundF32 .rne false sum.1).2 ||| invalidFlags (prod.2 || sum.2))
        let accAt := fun (c k : Nat) => (terms.take k).foldl (fun acc p => (step c acc p).1) (0 : W32)
        ∃ out fl, element o .gred dst ht hi e s =
            (s2, .ok (dst + BitVec.ofNat 64 (e * ((4 * cols + 15) / 16 * 16)), out, fl)) ∧
          out.length = 4 * cols ∧
          (∀ c < cols, (out.drop (4 * c)).take 4 = toBytes 4 (accAt c terms.length).toNat) ∧
          ∀ n, fl.getLsbD n = true ↔ ∃ c < cols, ∃ k < terms.length, ∃ p, terms[k]? = some p ∧
            (step c (accAt c k) p).2.getLsbD n = true)

/-- An element of a GATH or a SCAT at an index x that its table holds: the row of x of the table and the element's own place,
16-aligned rows apart, in the direction of the op; an index past the table is SPACE (R241). -/
def Sys2Proof.Claims.GatherElements : Prop :=
  ∀ (o : Op) (k : GatherKind) (dst : W64) (ht hi : ShapeReg) (e : Nat) (s s1 : State) (ib : List Byte),
    k ≠ .gred → 0 < hi.cols.toNat →
    opRead o s (hi.row (e / hi.cols.toNat) + BitVec.ofNat 64 (4 * (e % hi.cols.toNat))) 4 = (s1, .ok ib) →
    let x := ofBytes ib
    let mine := dst + BitVec.ofNat 64 (e * ((ht.rowBytes + 15) / 16 * 16))
    (ht.rows.toNat ≤ x → (element o k dst ht hi e s).2 = .error (0x0A, ht.row x)) ∧
    (x < ht.rows.toNat →
      ∀ s2 bs, opRead o s1 (if k = .scat then mine else ht.row x) ht.rowBytes = (s2, .ok bs) →
        element o k dst ht hi e s = (s2, .ok (if k = .scat then ht.row x else mine, bs, 0)))

/-- GATHER_ELEMENT of the op whose turn it is, or that has begun elements that are not done, completes one: the first for SCAT
and for gq, and else any that has begun, or, when it is the op's turn, any that is not done, with which those before it
begin. An element that is read and written is done: without a bitmap no other byte is written, and the cursor passes the leading
elements that are done. A faulting element is passed over, and the op keeps its first fault and goes on (R172, R240). -/
def Sys2Proof.Claims.GatherElementPerforms : Prop :=
  ∀ (o : Nat) (s : State) (op : Op) (k : GatherKind) (dst : W64) (ht hi : ShapeReg) (togq : Bool)
    (done : List (Nat × Bool)),
    s.findOp o = some op → op.kind = .gather k dst ht hi togq done [] →
    let mine := (enginePick s op.rights.pcore (fun q => q.kind.isGather && q.elems < q.total)).map (·.oid) = some op.oid ∧
      gatherWaits s op.rights.pcore = false
    let upto := if mine then op.total else op.elems
    (¬mine → elemFinishes s op = false → exec (.gatherElement o) s = .next s) ∧
    (mine ∨ elemFinishes s op = true → op.cursor < upto → (∃ e, op.cursor ≤ e ∧ e < upto ∧ ∀ p ∈ done, p.1 ≠ e) →
    (op.status = .queued ∨ op.status = .running) →
    ∃ (t b b0 : State) (e : Nat), exec (.gatherElement o) s = .next t ∧ op.cursor ≤ e ∧ e < upto ∧
      b = b0.updOp op.oid (fun q => { q with elems := max q.elems (e + 1) }) ∧
      (togq = false → k ≠ .scat → ∀ p ∈ done, p.1 ≠ e) ∧ ((togq = true ∨ k = .scat) → e = op.cursor) ∧
      (b0 = s ∨ b0 = { s with free := s.free + 1 }) ∧
      (togq = false → op.bmap = 0 →
        (∀ s1 va bs, element op k dst ht hi e b = (s1, .ok (va, bs, 0)) →
          (writeVa s1 (coreOfNat op.rights.pcore) (op.accessRights s1) va.toNat bs).2 = .done →
          t.mem = (writeVa s1 (coreOfNat op.rights.pcore) (op.accessRights s1) va.toNat bs).1.mem ∧
          OpIs t o fun q => q.status = .running ∧ op.cursor ≤ q.cursor ∧ (e = op.cursor → op.cursor < q.cursor) ∧
            q.fcode = op.fcode) ∧
        (∀ s1 code va, element op k dst ht hi e b = (s1, .error (code, va)) →
          t.mem = s1.mem ∧ OpIs t o fun q => q.status = .running ∧ op.cursor ≤ q.cursor ∧
            q.fcode = (if op.fcode = 0 then code else op.fcode))) ∧
      (togq = true → ∀ s1 va bs, element op k dst ht hi e b = (s1, .ok (va, bs, 0)) →
        t.mem = s1.mem ∧ OpIs t o fun q => q.cursor = op.cursor ∧ q.kind = .gather k dst ht hi true [(e, false)] (gqEntries bs)))

/-- ENGINE_PUSH of the gather engine pushes the oldest entry of its element to gq while gq holds fewer than sixteen, and
waits when it is full; with the last entry the element is done (R153, R240). -/
def Sys2Proof.Claims.GatherPushes : Prop :=
  ∀ (c : CoreId) (s : State) (op : Op) (k : GatherKind) (dst : W64) (ht hi : ShapeReg) (togq : Bool)
    (done : List (Nat × Bool)) (v : Vec) (rest : List Vec),
    (s.ops.find? fun o => o.rights.pcore == c.val && pushesNow s o) = some op →
    op.kind = .gather k dst ht hi togq done (v :: rest) → s.home op = .core c → s.noPopper op = false →
    ((s.ctx c).gq.length < 16 → ∃ t, exec (.enginePush c true) s = .next t ∧
      (t.ctx c).gq = (s.ctx c).gq ++ [⟨0, v, false, some s.cycle⟩] ∧ (t.ctx c).mq = (s.ctx c).mq ∧
      (t.ctx c).str = (s.ctx c).str ∧
      (rest ≠ [] → s.findOp op.oid = some op → t.mem = s.mem ∧
        OpIs t op.oid fun q => q.cursor = op.cursor ∧ q.kind = .gather k dst ht hi togq done rest)) ∧
    (16 ≤ (s.ctx c).gq.length → exec (.enginePush c true) s = .next s)

/-- It is the op's turn at its matrix engine, its accumulator being free for it (R269, R270). -/
def MatrixTurn (s : State) (op : Op) : Prop := (matrixPick s (engineOf op)).map (·.oid) = some op.oid

/-- K_GROUP of the op whose accumulator is free for it and whose turn it is, or whose group has begun: the group is applied to the accumulator on the
task's core, the cursor counts it, and no other accumulator and no byte of memory but what a walk changes is written; a group
that faults is not applied (R269, R274, R276). -/
def Sys2Proof.Claims.KGroupsApply : Prop :=
  ∀ (o : Nat) (s : State) (op : Op) (c : CoreId) (k : MmaKind) (z : Fin 4) (a b : ShapeReg) (hm : Option ShapeReg) (ent : W64)
    (rm : Rm) (acc ta tb : Bool),
    s.findOp o = some op → op.kind = .mma k z a b hm ent rm acc ta tb none → s.home op = .core c →
    op.owner.isSome = true → op.adopted = false → (op.status = .queued ∨ op.status = .running) →
    UnitDue s op (MatrixTurn s op) (exec (.kGroup o) s) (unitBegins op) fun base =>
    let g := groupStep op k a b hm ent rm acc ta tb ((s.ctx c).z[z]) base
    (∀ z1 f, g.2 = .ok (z1, f) → ∃ t, exec (.kGroup o) s = .next t ∧ (t.ctx c).z = (s.ctx c).z.set z z1 ∧
      t.mem = g.1.mem ∧ (t.ctx c).fstat = (s.ctx c).fstat ||| f.setWidth 64 ∧ (t.ctx c).str = (s.ctx c).str ∧
      (t.ctx c).v = (s.ctx c).v ∧ OpIs t o fun q => q.status = .running ∧ q.cursor = op.cursor + 1 ∧ q.kind = op.kind) ∧
    (∀ code va, g.2 = .error (code, va) → ∃ t, exec (.kGroup o) s = .next t ∧ (t.ctx c).z = (s.ctx c).z ∧
      Faulted t op code va.toNat ∧ t.mem = g.1.mem)

/-- What one K-group of MMA, MMAT or MMAL computes for each element: with floating-point formats the products of the sixteen pairs are
summed exactly, rounded once, and added to the element with one more rounding to nearest; with integer formats the sum of the products
is added to the element modulo 2^32. A first group without ACC starts from −0, or from 0. The op's flags are those of every element:
of the group's rounding, of the addition and of an invalid product or sum, or IOV of an exact result outside 32 bits, and TRC when a trit
byte above 242 was decoded (R47, R52, R62 to R64). -/
def Sys2Proof.Claims.KGroupComputes : Prop :=
  ∀ (o : Op) (k : MmaKind) (a b : ShapeReg) (hm : Option ShapeReg) (e : W64) (rm : Rm) (acc ta tb : Bool) (z : Acc)
    (s s1 s2 : State) (ca cb : List (List Nat)) (ua ub : Bool), k ≠ .mmas →
    groupCodes o a (!ta) o.cursor s = (s1, .ok (ca, ua)) → groupCodes o b tb o.cursor s1 = (s2, .ok (cb, ub)) →
    let bits := match k with
      | .mmal n => n
      | _ => 4
    let start := fun i j : Fin 64 => if acc = true ∨ o.cursor ≠ 0 then z[i][j] else if entC e = 0 then (0x80000000 : W32) else 0
    let row := fun i : Fin 64 => ca.getD i.val []
    let col := fun j : Fin 64 => cb.getD j.val []
    let prods := fun i j => (((row i).map (operandVal (entA e) (entFzi e))).zip ((col j).map (operandVal (entB e) (entFzi e)))).map
      fun p => mulVal p.1 p.2
    let group := fun i j => sumVals rm ((prods i j).map (·.1))
    let rounded := fun i j => roundF32 rm (entFzo e) (group i j).1
    let exact := fun i j => (start i j).toInt +
      ((((row i).map (operandInt (entA e) bits)).zip ((col j).map (operandInt (entB e) bits))).map fun p => p.1 * p.2).sum
    ∃ z1 f, groupStep o k a b hm e rm acc ta tb z s = (s2, .ok (z1, f)) ∧
      (entC e = 0 →
        (∀ i j : Fin 64, z1[i][j] = (addF32 .rne (entFzo e) (start i j) (rounded i j).1).1) ∧
        ∀ n, f.getLsbD n = true ↔ ∃ i j : Fin 64, ((rounded i j).2 ||| (addF32 .rne (entFzo e) (start i j) (rounded i j).1).2 |||
          invalidFlags ((group i j).2 || (prods i j).any (·.2))).getLsbD n = true) ∧
      (entC e ≠ 0 →
        (∀ i j : Fin 64, z1[i][j] = BitVec.ofInt 32 (exact i j)) ∧
        ∀ n, f.getLsbD n = true ↔
          (∃ i j : Fin 64, (exact i j < -2 ^ 31 ∨ 2 ^ 31 ≤ exact i j) ∧ fIOV.getLsbD n = true) ∨
            (ub = true ∧ fTRC.getLsbD n = true))

/-- What one K-group of MMAS computes: a column of B holds, of each four places, the two kept values at the places that its nibble of
metadata names, and nothing at the others, of which each product is +0; the sum is rounded and added as MMA's. A nibble that is not 0
and does not name a lower place before a higher one is RECORD at the metadata row; under a nibble of 0 nothing is kept (R62, R279). -/
def Sys2Proof.Claims.SparseGroupComputes : Prop :=
  ∀ (o : Op) (a b m : ShapeReg) (e : W64) (rm : Rm) (acc ta tb : Bool) (z : Acc) (s s1 s2 : State) (ca : List (List Nat)) (ua : Bool),
    groupCodes o a (!ta) o.cursor s = (s1, .ok (ca, ua)) →
    (∀ cb, sparseCodes o b m o.cursor s1 (List.range 4) = (s2, .ok cb) →
      ∃ z1 f, groupStep o .mmas a b (some m) e rm acc ta tb z s = (s2, .ok (z1, f)) ∧
        ∀ i j : Fin 64,
          let start : W32 := if acc = true ∨ o.cursor ≠ 0 then z[i][j] else if entC e = 0 then 0x80000000 else 0
          let prods := (((ca.getD i.val []).map (operandVal (entA e) (entFzi e))).zip (cb.getD j.val [])).map fun p =>
            match p.2 with
            | some y => (mulVal p.1 (operandVal (entB e) (entFzi e) y)).1
            | none => Val.fin false 0 0
          z1[i][j] = (addF32 .rne (entFzo e) start (roundF32 rm (entFzo e) (sumVals rm prods).1).1).1) ∧
    (∀ code va, sparseCodes o b m o.cursor s1 (List.range 4) = (s2, .error (code, va)) →
      groupStep o .mmas a b (some m) e rm acc ta tb z s = (s2, .error (code, va))) ∧
    ∀ (g i : Nat) (is : List Nat) (t t1 t2 t3 : State) (r : List Nat) (u : Bool),
      tileRow o m t (4 * g + i) 0 32 = (t1, .ok (r, u)) →
      let nib := fun j : Nat => r.getD (j / 2) 0 / 2 ^ (4 * (j % 2)) % 16
      let bad := fun j : Nat => nib j ≠ 0 ∧ nib j / 4 ≤ nib j % 4
      ((∃ j < 64, bad j) →
        sparseCodes o b m g t (i :: is) = (t1, .error (0x1A, m.row (m.row0.toNat + (4 * g + i))))) ∧
      (∀ kept rest, (∀ j < 64, ¬bad j) →
        keptPairs o b (4 * g + i) ((List.range 64).map nib) t1 (List.range 64) = (t2, .ok kept) →
        sparseCodes o b m g t2 is = (t3, .ok rest) →
        ∃ cb, sparseCodes o b m g t (i :: is) = (t3, .ok cb) ∧ ∀ j < 64, cb.getD j [] =
          ((List.range 4).map fun p =>
            if nib j = 0 then none else if p = nib j % 4 then some (kept.getD j (0, 0)).1
            else if p = nib j / 4 then some (kept.getD j (0, 0)).2 else none) ++ rest.getD j [])

/-- The entries of a drain: each row is packed from its 64 elements, each converted with the row's and the column's scale and bias, and
an entry holds as many rows as fit 256 bytes; its flags are those of its elements. A push of it appends it to mq and sets its flags in
FSTAT, while mq has room; a full mq holds it back, and nothing changes (R52, R65, R153, R280, R281). -/
def Sys2Proof.Claims.DrainsPush : Prop :=
  ∀ (c : CoreId) (s : State) (d : Drain) (v : Vec) (f : Flags) (rest : List (Vec × Flags)) (z : Acc),
    (let per := 256 / drainBytes (entO d.ent)
     let n := Min.min d.rows per
     let el := fun (q : Nat) (j : Fin 64) =>
       let r : Fin 64 := Fin.ofNat 64 (d.row + q)
       drainElem d.ent d.rm z[r][j] d.sa[r] d.sb[j] d.bias[j]
     (drainEntry d z).2.2 = n ∧
     (drainEntry d z).1 = vecOfBytes ((List.range n).map fun q =>
       packRow (entO d.ent) ((List.finRange 64).map fun j => (el q j).1)).flatten ∧
     ∀ k, (drainEntry d z).2.1.getLsbD k = true ↔ ∃ q < n, ∃ j : Fin 64, (el q j).2.getLsbD k = true) ∧
    ((s.ctx c).drains = [d] → d.clear = false → d.out = (v, f) :: rest → zFree (s.ctx c) d.z (.drain d.id) = false →
      drainsMove s c = true → (s.ctx c).mathEnd = false →
      ((s.ctx c).mq.length < 16 → ∃ y, exec (.enginePush c false) s = .next (s.setCtx c y) ∧
        y.mq = (s.ctx c).mq ++ [⟨0, v, false, some s.cycle⟩] ∧ y.fstat = (s.ctx c).fstat ||| f.setWidth 64 ∧
        y.z = (s.ctx c).z ∧ y.str = (s.ctx c).str ∧
        y.drains = if rest = [] ∧ d.rows = 0 then [] else [{ d with out := rest }]) ∧
      (16 ≤ (s.ctx c).mq.length → exec (.enginePush c false) s = .next s))

/-- ACCUMULATOR_ROW of the op whose turn it is, or whose row has begun: a ZLD writes the row of its accumulator with what its tile holds, zeros past
the record; a ZST writes the row's elements that lie in the record and changes no accumulator; with the last row, for a ZST
once it is read though its write be held, the accumulator's order goes on (R227, R270, R283). -/
def Sys2Proof.Claims.AccumulatorRows : Prop :=
  ∀ (o : Nat) (s : State) (op : Op) (c : CoreId) (z : Fin 4) (h : ShapeReg),
    s.findOp o = some op → s.home op = .core c → op.cursor < 64 → (op.status = .queued ∨ op.status = .running) →
    let r : Fin 64 := Fin.ofNat 64 op.cursor
    let n := if h.rows.toNat - h.row0.toNat ≤ op.cursor then 0 else Min.min 64 (h.cols.toNat - h.col0.toNat)
    let va := h.base + BitVec.ofNat 64 (h.row0.toNat + op.cursor) * h.stride.signExtend 64 + BitVec.ofNat 64 (4 * h.col0.toNat)
    let left := fun t : State =>
      (t.ctx c).zorder = if op.cursor + 1 = op.total then (s.ctx c).zorder.filter (·.2 != .op op.oid) else (s.ctx c).zorder
    let moved := fun t : State => (OpIs t o fun q => q.status = .running ∧ q.cursor = op.cursor + 1) ∧ left t
    (op.kind = .zld z h → UnitDue s op (MatrixTurn s op) (exec (.accumulatorRow o) s) (unitBegins op) fun base =>
      (n = 0 → ∃ t, exec (.accumulatorRow o) s = .next t ∧ moved t ∧ t.mem = s.mem ∧
        (t.ctx c).z = (s.ctx c).z.set z ((s.ctx c).z[z].set r Vec.zero)) ∧
      (∀ bs, n ≠ 0 → (opRead op base va (4 * n)).2 = .ok bs → ∃ t, exec (.accumulatorRow o) s = .next t ∧ moved t ∧
        t.mem = (opRead op base va (4 * n)).1.mem ∧
        (t.ctx c).z = (s.ctx c).z.set z ((s.ctx c).z[z].set r (vecOfBytes bs)))) ∧
    (op.kind = .zst z h → UnitDue s op (MatrixTurn s op) (exec (.accumulatorRow o) s) (unitBegins op) fun base =>
      (n = 0 → ∃ t, exec (.accumulatorRow o) s = .next t ∧ moved t ∧ t.mem = s.mem ∧ (t.ctx c).z = (s.ctx c).z) ∧
      (let w := writeVa base (coreOfNat op.rights.pcore) (op.accessRights base) va.toNat ((vecBytes (s.ctx c).z[z][r]).take (4 * n))
       n ≠ 0 →
        (w.2 = .done → ∃ t, exec (.accumulatorRow o) s = .next t ∧ moved t ∧ t.mem = w.1.mem ∧
          (t.ctx c).z = (s.ctx c).z) ∧
        (w.2 = .held → ∃ t, exec (.accumulatorRow o) s = .next t ∧ left t ∧ t.mem = w.1.mem ∧
          (t.ctx c).z = (s.ctx c).z ∧ OpIs t o fun q => q.cursor = op.cursor ∧ q.held ≠ none)))

/-- OP_PULL by a core whose matrix engine is idle takes the first pullable op of its cluster, by priority, then the origin's
place in the cluster, then sequence by modular distance (R162): the accumulator goes with it, and nothing else changes; a core whose engine has an op,
or that is being emptied, pulls none (R175, R176, R331). -/
def Sys2Proof.Claims.OpPulls : Prop :=
  ∀ (c : CoreId) (o : Nat) (s : State) (op : Op) (x : Ctx) (k : MmaKind) (z : Fin 4) (a b : ShapeReg) (hm : Option ShapeReg)
    (ent : W64) (rm : Rm) (acc ta tb : Bool),
    op ∈ s.ops → op.oid = o → mayPull s op = true → op.rights.pcore / 8 = c.val / 8 → op.rights.pcore ≠ c.val →
    op.kind = .mma k z a b hm ent rm acc ta tb none → s.homeCtx op = some x →
    let age := fun q : Op =>
      (seqCounter s (Fin.ofNat 2 q.rights.port) (Fin.ofNat 64 q.rights.ctx) q.rights.lcore q.chan.val + 2 ^ 40 - q.seq) % 2 ^ 40
    (∀ q ∈ s.ops, q ≠ op → mayPull s q = true → q.rights.pcore / 8 = c.val / 8 → q.rights.pcore ≠ c.val →
      q.prio < op.prio ∨ (q.prio = op.prio ∧ (op.rights.lcore % 8 < q.rights.lcore % 8 ∨
        (op.rights.lcore % 8 = q.rights.lcore % 8 ∧ age q < age op)))) →
    ((∃ v ∈ s.evict, v.1 = c) → exec (.opPull c o) s = .next s) ∧
    ((∀ q ∈ s.ops, q.status.isLive = true → ¬(q.rights.pcore = c.val ∧ q.chan = 4) ∧
        (q.kind.isMma = true → engineOf q ≠ c)) → (∀ v ∈ s.evict, v.1 ≠ c) →
      exec (.opPull c o) s = .next (s.updOp o fun q => { q with kind := .mma k z a b hm ent rm acc ta tb (some (c, x.z[z])) })) ∧
    ((∃ q ∈ s.ops, q.status.isLive = true ∧ q.rights.pcore = c.val ∧ q.chan = 4) → exec (.opPull c o) s = .next s)

/-- OP_COMPLETE: a copy, gather or matrix op whose units are all done is DONE, a gather with a faulted element PARTLY, in this
cycle; one that is to be cancelled is CANCELLED at its boundary, once the units that have begun are finished, its pushes are made
and the bytes before its cursor are notified; one that is to be paused is PAUSED there; a FAULTED or PAUSED op, and one whose
units are not all done, stay (R166, R170, R172, R173, R240, R317). -/
def Sys2Proof.Claims.OpsComplete : Prop :=
  ∀ (o : Nat) (s : State) (op : Op), s.findOp o = some op →
    (op.status = .faulted ∨ op.status.isLive = false ∨ (op.status = .paused ∧ op.cancel = false) →
      exec (.opComplete o) s = .next s) ∧
    (op.status.isLive = true → op.status ≠ .faulted → op.cancel = true → atBoundary s op = false →
      exec (.opComplete o) s = .next s) ∧
    (op.status = .running ∨ op.status = .queued → op.cancel = false → op.pausing = true →
      (op.inFlight = true → exec (.opComplete o) s = .next s) ∧
      (op.inFlight = false → op.runsThrough = false → op.kind.isAway = false →
        ∃ t, exec (.opComplete o) s = .next t ∧ t.mem = s.mem ∧
          OpIs t o fun q => q.status = .paused ∧ q.cursor = op.cursor ∧ q.pausing = false)) ∧
    (op.status.isLive = true → op.status ≠ .faulted → op.cancel = true → atBoundary s op = true → ∃ t, exec (.opComplete o) s = .next t ∧
      OpIs t o fun q => q.status = .cancelled ∧ q.cursor = op.cursor ∧ q.doneAt = some s.cycle) ∧
    ((op.status = .queued ∨ op.status = .running) → op.cancel = false → op.pausing = false → op.kind.isFabric = false → op.kind.runsOn = false →
      (op.cursor ≠ op.total → exec (.opComplete o) s = .next s) ∧
      (op.cursor = op.total → op.kind.pushes = [] → (∀ n ∈ s.notifies, n.oid ≠ op.oid) →
        ∃ t, exec (.opComplete o) s = .next t ∧ t.mem = s.mem ∧
          OpIs t o fun q => q.status = (if op.kind.isGather = true ∧ op.fcode ≠ 0 then .partly else .done) ∧
            q.cursor = op.cursor ∧ q.doneAt = some s.cycle))

/-- A landing word takes an arrival: the bytes are added to its count, and a count that reaches a nonzero target takes the
target off, clears it and advances the generation; LANDING_NOTIFY applies the first notification of a copy to the word in its
task's scratchpad so, and to no other byte; a poisoned word is a MEM_UE of the op, and keeps the notification (R212, R229,
R317). -/
def Sys2Proof.Claims.Notifications : Prop :=
  ∀ (s : State) (n : Notify) (rest : List Notify) (o : Op) (off : Nat),
    s.notifies = n :: rest → s.findOp n.oid = some o → o.status ≠ .faulted → placeOf n.va.toNat = some (.own off) →
    (s.issuer o).bind (·.image) = none → s.mem.wf = true →
    let r := o.accessRights s
    let key := spadKey r.pcore off
    let w := landRead s.mem key
    let c := w.count + n.bytes
    r.base ≤ off → off + 16 ≤ r.base + r.size → inForeign s r r.lcore off 16 = false →
    (c < 2 ^ 32 → s.poisoned key 16 = false → ∃ m, exec .landingNotify s = .next { s with mem := m, notifies := rest } ∧
      landRead m key = (if 0 < w.target ∧ w.target ≤ c then ⟨0, c - w.target, (w.gen + 1) % 2 ^ 32⟩ else ⟨w.target, c, w.gen⟩) ∧
      ∀ k, k < key ∨ key + 12 ≤ k → m.read k = s.mem.read k) ∧
    (2 ^ 32 ≤ c ∨ s.poisoned key 16 = true → o.status.isLive = true → o.kind.runsOn = false → o.owner.isSome = true →
      o.cancel = false → ∃ t, exec .landingNotify s = .next t ∧ t.mem = s.mem ∧ t.notifies = s.notifies ∧
        OpIs t n.oid fun q => q.status = .faulted ∧ q.fcode =
          if o.fcode ≠ 0 then o.fcode else if s.poisoned key 16 = true then 0x10 else 0x1A)

/-- A write held under WB walks again every 4,096 cycles from the cycle it was held in, and not in between; 2,400,000 cycles
after it was held it is given up: WRITE_HOLD_EXPIRED in the task of a stream's access, whose tokens go back, and a fault of the
op whose unit it is (R227). -/
def Sys2Proof.Claims.HeldWrites : Prop :=
  ∀ (h : Nat) (s : State) (r : HeldRef), (heldRefs s).find? (·.key == h) = some r →
    (r.since < s.cycle → (s.cycle - r.since) % 4096 = 0 → exec (.heldWriteRewalk h) s = .next (rewalk r s)) ∧
    ((s.cycle - r.since) % 4096 ≠ 0 → exec (.heldWriteRewalk h) s = .next s) ∧
    (s.cycle < r.since + 2400000 → exec (.writeHoldExpired h) s = .next s) ∧
    (r.since + 2400000 ≤ s.cycle →
      (∀ c st a slot, r = .strm c st a → (s.core c).run = .running slot → (s.findTask slot).isSome = true →
        ∃ t, exec (.writeHoldExpired h) s = .next t ∧ t.mem = s.mem ∧ (t.core c).run = .cutting slot s.cycle ∧
          a ∉ ((t.ctx c).strm st).accs ∧ (t.ctx c).g = (s.ctx c).g ∧ (t.ctx c).v = (s.ctx c).v ∧
          (t.ctx c).tok[waitQ st false].count = (s.ctx c).tok[waitQ st false].count + a.took.1 ∧
          (t.ctx c).tok[waitQ st true].count = (s.ctx c).tok[waitQ st true].count + a.took.2 ∧
          ∃ task f, t.findTask slot = some task ∧ task.fault = some f ∧ f.code = 0x18 ∧ f.pc = a.pc ∧ f.addr = a.va) ∧
      (∀ o u, r = .op o u → o.kind.isCopy = true → s.findOp o.oid = some o →
        ∃ t, exec (.writeHoldExpired h) s = .next t ∧ t.mem = s.mem ∧ Faulted t o 0x18 u.va.toNat))

/-- When a held write walks again and its leaf no longer has WB, it is released to the frame the walk names: a stream's access
is to be performed there; an op's unit is written there and its op goes on; a remote write commits. While the leaf has WB it stays
held. A walk that faults is a fault at the stream's instruction, of the op, or of the commit, whose sequencer stops (R172, R227,
R301). -/
def Sys2Proof.Claims.HeldWritesRelease : Prop :=
  (∀ (s : State) (c : CoreId) (st : Stream) (a : Access),
    let l : List Piece := a.all.map fun u => ⟨u.key, u.len, u.off⟩
    let p := freshWalk c (fun s => checkPieces c (rightsOf s c) true true false s l [] none false) s
    s.mem.wf = true → (∀ b ∈ ((s.ctx c).strm st).accs, b.id = a.id → b = a) → a ∈ ((s.ctx c).strm st).accs →
    (p.2 = .held → rewalk (.strm c st a) s = p.1 ∧ p.1.mem = s.mem ∧ p.1.ctx c = s.ctx c) ∧
    (∀ us, p.2 = .ok us →
      let t := rewalk (.strm c st a) s
      t.mem = p.1.mem ∧ { a with units := us, all := us, heldAt := none } ∈ ((t.ctx c).strm st).accs ∧
        ((t.ctx c).strm st).accs.length = ((s.ctx c).strm st).accs.length ∧ (t.ctx c).rest = (s.ctx c).rest) ∧
    (∀ e v slot, p.2 = .fault e v → (s.core c).run = .running slot → (s.findTask slot).isSome = true →
      let t := rewalk (.strm c st a) s
      t.mem = s.mem ∧ (t.core c).run = .cutting slot s.cycle ∧ a ∉ ((t.ctx c).strm st).accs ∧
        ∃ task f, t.findTask slot = some task ∧ task.fault = some f ∧ f.code = e ∧ f.pc = a.pc ∧
          f.addr = BitVec.ofNat 64 v)) ∧
  (∀ (s : State) (o : Op) (u : HeldUnit) (src dst : W64) (n : NestReg) (notify : Bool) (v : Option W64)
      (st : Option (List Byte)), s.findOp o.oid = some o → o.status.isLive = true → o.kind = .copy src dst n notify v st →
    let c := coreOfNat o.rights.pcore
    let p := freshWalk c (fun s => writeVaAt false s c (o.accessRights s) u.va.toNat u.data) s
    let t := rewalk (.op o u) s
    (p.2 = .held → t = p.1 ∧ t.mem = s.mem ∧ t.findOp o.oid = some o) ∧
    (p.2 = .done → t.mem = p.1.mem ∧ (OpIs t o.oid fun q => q.cursor = o.cursor + u.data.length ∧ q.held = none) ∧
      t.notifies = s.notifies ++ (if notify then [⟨o.oid, n.lwaddr, u.data.length⟩] else [])) ∧
    (∀ e va, p.2 = .fault e va → t.mem = s.mem ∧ Faulted t o e va)) ∧
  ∀ (s : State) (q : Sequencer) (p : Pending) (g : Graph) (bs : List Byte) (n : Nat),
    p ∈ q.ops → p.num = q.next → p.heldAt = some n → p.req.act = .write bs → p.req.land = none →
    remoteGraph s q.part p.req.hash = some g →
    let c := receiverCore s q.part
    let w := freshWalk c (fun s => writeVaAt false s c (remoteRights g) p.req.va bs) s
    let t := rewalk (.remote q p) s
    let u := sequencer t q.src q.part q.cls
    (w.2 = .held → t.mem = s.mem ∧ u.next = q.next ∧ ∃ e ∈ u.ops, e.num = p.num ∧ e.heldAt = some n) ∧
    (w.2 = .done → t.mem = w.1.mem ∧ ∀ e ∈ u.ops, e.num ≠ p.num) ∧
    (∀ e va, w.2 = .fault e va → t.mem = s.mem ∧ u.next = q.next ∧ u.stopped = true)

/-! ## Buffers and rotation -/

/-- BMAKE over a region of the task's range, of 256 to 2,097,152 bytes on 256-byte boundaries, that overlaps no live buffer of
its logical core, makes a buffer in a free slot of the sixteen, which the task holds, and writes its handle to gD; a misaligned
or oversized region is ALIGN, one outside the own range SPACE, and an overlap or sixteen live buffers OWNERSHIP (R201,
R202). -/
def Sys2Proof.Claims.BmakeExecutes : Prop :=
  ∀ (t : Tok) (d a b : GReg) (s : State), Ready t [d.val, a.val, b.val] s →
    let i := Instr.bmake t d a b
    let at_ := s.fctx.gr a
    let n := (s.fctx.gr b).toNat
    let r := rightsOf s s.fcore
    let mine := fun e : Buffer => e.part = r.part ∧ e.orig = r.lcore
    let flt := fun code : Nat => exec i s = .next (takeFault s.counted { code := code, addr := at_ })
    let shaped := at_.toNat % 256 = 0 ∧ n % 256 = 0 ∧ 256 ≤ n ∧ n ≤ 2097152
    (¬shaped → flt 0x07) ∧
    (shaped → (∀ off, placeOf at_.toNat ≠ some (.own off)) → flt 0x0A) ∧
    ∀ off, shaped → placeOf at_.toNat = some (.own off) →
      let inside := s.fctx.base ≤ off ∧ off + n ≤ s.fctx.base + s.fctx.size
      let clear := ∀ e ∈ s.buffers, mine e → e.live = true → e.addr + e.size ≤ off ∨ off + n ≤ e.addr
      let slots := fun j : Nat => ∃ e ∈ s.buffers, mine e ∧ e.live = true ∧ e.slot = j
      (¬inside → flt 0x0A) ∧
      (inside → ¬clear → flt 0x0B) ∧
      (inside → clear → (∀ j < 16, slots j) → flt 0x0B) ∧
      (inside → clear → (∃ j < 16, ¬slots j) →
        ∃ (slot : Nat) (q : Buffer), slot < 16 ∧ ¬slots slot ∧ q.slot = slot ∧ mine q ∧ q.live = true ∧ q.addr = off ∧
          q.size = n ∧ q.maker = r.slot ∧ q.holder = some r.slot ∧ q.offer = none ∧
          Does (exec i s) t false s
            { s with
              free := s.free + 1
              buffers := q :: s.buffers.filter fun e => !(e.part == r.part && e.orig == r.lcore && e.slot == slot) }
            (s.counted.fctx.setG d (BitVec.ofNat 64 q.handle)))

/-- What a buffer handle names: the live buffer with that origin, slot and generation of the task's partition, and for BGIVE
and BDROP one that the task holds (R201, R203, R204). -/
def Sys2Proof.Claims.BufferHandles : Prop :=
  ∀ (s : State) (w : W64) (b : Buffer), heldNamed s w = some b →
    b ∈ s.buffers ∧ b.live = true ∧ b.holder = some (rightsOf s s.fcore).slot ∧ b.part = (rightsOf s s.fcore).part ∧
    (b.orig < 1024 → b.slot < 16 → b.gen < 2 ^ 18 →
      b.orig = w.toNat % 2 ^ 10 ∧ b.slot = w.toNat / 2 ^ 10 % 16 ∧ b.gen = w.toNat / 2 ^ 14)

/-- BGIVE and BDROP of a buffer that the task holds, once its stream's accesses are performed: BGIVE offers it, held by none,
to the logical core of its cluster at the position in gB, which is the task's own or that of a live member of its team; BDROP dissolves
it, and its generation rises; of a buffer it does not hold either takes OWNERSHIP (R203, R204). -/
def Sys2Proof.Claims.GiveAndDrop : Prop :=
  ∀ (t : Tok) (a b : GReg) (s : State), Ready t [a.val, b.val] s → releasePending (s.entered t 0 0).fctx s.fstr = false →
    let lc := s.fctx.lcore.toNat
    let at_ := fun (q e : Buffer) => e.part == q.part && e.orig == q.orig && e.slot == q.slot
    (heldNamed s (s.fctx.gr a) = none →
      exec (.bgive t a b) s = .next (takeFault s.counted { code := 0x0B }) ∧
      exec (.bdrop t a) s = .next (takeFault s.counted { code := 0x0B })) ∧
    ∀ q, heldNamed s (s.fctx.gr a) = some q →
      Does (exec (.bdrop t a) s) t false s
        { s with buffers := s.buffers.map fun e => if at_ q e then
            { e with live := false, gen := (e.gen + 1) % 2 ^ 18, holder := none, offer := none } else e } s.counted.fctx ∧
      (∀ k, s.mytask = some k →
        ((s.fctx.gr b).toNat = lc % 8 ∨ (1 < k.tsize ∧ ∃ u ∈ teamOf s k, u.mpos = (s.fctx.gr b).toNat) →
          Does (exec (.bgive t a b) s) t false s
            { s with buffers := s.buffers.map fun e => if at_ q e then
                { e with holder := none, offer := some (lc / 8 * 8 + (s.fctx.gr b).toNat, lc % 8, s.cycle) } else e }
            s.counted.fctx) ∧
        (¬((s.fctx.gr b).toNat = lc % 8 ∨ (1 < k.tsize ∧ ∃ u ∈ teamOf s k, u.mpos = (s.fctx.gr b).toNat)) →
          exec (.bgive t a b) s = .next (takeFault s.counted { code := 0x0B })))

/-- BTAKE holds the oldest offer to its logical core, of any buffer when its field is g0 and else of the named one, and writes its
handle. With none it takes its tokens and its stream stands at it, and its posts come as it completes. That offers of this cycle are
seen from the next on is the model's reading (notes/assumptions/126.md), and so is the moment of its posts
(notes/assumptions/132.md) (R203, R324). -/
def Sys2Proof.Claims.BtakeExecutes : Prop :=
  ∀ (t : Tok) (d a : GReg) (s : State),
    let i := Instr.btake t d a
    let r := rightsOf s s.fcore
    let offered := oldestOffer s (if a = 0 then none else some (s.fctx.gr a).toNat)
    let held := fun b : Buffer => { s with buffers := s.buffers.map fun e =>
      if e.part == b.part && e.orig == b.orig && e.slot == b.slot then { e with holder := some r.slot, offer := none } else e }
    (∀ b, offered = some b → b ∈ s.buffers ∧ b.live = true ∧ (a ≠ 0 → b.handle = (s.fctx.gr a).toNat) ∧
      ∃ p c, b.offer = some (r.lcore, p, c) ∧ c < s.cycle ∧
        ∀ e ∈ s.buffers, e.live = true → e.part = r.part → (a ≠ 0 → e.handle = (s.fctx.gr a).toNat) →
          ∀ p' c', e.offer = some (r.lcore, p', c') → c' < s.cycle → c * 8 + p ≤ c' * 8 + p') ∧
    (s.fstrm.taken = false → Ready t [d.val, a.val] s →
      (∀ b, offered = some b → Does (exec i s) t false s (held b) (s.counted.fctx.setG d (BitVec.ofNat 64 b.handle))) ∧
      (offered = none → ∃ y, exec i s = .next (s.setCtx s.fcore y) ∧ y.rest = s.fctx.rest ∧ (y.strm s.fstr).taken = true ∧
        (y.strm s.fstr).pc = s.fstrm.pc)) ∧
    (s.fstrm.taken = true →
      (offered = none → exec i s = .next s) ∧
      (∀ b, offered = some b → loopAt s.fctx s.fstr s.lastWord = none →
        ∃ y, exec i s = .next ((held b).setCtx s.fcore y) ∧ y.rest = (s.fctx.setG d (BitVec.ofNat 64 b.handle)).rest ∧
          (y.strm s.fstr).taken = false ∧ (y.strm s.fstr).pc = s.fstrm.pc + BitVec.ofNat 64 (4 * s.words) ∧
          y.tok = (makePosts s.fctx s.cycle s.fstr 0).tok))

/-- ROT of u = 0 takes ILLEGAL_OP. A task alone completes at once with nothing moved and nothing read. In a team a member that
comes before the last takes its tokens and waits with its region. The one that comes last, where all have one size and direction,
moves every region: member p's receives what that of member p - 1, or p + 1 for prev, modulo TSIZE, held, no other byte changes,
and all go on, their posts made as they complete (the moment is the model's reading, notes/assumptions/132.md). Where sizes or
directions differ every member takes RECORD and no byte moves; a member whose region has been poisoned since its ROT issued takes
MEM_UE, and no byte moves (R206, R229). -/
def Sys2Proof.Claims.RotExecutes : Prop :=
  ∀ (t : Tok) (prev : Bool) (a : GReg) (u : Fin 4096) (s : State) (k : Task),
    let i := Instr.rot t prev a u
    let n := 256 * u.val
    let off := (s.fctx.gr a).toNat % 2 ^ 56
    let me : RotWait := ⟨prev, off, n, s.focus.word⟩
    s.mytask = some k → s.fstrm.taken = false → s.fstr = .ctl →
    (u = 0 → blocked s.fctx s.fstr = false → loopSplits s = false →
      exec i s = .next (takeFault s { code := 0x01 })) ∧
    (u ≠ 0 → Ready t [a.val] s → releasePending (s.entered t 0 0).fctx .ctl = false → rotRegion s (s.fctx.gr a) n = .ok off →
      (k.tsize ≤ 1 → Does (exec i s) t false s s s.counted.fctx) ∧
      (2 ≤ k.tsize → rotOthers s k = none → ∃ y, exec i s = .next (s.setCtx s.fcore y) ∧
        y.rot = some me ∧ (y.strm .ctl).taken = true ∧ (y.strm .ctl).pc = s.fstrm.pc ∧ y.g = s.fctx.g) ∧
      ∀ l, 2 ≤ k.tsize → rotOthers s k = some l → s.mem.wf = true →
        let all := (k.mpos, s.fcore, me) :: l
        (all.map (·.1)).Nodup → (all.map (·.2.1)).Nodup → (∀ e ∈ all, e.1 < k.tsize ∧ e.2.2.off + n ≤ 2 ^ 21) →
        ((∀ e ∈ l, e.2.2.prev = prev ∧ e.2.2.bytes = n) → (∀ e ∈ l, rotPoisoned s e.2.1 e.2.2 = false) →
          ∃ t', exec i s = .next t' ∧
            (∀ e ∈ all, (t'.ctx e.2.1).rot = none ∧ ((t'.ctx e.2.1).strm .ctl).taken = false ∧
              (t'.ctx e.2.1).g = (s.ctx e.2.1).g ∧
              ∃ f ∈ all, f.1 = (if prev then e.1 + 1 else e.1 + (k.tsize - 1)) % k.tsize ∧
                t'.mem.readN (spadKey e.2.1.val e.2.2.off) n = s.mem.readN (spadKey f.2.1.val f.2.2.off) n) ∧
            ∀ j, (∀ e ∈ all, j < spadKey e.2.1.val e.2.2.off ∨ spadKey e.2.1.val e.2.2.off + n ≤ j) →
              t'.mem.read j = s.mem.read j) ∧
        ((∃ e ∈ l, ¬(e.2.2.prev = prev ∧ e.2.2.bytes = n)) →
          (∀ e ∈ all, ∃ slot task, (s.core e.2.1).run = .running slot ∧ s.findTask slot = some task ∧ task.mpos = e.1) →
          ∃ t', exec i s = .next t' ∧ t'.mem = s.mem ∧ ∀ e ∈ all, ∀ slot, (s.core e.2.1).run = .running slot →
            (t'.core e.2.1).run = .cutting slot s.cycle ∧ ((t'.findTask slot).bind (·.fault)).map (·.code) = some 0x1A) ∧
        ((∀ e ∈ l, e.2.2.prev = prev ∧ e.2.2.bytes = n) →
          (∀ e ∈ l, ∃ slot task, (s.core e.2.1).run = .running slot ∧ s.findTask slot = some task ∧ task.mpos = e.1) →
          ∀ b ∈ l, rotPoisoned s b.2.1 b.2.2 = true →
          ∃ t', exec i s = .next t' ∧ t'.mem = s.mem ∧ ∀ slot, (s.core b.2.1).run = .running slot →
            (t'.core b.2.1).run = .cutting slot s.cycle ∧ ((t'.findTask slot).bind (·.fault)).map (·.code) = some 0x10))

/-! ## Counters and publication -/

/-- TCTR with a count of at most 16,777,215 takes a free counter of the die it names, or of the lowest usable one when that may
not be used, gives it the count and the graph, leaves its generation, and writes its handle; a greater count is RECORD; while
the die has no free counter it does not issue. That a counter which its bank has served in this cycle does not count as free is the
model's choice (notes/assumptions/110.md) (R34, R35, R36, R193). -/
def Sys2Proof.Claims.TctrExecutes : Prop :=
  ∀ (t : Tok) (d a : GReg) (k : Fin 5) (s : State), Ready t [d.val, a.val] s →
    let i := Instr.tctr t d a k
    let n := (s.fctx.gr a).toNat
    let named := if k.val = 4 then (dieOf s.fcore).val else k.val
    let part := s.partOfCore s.fcore
    let die := if (s.parts[part]).dies.contains named ∧ s.mgmt.badDies.contains named = false ∧
        s.mgmt.drained.contains named = false ∧ s.mgmt.draining.contains named = false then named else lowestDie s part
    (16777215 < n → exec i s = .next (takeFault s.counted { code := 0x1A })) ∧
    let free := fun j : Nat => j < 65536 ∧ (counterAt s (65536 * die + j)).st = .free ∧
      (counterAt s (65536 * die + j)).opAt ≠ s.cycle + 1
    (n ≤ 16777215 → (∃ j, free j) →
      ∃ j, free j ∧
        let q : Counter := { counterAt s (65536 * die + j) with
          st := .opened
          count := n
          graph := s.fctx.graph.toNat
          opAt := s.cycle + 1 }
        Does (exec i s) t false s
          { s with free := s.free + 1, counters := q :: s.counters.filter (·.idx != q.idx) }
          (s.counted.fctx.setG d (BitVec.ofNat 64 q.handle))) ∧
    (n ≤ 16777215 → (∀ j, ¬free j) → exec i s = .next s.counted)

/-- TNEW at an address of device virtual space, once its stream's accesses are performed, publishes the record for the task's
graph with the counter that gB names, or the record's own when its field is g0, and writes the task's handle; a check that fails
is its fault, another space SPACE; with no free slot it does not issue, and before its turn at the counter's bank it waits there with
the cycle of its arrival (R32, R36, R194). -/
def Sys2Proof.Claims.TnewExecutes : Prop :=
  ∀ (t : Tok) (d a b : GReg) (s : State) (g : Graph), Ready t [d.val, a.val, b.val] s →
    let e := s.entered t 0 0
    releasePending e.fctx s.fstr = false → s.findGraph s.fctx.graph.toNat = some g →
    let i := Instr.tnew t d a b
    let va := s.fctx.gr a
    let p := publish s.fcore g (some s.fctx.lcore.toNat) va.toNat (if b = 0 then none else some ((s.fctx.gr b).toNat % 2 ^ 32)) e
    (2 ^ 43 ≤ va.toNat → exec i s = .next (takeFault s.counted { code := 0x0A, addr := va })) ∧
    (va.toNat < 2 ^ 43 →
      (∀ h, p.2 = .ok h → Does (exec i s) t false s p.1 (s.counted.fctx.setG d (BitVec.ofNat 64 h))) ∧
      (∀ n code ad st, p.2 = .bad n code ad st →
        exec i s = .next (takeFault s.counted { code := code, addr := ad, skip := code == 0x0C, stale := st })) ∧
      (p.2 = .noSlot → exec i s = .next s.counted) ∧
      (∀ idx, p.2 = .notYet idx → exec i s = .next (queueAtBank idx s.fctx.lcore.toNat s.counted) ∧
        ∃ w ∈ (queueAtBank idx s.fctx.lcore.toNat s.counted).pubs, w.idx = idx ∧ w.lcore = s.fctx.lcore.toNat ∧
          w.at_ = (((s.pubs.find? fun p => p.idx == idx && p.lcore == s.fctx.lcore.toNat).map (·.at_)).getD s.cycle)))

/-- A publication that succeeds adds one live task: its graph, record, arguments, successors, priority, team and scratchpad are
those of the record and its kernel object, its counter was open and of the graph, and a counter of 0 has fired and the task is
ready, while any other is bound to it. A misaligned record is ALIGN, and a record that is already live RECORD. A task's
publication waits while its counter's bank has an operation to apply before it (R28 to R32, R35, R36). -/
def Sys2Proof.Claims.Publication : Prop :=
  ∀ (s m : State) (c : CoreId) (g : Graph) (pub : Option Nat) (va h : Nat) (named : Option Nat),
    (va % 64 ≠ 0 → publish c g pub va named s = (s, .bad 1 0x07 (BitVec.ofNat 64 va) false)) ∧
    (∀ s1 w, va % 64 = 0 → readObject c (graphRights g) va s = (s1, .ok w) →
      (writable c (graphRights g) va s1).2 = none →
      recordLive (writable c (graphRights g) va s1).1 g.handle va w = true →
      (publish c g pub va named s).2 = .bad 3 0x1A (BitVec.ofNat 64 va) false) ∧
    (publish c g pub va named s = (m, .ok h) →
      ∃ (w k : Nat) (task : Task) (q : Counter), task ∈ m.tasks ∧ task.handle = h ∧ task.graph = g.handle ∧
        (∀ u ∈ s.tasks, u.slot ≠ task.slot) ∧ task.slot / 16384 = q.idx / 65536 ∧ task.gen = slotGen s task.slot ∧
        task.recAddr = va ∧ task.kobj = w % 2 ^ 64 ∧ task.args.toNat = w / 2 ^ 64 % 2 ^ 64 ∧
        task.succ = w / 2 ^ 128 % 2 ^ 64 ∧ task.nsucc = w / 2 ^ 192 % 2 ^ 16 ∧ task.prio = w / 2 ^ 240 % 8 ∧
        task.team = w / 2 ^ 256 % 2 ^ 16 ∧ task.tsize = w / 2 ^ 272 % 16 ∧ task.mpos = w / 2 ^ 276 % 8 ∧
        task.size = 256 * Max.max (w / 2 ^ 280 % 2 ^ 14) (k / 2 ^ 320 % 2 ^ 14) ∧ task.hand = w / 2 ^ 320 % 2 ^ 64 ∧
        task.seq = va / 64 % 2 ^ 37 ∧ task.images = kernelImages k ∧ task.serves = none ∧
        (q.count = 0 → (counterAt m q.idx).st = .fired task.slot ∧ task.st = .ready) ∧
        (q.count ≠ 0 → (counterAt m q.idx).st = .bound task.slot ∧ task.st = .bound) ∧
        q.st = .opened ∧ q.graph = g.handle ∧ ∀ l, pub = some l → bankTaken s q l = false)

/-- TSIG, once its stream's accesses are performed, sends a decrement of the counter in bits 31:0 of gA to its bank, 4 cycles
away on its own die and 12 to another, and its stream stands at it; the bank's answer lets it go on, or raises
COUNTER_UNDERFLOW at it with its tokens taken back (R93, R195). -/
def Sys2Proof.Claims.TsigExecutes : Prop :=
  ∀ (t : Tok) (a : GReg) (s : State),
    let h := (s.fctx.gr a).toNat % 2 ^ 32
    (s.fstrm.taken = false → Ready t [a.val] s → releasePending (s.entered t 0 0).fctx s.fstr = false →
      let away : Nat := if (dieOf s.fcore).val = h / 2 ^ 30 then 4 else 12
      let q : Decr := ⟨BitVec.ofNat 32 h, s.cycle + away, s.fctx.lcore.toNat, s.fctx.graph.toNat, some s.fcore, 0, 0,
        s.focus.word⟩
      ∃ y, exec (.tsig t a) s = .next (({ s with decrs := s.decrs ++ [q] } : State).setCtx s.fcore y) ∧ y.rest = s.fctx.rest ∧
        (y.strm s.fstr).taken = true ∧ (y.strm s.fstr).pc = s.fstrm.pc) ∧
    (s.fstrm.taken = true → exec (.tsig t a) s = .next s) ∧
    ∀ (c : CoreId) (q : Answer) (rest : List Answer), s.answers = q :: rest → q.core = c → q.at_ ≤ s.cycle →
      ((s.ctx c).strm .ctl).taken = true →
      (q.ok = true → loopAt (s.ctx c) .ctl ((s.ctx c).strm .ctl).pc = none →
        ∃ y, exec (.tsigAnswer c) s = .next (({ s with answers := rest } : State).setCtx c y) ∧ y.rest = (s.ctx c).rest ∧
          y.lc = (s.ctx c).lc ∧ (y.strm .ctl).taken = false ∧ (y.strm .ctl).pc = ((s.ctx c).strm .ctl).pc + 4 ∧
          y.tok = (makePosts (s.ctx c) s.cycle .ctl 0).tok) ∧
      (q.ok = false → ∀ slot task, (s.core c).run = .running slot → s.findTask slot = some task →
        ∃ t' f, exec (.tsigAnswer c) s = .next t' ∧ (t'.core c).run = .cutting slot s.cycle ∧
          ((t'.ctx c).strm .ctl).taken = false ∧ ((t'.ctx c).strm .ctl).pc = ((s.ctx c).strm .ctl).pc ∧
          (t'.findTask slot).bind (·.fault) = some f ∧ f.code = 0x0C ∧ f.addr.toNat = q.handle.toNat ∧ f.skip = true ∧
          f.stale = q.stale)

/-- COUNTER_DECREMENT applies the earliest arrived decrement. An open or bound counter of the graph with a count over 0 loses
one; the last one of a bound counter fires it, and its task is ready, and alone in a dynamic graph it stands in the ready
queue. A stale handle, a counter at 0 and a counter of another graph stay as they are: a TSIG gets the answer, and a walk
stops with COUNTER_UNDERFLOW at its entry, its task held in place on its core. A bank applies one operation to a counter in a
cycle (R35 to R37, R40, R81; that a walk entry of another graph's counter stops the walk is the model's choice,
notes/assumptions/96.md). -/
def Sys2Proof.Claims.CountersDecrement : Prop :=
  ∀ (s : State) (q : Decr), nextDecr s = some q →
    let h := q.handle.toNat
    let k := counterAt s (h / 2 ^ 30 % 4 * 65536 + h / 2 ^ 14 % 65536)
    let good := k.gen = h % 2 ^ 14 ∧ k.graph = q.graph ∧ 0 < k.count
    (q ∈ s.decrs ∧ q.at_ ≤ s.cycle ∧ k.opAt ≠ s.cycle + 1 ∧ ∀ e ∈ s.decrs, decrDue s e = true → e.lcore < 1024 →
      q.at_ < e.at_ ∨ (q.at_ = e.at_ ∧ q.lcore ≤ e.lcore)) ∧
    ((good → k.st = .opened ∨ (∃ slot, k.st = .bound slot ∧ 1 < k.count) →
        ∃ t, exec .counterDecrement s = .next t ∧ counterAt t k.idx = { k with count := k.count - 1, opAt := s.cycle + 1 } ∧
          (∀ j, j ≠ k.idx → counterAt t j = counterAt s j) ∧ t.decrs = s.decrs.erase q ∧ t.tasks = s.tasks ∧
          (∀ c, q.core = some c → t.answers = s.answers ++ [⟨c, s.cycle + bankDelay c h, true, false, q.handle, q.word⟩])) ∧
      (∀ slot task g, good → k.st = .bound slot → k.count = 1 → s.findTask slot = some task → task.tsize ≤ 1 →
        s.findGraph task.graph = some g → g.mode = .dynamic →
        ∃ t, exec .counterDecrement s = .next t ∧
          counterAt t k.idx = { k with count := 0, st := .fired slot, opAt := s.cycle + 1 } ∧
          t.findTask slot = some { task with st := .ready } ∧ t.decrs = s.decrs.erase q ∧
          ∃ e ∈ (t.parts[(Fin.ofNat 4 g.part : Fin 4)]).queue, e.tasks = [slot]) ∧
      (¬good → (∀ c, q.core = some c → ∃ st, exec .counterDecrement s = .next { s with
          decrs := s.decrs.erase q
          answers := s.answers ++ [⟨c, s.cycle + bankDelay c h, false, st, q.handle, q.word⟩] } ∧
          (st = true ↔ k.gen ≠ h % 2 ^ 14)) ∧
        (∀ task, q.core = none → s.findTask q.slot = some task → ∃ t u f, exec .counterDecrement s = .next t ∧
          t.counters = s.counters ∧ t.findTask q.slot = some u ∧ u.st = .walkFault ∧ u.fault = some f ∧ f.code = 0x0C ∧
          f.walk = true ∧ f.widx = q.widx ∧
          ((s.core task.pcore).run.slot? = some q.slot → (t.core task.pcore).run = .held q.slot))))

/-! ## Guards, notes and yields -/

/-- GUARD numbers the values of its task. In a dynamic graph, and for a task whose record does not ask for it, it does nothing
more. In a recording the value joins those of the task's trace entry, and a seventeenth spoils the recording. In a replay a
value that differs from the recorded one, or one more than was recorded, hands the graph back with its notice; an equal one
changes nothing (R107, R112, R113). -/
def Sys2Proof.Claims.GuardExecutes : Prop :=
  ∀ (t : Tok) (a : GReg) (s : State) (slot : Nat) (k : Task) (g : Graph), Ready t [a.val] s →
    (s.core s.fcore).run.slot? = some slot → s.findTask slot = some k → s.findGraph k.graph = some g →
    let i := Instr.guard t a
    let n := s.fctx.guards
    let v := s.fctx.gr a
    let x := { s.counted.fctx with guards := n + 1 }
    ((k.grec = false ∨ g.mode = .dynamic) → Does (exec i s) t false s s x) ∧
    (∀ sp, k.grec = true → g.mode = .recording sp →
      (∀ j, n < 16 → k.logIdx = some j → Does (exec i s) t false s
        (s.updGraph k.graph fun g => { g with
          log := updEntry k.lcore (fun e => { e with guards := e.guards ++ [v] }) j g.log }) x) ∧
      (16 ≤ n → Does (exec i s) t false s (s.updGraph k.graph fun g => { g with mode := .recording true }) x)) ∧
    (∀ rev e, k.grec = true → g.mode = .replay rev → traceOf s k = some e →
      (e.guards[n]? = some v → Does (exec i s) t false s s x) ∧
      (e.guards[n]? ≠ some v → ∃ m note, Does (exec i s) t false s m x ∧ m.mem = s.mem ∧ m.tasks = s.tasks ∧
        m.findGraph k.graph = some { g with mode := .handedBack rev, note := some note, firedAt := [] } ∧
        note.kind = (if n < e.guards.length then 0 else 1) ∧ note.gidx = n ∧ note.lcore = k.lcore ∧ note.seq = k.seq ∧
        note.expv = e.guards.getD n 0 ∧ note.obsv = (if n < e.guards.length then v else 0)))

/-- HNOTE, once its stream's accesses are performed, writes a note of its graph, its number and gA into the ring of its context's
completion area and posts an event on the notifier of that number; while the ring is full it does not issue (R198, R342). -/
def Sys2Proof.Claims.HnoteExecutes : Prop :=
  ∀ (t : Tok) (a : GReg) (n : Fin 64) (s : State), Ready t [a.val] s → releasePending (s.entered t 0 0).fctx s.fstr = false →
    let e := s.entered t 0 0
    let h := s.fctx.graph.toNat
    let port := portOf h
    let ctx := ctxOf h
    let rd := areaRead port ctx 0x1400 8 e
    ∀ bs, rd.2 = some bs →
      let head := ofBytes bs % 2 ^ 9
      let tail := ofBytes bs / 2 ^ 32 % 2 ^ 9
      let note := toBytes 16 (h + n.val * 2 ^ 32 + (s.fctx.gr a).toNat * 2 ^ 64)
      let w1 := areaWrite port ctx (0x2000 + 16 * tail) note rd.1
      let w2 := areaWrite port ctx 0x1404 (toBytes 4 ((tail + 1) % 512)) w1.1
      ((tail + 1) % 512 = head → exec (.hnote t a n) s = .next s.counted) ∧
      ((tail + 1) % 512 ≠ head → w1.2 = true → Does (exec (.hnote t a n) s) t false s (postEvent port ctx n.val w2.1) s.counted.fctx)

/-- TYLD without a request to yield does nothing; with TSTAT.PREQ set it completes and the task is cut as a forced cut cuts it,
while the store has room for its image (R197, R332, R336). -/
def Sys2Proof.Claims.TyldExecutes : Prop :=
  ∀ (t : Tok) (s : State) (slot : Nat) (k : Task), Ready t [] s → (s.core s.fcore).run = .running slot →
    s.findTask slot = some k → k.st = .running →
    (s.fctx.tstat.getLsbD 0 = false → Does (exec (.tyld t) s) t false s s s.counted.fctx) ∧
    (s.fctx.tstat.getLsbD 0 = true → cutRoom s k.size = false → Does (exec (.tyld t) s) t false s s s.counted.fctx) ∧
    (s.fctx.tstat.getLsbD 0 = true → cutRoom s k.size = true →
      Does (exec (.tyld t) s) t false s
        ((s.setCore s.fcore { s.core s.fcore with run := .cutting slot s.cycle }).updTask slot fun t => { t with forced := true })
        s.counted.fctx)

/-! ## How a task ends -/

/-- Nothing holds up the end of the executing task: it is at TEND step 1, the other streams have executed END, no live op is
attached to it, no live buffer, on its core or in the store, is held or was made by it, and everything its streams issued is
performed and written. -/
structure MayEnd (s : State) (k : Task) : Prop where
  mine   : s.mytask = some k
  fresh  : s.fstrm.taken = false
  first  : s.fctx.tendAt = 0
  ended  : ∀ st, st ≠ Stream.ctl → (s.fctx.strm st).ended = true
  ops    : ∀ o ∈ s.ops, o.status.isLive = true → o.owner ≠ some k.slot
  bufs   : ∀ b ∈ s.buffers, b.live = true → b.holder ≠ some k.slot ∧ b.maker ≠ k.slot
  imgs   : ∀ t ∈ s.tasks, ∀ i, t.image = some i → ∀ b ∈ i.bufs, b.live = true → b.holder ≠ some k.slot
  accs   : ∀ st, (s.fctx.strm st).accs = []
  pend   : s.fctx.pend = []
  kmrg   : s.fctx.kmrg = none
  traced : k.traced = none
  start  : k.walkAt = 0

/-- The machine after TEND step 3 of a task of its own graph. -/
def afterStepThree (s : State) (k : Task) : State :=
  (s.updGraph k.graph fun g => { g with lastEnd := match g.frame0 with
    | none => 0
    | some b => s.cycle - b }).updTask k.slot fun t => { t with st := .ending, tend3 := some s.cycle }

/-- TEND of a task with nothing left to wait for ends it: its control stream has ended at the TEND, the task is ending, and with
successors its list is read and the first entry sent, or it meets a walk fault. While another stream has not executed END it
takes its tokens and its stream stands at it (R38, R93, R196). -/
def Sys2Proof.Claims.TendExecutes : Prop :=
  ∀ (wp wn orphan : Bool) (s : State) (k : Task), Ready ⟨wp, wn, false, false⟩ [] s → s.fstr = .ctl → s.mytask = some k →
    k.serves = none →
    let i := Instr.tend wp wn orphan
    (MayEnd s k → k.nsucc = 0 → ∃ y, exec i s = .next ((afterStepThree s k).setCtx s.fcore y) ∧
      y.rest = { s.fctx with tendAt := 3 }.rest ∧ (y.strm .ctl).ended = true ∧ (y.strm .ctl).taken = false ∧
      (y.strm .ctl).pc = s.fstrm.pc ∧ ∀ st, st ≠ Stream.ctl → y.strm st = s.fctx.strm st) ∧
    (MayEnd s k → 0 < k.nsucc → (s.findGraph k.graph).isSome = true → ∃ (t' : State) (u : Task), exec i s = .next t' ∧
      t'.findTask k.slot = some u ∧ ((t'.ctx s.fcore).strm .ctl).ended = true ∧ (t'.ctx s.fcore).g = s.fctx.g ∧
      ((u.st = .walkFault ∧ t'.decrs = s.decrs ∧ (∃ f, u.fault = some f ∧ f.code = 0x08 ∧ f.walk = true ∧ f.widx = 0) ∧
          ((s.core k.pcore).run.slot? = some k.slot → (t'.core k.pcore).run = .held k.slot)) ∨
        (u.st = .ending ∧ u.tend3 = some s.cycle ∧
          ∀ h, u.list[0]? = some h → u.walkAt = 1 ∧
            ((h = 0xFFFFFFFF ∧ t'.decrs = s.decrs) ∨ (h ≠ 0xFFFFFFFF ∧ ∃ q, t'.decrs = s.decrs ++ [q] ∧ q.handle = h ∧
              q.graph = k.graph ∧ q.slot = k.slot ∧ q.widx = 0 ∧ q.core = none ∧
              q.at_ = s.cycle + (if (dieOf k.pcore).val = h.toNat / 2 ^ 30 then 4 else 12)))))) ∧
    (s.fstrm.taken = false → s.fctx.tendAt = 0 → (∃ st, st ≠ Stream.ctl ∧ (s.fctx.strm st).ended = false) →
      ∃ y, exec i s = .next (s.setCtx s.fcore y) ∧ y.rest = s.fctx.rest ∧ (y.strm .ctl).taken = true ∧
        (y.strm .ctl).pc = s.fstrm.pc)

/-- SUCCESSOR_WALK of the one task that ends on a core: one entry in a cycle, an entry of 0xFFFFFFFF skipped; after the last the
core is free, and once no decrement of it is under way its counter and its slot are freed with new generations; while its counter's
bank has something to apply first it waits there, with the cycle of its arrival (R31, R34, R36, R38, R93). -/
def Sys2Proof.Claims.SuccessorsWalk : Prop :=
  ∀ (c : CoreId) (s : State) (k : Task) (n : Nat), (s.tasks.filter fun t => t.pcore == c && t.st == .ending) = [k] →
    s.findTask k.slot = some k → k.tend3 = some n → n < s.cycle →
    (∀ h, k.list[k.walkAt]? = some h →
      let t := s.updTask k.slot fun t => { t with walkAt := t.walkAt + 1, tend3 := some s.cycle }
      let away : Nat := if (dieOf k.pcore).val = h.toNat / 2 ^ 30 then 4 else 12
      exec (.successorWalk c) s = .next (if h = 0xFFFFFFFF then t else
        { t with decrs := s.decrs ++ [⟨h, s.cycle + away, k.lcore, k.graph, none, k.slot, k.walkAt, 0⟩] })) ∧
    ((k.list ≠ [] ∨ k.nsucc = 0) → k.list.length ≤ k.walkAt → (s.core c).run = .running k.slot →
      let m := s.setCore c { s.core c with
        run := .idle, last := some k.context, ctx := { s.ctx c with mathEnd := true, mq := [], gq := [] } }
      let busy := ∃ j, k.ctr = some j ∧ bankTaken m (counterAt s j) k.lcore = true
      let away := ∃ q ∈ s.decrs, q.core = none ∧ q.slot = k.slot
      (away → exec (.successorWalk c) s = .next m) ∧
      (¬away → busy → ∀ j, k.ctr = some j → exec (.successorWalk c) s = .next (queueAtBank j k.lcore m)) ∧
      (¬busy → ¬away → ∃ t, exec (.successorWalk c) s = .next t ∧
        (t.core c).run = .idle ∧ t.findTask k.slot = none ∧ slotGen t k.slot = (slotGen s k.slot + 1) % 65536 ∧
        t.mem = s.mem ∧ (∀ j, k.ctr = some j → (counterAt s j).st ≠ .free →
          (counterAt t j).st = .free ∧ (counterAt t j).gen = ((counterAt s j).gen + 1) % 2 ^ 14)))

/-- The three ways a handler disposes of the task it serves, and TEND, which kills it as TKILL does. -/
def Disposes (i : Instr) (t : Tok) (regs : List Nat) (s : State) (k : Task) (after : State → Prop) : Prop :=
  Ready t regs s → MayEnd s k → ∃ t', exec i s = .next t' ∧ ((t'.ctx s.fcore).strm .ctl).ended = true ∧
    (∃ k', t'.findTask k.slot = some k' ∧ k'.st = .ending ∧ k'.nsucc = 0) ∧ t'.mem = s.mem ∧ after t'

/-- TRES resume, TRES retry and TKILL of a handler end it and decide the task it serves: resume lets its cut, that of a walk too, go
on where it is held, and a walk whose core is free goes on at once at the next entry; retry starts it again without its cut, and
its drains' pushes are discarded; TKILL, and a TEND of a handler, kills it: it is gone and counted. After a walk fault retry ends
the task. A register that does not name the served task is PRIVILEGE. While another stream has not ended, the instruction has
made its posts and its stream stands at it (R38, R145, R153, R199, R329). -/
def Sys2Proof.Claims.HandlersDispose : Prop :=
  ∀ (t : Tok) (a : GReg) (wp wn orphan : Bool) (s : State) (k u : Task) (g : Graph), s.fstr = .ctl → s.mytask = some k →
    k.serves = some u.slot → u.slot ≠ k.slot → s.findTask u.slot = some u → s.findGraph u.graph = some g →
    (s.core s.fcore).run = .running k.slot → u.pcore ≠ s.fcore →
    let named := (s.fctx.gr a).toNat % 2 ^ 32 = u.handle
    let killed := fun t' : State => t'.findTask u.slot = none ∧
      (t'.findGraph u.graph).map (·.nkill) = some (Min.min (2 ^ 32 - 1) (g.nkill + 1))
    let held := u.st = .cutHeld ∧ (s.core u.pcore).run = .held u.slot ∧ u.dying = false
    (¬named → Ready t [a.val] s → s.fstrm.taken = false → (s.fctx.gr a).toNat % 2 ^ 32 ≠ k.handle →
      exec (.tresResume t a) s = .next (takeFault s.counted { code := 0x16 }) ∧
      exec (.tresRetry t a) s = .next (takeFault s.counted { code := 0x16 }) ∧
      exec (.tkill t a) s = .next (takeFault s.counted { code := 0x16 })) ∧
    (∀ i ∈ [Instr.tresResume t a, .tresRetry t a, .tkill t a], named → (∀ f, u.fault = some f → f.lost = false) →
      Ready t [a.val] s → s.fstrm.taken = false → s.fctx.tendAt = 0 →
      (∃ st, st ≠ Stream.ctl ∧ (s.fctx.strm st).ended = false) →
      ∃ y, exec i s = .next (s.setCtx s.fcore y) ∧ y.rest = s.fctx.rest ∧ (y.strm .ctl).taken = true ∧
        (y.strm .ctl).pc = s.fstrm.pc ∧
        y.tok = (makePosts (reservePosts (s.entered t 0 0).fctx .ctl 0 t.pp.toNat t.pn.toNat) s.cycle .ctl 0).tok) ∧
    (named → (held ∨ (u.st = .walkFault ∧ (s.core u.pcore).run = .held u.slot)) → (∀ f, u.fault = some f → f.lost = false) →
      Disposes (.tresResume t a) t [a.val] s k fun t' => t'.findTask u.slot = some { u with again := some false } ∧
        (t'.core u.pcore).run = .held u.slot) ∧
    (named → u.st = .walkFault → (s.core u.pcore).run ≠ .held u.slot → (∀ f, u.fault = some f → f.lost = false) →
      Disposes (.tresResume t a) t [a.val] s k fun t' =>
        t'.findTask u.slot = some { u with st := .ending, again := none, fault := none, tend3 := some s.cycle } ∧
        (t'.core u.pcore).run = (s.core u.pcore).run) ∧
    (named → (∃ f, u.fault = some f ∧ f.walk = true) →
      Disposes (.tresRetry t a) t [a.val] s k fun t' => t'.findTask u.slot = none) ∧
    (named → held → (∀ f, u.fault = some f → f.walk = false) → (∀ o ∈ s.ops, o.owner ≠ some u.slot) →
      Disposes (.tresRetry t a) t [a.val] s k fun t' => t'.findTask u.slot = some { u with
        again := some true, image := none, retry := true, lateFault := none } ∧
        (t'.ctx u.pcore).mq = [] ∧ (t'.ctx u.pcore).gq = [] ∧ (t'.ctx u.pcore).mathEnd = true ∧
        ∀ b ∈ t'.buffers, b.live = true → b.maker ≠ u.slot ∧ b.holder ≠ some u.slot) ∧
    (named → held → (∀ o ∈ s.ops, o.owner ≠ some u.slot) → u.handle ≠ k.handle → Disposes (.tkill t a) t [a.val] s k killed) ∧
    (held → (∀ o ∈ s.ops, o.owner ≠ some u.slot) → Disposes (.tend wp wn orphan) ⟨wp, wn, false, false⟩ [] s k killed)

/-! ## Cuts -/

/-- The state of one core when a cut of its task may complete: nothing it issued is on its way, no instruction waits, and no
clear of an accumulator has its turn. -/
structure Settled (s : State) (c : CoreId) (slot : Nat) : Prop where
  accs : ∀ st, ((s.ctx c).strm st).accs = []
  none : ∀ st, ((s.ctx c).strm st).taken = false
  pend : (s.ctx c).pend = []
  kmrg : (s.ctx c).kmrg = Option.none
  tsig : (∀ q ∈ s.decrs, q.core ≠ some c) ∧ ∀ q ∈ s.answers, q.core ≠ c
  ops  : ∀ o ∈ s.ops, o.status.isLive = true → o.owner ≠ some slot ∧ o.kind.isMma = false
  zclr : ∀ d ∈ (s.ctx c).drains, d.clear = false ∨ zFree (s.ctx c) d.z (.drain d.id) = false

/-- CUT_COMPLETE, in a later cycle than the cut. While an effect of the task is on its way the core stays cut. Once all is settled
a fault cut is held in place, with every register as it was but for the steps of a TEND and the place of a stalled op; a forced
cut goes to the cut store with its registers, the bytes of its range and the buffers there, and names the ops that do not go with
it and whose held ranges lie there; its core is free; while a unit of such an op has begun the core stays cut, which is the model's
choice (notes/assumptions/129.md). A write that is held under WB is withdrawn: its tokens are back, and the entry of a WRQ or WRQS
is at the head of its oq. A task that is to die is gone (R173, R204, R227, R324, R325, R329, R332). -/
def Sys2Proof.Claims.CutsComplete : Prop :=
  ∀ (c : CoreId) (s : State) (slot n : Nat) (k : Task), (s.core c).run = .cutting slot n → s.findTask slot = some k →
    k.pcore = c → s.mem.wf = true →
    (s.cycle ≤ n → exec (.cutComplete c) s = .next s) ∧
    (n < s.cycle → (∃ st, ((s.ctx c).strm st).accs ≠ []) → (∀ st, ∀ a ∈ ((s.ctx c).strm st).accs, a.heldAt = none) →
      ∃ t, exec (.cutComplete c) s = .next t ∧ (t.core c).run = .cutting slot n ∧ t.mem = s.mem) ∧
    (n < s.cycle → forcedNow k = true → (∃ o ∈ s.ops, touchesRange k o = true ∧ o.inFlight = true ∧ o.runsThrough = false) →
      ∃ t, exec (.cutComplete c) s = .next t ∧ (t.core c).run = .cutting slot n ∧ t.mem = s.mem) ∧
    (∀ (st : Stream) (a : Access) (n : Nat), ((s.ctx c).strm st).accs = [a] → a.heldAt = some n → a.stalls = true →
      let t := withdrawStream c s st
      t.mem = s.mem ∧ ((t.ctx c).strm st).accs = [] ∧ ((t.ctx c).strm st).pc = ((s.ctx c).strm st).pc ∧
        (∀ q, a.kind = .drain q → (t.ctx c).oq[q].head? = some ⟨0, vecOfBytes a.data, false, some 0⟩ ∧
          (t.ctx c).oq[q].tail = (s.ctx c).oq[q]) ∧
        (((s.ctx c).strm st).taken = false →
          (t.ctx c).tok[waitQ st false].count = (s.ctx c).tok[waitQ st false].count + a.took.1 ∧
          (t.ctx c).tok[waitQ st true].count = (s.ctx c).tok[waitQ st true].count + a.took.2)) ∧
    (n < s.cycle → Settled s c slot →
      (k.dying = false → k.serves = none → k.fault.isSome = true → ∃ t, exec (.cutComplete c) s = .next t ∧
        (t.core c).run = .held slot ∧ t.findTask slot = some { k with st := .cutHeld, cutAt := s.cycle } ∧ t.mem = s.mem ∧
        (t.ctx c).rest = { s.ctx c with tendAt := 0, rot := none }.rest ∧ (t.ctx c).tok = (s.ctx c).tok ∧
        ∀ st, (t.ctx c).strm st = { (s.ctx c).strm st with stalled := none }) ∧
      (k.dying = false → k.fault = none → k.tsize ≤ 1 →
        (∀ b ∈ s.buffers, b.live = true → b.maker = slot → b.holder = none ∨ b.holder = some slot) →
        (∀ o ∈ s.ops, touchesRange k o = true → o.inFlight = false) → (∀ o ∈ s.ops, s.findOp o.oid = some o) →
        ∃ (t : State) (u : Task) (i : CutImage),
        exec (.cutComplete c) s = .next t ∧ (t.core c).run = .idle ∧ t.findTask slot = some u ∧ u.st = .cutStored ∧
        u.forced = true ∧ u.again = some false ∧ u.image = some i ∧ t.mem = s.mem ∧
        i.ctx.rest = { s.ctx c with tendAt := 0, rot := none }.rest ∧ i.ctx.tok = (s.ctx c).tok ∧
        (∀ st, i.ctx.strm st = { (s.ctx c).strm st with stalled := none }) ∧
        (∀ b, b ∈ i.bufs ↔ b ∈ s.buffers ∧ b.live = true ∧ b.maker = slot) ∧
        (∀ o, o ∈ i.ops ↔ ∃ q ∈ s.ops, q.oid = o ∧ touchesRange k q = true) ∧
        (∀ b ∈ t.buffers, b.live = true → b.maker ≠ slot) ∧
        ∀ off, (s.ctx c).base ≤ off → off < (s.ctx c).base + (s.ctx c).size →
          Memory.read i.spad off = s.mem.read (spadKey c.val off)) ∧
      (k.dying = true → ∃ t, exec (.cutComplete c) s = .next t ∧ (t.core c).run = .idle ∧ t.findTask slot = none))

/-- At a cut a waiting instruction is withdrawn: its tokens return to their counts, its places are released, and its pc stays at
it, so that it issues again (R324). -/
def Sys2Proof.Claims.WaitsAreWithdrawn : Prop :=
  ∀ (x : Ctx) (st : Stream), (x.strm st).taken = true →
    let y := withdraw x st
    (y.strm st).taken = false ∧ (y.strm st).pc = (x.strm st).pc ∧ y.rest = x.rest ∧
    y.tok[waitQ st false].count = x.tok[waitQ st false].count + (x.strm st).took.1 ∧
    y.tok[waitQ st true].count = x.tok[waitQ st true].count + (x.strm st).took.2 ∧
    (∀ q : Fin 8, q ≠ waitQ st false → q ≠ waitQ st true → y.tok[q].count = x.tok[q].count) ∧
    ∀ p ∈ y.tok[postQ st false].pending ++ y.tok[postQ st true].pending, p.id ≠ 0

/-- At a cut an attached op that is queued or runs stops at its boundary, PAUSED at the cursor it has reached, and a write of it
that is held is dropped, but for the last row of a ZST; while a unit of it has begun and is not done it is to pause. An MMA op that
another core has pulled writes its accumulator back to its origin, and is there QUEUED again where its own task runs on and PAUSED
where that is cut. RRED, COLL, and RLD, RST and RAMO once they are sent run on; a FAULTED or completed one stays (R160, R173, R176,
R227, R287, R325). -/
def Sys2Proof.Claims.OpsPause : Prop :=
  ∀ (s : State) (o : Op), s.findOp o.oid = some o →
    ((o.kind.runsOn = true ∨ (o.kind.isSent = true ∧ o.opc ≠ opcMcst) ∨ (o.status ≠ .queued ∧ o.status ≠ .running)) →
      pauseOp o s = s) ∧
    ((o.status = .queued ∨ o.status = .running) → o.runsThrough = false → o.cancel = false →
      (o.inFlight = true → OpIs (pauseOp o s) o.oid fun q => q = { o with pausing := true }) ∧
      (o.inFlight = false → o.kind.isAway = false →
        OpIs (pauseOp o s) o.oid fun q => q.status = .paused ∧ q.cursor = o.cursor ∧ q.held = o.heldLast ∧ q.flying = false ∧
          q.array = false) ∧
      (∀ k z a b hm e rm acc ta tb c zz, o.inFlight = false → o.kind = .mma k z a b hm e rm acc ta tb (some (c, zz)) →
        (OpIs (pauseOp o s) o.oid fun q => q.status = (if ownerRuns s o = true then .queued else .paused) ∧
          q.cursor = o.cursor ∧ q.flying = false ∧ q.kind = .mma k z a b hm e rm acc ta tb none) ∧
        ∀ x, s.homeCtx o = some x → ∃ y, (pauseOp o s).homeCtx o = some y ∧ y.z[z] = zz)) ∧
    ((pauseOp o s).mem = s.mem ∧ (o.kind.isAway = false → (pauseOp o s).tasks = s.tasks))

/-- HANDLER_SPAWN for a task that waits for its handler: one without a handler is killed with its fault; a handler whose kernel
object passes its checks becomes a task of priority 7 that serves it, in the ready queue as a handler from the cycle of the cut;
one whose object does not is killed and RECORD is reported (R327, R328, R340). -/
def Sys2Proof.Claims.HandlersSpawn : Prop :=
  ∀ (s : State) (slot : Nat) (k : Task) (f : FaultInfo) (g : Graph), s.findTask slot = some k → k.fault = some f →
    s.findGraph k.graph = some g → wantsHandler s k = true → k.st = .cutHeld → (s.core k.pcore).run = .held slot →
    let killed := fun (t : State) (code : Nat) => t.findTask slot = none ∧ ∃ h, t.findGraph k.graph = some h ∧
      h.nkill = Min.min (2 ^ 32 - 1) (g.nkill + 1) ∧ (g.fcode = 0 → h.fcode = code)
    (k.hand = 0 → ∃ t, exec (.handlerSpawn slot) s = .next t ∧ killed t f.code) ∧
    (k.hand ≠ 0 → (k.hand % 64 ≠ 0 ∨ 2 ^ 43 ≤ k.hand) → ∃ t, exec (.handlerSpawn slot) s = .next t ∧ killed t 0x1A) ∧
    (∀ s1 w, k.hand ≠ 0 → k.hand % 64 = 0 → k.hand < 2 ^ 43 → readObject k.pcore (graphRights g) k.hand s = (s1, .ok w) →
      kernelBad w = false → kernelTeam w = 1 →
      (∃ d, d < 4 ∧ (s.parts[(Fin.ofNat 4 g.part : Fin 4)]).dies.contains d = true ∧
        ∃ j < 16384, ∀ t ∈ s.tasks, t.slot ≠ 16384 * d + j) →
      ∃ t h, exec (.handlerSpawn slot) s = .next t ∧ t.tasks = s.tasks ++ [h] ∧ (∀ u ∈ s.tasks, u.slot ≠ h.slot) ∧
        h.serves = some slot ∧ h.prio = 7 ∧ h.tsize = 1 ∧ h.st = .ready ∧ h.kobj = k.hand ∧ h.images = kernelImages w ∧
        h.fault = none ∧ h.hand = 0 ∧ h.nsucc = 0 ∧
        ∃ e ∈ (t.parts[(Fin.ofNat 4 g.part : Fin 4)]).queue, e.tasks = [h.slot] ∧
          ((∀ q ∈ (s.parts[(Fin.ofNat 4 g.part : Fin 4)]).queue, ∀ j ∈ q.tasks, ∃ u ∈ s.tasks, u.slot = j) →
            e.handler = true ∧ e.firedAt = k.cutAt ∧ e.resume = false))

/-- CUT_RESUME: a cut held in place, that of a stopped walk too, whose handler has let it go starts again on its core in a dispatch
slot, in an even cycle, and not in an odd one or while a refusal holds the slots; a cut in the store that has been dispatched has its registers and the bytes of its range as they were saved, on the
core that hosts it now, and the buffers of its range are there again, once no accumulator of an ended task is still read there;
other bytes of the scratchpads, when no clear is due, and all other memory stay (R81, R284, R329, R334). -/
def Sys2Proof.Claims.CutsResume : Prop :=
  ∀ (s : State) (slot : Nat) (k : Task), s.findTask slot = some k →
    (k.st = .cutHeld ∨ k.st = .walkFault → (s.core k.pcore).run = .held slot → k.again.isSome = true →
      graphRuns s k.graph = true →
      ((s.cycle % 2 = 1 ∨ s.cycle < s.mgmt.slotHold) → exec (.cutResume slot) s = .next s) ∧
      (s.cycle % 2 = 0 → s.mgmt.slotHold ≤ s.cycle → ∃ t, exec (.cutResume slot) s = .next t ∧ (t.core k.pcore).run = .starting slot s.cycle ∧
        t.ctx k.pcore = s.ctx k.pcore ∧ t.mem = s.mem ∧ (t.findTask slot).map (·.slotAt) = some s.cycle)) ∧
    (∀ i n, k.st = .cutStored → k.image = some i → (s.core k.pcore).run = .starting slot n → k.again = some false →
      needsClear s k = false → zstReads s k.pcore = false → s.mem.wf = true → Memory.wf i.spad = true →
      (∀ e ∈ i.spad, k.base ≤ e.1 ∧ e.1 < k.base + k.size) →
      ∃ t, exec (.cutResume slot) s = .next t ∧ t.ctx k.pcore = i.ctx ∧ t.findTask slot = some { k with image := none } ∧
        (∀ b ∈ i.bufs, b ∈ t.buffers) ∧
        (∀ off, k.base ≤ off → off < k.base + k.size →
          t.mem.read (spadKey k.pcore.val off) = Memory.read i.spad off) ∧
        ∀ j, (j < spadKey k.pcore.val k.base ∨ spadKey k.pcore.val (k.base + k.size) ≤ j) → t.mem.read j = s.mem.read j)

/-- CUT_STORE_MOVE moves a fault cut held in place, or a walk that has stopped at a fault, to the store with its registers and
bytes while the store has room, and its core is free; one whose range another task on a core holds a buffer of, or an op that has
not stopped still touches, stays where it is (R205, R329, R332). -/
def Sys2Proof.Claims.CutsMove : Prop :=
  ∀ (s : State) (slot : Nat) (k : Task), s.findTask slot = some k → (k.st = .cutHeld ∨ k.st = .walkFault) → s.mem.wf = true →
    let rests := fun o : Op => opStopped o = true ∧ o.kind.runsOn = false
    ((cutRoom s k.size = false ∨ (s.core k.pcore).run ≠ .held slot ∨ lentOut s k = true ∨
        ∃ o ∈ s.ops, touchesRange k o = true ∧ ¬rests o) → exec (.cutStoreMove slot) s = .next s) ∧
    ((s.core k.pcore).run = .held slot → cutRoom s k.size = true → lentOut s k = false →
      (∀ o ∈ s.ops, touchesRange k o = true → rests o) →
      ∃ t u i, exec (.cutStoreMove slot) s = .next t ∧ t.findTask slot = some u ∧
      u = { k with st := .cutStored, image := some i } ∧ i.ctx = s.ctx k.pcore ∧ (t.core k.pcore).run = .idle ∧ t.mem = s.mem ∧
      (∀ o, o ∈ i.ops ↔ ∃ q ∈ s.ops, q.oid = o ∧ touchesRange k q = true) ∧
      ∀ off, (s.ctx k.pcore).base ≤ off → off < (s.ctx k.pcore).base + (s.ctx k.pcore).size →
        Memory.read i.spad off = s.mem.read (spadKey k.pcore.val off))

/-! ## Pre-emption, eviction and cancelling -/

/-- PREEMPT_GRAPH stops a running graph's dispatches and asks each of its running tasks to yield; RESUME_GRAPH lets a pre-empted
one dispatch again; a handle of no graph of the port that has not retired shows state 5; while a command is under way, and before READY, another is
ignored (R330, R331, R334). -/
def Sys2Proof.Claims.PreemptionCommands : Prop :=
  ∀ (s : State) (port : Fin 2) (handle : W32),
    let h := handle.toNat
    let part := partOfCtx s (ctxOf h)
    let st := (s.ports[port].pstat[part]).2
    ((partReady s part = false ∨ st = 2 ∨ st = 4) →
      exec (.preemptGraph port handle) s = .next s ∧ exec (.resumeGraph port handle) s = .next s) ∧
    (partReady s part = true → st ≠ 2 → st ≠ 4 →
      (portOf h ≠ port ∨ s.findGraph h = none ∨ (∃ g, s.findGraph h = some g ∧ g.ended ≠ none) →
        let t := s.updPort port fun p => { p with pstat := p.pstat.set part (handle, 5) }
        exec (.preemptGraph port handle) s = .next t ∧ exec (.resumeGraph port handle) s = .next t) ∧
      (∀ g, portOf h = port → s.findGraph h = some g → g.ended = none →
        (g.pre = .running → ∃ t, exec (.preemptGraph port handle) s = .next t ∧
          t.findGraph h = some { g with pre := .preempting s.cycle } ∧ t.ports[port].pstat[part] = (handle, 2) ∧ t.mem = s.mem ∧
          (∀ k ∈ s.tasks, k.graph = h → k.st = .running → (s.core k.pcore).run = .running k.slot →
            (t.ctx k.pcore).tstat.getLsbD 0 = true) ∧
          ∀ c, (t.core c).run = (s.core c).run ∧ (t.ctx c).str = (s.ctx c).str ∧ (t.ctx c).g = (s.ctx c).g) ∧
        (g.pre = .preempted → s.saves = [] →
          ∃ t, exec (.resumeGraph port handle) s = .next t ∧ t.findGraph h = some { g with pre := .resuming } ∧
            t.ports[port].pstat[part] = (handle, 4) ∧ t.mem = s.mem ∧ t.tasks = s.tasks)))

/-- FORCED_CUT. A running task of a graph whose pre-emption has lasted 480,000 cycles is cut, forced, and its detached and adopted
ops drain; before that they are not, nor is a task for whose image the store has no room. A graph that is being pre-empted is
pre-empted once no task of it stands on a core and none of its ops moves; one of which nothing is left retires instead. One that is
being resumed runs once no cut of it waits in the store (R173, R330, R331, R332, R334, R337). -/
def Sys2Proof.Claims.ForcedCuts : Prop :=
  ∀ (s : State) (g : Graph), s.graphs.filter (fun h => h.pre != .running) = [g] → s.findGraph g.handle = some g →
    s.evict = [] → s.saves = [] → heldSlots s g.handle = [] →
    let none_ := ∀ o ∈ s.ops, goesOn s o = false
    let past := g.ended ≠ none ∨ ((∀ k ∈ s.tasks, k.graph ≠ g.handle) ∧ ∀ o ∈ s.ops, o.graph = g.handle → o.status.isLive = false)
    (∀ q, g.pre = .preempting q → past → none_ → exec .forcedCut s = .next s) ∧
    (∀ q k, g.pre = .preempting q → ¬past → k ∈ s.tasks → s.findTask k.slot = some k → k.graph = g.handle → k.st = .running →
      (s.core k.pcore).run = .running k.slot →
      (s.cycle < q + 480000 → none_ → exec .forcedCut s = .next s) ∧
      (q + 480000 ≤ s.cycle → cutRoom s k.size = false →
        ∃ t, exec .forcedCut s = .next t ∧ (t.core k.pcore).run = .running k.slot) ∧
      (q + 480000 ≤ s.cycle → ∃ t, exec .forcedCut s = .next t ∧ t.mem = s.mem ∧ ∀ o ∈ s.ops, (∀ p ∈ s.ops, p.oid = o.oid → p = o) →
        o.graph = g.handle → o.ownPlace = true → (o.status = .queued ∨ o.status = .running) → o.runsThrough = false →
        o.cancel = false → o.inFlight = false → o.kind.isAway = false → OpIs t o.oid fun p => p.status = .paused ∧ p.cursor = o.cursor) ∧
      (q + 480000 ≤ s.cycle → (s.tasks.map fun u => imageBytesOf u.size).sum ≤ 8589934592 → k.forced = false → k.image = none →
        (∀ o ∈ s.ops, o.kind.isAway = false) →
        (∀ u ∈ s.tasks, u.slot = k.slot → u = k) → ∃ t, exec .forcedCut s = .next t ∧ (t.core k.pcore).run = .cutting k.slot s.cycle ∧
        t.findTask k.slot = some { k with forced := true } ∧ t.mem = s.mem ∧ t.ctx k.pcore = s.ctx k.pcore)) ∧
    (∀ q, g.pre = .preempting q → ¬past → (∀ k ∈ s.tasks, k.graph = g.handle → k.st ≠ .ending ∧ onCore s k = false) →
      (∀ o ∈ s.ops, s.findOp o.oid = some o) → (∀ o ∈ s.ops, o.graph = g.handle → opStopped o = true) →
      ∃ t, exec .forcedCut s = .next t ∧ t.findGraph g.handle = some { g with pre := .preempted } ∧ t.mem = s.mem) ∧
    (g.pre = .resuming → (∀ k ∈ s.tasks, k.graph = g.handle → k.st ≠ .cutStored ∨ k.again = none) →
      ∃ t, exec .forcedCut s = .next t ∧ t.findGraph g.handle = some { g with pre := .running } ∧ t.mem = s.mem)

/-- EVICTION asks the tasks of the cores it names to yield. After the grace period the task of an evicted core is cut, and the core's
ops drain from that cut on. Once every evicted core is clear and no op is left, at an even cycle,
FORCED_CUT rebuilds the mapping of each partition as the hardware stands; while the stacks of a die that is to be drained are not
all retired it does not. With the mapping the drained dies leave, and those that return have their stacks again; a partition that is
left with fewer than ten clusters is short (R12, R13, R17, R18, R173, R330, R331, R354, R361). -/
def Sys2Proof.Claims.Evictions : Prop :=
  ∀ (s : State) (cores : List CoreId),
    (∃ t, exec (.eviction cores) s = .next t ∧ t.mem = s.mem ∧ t.tasks = s.tasks ∧
      (∀ e ∈ s.evict, e ∈ t.evict) ∧ (∀ c ∈ cores, ∃ n, (c, n) ∈ t.evict) ∧
      (∀ c ∈ cores, (∀ e ∈ s.evict, e.1 ≠ c) → ∀ slot, (s.core c).run = .running slot → (t.ctx c).tstat.getLsbD 0 = true) ∧
      ∀ c, (t.core c).run = (s.core c).run ∧ (t.ctx c).g = (s.ctx c).g ∧ (t.ctx c).str = (s.ctx c).str) ∧
    (∀ c n slot k, s.evict = [(c, n)] → s.graphs = [] → s.saves = [] → (s.core c).run = .running slot → s.findTask slot = some k →
      k.st = .running → n + 480000 ≤ s.cycle → cutRoom s k.size = true →
      ∃ t, exec .forcedCut s = .next t ∧ (t.core c).run = .cutting slot s.cycle ∧ t.mem = s.mem ∧
        (t.findTask slot).map (·.forced) = some true ∧
        ∀ o ∈ s.ops, (∀ p ∈ s.ops, p.oid = o.oid → p = o) → o.rights.pcore = c.val → (o.status = .queued ∨ o.status = .running) →
          o.runsThrough = false → o.cancel = false → o.inFlight = false → o.kind.isAway = false →
          OpIs t o.oid fun p => p.status = .paused ∧ p.cursor = o.cursor) ∧
    ((∃ d ∈ s.mgmt.draining, ∃ k, k / 3 = d ∧ k ∉ s.mgmt.retired) → s.graphs = [] → s.saves = [] →
      (∀ o ∈ s.ops, o.status ≠ .queued ∧ o.status ≠ .running ∧ goesOn s o = false) → (∀ e ∈ s.evict, (s.core e.1).run = .idle) → exec .forcedCut s = .next s) ∧
    (s.evict ≠ [] → s.graphs = [] → s.ops = [] → s.saves = [] → (∀ d ∈ s.mgmt.draining, ∀ k, k / 3 = d → k ∈ s.mgmt.retired) →
      s.cycle % 2 = 0 →
      (∀ e ∈ s.evict, (s.core e.1).run = .idle) → (∀ c ∈ movedHosts s, ∃ e ∈ s.evict, e.1 = c) →
      ∃ t, exec .forcedCut s = .next t ∧ t.evict = [] ∧ t.mgmt.draining = [] ∧ t.mgmt.returning = [] ∧
        (∀ d, d ∈ t.mgmt.drained ↔ (d ∈ s.mgmt.drained ∧ d ∉ s.mgmt.returning) ∨ d ∈ s.mgmt.draining) ∧
        (∀ k, k ∈ t.mgmt.retired ↔ k ∈ s.mgmt.retired ∧ k / 3 ∉ s.mgmt.returning) ∧
        ∀ p : Fin 4, (s.parts[p]).used = true →
          let same := usableMap s p = (s.parts[p]).map ∧ usableBanks s p = (s.parts[p]).banks
          (t.parts[p]).map = usableMap s p ∧
          (t.parts[p]).mapGen = (if same then (s.parts[p]).mapGen else ((s.parts[p]).mapGen + 1) % 2 ^ 32) ∧
          ((t.parts[p]).short = true ↔ (s.parts[p]).short = true ∨ (¬same ∧ s.mgmt.ready = true ∧ (usableMap s p).length < 10)))

/-- CORE_LOST: the core has failed and nothing runs on it, its task has no cut and a fault with LOST, and the eight cores of its
cluster are to be evicted (R12, R19). -/
def Sys2Proof.Claims.LostCores : Prop :=
  ∀ (c : CoreId) (s : State), ∃ t, exec (.coreLost c) s = .next t ∧ (t.core c).failed = true ∧ t.mem = s.mem ∧
      (∀ d : CoreId, d.val / 8 = c.val / 8 → ∃ n, (d, n) ∈ t.evict) ∧
      ∀ slot k, (s.core c).run = .running slot → s.findTask slot = some k → k.dying = false → k.st = .running → k.serves = none →
        (∀ o ∈ s.ops, o.owner ≠ some slot) →
        (t.core c).run = .idle ∧ ∃ u f, t.findTask slot = some u ∧ u.st = .cutStored ∧ u.image = none ∧ u.fault = some f ∧
          f.lost = true ∧ f.src = 3 ∧ f.code = 0x10

/-- GCAN of a live graph of the context, and GRAPH_TIMEOUT of one whose TMO has elapsed, cancel it: its state says how, a timeout
is its fault, every task of it that was never dispatched is gone and uncounted, and one that runs is being cut to die; a handle
of another context or of no graph, and a graph already cancelled or retired, stay as they are (R33, R80, R335, R340, R343). -/
def Sys2Proof.Claims.GraphsCancel : Prop :=
  ∀ (s : State) (port : Fin 2) (ctx : Fin 64) (handle : W32) (g : Graph),
    let h := handle.toNat
    ((partReady s (partOfCtx s ctx) = false ∨ portOf h ≠ port ∨ ctxOf h ≠ ctx ∨ s.findGraph h = none) →
      exec (.gcan port ctx handle) s = .next s) ∧
    (s.findGraph h = some g → (g.cancel ≠ 0 ∨ g.ended ≠ none) → exec (.gcan port ctx handle) s = .next s ∧ exec (.graphTimeout h) s = .next s) ∧
    (s.findGraph h = some g → g.cancel = 0 → g.ended = none →
      let cancelled := fun (t : State) (how : Nat) => (t.findGraph h).map (·.cancel) = some how ∧
        (∀ k ∈ s.tasks, k.graph = h → (k.st = .bound ∨ k.st = .ready) → k.serves = none → t.findTask k.slot = none) ∧
        (∀ k ∈ s.tasks, k.graph = h → k.st = .running → k.dying = false → (∀ u ∈ s.tasks, u.slot = k.slot → u = k) →
          (s.core k.pcore).run = .running k.slot →
          (t.core k.pcore).run = .cutting k.slot s.cycle ∧ (t.findTask k.slot).map (·.dying) = some true) ∧
        ((s.tasks.map (·.slot)).Nodup → g.nkill < 2 ^ 32 → (t.findGraph h).map (·.nkill) = some (Min.min (2 ^ 32 - 1) (g.nkill +
          s.tasks.countP fun k => k.graph == h && !((k.st == .bound || k.st == .ready) && k.serves.isNone) && !k.dying &&
            k.st != .ending)))
      (partReady s (partOfCtx s ctx) = true → portOf h = port → ctxOf h = ctx → ∃ t, exec (.gcan port ctx handle) s = .next t ∧ cancelled t 3) ∧
      (0 < g.tmo → g.tmo * 2400000 ≤ g.timed → ∃ t, exec (.graphTimeout h) s = .next t ∧ cancelled t 4 ∧
        (g.fcode = 0 → (t.findGraph h).map (·.fcode) = some 0x14)) ∧
      (g.timed < g.tmo * 2400000 → exec (.graphTimeout h) s = .next s))

/-! ## Fetching, and the stamps that are missed -/

/-- SCHEDULE_MISS of a running stream whose pending stamp is past its cycle and slack: an ELASTIC frame counts one miss, a
STRICT one faults with the task's state as it was; before that, twice for one stamp, in FREE mode or before the frame has begun
nothing happens (R157, R159). -/
def Sys2Proof.Claims.StampsAreMissed : Prop :=
  ∀ (c : CoreId) (st : Stream) (s : State) (slot : Nat) (k : Nat), (s.core c).run = .running slot →
    ((s.ctx c).strm st).stamp = some k →
    let x := s.ctx c
    let late := x.fbegan ≠ none ∧ k + x.slack.toNat < frameCycle s.cycle x
    let i := Instr.scheduleMiss c st
    ((¬late ∨ x.frmode = 0 ∨ (x.frmode = 1 ∧ (x.strm st).missed = true)) → exec i s = .next s) ∧
    (late → x.frmode = 1 → (x.strm st).missed = false →
      exec i s = .next (s.setCtx c ({ x with smiss := if x.smiss = 0xFFFFFFFF then 0xFFFFFFFF else x.smiss + 1 }.setStrm st
        { x.strm st with missed := true }))) ∧
    (late → x.frmode = 2 → ∃ t f, exec i s = .next t ∧ (t.core c).run = .cutting slot s.cycle ∧ t.ctx c = x ∧
      t.tasks = (s.updTask slot fun u => { u with fault := some f }).tasks ∧ f.code = 0x0D ∧ f.stream = st ∧
      f.pc = (x.strm st).pc ∧ f.src = 0 ∧ f.skip = false ∧ t.mem = s.mem ∧ t.focus = s.focus)

/-- FETCH_REQUEST for the line a stream waits for, or its next line: a line in the die's fetch buffer reaches the core at once; a
pending fill of the same key not older than 64 cycles is joined; else a new fill starts, which knows where its line lies or why it
cannot be read. Nothing else changes (R121, R123, R124). -/
def Sys2Proof.Claims.LinesAreRequested : Prop :=
  ∀ (c : CoreId) (st : Stream) (s : State),
    let d := dieOf c
    let i := Instr.fetchRequest c st
    ((wantedLine s c st = none ∨ fetches s c = false) → exec i s = .next s) ∧
    (∀ line, wantedLine s c st = some line → fetches s c = true → fillPending s c st line = false →
      let key := requestKey s c st line
      (∀ l, s.dies[d].buffer.find? key.sameKey = some l → ∃ t, exec i s = .next t ∧ heldLine t c st line = some l ∧
        ((t.ctx c).strm st).miss = none ∧ t.dies = s.dies ∧ t.mem = s.mem ∧ (t.core c).run = (s.core c).run) ∧
      (s.dies[d].buffer.find? key.sameKey = none →
        (∀ f ∈ s.dies[d].fills, f.line.sameKey key = false ∨ f.first + 64 < s.cycle) →
        let from_ := fun (m : State) (code at_ : Nat) => { m with dies := m.dies.set d { m.dies[d] with
          fills := m.dies[d].fills ++ [⟨key, m.cycle, [(c, st)], code, at_⟩] } }
        (∀ m at_, findLine s c line = (m, .ok at_) → exec i s = .next (from_ m 0 at_)) ∧
        ∀ m code, findLine s c line = (m, .error code) → exec i s = .next (from_ m code 0)) ∧
      (s.dies[d].buffer.find? key.sameKey = none →
        (∃ f ∈ s.dies[d].fills, f.line.sameKey key = true ∧ s.cycle ≤ f.first + 64) →
        ∃ t, exec i s = .next t ∧ t.cores = s.cores ∧ t.mem = s.mem ∧ t.dies[d].fills.length = s.dies[d].fills.length ∧
          ∃ f ∈ t.dies[d].fills, f.line.sameKey key = true ∧ (c, st) ∈ f.joined))

/-- FETCH_FILL. The data of a line reaches the fetch buffer, of 2,048 lines, and the cache of every stream that joined, and those
that wait for it wait no more; the registers and the pc of a stream that does not wait stay. A line that could not be read when it
was asked for is dropped for the streams that do not wait for it; for one that waits it is translated again now, and it reaches that
stream, or its fault code does (R121, R124, R222). -/
def Sys2Proof.Claims.FillsArrive : Prop :=
  ∀ (die : Fin 4) (n : Nat) (s : State) (f : Fill), s.dies[die].fills[n]? = some f →
    let rest := s.dies[die].fills.eraseIdx n
    let i := Instr.fetchFill die n
    let line := fun (m : State) (key : Nat) => { f.line with
      data := m.load key 128, ue := ((wordsAt key 128).filter m.poison.contains).map fun w => w - key }
    (f.code = 0 →
      let l := line s f.at_
      ∃ t, exec i s = .next t ∧ t.mem = s.mem ∧ t.dies[die].buffer.head? = some l ∧ t.dies[die].fills = rest ∧
        t.dies[die].buffer.length ≤ 2048 ∧ (∀ c, (t.ctx c).rest = (s.ctx c).rest) ∧
        (∀ c st, ((t.ctx c).strm st).pc = ((s.ctx c).strm st).pc) ∧
        ∀ p ∈ f.joined, (t.core p.1).icache[p.2.idx].head? = some l ∧
          (waitsFor s p l = true → ((t.ctx p.1).strm p.2).miss = none) ∧
          (waitsFor s p l = false → (t.ctx p.1).strm p.2 = (s.ctx p.1).strm p.2)) ∧
    (f.code ≠ 0 →
      exec i s = .next (f.joined.foldl (failFill die f) { s with dies := s.dies.set die { s.dies[die] with fills := rest } }) ∧
      ∀ (m : State) (p : CoreId × Stream), (waitsFor m p f.line = false → failFill die f m p = m) ∧
        (waitsFor m p f.line = true →
          let t := failFill die f m p
          (∀ m' code, findLine m p.1 f.line.addr = (m', .error code) → t.mem = m'.mem ∧
            ((t.ctx p.1).strm p.2).missCode = code ∧ ∀ c, (t.core c).icache = (m.core c).icache) ∧
          ∀ m' key, findLine m p.1 f.line.addr = (m', .ok key) → t.mem = m'.mem ∧ ((t.ctx p.1).strm p.2).miss = none ∧
            (t.core p.1).icache[p.2.idx].head? = some (line m' key) ∧ t.dies[die].buffer.head? = some (line m' key)))

/-- ICINV, one per port and partition. A write sets BUSY for one context, or for all of the port, and one while BUSY is set or before
READY does nothing. That the lines go as it completes, and that ALL covers every context of the port whatever partition offers it,
is the model's choice (notes/assumptions/37.md). At its
completion every line of those contexts is gone from the instruction caches and the fetch buffers, every other line and all
registers stay, and BUSY is clear (R125, R126, R353). -/
def Sys2Proof.Claims.CodeIsInvalidated : Prop :=
  ∀ (port : Fin 2) (part : Fin 4) (ctx : Fin 64) (s : State),
    let busy := fun (q : Fin 4) => (s.ports[port].icinv[q]).isSome = true ∨ partReady s q = false
    let set := fun (q : Fin 4) (which : Option Nat) => s.updPort port fun p => { p with icinv := p.icinv.set q (some (which, s.cycle)) }
    (busy (partOfCtx s ctx) → exec (.icinvContext port ctx) s = .next s) ∧
    (busy part → exec (.icinvAll port part) s = .next s) ∧
    (¬busy (partOfCtx s ctx) → exec (.icinvContext port ctx) s = .next (set (partOfCtx s ctx) (some ctx.val))) ∧
    (¬busy part → exec (.icinvAll port part) s = .next (set part none)) ∧
    (s.ports[port].icinv[part] = none → exec (.icinvComplete port part) s = .next s) ∧
    (∀ which n, s.ports[port].icinv[part] = some (which, n) →
      let hit := fun (l : ILine) => l.port = port.val ∧ (which = none ∨ which = some l.ctx)
      ∃ t, exec (.icinvComplete port part) s = .next t ∧
        t.ports[port].icinv = (s.ports[port].icinv).set part none ∧ t.mem = s.mem ∧
        (∀ c : CoreId, t.ctx c = s.ctx c ∧ (t.core c).tlb = (s.core c).tlb) ∧
        (∀ (c : CoreId) (k : Fin 4), ∀ l, l ∈ (t.core c).icache[k] ↔ l ∈ (s.core c).icache[k] ∧ ¬hit l) ∧
        (∀ d : Fin 4, ∀ l, l ∈ t.dies[d].buffer ↔ l ∈ s.dies[d].buffer ∧ ¬hit l) ∧
        ∀ d : Fin 4, ∀ f ∈ t.dies[d].fills, ¬hit f.line)

/-! ## Launches and contexts -/

/-- LAUNCH. A write that reaches the LAUNCH field takes the next number and waits; with 16 launches outstanding it is counted in
LREF and dropped; outside the field, or while the partition is not ready, it does nothing (R70, R71, R72). -/
def Sys2Proof.Claims.LaunchesAreTaken : Prop :=
  ∀ (port : Fin 2) (ctx : Fin 64) (off : Nat) (bytes : List Byte) (s : State),
    let c := s.ports[port].ctx[ctx]
    let i := Instr.launch port ctx off bytes
    ((partReady s (partOfCtx s ctx) = false ∨ 64 ≤ off ∨ bytes = []) → exec i s = .next s) ∧
    (partReady s (partOfCtx s ctx) = true → off < 64 → bytes ≠ [] →
      (c.lcnt - c.ldone = 16 → exec i s = .next (s.updContext port ctx fun _ => { c with lref := c.lref + 1 })) ∧
      (c.lcnt - c.ldone ≠ 16 → exec i s = .next (s.updContext port ctx fun _ => { c with
        lcnt := c.lcnt + 1
        queue := c.queue ++ [⟨(c.lcnt + 1).toNat, decide (off = 0 ∧ 64 ≤ bytes.length), bytes.take 64⟩] })))

/-- A launch is answered: its status entry is written, LDONE rises and it leaves the queue. -/
def answered (s : State) (port : Fin 2) (ctx : Fin 64) (rest : List Launch) (num tag code : Nat) : State :=
  s.updContext port ctx fun c => { c with
    queue := rest, stat := c.stat.set (Fin.ofNat 16 num) (statusWord num tag ⟨code, 0, 0, 0⟩), ldone := c.ldone + 1 }

/-- LAUNCH_PROCESS answers the oldest launch of a context. A closed context, a partial write, a bad record and a full context are
answered with their codes and change nothing else; one that passes every check makes its graph, with a status of accepted,
accepted as dynamic or bad root. A handler that waits for a slot comes first (R72 to R77, R327). -/
def Sys2Proof.Claims.LaunchesAreAnswered : Prop :=
  ∀ (port : Fin 2) (ctx : Fin 64) (s : State) (l : Launch) (rest : List Launch),
    let x := s.ports[port].ctx[ctx]
    let part := partOfCtx s ctx
    let w := ofBytes l.bytes
    let tag := if l.whole then w / 2 ^ 416 % 2 ^ 32 else 0
    let i := Instr.launchProcess port ctx
    (x.queue = [] → exec i s = .next s) ∧
    (x.queue = l :: rest →
      (x.en = false → exec i s = .next (answered s port ctx rest l.num tag 0x16)) ∧
      (x.en = true → l.whole = false → exec i s = .next (answered s port ctx rest l.num tag 0x17)) ∧
      (x.en = true → l.whole = true → (launchBad w = true ∨ x.cbase = 0) →
        exec i s = .next (answered s port ctx rest l.num tag 0x10)) ∧
      (x.en = true → l.whole = true → launchBad w = false → x.cbase ≠ 0 → freeGraphSlot s port ctx = none →
        exec i s = .next (answered s port ctx rest l.num tag 0x12)) ∧
      (∀ slot s1 roots block, x.en = true → l.whole = true → launchBad w = false → x.cbase ≠ 0 →
        freeGraphSlot s port ctx = some slot →
        readLaunch (portCore port) (contextRights part.val port.val ctx.val x.ptroot) w s = (s1, .ok (roots, block)) →
        let die := launchDie s port part
        ((freeCounters s die < block.length + roots.length ∨ freeSlots s die < roots.length + handlersWaiting s part.val) →
          exec i s = .next (answered s1 port ctx rest l.num tag 0x13)) ∧
        (block.length + roots.length ≤ freeCounters s die → roots.length + handlersWaiting s part.val ≤ freeSlots s die →
          let h := (x.gens[Fin.ofNat 64 slot]).toNat + slot * 2 ^ 19 + ctx.val * 2 ^ 25 + port.val * 2 ^ 31
          ∃ (t : State) (code idx check : Nat), exec i s = .next t ∧ (t.ports[port].ctx[ctx]).queue = rest ∧
            (t.ports[port].ctx[ctx]).stat[Fin.ofNat 16 l.num] = statusWord l.num tag ⟨code, idx, check, h⟩ ∧
            (code = 0x01 ∨ code = 0x02 ∨ code = 0x11) ∧ ∃ g ∈ t.graphs, g.handle = h)))

/-- A write of a context descriptor. Before the partition is ready, and when it would open a context whose graphs have not all
retired, it is ignored whole. Opening starts the context's counts at 0; FAB is taken when no other open context has it;
the code lines of the context are gone; closing cancels its graphs (R68, R125). -/
def Sys2Proof.Claims.ContextsOpenAndClose : Prop :=
  ∀ (port : Fin 2) (ctx : Fin 64) (lo : W64) (s : State),
    let c := s.ports[port].ctx[ctx]
    let ready := partReady s (partOfCtx s ctx) = true
    let i := Instr.contextDescriptorWrite port ctx lo
    let fields := fun (c : Context) => { c with
      en := lo.getLsbD 0, priv := lo.getLsbD 1, fab := lo.getLsbD 2 && !fabTaken s port ctx
      gmax := lo.toNat / 256 % 128, ptroot := lo.toNat / 65536 * 65536 }
    (¬ready → exec i s = .next s) ∧
    (lo.getLsbD 0 = true → c.en = false → graphsOf s port ctx ≠ [] → exec i s = .next s) ∧
    (ready → (c.en = true ∨ lo.getLsbD 0 = false ∨ graphsOf s port ctx = []) →
      ∃ t, exec i s = .next t ∧ t.mem = s.mem ∧
        (t.ports[port].ctx[ctx]) = fields (if lo.getLsbD 0 = true ∧ c.en = false then
          { c with lcnt := 0, ldone := 0, lref := 0, queue := [], oseq := [] } else c) ∧
        (∀ (q : CoreId) (k : Fin 4), ∀ e ∈ (t.core q).icache[k], ¬(e.port = port.val ∧ e.ctx = ctx.val)) ∧
        (lo.getLsbD 0 = true → t.graphs = s.graphs ∧ t.tasks = s.tasks) ∧
        (lo.getLsbD 0 = false → ∀ g ∈ graphsOf s port ctx, ∃ h, t.findGraph g.handle = some h ∧ h.cancel ≠ 0))

/-! ## Ridge -/

/-- CANDIDATE_READY: from 20 cycles after its counter fired an entry is a candidate (R81). -/
def Sys2Proof.Claims.CandidatesAreReady : Prop :=
  ∀ (part : Fin 4) (s : State),
    exec (.candidateReady part) s = .next (s.updPart part fun p => { p with
      queue := p.queue.map fun e => { e with cand := e.cand || decide (e.firedAt + 20 ≤ s.cycle) } })

/-- The ready order: handlers come first, by the smaller sequence number of the faulting task; then, and among handlers of equal
numbers, the greater task priority, of equals the greater class; at one pair of those the graph that stands earlier in the ring, which
counts from the graph of the pointer in ascending handle and round; and of one graph the smaller sequence number (R82, R83). -/
def Sys2Proof.Claims.ReadyOrderRanks : Prop :=
  ∀ (s : State) (part : Fin 4),
    let l := candidates s part
    let key := readyKey s.parts[part] l
    (readyOrder s part).Pairwise (fun a b => key a ≤ key b) ∧ (∀ e, e ∈ readyOrder s part ↔ e ∈ l) ∧
    ∀ a b, (a.1.handler = true → b.1.handler = false → key a < key b) ∧
      (a.1.handler = true → b.1.handler = true → a.2.1.seq < b.2.1.seq → b.2.1.seq < 2 ^ 40 → key a < key b) ∧
      (a.1.handler = b.1.handler → (a.1.handler = true → a.2.1.seq = b.2.1.seq) →
        a.2.1.prio < 8 → b.2.1.prio < 8 → a.2.2.pcls < 4 → b.2.2.pcls < 4 →
        (b.2.1.prio < a.2.1.prio → key a < key b) ∧
        (a.2.1.prio = b.2.1.prio → b.2.2.pcls < a.2.2.pcls → key a < key b) ∧
        (a.2.1.prio = b.2.1.prio → a.2.2.pcls = b.2.2.pcls → a.2.2.handle = b.2.2.handle → a.2.1.seq < 2 ^ 40 →
          b.2.1.seq < 2 ^ 40 → a.2.1.seq < b.2.1.seq → key a < key b) ∧
        (a ∈ l → b ∈ l → l.length < 2 ^ 20 → a.2.1.prio = b.2.1.prio → a.2.2.pcls = b.2.2.pcls →
          let ring := ringOf l a.2.1.prio a.2.2.pcls
          let ptr := (pointerOf s.parts[part] a.2.1.prio a.2.2.pcls ring).1
          let x := a.2.2.handle
          let y := b.2.2.handle
          ((ptr ≤ x ∧ x < y) ∨ (x < y ∧ y < ptr) ∨ (ptr ≤ x ∧ y < ptr)) → key a < key b))

/-- The rings. At a pair of task priority and class where graphs hold candidates the pointer stays while its graph is one of them and
has had fewer than WGT dispatches since it arrived, and else goes to the next handle of the ring, or from the greatest to the
least, with no dispatch counted; a pair that has no pointer yet gets the least handle. Only a dispatch of the graph at the
pointer counts (R83). -/
def Sys2Proof.Claims.RingsTurn : Prop :=
  ∀ (part : Fin 4) (s : State) (prio pcls : Nat), prio < 8 → pcls < 4 →
    let ring := ringOf (candidates s part) prio pcls
    let ptr := fun (t : State) => (t.parts[part]).rings.find? fun r => r.prio == prio && r.pcls == pcls
    let t := tidyRings part s
    (∀ h, h ∈ ring ↔ ∃ e ∈ candidates s part, e.2.1.prio = prio ∧ e.2.2.pcls = pcls ∧ e.2.2.handle = h) ∧
    (ring = [] → ptr t = ptr s) ∧
    (ptr s = none → ring ≠ [] → ∃ h ∈ ring, (∀ x ∈ ring, h ≤ x) ∧ ptr t = some ⟨prio, pcls, h, 0⟩) ∧
    (∀ r g, ptr s = some r → s.findGraph r.graph = some g → r.graph ∈ ring → r.count < Max.max 1 g.wgt → ptr t = some r) ∧
    (∀ r, ptr s = some r → ring ≠ [] → (r.graph ∉ ring ∨ ∃ g, s.findGraph r.graph = some g ∧ Max.max 1 g.wgt ≤ r.count) →
      ∃ h ∈ ring, ptr t = some ⟨prio, pcls, h, 0⟩ ∧
        ((r.graph < h ∧ ∀ x ∈ ring, r.graph < x → h ≤ x) ∨ (∀ x ∈ ring, x ≤ r.graph ∧ h ≤ x))) ∧
    (∀ (k : Task) (g : Graph), ptr (countDispatch part k g s) = (ptr s).map fun r =>
      if k.prio = prio ∧ g.pcls = pcls ∧ r.graph = g.handle then { r with count := r.count + 1 } else r)

/-- DISPATCH_SLOT. Slots are the even cycles of a partition in use, but for those after a microcode update. Of the first 64 entries
in the ready order the first that fits leaves the queue and each task of it starts at its place in this slot; when none fits
nobody is dispatched. When it is not the head, the head's pass count rises by one, up to AGE, and the head that reaches AGE
while no drain is held is due for one; the dispatch counts in the ring of its pair. A recording notes which of its entries the
task is (R83, R84, R90, R91, R93, R101, R359). -/
def Sys2Proof.Claims.SlotsDispatch : Prop :=
  ∀ (part : Fin 4) (s : State),
    let i := Instr.dispatchSlot part
    let s1 := tidyRings part s
    ((s.cycle % 2 = 1 ∨ s.cycle < s.mgmt.slotHold ∨ (s.parts[part]).used = false) → exec i s = .next s) ∧
    (s.cycle % 2 = 0 → s.mgmt.slotHold ≤ s.cycle → (s.parts[part]).used = true →
      (readyOrder s1 part = [] → exec i s = .next s1) ∧
      (∀ head rest, readyOrder s1 part = head :: rest →
        let s2 := startDrain part head.1 s1
        ((∀ e ∈ (head :: rest).take 64, entrySpots s2 part e.1 = none) → exec i s = .next s2) ∧
        (∀ n e l, n < 64 → (head :: rest)[n]? = some e → entrySpots s2 part e.1 = some l →
          (∀ m d, m < n → (head :: rest)[m]? = some d → entrySpots s2 part d.1 = none) →
          let passed := e.1.tasks ≠ head.1.tasks
          ∃ u, exec i s = .next (tidyRings part u) ∧ u.mem = s.mem ∧
            (u.parts[part]).rings = ((countDispatch part e.2.1 e.2.2 s2).parts[part]).rings ∧
            (passed → (u.parts[part]).queue = ((s.parts[part]).queue.map fun q =>
              if q.tasks = head.1.tasks ∧ q.pass < (s.parts[part]).age then { q with pass := q.pass + 1 } else q).filter
                fun q => q.tasks != e.1.tasks) ∧
            (¬passed → (u.parts[part]).queue = (s.parts[part]).queue.filter fun q => q.tasks != e.1.tasks) ∧
            (passed → (s2.parts[part]).drain = none → head.1.pass + 1 = (s.parts[part]).age →
              (u.parts[part]).due = some head.1.tasks) ∧
            (¬passed ∨ (s2.parts[part]).drain ≠ none ∨ head.1.pass + 1 ≠ (s.parts[part]).age → (u.parts[part]).due = none) ∧
            ((l.map (·.pcore)).Nodup → ∀ k sp, (k, sp) ∈ (e.1.tasks.filterMap s.findTask).zip l →
              (u.core sp.pcore).run = .starting k.slot s.cycle ∧ u.ctx sp.pcore = s.ctx sp.pcore) ∧
            (∀ k sp, e.1.tasks = [k.slot] → s.findTask k.slot = some k → l = [sp] → ∃ n,
              (n = k.logIdx ∨ ∃ g spoiled, s.findGraph k.graph = some g ∧ g.mode = .recording spoiled ∧
                n = some (g.log.countP (·.lcore == sp.lcore))) ∧
              u.findTask k.slot = some { k with
                lcore := sp.lcore, pcore := sp.pcore, base := sp.base, slotAt := s.cycle, logIdx := n
                st := if k.st = .ready then .running else k.st
                oseqAt := if k.st = .ready ∨ k.again = some true then oseqNow s k sp.lcore else k.oseqAt }))))

/-- A drain starts, while none is held, for the entry that reached AGE in the last slot, or for a head that has been passed over
AGE times: it names the physical cluster with the most free cores and the entry's tasks, and NDRAIN counts it (R91, R92). -/
def Sys2Proof.Claims.DrainsStart : Prop :=
  ∀ (part : Fin 4) (head : QEntry) (s : State),
    let p := s.parts[part]
    let free := fun (k : Nat) => (List.range 8).countP fun j => coreIdle s (coreOfNat (8 * k + j))
    ((p.drain ≠ none ∨ (p.due = none ∧ head.pass < p.age)) →
      startDrain part head s = s.updPart part fun p => { p with due := none }) ∧
    (∀ l, p.drain = none → p.map ≠ [] →
      ((p.due = some l ∧ p.queue.any (·.tasks == l) = true) ∨ (p.due = none ∧ p.age ≤ head.pass ∧ l = head.tasks)) →
      ∃ k ∈ p.map, (∀ j ∈ p.map, free j ≤ free k) ∧
        startDrain part head s = s.updPart part fun p => { p with due := none, drain := some (k, l), ndrain := p.ndrain + 1 })

/-- The start state of a task (R94, R328). -/
structure StartState (s : State) (k : Task) (x : Ctx) : Prop where
  args   : x.g[1] = k.args ∧ x.aL[15] = k.args ∧ x.aS[15] = k.args
  names  : x.g[2] = BitVec.ofNat 64 k.handle ∧ x.g[3] = BitVec.ofNat 64 k.lcore
  base   : x.g[4] = BitVec.ofNat 64 k.base ∧ x.aL[14] = BitVec.ofNat 64 k.base ∧ x.aS[14] = BitVec.ofNat 64 k.base
  zeros  : (∀ r : Fin 32, r = 0 ∨ 6 < r.val → x.g[r] = 0) ∧ (∀ r : Fin 16, r.val < 14 → x.aL[r] = 0 ∧ x.aS[r] = 0)
  vecs   : x.v = Vector.replicate 24 Vec.zero ∧ x.z = Vector.replicate 4 Acc.zero
  queues : (∀ q : Fin 8, x.iq[q] = [] ∧ x.oq[q] = [] ∧ x.tok[q].count = 0 ∧ x.tok[q].pending = []) ∧ x.mq = [] ∧ x.gq = []
  recs   : x.h = Vector.replicate 16 none ∧ x.n = Vector.replicate 8 none ∧ x.fmt = Vector.replicate 32 0
  modes  : x.fctl = 0 ∧ x.fstat = 0 ∧ x.ftb = 0 ∧ x.frmode = 0 ∧ x.slack = 0 ∧ x.smiss = 0
  loops  : ∀ n : Fin 4, x.lc[n].active = false ∧ x.lc[n].value = 0
  mine   : x.task = BitVec.ofNat 32 k.handle ∧ x.graph = BitVec.ofNat 32 k.graph ∧ x.lcore = BitVec.ofNat 10 k.lcore ∧
    x.tseq = BitVec.ofNat 40 k.seq ∧ x.base = k.base ∧ x.size = k.size
  tstat  : x.tstat.getLsbD 0 = preqNow s k ∧ x.tstat.getLsbD 1 = k.traced.isSome ∧ x.tstat.getLsbD 2 = k.serves.isSome ∧
    x.tstat.getLsbD 3 = k.retry
  images : ∀ st : Stream, let m := k.images.getD st.idx.val (0, 0)
    (x.strm st).pc = m.1 ∧ (x.strm st).ended = (m.2 == 0) ∧ (x.strm st).stamp = none ∧ (x.strm st).accs = []
  plain  : k.serves = none → x.g[5] = 0 ∧ x.g[6] = 0

/-- STREAMS_START. Before 32 cycles after its slot nothing starts. Then a task that starts runs from its start state, its
scratchpad cleared first when the core's last task was of another context; a handler's range holds the fault record of the
task it serves, which its g5 and g6 name (R93, R94, R96, R326, R328). -/
def Sys2Proof.Claims.StreamsStart : Prop :=
  ∀ (c : CoreId) (s : State) (slot n : Nat) (k : Task), (s.core c).run = .starting slot n → s.findTask slot = some k →
    k.pcore = c → k.tsize ≤ 1 →
    let i := Instr.streamsStart c
    (s.cycle < n + 32 → exec i s = .next s) ∧
    (n + 32 ≤ s.cycle → k.image = none → zstReads s c = false → k.st = .running →
      (k.serves = none → ∃ t, exec i s = .next t ∧ (t.core c).run = .running slot ∧ StartState s k (t.ctx c) ∧
        t.findTask slot = some { k with st := .running, started := s.cycle, again := none, fault := none, forced := false } ∧
        (needsClear s k = false → t.mem = s.mem) ∧
        (needsClear s k = true → heldRanges s c.val = [] → ∀ a, t.mem.read a =
          if spadKey c.val 0 ≤ a ∧ a < spadKey c.val 2097152 then 0 else s.mem.read a)) ∧
      (∀ u f, k.serves = some u.slot → s.findTask u.slot = some u → u.slot ≠ slot → u.fault = some f →
        needsClear s k = false → s.mem.wf = true →
        ∃ t, exec i s = .next t ∧ (t.core c).run = .running slot ∧ StartState s k (t.ctx c) ∧
          (t.ctx c).g[5] = BitVec.ofNat 64 u.handle ∧ (t.ctx c).g[6] = BitVec.ofNat 64 (2 ^ 56) + BitVec.ofNat 64 k.base ∧
          t.mem.readN (spadKey c.val k.base) 64 = faultRecord u.handle f))

/-- STREAMS_START of a cut that goes on: its registers are those of the cut but for the frame, which goes on ELASTIC where it was
STRICT, and PREQ, which shows whether a yield is asked for now; its streams stand where they stood. A cut of a walk goes on with
the walk (R159, R322, R329, R334). -/
def Sys2Proof.Claims.CutsGoOn : Prop :=
  ∀ (c : CoreId) (s : State) (slot n : Nat) (k : Task), (s.core c).run = .starting slot n → s.findTask slot = some k →
    k.pcore = c → k.tsize ≤ 1 → n + 32 ≤ s.cycle → k.image = none → zstReads s c = false → k.again = some false →
    ((k.st = .cutHeld ∨ k.st = .cutStored ∨ k.st = .walkFault) → ∀ f, k.fault = some f → f.walk = true →
      ∃ t, exec (.streamsStart c) s = .next t ∧ (t.core c).run = .running slot ∧ t.ctx c = s.ctx c ∧ t.mem = s.mem ∧
        t.findTask slot = some { k with st := .ending, again := none, fault := none, tend3 := some s.cycle }) ∧
    ((k.st = .cutHeld ∨ k.st = .cutStored) → k.lateFault = none → (∀ o ∈ s.ops, o.owner ≠ some slot) →
    (∀ f, k.fault = some f → f.skip = false ∧ f.walk = false) →
    ∃ t, exec (.streamsStart c) s = .next t ∧ (t.core c).run = .running slot ∧ t.mem = s.mem ∧
      t.findTask slot = some { k with st := .running, again := none, fault := none, forced := false } ∧
      let x := s.ctx c
      let y := t.ctx c
      y.g = x.g ∧ y.aL = x.aL ∧ y.aS = x.aS ∧ y.v = x.v ∧ y.z = x.z ∧ y.iq = x.iq ∧ y.oq = x.oq ∧ y.tok = x.tok ∧ y.lc = x.lc ∧
      y.frmode = (if x.frmode = 2 then 1 else x.frmode) ∧ (x.frmode = 2 → y.resumed = true) ∧
      y.tstat.getLsbD 0 = preqNow s k ∧ (∀ b : Fin 4, b ≠ 0 → y.tstat.getLsbD b.val = x.tstat.getLsbD b.val) ∧
      ∀ st, (y.strm st).pc = (x.strm st).pc ∧ (y.strm st).ended = (x.strm st).ended ∧ (y.strm st).taken = (x.strm st).taken)

/-! ## Messages -/

/-- NOTIFIER_MESSAGE and HOT_PAGE_MESSAGE: an event that waits is sent as one MSI-X message once the window since the last one has
passed, of the vector its entry names; while it has not, it waits; with EN clear at that moment, or with an entry that cannot
be read, it waits no more. The entry is read again while it waits, which is not an access that hot pages count. An event that
is posted raises NEV by one, and with EN set waits, and may be sent in the same cycle (R225, R226, R341). -/
def Sys2Proof.Claims.MessagesAreSent : Prop :=
  ∀ (port : Fin 2) (ctx : Fin 64) (n : Fin 64) (s : State),
    let i := Instr.notifierMessage port ctx n
    let last := noteOf s port ctx n.val
    let r := areaReadAt false port ctx (0x1000 + 16 * n.val) 16 s
    let windowOver := fun (last w : Nat) => last = 0 ∨ last - 1 + Min.min 1000 (w / 2 ^ 32 % 1024) * 2400 ≤ s.cycle
    let en := fun (w : Nat) => w / 2048 % 2 = 1
    (last.2 = false → exec i s = .next s) ∧
    (last.2 = true → r.2 = none → exec i s = .next (setNote port ctx n.val (last.1, false) r.1)) ∧
    (last.2 = true → ∀ bs, r.2 = some bs → let w := ofBytes bs
      ∃ m, r = (m, some bs) ∧
      (¬windowOver last.1 w → exec i s = .next m) ∧
      (windowOver last.1 w → ¬en w → exec i s = .next (setNote port ctx n.val (last.1, false) m)) ∧
      (windowOver last.1 w → en w → exec i s = .next (setNote port ctx n.val (m.cycle + 1, false)
        { m with outputs := m.outputs ++ [Output.msix port.val (w % 2048) m.cycle] })) ∧
      m.cycle = s.cycle ∧ m.outputs = s.outputs ∧ m.mem = s.mem) ∧
    (let p := s.ports[port]
     let w := p.hnvec.toNat
     let send := p.hnwait = true ∧ en w ∧ windowOver p.hnlast w
     (send → exec (.hotPageMessage port) s = .next ({ s with outputs := s.outputs ++ [Output.msix port.val (w % 2048) s.cycle] }.updPort
        port fun p => { p with hnwait := false, hnlast := s.cycle + 1 })) ∧
     (¬send → exec (.hotPageMessage port) s = .next s)) ∧
    (let c := areaRead port ctx (0x1000 + 16 * n.val) 16 s
     (c.2 = none → postEvent port ctx n.val s = c.1) ∧
     ∀ bs, c.2 = some bs →
      let w := ofBytes bs
      let q := areaWrite port ctx (0x1000 + 16 * n.val + 8) (toBytes 4 (w / 2 ^ 64 % 2 ^ 32 + 1)) c.1
      (q.2 = false → postEvent port ctx n.val s = q.1) ∧
      (q.2 = true → ¬en w → postEvent port ctx n.val s = q.1) ∧
      (q.2 = true → en w →
        let u := setNote port ctx n.val ((noteOf q.1 port ctx n.val).1, true) q.1
        postEvent port ctx n.val s = { u with agenda := u.agenda ++ [.event (.notifierMessage port ctx n)] }))

/-! ## Replays -/

/-- GUARD_STALL counts the cycles in a row in which a replay makes no progress; at 65,536 it hands the graph back with the notice
of the STALL guard; a cycle with progress starts the count again (R111, R112, R113). -/
def Sys2Proof.Claims.StallsAreCounted : Prop :=
  ∀ (h : Nat) (s : State) (g : Graph), s.findGraph h = some g →
    (stalledNow s g = false → ∃ t, exec (.guardStall h) s = .next t ∧ t.findGraph h = some { g with idle := 0 } ∧
      t.tasks = s.tasks ∧ t.mem = s.mem) ∧
    (stalledNow s g = true → g.idle + 1 < 65536 → ∃ t, exec (.guardStall h) s = .next t ∧
      t.findGraph h = some { g with idle := g.idle + 1 } ∧ t.tasks = s.tasks ∧ t.mem = s.mem) ∧
    (∀ rev, stalledNow s g = true → 65536 ≤ g.idle + 1 → g.mode = .replay rev → ∃ t note, exec (.guardStall h) s = .next t ∧
      t.findGraph h = some { g with idle := g.idle + 1, mode := .handedBack rev, note := some note, firedAt := [] } ∧
      note.kind = 4 ∧ t.tasks = s.tasks ∧ t.mem = s.mem) ∧
    (stalledNow s g = true → (∃ rev, g.mode = .replay rev) ∧ g.pre = .running ∧ (∀ k ∈ s.tasks, k.graph = g.handle → k.st = .bound) ∧
      ∀ o ∈ s.ops, o.graph = g.handle → o.status.isLive = false)

/-- TRACED_START. A traced entry is ready only at its place in its core's trace, from its START on, with its counter fired 20 cycles
before, its core free and its base as recorded. In an even cycle it starts, and the trace pointer moves on; in an odd one, or with
none ready, nothing happens; when the engine-health guard fails the graph is handed back instead. That of two replays with
entries left on one logical core each may start its own is the model's choice, notes/assumptions/131.md (R23, R108, R112). -/
def Sys2Proof.Claims.TracedEntriesStart : Prop :=
  ∀ (lcore : Fin 640) (part : Fin 4) (s : State),
    let i := Instr.tracedStart lcore part
    ((s.cycle % 2 = 1 ∨ tracedFor s part lcore.val = none) → exec i s = .next s) ∧
    (∀ g y l r, tracedReady s part g y l = some r →
      r.idx = lookupNat g.trace l ∧ (coreTrace y l)[r.idx]? = some r.entry ∧ r.task.seq = r.entry.seq ∧
      r.task.st = .ready ∧ (∃ e ∈ g.firedAt, e.2 + 20 ≤ s.cycle ∧ s.findTask e.1 = some r.task) ∧
      r.entry.start ≤ graphCycle s g ∧ coreIdle s r.spot.pcore = true ∧ r.spot.base = 256 * r.entry.sbase ∧ r.spot.lcore = l ∧
      (r.idx = 0 ∨ ∃ m ∈ g.meas, m.1 = l ∧ m.2.1 + 1 = r.idx)) ∧
    (∀ g y r, s.cycle % 2 = 0 → tracedFor s part lcore.val = some (g, y, [r]) → s.findGraph g.handle = some g →
      r.task.graph = g.handle → s.findTask r.task.slot = some r.task → r.task.st = .ready →
      (healthFails s.parts[part] y = false → ∃ t u h, exec i s = .next t ∧ t.mem = s.mem ∧
        (t.core r.spot.pcore).run = .starting r.task.slot s.cycle ∧ t.findTask r.task.slot = some u ∧ u.traced = some r.idx ∧
        u.st = .running ∧ u.base = r.spot.base ∧ u.lcore = r.spot.lcore ∧ u.slotAt = s.cycle ∧
        t.findGraph g.handle = some h ∧ lookupNat h.trace r.spot.lcore = r.idx + 1 ∧ ∀ e ∈ h.firedAt, e.1 ≠ r.task.slot) ∧
      (∀ rev, healthFails s.parts[part] y = true → g.mode = .replay rev → ∃ t note, exec i s = .next t ∧
        t.findGraph g.handle = some { g with mode := .handedBack rev, note := some note, firedAt := [] } ∧ note.kind = 2 ∧
        t.tasks = s.tasks ∧ t.mem = s.mem))

/-- The two barriers of a gang's agreement. A barrier is complete when every rank of the gang has proposed; the first gives the least
revision proposed and the last course of joining, the second whether every member holds that revision. A member that has joined
proposes in the second, once, when its first is complete; a proposal goes to every rank of the rank table, in a KIND 4 batten of
class 0 (the model's choice, notes/assumptions/120.md); one that arrives after its agreement is over is discarded (R115). -/
def Sys2Proof.Claims.GangsPropose : Prop :=
  ∀ (part : Fin 4) (hash index n : Nat) (s : State),
    let first := gangSaid s part.val hash index false
    let second := gangSaid s part.val hash index true
    (∀ (b : Bool) (m : GangMsg), m ∈ gangSaid s part.val hash index b ↔
      (part.val, m) ∈ s.fabric.gangs ∧ m.hash = hash ∧ m.index = index ∧ m.second = b) ∧
    (gangFirst s part.val hash index n = none ↔ ∃ r, r < n ∧ ∀ m ∈ first, m.rank ≠ r) ∧
    (∀ rev join, gangFirst s part.val hash index n = some (rev, join) → 0 < n → (∀ m ∈ first, m.rev ≤ 255) →
      (∀ m ∈ first, rev ≤ m.rev ∧ m.join ≤ join) ∧ (∃ m ∈ first, m.rev = rev) ∧ ∃ m ∈ first, m.join = join) ∧
    (∀ rev join held, gangGives s part.val hash index n = some (rev, join, held) ↔
      (∀ r, r < n → ∃ m ∈ second, m.rank = r) ∧ gangFirst s part.val hash index n = some (rev, join) ∧
      (held = true ↔ ∀ m ∈ second, m.held = true)) ∧
    (∀ g : Graph, g.part = part.val →
      let own := (s.parts[part]).ownrank
      let maySay := g.joined ≠ none ∧ gangSize s g ≠ 0 ∧ (∀ m ∈ gangSaid s part.val g.hash g.gang true, m.rank ≠ own)
      (¬maySay ∨ gangFirst s part.val g.hash g.gang (gangSize s g) = none → gangSecond g s = s) ∧
      (∀ rev join, maySay → gangFirst s part.val g.hash g.gang (gangSize s g) = some (rev, join) →
        gangSecond g s = sendGang part.val ⟨g.hash, gangSize s g, g.gang, own, true, rev, join,
          (heldOf s.parts[part] g.hash).any fun y => y.rev == rev⟩ s)) ∧
    (∀ m : GangMsg, let t := sendGang part.val m s
      t.mem = s.mem ∧ t.fabric.gangs = s.fabric.gangs ++ [(part.val, m)] ∧
      ∀ r p, r < m.nrank → r ≠ m.rank → rankParty s part r = some p → ∃ o ∈ t.fabric.out, o.batten.src = s.party part.val ∧
        o.batten.dst = p ∧ o.batten.cls = 0 ∧ o.batten.body = .gang m ∧ kindOf o.batten.body = 4 ∧ o.path = .any ∧ o.prio = 3) ∧
    (∀ m : GangMsg,
      let past := m.index < countOf s.fabric.gangN (part.val, m.hash) ∧
        ∀ g ∈ s.graphs, ¬(g.part = part.val ∧ g.hash = m.hash ∧ g.joined ≠ none ∧ g.gang = m.index)
      (past → arriveGang part.val m s = s) ∧
      (¬past → arriveGang part.val m s =
        { s with fabric := { s.fabric with gangs := s.fabric.gangs ++ [(part.val, m)] } }))

/-- GANG_AGREEMENT of a replay that joined its gang. Within 32 rounds of joining, and only with what the two barriers have given: when
every member holds the revision it replays that from the fourth course after the last member joined, else it runs dynamically
from then; when the barriers were not complete in time it runs dynamically from the next course; its tasks that have fired then
are in the ready queue. What was proposed goes. A graph that joined no gang, or has agreed,
is not touched, and a replay that was handed back stays so (R112, R115). -/
def Sys2Proof.Claims.GangsAgree : Prop :=
  ∀ (h rev join : Nat) (held timely : Bool) (s : State) (g : Graph), s.findGraph h = some g →
    let i := Instr.gangAgreement h rev join held timely
    let part : Fin 4 := Fin.ofNat 4 g.part
    (∀ course, (s.course < course → frameAtCourse s course g = { g with frameAt := some course }) ∧
      (course ≤ s.course → frameAtCourse s course g =
        { g with frame0 := some (s.fabric.began - (s.course - course) * 7680), frameAt := none })) ∧
    (g.joined = none → exec i s = .next s) ∧
    ∀ joined, g.joined = some joined →
      let late := joined + 1024 ≤ s.course
      let gone := fun (t : State) => t.mem = s.mem ∧ t.fabric.gangs = s.fabric.gangs.filter fun e =>
        !(e.1 == g.part && e.2.hash == g.hash && e.2.index == g.gang)
      let dynamic := fun (t : State) (course : Nat) => gone t ∧ t.tasks = s.tasks ∧
        t.findGraph h = some (frameAtCourse s course { g with mode := .dynamic, yid := 0, firedAt := [], joined := none }) ∧
        ∀ e ∈ g.firedAt, ∀ k, s.findTask e.1 = some k → k.st = .ready → k.tsize ≤ 1 → k.graph = h →
          ∃ q ∈ (t.parts[part]).queue, q.tasks = [k.slot]
      ((timely = true ∧ (late ∨ gangGave s g ≠ some (rev, join, held))) ∨ (timely = false ∧ ¬late) → exec i s = .next s) ∧
      (timely = true → ¬late → gangGave s g = some (rev, join, held) →
        (∀ y, replayYelm s g = some y →
          (∀ m, held = true → (heldOf s.parts[part] g.hash).find? (·.rev == rev) = some m →
            ∃ t, exec i s = .next t ∧ gone t ∧ t.tasks = s.tasks ∧ t.findGraph h =
              some (frameAtCourse s (join + 4) { g with mode := .replay rev, yid := m.id, joined := none })) ∧
          (held = false → ∃ t, exec i s = .next t ∧ dynamic t (join + 4))) ∧
        (∀ r, g.mode = .handedBack r → ∃ t, exec i s = .next t ∧ gone t ∧
          t.findGraph h = some (frameAtCourse s (join + 4) { g with joined := none }))) ∧
      (∀ y, replayYelm s g = some y → timely = false → late → ∃ t, exec i s = .next t ∧ dynamic t (s.course + 1))

/-- REFINEMENT_PASS takes the next pass of its partition. When the measured image is still held, is not frozen, the store has
room and the new span is at least SPAN/64 below, or it is a gang's, the refined revision is stored under the next number;
else nothing is stored (R117, R365). -/
def Sys2Proof.Claims.RefinementsAreStored : Prop :=
  ∀ (part : Fin 4) (s : State) (id : Nat) (deps : List Dep) (rest : List (Nat × List Dep)),
    let i := Instr.refinementPass part
    let s1 := s.updPart part fun p => { p with refine := rest }
    ((s.parts[part]).refine = [] → exec i s = .next s) ∧
    ((s.parts[part]).refine = (id, deps) :: rest →
      let image := (s.parts[part]).yelms.find? fun y => y.id == id && y.st == .held
      (image = none → exec i s = .next s1) ∧
      (∀ y, image = some y →
        let z := refined y deps s.nextOid
        let good := y.frozen = false ∧ storeRoom s s.parts[part] = true ∧ (z.span + y.span / 64 ≤ y.span ∨ 1 < y.nrank)
        (¬good → exec i s = .next s1) ∧
        (good → ∃ t, exec i s = .next t ∧ (t.parts[part]).refine = rest ∧ t.mem = s.mem ∧ t.tasks = s.tasks ∧
          ∃ w ∈ (t.parts[part]).yelms, w = z ∧ w.rev = y.rev + 1 ∧ w.hash = y.hash ∧ w.nrepl = 0 ∧ w.frozen = false ∧
            w.st = .held)))

/-! ## Retirement -/

/-- GRAPH_RETIRE. A graph has ended, in the first cycle in which no task of it lives, no op of it is live, and it is not pre-empted
or is cancelled, and with the course of that cycle. Until then it stays. Then its counters are free; its image is stored, or its
measurements, and YOUT says which; its completion entry is written, the word with STATE last; it is gone with its ops, and its slot
has the next generation; and its notifier's event is posted (R31, R34, R69, R102, R117, R333, R337, R338, R340). -/
def Sys2Proof.Claims.GraphsRetire : Prop :=
  (∀ s : State,
    let course := if s.fabric.began + 7680 ≤ s.cycle then (s.fabric.course + 1).toNat else s.course
    markEnded s = { s with graphs := s.graphs.map fun g =>
      if g.ended = none ∧ mayRetire s g = true then { g with ended := some (s.cycle, course) } else g } ∧
    ∀ g : Graph, mayRetire s g = true ↔ (∀ k ∈ s.tasks, k.graph ≠ g.handle) ∧
      (∀ o ∈ s.ops, o.graph = g.handle → o.status.isLive = false) ∧
      (g.cancel ≠ 0 ∨ (g.pre ≠ .preempted ∧ g.pre ≠ .resuming))) ∧
  (∀ (q : Graph) (m : State),
    let port := portOf q.handle
    let ctx := ctxOf q.handle
    let off := 64 * (q.handle / 2 ^ 19 % 64)
    let bs := completionBytes m q
    let r := areaWrite port ctx (off + 8) (bs.drop 8) m
    (r.2 = true → writeCompletion q m = (areaWrite port ctx off (bs.take 8) r.1).1) ∧
    (r.2 = false → writeCompletion q m = r.1)) ∧
  ∀ (h : Nat) (s : State) (g : Graph), s.findGraph h = some g →
    let i := Instr.graphRetire h
    (g.ended = none → exec i s = .next s) ∧
    (g.ended ≠ none →
      (let m := retireYelm g (freeGraphCounters h s)
       ∃ q yout, m.findGraph h = some q ∧ q = { g with yout := yout } ∧
        (g.mode = .dynamic → yout = g.yout) ∧
        (∀ spoiled, g.mode = .recording spoiled →
          yout = if recordSpoiled s s.parts[Fin.ofNat 4 g.part] g spoiled = true then 2 else 1) ∧
        (∀ rev, g.mode = .replay rev → yout = 3) ∧ (∀ rev, g.mode = .handedBack rev → yout = 4) ∧
        exec i s = .next (postEvent (portOf h) (ctxOf h) q.notif (freeGraph q (writeCompletion q m)))) ∧
      (s.counters.Pairwise (fun a b => a.idx ≠ b.idx) →
      ∃ t, exec i s = .next t ∧ t.graphs = s.graphs.filter (fun q => q.handle != h) ∧
        t.ops = s.ops.filter (fun o => o.graph != h) ∧ t.tasks = s.tasks ∧
        (∀ k ∈ t.counters, k.graph = h → k.st = .free) ∧
        (t.ports[portOf h].ctx[ctxOf h]).gens[Fin.ofNat 64 (h / 2 ^ 19 % 64)] =
          (s.ports[portOf h].ctx[ctxOf h]).gens[Fin.ofNat 64 (h / 2 ^ 19 % 64)] + 1))

/-- The completion entry holds the graph's handle, its state, the fault reported, YOUT and YREV, the number of tasks killed and ops
failed, its tag and the course in which it retired, and after a replay that was handed back the GUARD_FAIL notice; the state is 3
or 4 for a cancelled graph, 2 when a task was killed or an op failed, else 1 (R113, R340). -/
def Sys2Proof.Claims.CompletionEntries : Prop :=
  (∀ (s : State) (g : Graph), g.cancel ≤ 4 → g.fcode < 256 →
    let w := ofBytes (completionBytes s g)
    (completionBytes s g).length = 64 ∧ w % 2 ^ 32 = g.handle % 2 ^ 32 ∧
    w / 2 ^ 32 % 8 = (if g.cancel ≠ 0 then g.cancel else if g.nkill ≠ 0 ∨ g.nfail ≠ 0 then 2 else 1) ∧
    w / 2 ^ 35 % 32 = 0 ∧ w / 2 ^ 40 % 256 = g.fcode ∧ w / 2 ^ 48 % 8 = g.yout % 8 ∧ w / 2 ^ 51 % 2 ^ 13 = 0 ∧
    ((∃ rev, (g.mode = .replay rev ∨ g.mode = .handedBack rev) ∧ w / 2 ^ 64 % 256 = rev % 256) ∨
      ((∀ rev, g.mode ≠ .replay rev ∧ g.mode ≠ .handedBack rev) ∧ w / 2 ^ 64 % 256 = 0)) ∧
    w / 2 ^ 72 % 2 ^ 24 = 0 ∧ w / 2 ^ 96 % 2 ^ 32 = g.nkill % 2 ^ 32 ∧ w / 2 ^ 128 % 2 ^ 32 = g.nfail % 2 ^ 32 ∧
    w / 2 ^ 160 % 2 ^ 32 = g.tag.toNat ∧ w / 2 ^ 192 % 2 ^ 48 = (g.ended.elim s.course (·.2)) % 2 ^ 48 ∧
    w / 2 ^ 240 % 2 ^ 16 = 0 ∧ (g.yout ≠ 4 → w / 2 ^ 256 = 0) ∧ (g.yout = 4 → w / 2 ^ 256 = noteWord g.note)) ∧
  noteWord none = 0 ∧
  ∀ n : GuardNote,
    let v := noteWord (some n)
    v % 256 = 0x0E ∧ v / 2 ^ 8 % 8 = n.kind % 8 ∧ v / 2 ^ 11 % 32 = n.gidx % 32 ∧ v / 2 ^ 16 % 1024 = n.lcore % 1024 ∧
    v / 2 ^ 26 % 64 = 0 ∧ v / 2 ^ 32 % 2 ^ 40 = n.seq % 2 ^ 40 ∧ v / 2 ^ 72 % 2 ^ 48 = n.fcyc % 2 ^ 48 ∧ v / 2 ^ 120 % 256 = 0 ∧
    v / 2 ^ 128 % 2 ^ 64 = n.expv.toNat ∧ v / 2 ^ 192 = n.obsv.toNat

/-! ## The yelm store -/

/-- The commands of the yelm store. While one runs, and before READY, another is ignored. Each leaves BUSY set and its result: a
revision that is not held gives 1, an image that cannot be read or written, or that is not all in device virtual space, gives 4; a
deleted revision is held no more, and
FREEZE and THAW set FROZEN of every held revision of the hash. BUSY clears at YELM_COMMAND_DONE (R118, R119, R353). -/
def Sys2Proof.Claims.YelmCommands : Prop :=
  ∀ (port : Fin 2) (part : Fin 4) (ctx : Fin 64) (rev : Byte) (s : State),
    let p := s.parts[part]
    let hash := p.yregs.hash.toNat
    let done := fun (t : State) (res : Nat) => (t.parts[part]).yregs = { p.yregs with busy := true, res := res }
    ((p.yregs.busy = true ∨ partReady s part = false) →
      exec (.yelmExport port part ctx rev) s = .next s ∧ exec (.yelmImport port part ctx) s = .next s ∧
      exec (.yelmDelete port part rev) s = .next s ∧ exec (.yelmFreeze port part) s = .next s ∧
      exec (.yelmThaw port part) s = .next s) ∧
    (p.yregs.busy = false → partReady s part = true →
      (pickRev (heldOf p hash) rev.toNat = none → ∃ t, exec (.yelmExport port part ctx rev) s = .next t ∧ done t 1 ∧ t.mem = s.mem) ∧
      (∀ y, pickRev (heldOf p hash) rev.toNat = some y →
        let r := ridgeWrite (portCore port) (contextRights part.val port.val ctx.val (s.ports[port].ctx[ctx]).ptroot)
          p.yregs.addr.toNat (imageBytes y) s
        (2 ^ 43 < p.yregs.addr.toNat + imageSize y →
          ∃ t, exec (.yelmExport port part ctx rev) s = .next t ∧ done t 4 ∧ t.mem = s.mem) ∧
        (p.yregs.addr.toNat + imageSize y ≤ 2 ^ 43 → ∃ t, exec (.yelmExport port part ctx rev) s = .next t ∧ done t (if r.2 = none then 0 else 4) ∧ t.mem = r.1.mem ∧
          (t.parts[part]).yelms = p.yelms)) ∧
      (2 ^ 43 < p.yregs.addr.toNat + 256 →
        ∃ t, exec (.yelmImport port part ctx) s = .next t ∧ done t 4 ∧ (t.parts[part]).yelms = p.yelms) ∧
      (∀ s1 e, readVa s (portCore port) (contextRights part.val port.val ctx.val (s.ports[port].ctx[ctx]).ptroot)
          p.yregs.addr.toNat 256 = (s1, .error e) →
        ∃ t, exec (.yelmImport port part ctx) s = .next t ∧ done t 4 ∧ (t.parts[part]).yelms = p.yelms) ∧
      ((∀ y ∈ p.yelms, y.st = .held → y.hash = hash → rev ≠ 255 ∧ y.rev ≠ rev.toNat) →
        ∃ t, exec (.yelmDelete port part rev) s = .next t ∧ done t 1 ∧ (t.parts[part]).yelms = p.yelms) ∧
      ((∃ y ∈ p.yelms, y.st = .held ∧ y.hash = hash ∧ (rev = 255 ∨ y.rev = rev.toNat)) →
        ∃ t, exec (.yelmDelete port part rev) s = .next t ∧ done t 0 ∧ t.mem = s.mem ∧
          ∀ y ∈ (t.parts[part]).yelms, y.st = .held → y.hash = hash → rev ≠ 255 ∧ y.rev ≠ rev.toNat) ∧
      (heldOf p hash = [] → ∃ t, exec (.yelmFreeze port part) s = .next t ∧ done t 1 ∧ (t.parts[part]).yelms = p.yelms) ∧
      (heldOf p hash ≠ [] →
        ∃ t u, exec (.yelmFreeze port part) s = .next t ∧ exec (.yelmThaw port part) s = .next u ∧ done t 0 ∧ done u 0 ∧
          (t.parts[part]).yelms = p.yelms.map (fun y => if y.st == .held && y.hash == hash then { y with frozen := true } else y) ∧
          (u.parts[part]).yelms = p.yelms.map (fun y => if y.st == .held && y.hash == hash then { y with frozen := false } else y))) ∧
    exec (.yelmCommandDone part) s = .next (s.updPart part fun p => { p with yregs := { p.yregs with busy := false } })

/-- YELM_IMPORT of an image that can be read: one that is not consistent gives 3; a revision that is in use gives 5, a full store
2; else the image is held as the revision its header names, with its directories, traces, guard values and copies byte for byte as
they came, and the one two below it is held no more (R118, R119). -/
def Sys2Proof.Claims.ImagesAreImported : Prop :=
  ∀ (part : Fin 4) (y : Yelm) (s : State),
    let p := s.parts[part]
    let used := ∃ z ∈ p.yelms, z.st = .held ∧ z.hash = y.hash ∧ z.rev = y.rev ∧ z.users ≠ 0
    (used → importYelm part y s = (s, 5)) ∧
    (¬used → storeLimit s ≤ p.yelms.length → importYelm part y s = (s, 2)) ∧
    (¬used → p.yelms.length < storeLimit s → y.st = .held → (importYelm part y s).2 = 0 ∧
      y ∈ ((importYelm part y s).1.parts[part]).yelms ∧ (importYelm part y s).1.mem = s.mem ∧
      ∀ z ∈ ((importYelm part y s).1.parts[part]).yelms, z.st = .held → z.hash = y.hash →
        (z.rev = y.rev → z = y) ∧ z.rev + 2 ≠ y.rev) ∧
    ∀ (port : Fin 2) (ctx : Fin 64) (s1 s2 : State) (hd bs : List Byte),
      let r := contextRights part.val port.val ctx.val (s.ports[port].ctx[ctx]).ptroot
      let size := ofBytes hd / 2 ^ 416 % 2 ^ 32
      p.yregs.busy = false → partReady s part = true → p.yregs.addr.toNat + 256 ≤ 2 ^ 43 →
      p.yregs.addr.toNat + 64 * size ≤ 2 ^ 43 →
      readVa s (portCore port) r p.yregs.addr.toNat 256 = (s1, .ok hd) → size ≤ 2 ^ 20 →
      readVa s1 (portCore port) r p.yregs.addr.toNat (64 * size) = (s2, .ok bs) →
      ∃ t, exec (.yelmImport port part ctx) s = .next t ∧ (t.parts[part]).yregs.busy = true ∧
        (yelmOfBytes s2.nextOid bs = none → (t.parts[part]).yregs.res = 3 ∧ (t.parts[part]).yelms = p.yelms) ∧
        ∀ z, yelmOfBytes s2.nextOid bs = some z → areaBytes z = (bs.drop 256).take (areaSize z) ∧
          (bs.length = 64 * (ofBytes (bs.take 256) / 2 ^ 416 % 2 ^ 32) → imageSize z = bs.length) ∧
          (t.parts[part]).yregs.res = (importYelm part z s2).2 ∧
          (t.parts[part]).yelms = ((importYelm part z s2).1.parts[part]).yelms

/-! ## Courses and fibres -/

/-- COURSE_BOUNDARY, 7,680 cycles after the last one: COURSE rises, each fibre has its next width, and one that is to be retrained the
full width after it, and, for each direction with a key installed, that key and a counter of 0, and no KEY_HOLD under a new key to send with; at the first course of a round the allowances start again; a frame whose course has come begins.
Earlier it does nothing (R100, R155, R289, R298, R303, R304). -/
def Sys2Proof.Claims.CoursesBegin : Prop :=
  ∀ (s : State),
    (s.cycle < s.fabric.began + 7680 → exec .courseBoundary s = .next s) ∧
    (s.fabric.began + 7680 ≤ s.cycle → ∃ t, exec .courseBoundary s = .next t ∧ t.mem = s.mem ∧
      t.fabric.course = s.fabric.course + 1 ∧ t.fabric.began = s.cycle ∧
      (∀ f : Fin 128, let p := s.fabric.fibres[f]
        let q := t.fabric.fibres[f]
        q.width = p.next ∧ q.next = (if p.retrain = true then 16 else p.next) ∧ q.retrain = false ∧ q.dark = false ∧ q.lit = p.lit ∧
        q.slot = 0 ∧ q.spoiled = none ∧ q.rx = [] ∧ q.newTx = none ∧ q.newRx = none ∧
        (∀ k, p.newTx = some k → q.txKey = k ∧ q.ctr = 0 ∧ q.hold = false) ∧
        (p.newTx = none → q.txKey = p.txKey ∧ q.ctr = p.ctr ∧ q.hold = p.hold) ∧
        (∀ k, p.newRx = some k → q.rxKey = k ∧ q.rxCtr = 0) ∧ (p.newRx = none → q.rxKey = p.rxKey ∧ q.rxCtr = p.rxCtr)) ∧
      t.fabric.allow = (if t.course % 32 = 0 then [] else s.fabric.allow) ∧
      (∀ c : CoreId, let x := s.ctx c
        let y := t.ctx c
        (x.fwait = true ∧ x.fcourse.toNat ≤ t.course → y.fbegan = some s.cycle ∧ y.fwait = false) ∧
        (¬(x.fwait = true ∧ x.fcourse.toNat ≤ t.course) → y = x)) ∧
      (∀ h g n, s.findGraph h = some g → g.frameAt = some n → n ≤ t.course → ∃ q, t.findGraph h = some q ∧
        q.frame0 = some s.cycle ∧ q.frameAt = none))

/-- KEY_INSTALL, a lost or regained wavelength, a laser module and its power change what a fibre has from the next boundary on; a
lost wavelength and a removed module also spoil the rest of the course, so that what was sent there counts as failed; a wavelength
returns only to a lit fibre, in a flashing interval or a calibration course, and so does all the light of a module that is
inserted: at another time its fibres are retrained after the next boundary. A fibre above its eye-safety power stays at width 0 at
that boundary, whatever is regained before it (R303, R304, R357, R360). -/
def Sys2Proof.Claims.FibresChange : Prop :=
  ∀ (f : Fin 128) (slot : Nat) (m : Fin 8) (key : BitVec 256) (salt : W32) (s : State),
    let p := s.fabric.fibres[f]
    exec (.keyInstall ⟨f, false, key, salt⟩) s = .next (s.updFibre f fun q => { q with newTx := some ⟨key, salt⟩ }) ∧
    exec (.keyInstall ⟨f, true, key, salt⟩) s = .next (s.updFibre f fun q => { q with newRx := some ⟨key, salt⟩ }) ∧
    exec (.laserPower f) s = .next (s.updFibre f fun q => { q with next := 0, dark := true }) ∧
    (fibreLit s f = true ↔ p.lit = true ∧ p.dark = false ∧ dieMapped s (f.val % 64 / 16) = true) ∧
    (∃ t, exec (.wavelengthLost f slot) s = .next t ∧ t.mem = s.mem ∧ t.fabric.out = s.fabric.out ∧
      t.fabric.fibres[f] = { p with next := p.next - 1, spoiled := some (Min.min slot (p.spoiled.getD slot)) } ∧
      (∀ k : Fin 128, k ≠ f → t.fabric.fibres[k] = s.fabric.fibres[k]) ∧ t.fabric.replay.length = s.fabric.replay.length ∧
      ∀ i (h : i < s.fabric.replay.length), t.fabric.replay[i]? = some { s.fabric.replay[i] with
        bad := s.fabric.replay[i].bad || (s.fabric.replay[i].fibre == f.val && s.fabric.replay[i].course == s.course &&
          decide (slot ≤ s.fabric.replay[i].slot)) }) ∧
    (fibreLit s f = true → (s.cycle - s.fabric.began < 240 ∨ calibratesNow s f = true) →
      exec (.wavelengthRegained f) s = .next (s.updFibre f fun q => { q with next := Min.min 16 (q.next + 1) })) ∧
    (¬(fibreLit s f = true ∧ (s.cycle - s.fabric.began < 240 ∨ calibratesNow s f = true)) →
      exec (.wavelengthRegained f) s = .next s) ∧
    (∃ t, exec (.laserModuleRemoved m) s = .next t ∧ t.mem = s.mem ∧ ∀ k : Fin 128,
      (k.val / 16 = m.val → t.fabric.fibres[k].lit = false ∧ t.fabric.fibres[k].next = 0 ∧ t.fabric.fibres[k].retrain = false ∧
        (∃ n, t.fabric.fibres[k].spoiled = some n ∧ n ≤ s.fabric.fibres[k].slot)) ∧
      (k.val / 16 ≠ m.val → t.fabric.fibres[k] = s.fabric.fibres[k])) ∧
    (∃ t, exec (.laserModuleInserted m) s = .next t ∧ t.mem = s.mem ∧ ∀ k : Fin 128,
      (k.val / 16 = m.val → let q := s.fabric.fibres[k]
        let mapped := dieMapped s (k.val % 64 / 16) = true
        let now := (s.cycle - s.fabric.began < 240 ∨ calibratesNow s k = true) ∧ q.dark = false
        (¬mapped → t.fabric.fibres[k] = { q with lit := true }) ∧
        (mapped → now → t.fabric.fibres[k] = { q with lit := true, next := 16, retrain := false }) ∧
        (mapped → ¬now → t.fabric.fibres[k] = { q with lit := true, retrain := true })) ∧
      (k.val / 16 ≠ m.val → t.fabric.fibres[k] = s.fabric.fibres[k]))

/-- The calendar: a hall fibre's partner has the index that differs in the fibre's and the course's bits, in the same hall; a
campus fibre's partner has the same index; partners are mutual, and the fibre and course that reach an index directly reach
it (R292, R293). -/
def Sys2Proof.Claims.PartnersAreMutual : Prop :=
  ∀ (pos f c : Nat), pos < 2 ^ 19 → f < 128 → c < 32 →
    let q := partnerOf pos f c
    q < 2 ^ 19 ∧ partnerOf q f c = pos ∧
    (f < 64 → q / 2048 = pos / 2048 ∧ q % 2048 = (pos % 2048) ^^^ (32 * f + c)) ∧
    (64 ≤ f → q % 2048 = pos % 2048 ∧ q / 2048 = (pos / 2048) ^^^ ((f - 64 + 8 * c) % 256)) ∧
    ∀ p, p < 2048 → let h := pos % 2048
      directFibre h p < 64 ∧ directPos h p < 32 ∧ partnerOf pos (directFibre h p) (directPos h p) = pos / 2048 * 2048 + p

/-! ## Battens -/

/-- BATTEN_SEND. Out of its slot, which ends where the next one or the guard at the end of the course begins, or under KEY_HOLD, a
fibre sends nothing. A calibration slot carries this device's COURSE and uses no key counter value; any other does, and the last
usable one sets KEY_HOLD. A batten that is sent leaves its queue for the replay store; it may go over this fibre,
was ready 96 cycles before the slot and its op may send; in a slot reserved for no class it is of the greatest priority, of equals
the first accepted (R168, R289, R290, R294, R295, R297, R302, R304). -/
def Sys2Proof.Claims.BattensAreSent : Prop :=
  ∀ (f : Fin 128) (s : State),
    let q := s.fabric.fibres[f]
    let i := Instr.battenSend f
    let due := slotDue s f = true ∧ q.hold = false
    let used := fun (t : State) (b : Batten) => t.fabric.fibres[f] =
      { q with slot := q.slot + 1, ctr := q.ctr + 1, hold := decide (2 ^ 40 - 1 ≤ q.ctr + 1), tx := some (txSlot f b s) }
    (slotDue s f = true ↔ q.slot < 152 * q.width ∧
      let began := fun (k : Nat) => s.fabric.began + 240 + 48 * k / q.width
      began q.slot ≤ s.cycle ∧ (s.cycle = began q.slot ∨
        s.cycle < if q.slot + 1 < 152 * q.width then began (q.slot + 1) else s.fabric.began + 7536)) ∧
    (¬due → exec i s = .next s) ∧
    (due → calibratesNow s f = true → exec i s = .next (s.updFibre f fun q => { q with
      slot := q.slot + 1, tx := some (txSlot f (linkBatten s f (.calibration s.course s.mgmt.ready)) s) })) ∧
    (due → calibratesNow s f = false → pickBatten s f = none → ∃ t, exec i s = .next t ∧ used t (linkBatten s f .idle) ∧ t.mem = s.mem ∧
      t.fabric.replay = s.fabric.replay ∧ t.fabric.out = s.fabric.out) ∧
    (∀ o, due → calibratesNow s f = false → pickBatten s f = some o → ∃ t e, exec i s = .next t ∧
      used t o.batten ∧ t.mem = s.mem ∧
      t.fabric.out = s.fabric.out.erase o ∧ t.fabric.replay = s.fabric.replay ++ [e] ∧ e.fibre = f.val ∧ e.slot = q.slot ∧
      e.course = s.course ∧ e.out = o ∧ e.relay = false ∧ e.to_ = partnerNow s f ∧
      (∀ n, q.spoiled = some n → n ≤ q.slot → e.bad = true) ∧
      lookupNat t.fabric.allow (partnerNow s f % 2048) = lookupNat s.fabric.allow (partnerNow s f % 2048) +
        (if partnerNow s f = o.batten.dst.pos then 0 else 1)) ∧
    (∀ o, pickBatten s f = some o → o ∈ s.fabric.out ∧ o.batten.dst.pos ≠ s.position ∧ o.ready + 96 ≤ nextSlotAt s f ∧
      mayUseFibre s o f = true ∧ maySend s o = true ∧
      (slotClass s f = none → ∀ p ∈ readyFor s f, battenKey s o ≤ battenKey s p) ∧
      (∀ n, slotClass s f = some n → (∃ p ∈ readyFor s f, p.batten.cls = n) → o.batten.cls = n)) ∧
    (∀ o p : OutB,
      let at_ := fun (o : OutB) => match s.findOp o.oid with
        | some k => (k.accepted, k.chan.val)
        | none => (o.ready, 0)
      (at_ o).1 < 2 ^ 64 →
        (prioOf s p < prioOf s o → prioOf s o ≤ 3 → battenKey s o < battenKey s p) ∧
        (prioOf s o = prioOf s p → (at_ o).1 < (at_ p).1 → battenKey s o < battenKey s p) ∧
        (prioOf s o = prioOf s p → (at_ o).1 = (at_ p).1 → (at_ o).2 < (at_ p).2 → battenKey s o < battenKey s p))

/-- What a slot carries: its header names the batten's parties, class, hops, KIND, CSEQ and BIDX and the block of slots that its ACK
bits acknowledge, of which each says whether the slot of that number was received good: the last whole block of 32, 127 while there
is none, and in the last slot of a course the block that is not whole; outside calibration the IV is the salt of the key and the
key counter; payload and tag are the cipher's, a free function (notes/assumptions/114.md) (R295, R302, R304). -/
def Sys2Proof.Claims.SlotsCarryHeaders : Prop :=
  ∀ (f : Fin 128) (b : Batten) (s : State),
    let e := txSlot f b s
    let q := s.fabric.fibres[f]
    let h := e.header.toNat
    e.slot = q.slot ∧ e.body = b.body ∧
    h % 2 ^ 19 = b.src.pos % 2 ^ 19 ∧ h / 2 ^ 19 % 2 ^ 19 = b.dst.pos % 2 ^ 19 ∧ h / 2 ^ 38 % 2 ^ 4 = b.cls.val ∧
    h / 2 ^ 42 % 2 ^ 2 = b.hop % 2 ^ 2 ∧ h / 2 ^ 44 % 2 ^ 3 = kindOf b.body ∧ h / 2 ^ 47 % 2 ^ 2 = b.src.part % 2 ^ 2 ∧
    h / 2 ^ 49 % 2 ^ 2 = b.dst.part % 2 ^ 2 ∧ h / 2 ^ 51 % 2 ^ 28 = b.cseq % 2 ^ 28 ∧ h / 2 ^ 79 % 2 ^ 10 = b.bidx % 2 ^ 10 ∧
    h / 2 ^ 89 % 2 ^ 7 = ackedBlock s f % 2 ^ 7 ∧
    (∀ k, k < 32 → (h / 2 ^ 96).testBit k = q.rx.reverse.getD (32 * ackedBlock s f + k) false) ∧
    (let n := q.rx.length
     ackedBlock s f = if q.slot + 1 = 152 * q.width ∧ n % 32 ≠ 0 then n / 32 else if n < 32 then 127 else n / 32 - 1) ∧
    (calibratesNow s f = true → e.iv = none ∧ e.text = 0 ∧ e.tag = 0) ∧
    (calibratesNow s f = false → q.ctr < 2 ^ 64 → ∃ iv, e.iv = some iv ∧ iv.toNat = q.txKey.salt.toNat * 2 ^ 64 + q.ctr ∧
      e.text = Config.gcmText q.txKey.key iv b.body ∧ e.tag = Config.gcmTag q.txKey.key iv e.header b.body)

/-- VALLEY_FORWARD. In a slot that is due on a fibre with no KEY_HOLD and no calibration course, a held batten that the fibre reaches
directly, in a later course than it arrived in or was last sent in, leaves the valley store for the replay store; with none, nothing happens (R298, R299). -/
def Sys2Proof.Claims.BattensAreForwarded : Prop :=
  ∀ (f : Fin 128) (s : State),
    let q := s.fabric.fibres[f]
    let i := Instr.valleyForward f
    let due := slotDue s f = true ∧ q.hold = false ∧ calibratesNow s f = false
    ((¬due ∨ pickHeld s f = none) → exec i s = .next s) ∧
    (∀ h, due → pickHeld s f = some h → h ∈ s.fabric.valley ∧ h.since < s.course ∧ directHop s h.batten f (coursePos s.course) = true ∧
      ∃ t e, exec i s = .next t ∧ t.mem = s.mem ∧ t.fabric.valley = s.fabric.valley.erase h ∧
        t.fabric.replay = s.fabric.replay ++ [e] ∧ e.out.batten = h.batten ∧ e.relay = true ∧ e.fibre = f.val ∧ e.slot = q.slot ∧
        e.course = s.course ∧ t.fabric.fibres[f].slot = q.slot + 1 ∧ t.fabric.fibres[f].ctr = q.ctr + 1 ∧
        t.fabric.out = s.fabric.out ∧ t.fabric.allow = s.fabric.allow)

/-- BATTEN_RECEIVE. A slot with a bad tag is answered bad and says nothing. Of a good one, the battens of the block that its header
acknowledges leave the replay store when their bit is set, and else count as failed; a batten for another device is held for forwarding, once,
or refused when its source's region is full; one for this device reaches its sequencer; an access more than 256 past the oldest
one not committed is refused, and a contribution with no place in a full reduction store (R298, R300, R302, R306). -/
def Sys2Proof.Claims.BattensAreReceived : Prop :=
  ∀ (f : Fin 128) (good : Bool) (acks : Acks) (b : Batten) (s : State),
    let i := Instr.battenReceive f good acks b
    let n := if calibratesNow s f = true then 0 else 1
    let rx := fun (t : State) (v : Bool) => t.fabric.fibres[f] =
      { s.fabric.fibres[f] with rx := v :: s.fabric.fibres[f].rx, rxCtr := s.fabric.fibres[f].rxCtr + n }
    let a := takeAcks f acks s
    let named := fun (d : SentB) => d.fibre = f.val ∧ d.course = s.course ∧ d.slot / 32 = acks.block.val
    (good = false → exec i s = .next (s.updFibre f fun q => { q with rx := false :: q.rx, rxCtr := q.rxCtr + n })) ∧
    (∀ e, e ∈ a.fabric.replay → ∃ d ∈ s.fabric.replay, e = { d with bad := e.bad } ∧ (d.bad = true → e.bad = true) ∧
      (d.bad = false → named d → acks.bits.getLsbD (d.slot % 32) = false ∧ e.bad = true)) ∧
    (∀ d ∈ s.fabric.replay, ¬(named d ∧ acks.bits.getLsbD (d.slot % 32) = true) →
      ∃ e ∈ a.fabric.replay, e = { d with bad := e.bad } ∧ (¬named d → e.bad = d.bad)) ∧
    (good = true → b.body = .idle → ∃ t, exec i s = .next t ∧ rx t true ∧ t.fabric.replay = a.fabric.replay ∧ t.mem = s.mem ∧
      t.fabric.valley = s.fabric.valley ∧ t.fabric.seqs = s.fabric.seqs) ∧
    (good = true → b.body ≠ .idle → (∀ n r, b.body ≠ .calibration n r) → b.dst.pos ≠ s.position →
      (holdsAlready a b = true → ∃ t, exec i s = .next t ∧ rx t true ∧ t.fabric.valley = s.fabric.valley) ∧
      (holdsAlready a b = false → 8192 ≤ regionUse a b.src.pos → ∃ t, exec i s = .next t ∧ rx t false ∧
        t.fabric.valley = s.fabric.valley) ∧
      (holdsAlready a b = false → regionUse a b.src.pos < 8192 → ∃ t, exec i s = .next t ∧ rx t true ∧ t.mem = s.mem ∧
        t.fabric.valley = s.fabric.valley ++ [⟨s.course, s.course, b.src.pos, { b with hop := b.hop + 1 }⟩])) ∧
    (∀ req, good = true → b.body = .data req → b.dst.pos = s.position →
      let q := sequencer s b.src b.dst.part b.cls
      let far := (b.cseq + 2 ^ 28 - q.next) % 2 ^ 28
      (256 < far ∧ far < 2 ^ 27 → ∃ t, exec i s = .next t ∧ rx t false ∧ t.mem = s.mem ∧ t.fabric.seqs = s.fabric.seqs) ∧
      (¬(256 < far ∧ far < 2 ^ 27) → numBefore b.cseq q.next = false → (∀ p ∈ q.ops, p.num ≠ b.cseq) →
      ∃ t, exec i s = .next t ∧ rx t true ∧ t.mem = s.mem ∧
        sequencer t b.src b.dst.part b.cls = { q with ops := q.ops ++ [⟨b.cseq, req, [b.bidx], none, none, none⟩] })) ∧
    (∀ m, good = true → b.body = .rred m → b.dst.pos = s.position → 4194304 ≤ s.fabric.rreds.length → s.accepted b = false →
      rredPlaced s b.dst.part m = false → ∃ t, exec i s = .next t ∧ rx t false ∧ t.mem = s.mem ∧ t.fabric.rreds = s.fabric.rreds)

/-- BATTEN_RETRANSMIT. A batten that counts as failed, or was sent two courses ago, leaves the replay store: one of this device
returns to its place in its queue, before every later one of its pair, and a relayed one to the valley store (R302). -/
def Sys2Proof.Claims.BattensReturn : Prop :=
  ∀ (f : Fin 128) (slot : Nat) (s : State),
    let i := Instr.battenRetransmit f slot
    let failed := fun (e : SentB) => e.fibre == f.val && e.slot == slot && (e.bad || decide (e.course + 2 ≤ s.course))
    ((∀ e ∈ s.fabric.replay, failed e = false) → exec i s = .next s) ∧
    (∀ e rest, takeFirst failed s.fabric.replay = some (e, rest) → ∃ t, exec i s = .next t ∧ t.mem = s.mem ∧
      t.fabric.replay = rest ∧
      let again : OutB := { e.out with ready := s.cycle, fresh := false }
      (e.relay = false → t.fabric.valley = s.fabric.valley ∧ ∃ l r, s.fabric.out = l ++ r ∧
        t.fabric.out = l ++ again :: r ∧ (∀ o ∈ l, beforeInPair again o = false) ∧
        ∀ o, r.head? = some o → beforeInPair again o = true) ∧
      (e.relay = true → t.fabric.out = s.fabric.out ∧
        t.fabric.valley = s.fabric.valley ++ [⟨e.out.ready, e.course, e.out.batten.src.pos, e.out.batten⟩]))

/-! ## Commits -/

/-- COMMIT. Only the op whose number is next, with all its battens there, commits. Without its graph it waits; performed, its
sequencer goes on to the next number and its commit record, and its reply when it has one, are queued for its source; an access
that faults stops the sequencer at it and the record carries the fault; one that WB holds is held (R227, R300, R301). -/
def Sys2Proof.Claims.CommitsInOrder : Prop :=
  ∀ (src : Party) (part : Fin 4) (cls : Cls) (s : State),
    let q := sequencer s src part.val cls
    let i := Instr.commit src part cls
    (∀ p, q.head = some p → p.num = q.next ∧ p.req.count ≤ p.got.length) ∧
    (q.head = none → exec i s = .next s) ∧
    (∀ p, q.head = some p → p.res = none → p.heldAt = none →
      (remoteGraph s part.val p.req.hash = none → ∃ t, exec i s = .next t ∧ t.mem = s.mem ∧ t.fabric.out = s.fabric.out ∧
        (sequencer t src part.val cls).next = q.next ∧
        ∀ u, (sequencer t src part.val cls).head = some u → u.since = some (p.since.getD s.cycle)) ∧
      (∀ g, remoteGraph s part.val p.req.hash = some g →
        (∀ s1 res, remoteAccess g p.req true s = (s1, .ok res) → p.req.land = none → q.skips = [] →
          ∃ t, exec i s = .next t ∧ t.mem = s1.mem ∧ (sequencer t src part.val cls).next = (q.next + 1) % 2 ^ 28 ∧
            (∀ u ∈ (sequencer t src part.val cls).ops, u.num ≠ p.num) ∧
            (∃ o ∈ t.fabric.out, o.batten.dst = src ∧ o.batten.cls = cls ∧ o.path = .any ∧ o.prio = 3 ∧
              o.batten.body = .commitRecord p.num none res.2) ∧
            (p.req.act = .read → ∀ k, k < 2 → ∃ o ∈ t.fabric.out, o.batten.dst = src ∧ o.batten.bidx = k ∧
              o.batten.body = .reply p.num res.1 0)) ∧
        (∀ s1 code va, remoteAccess g p.req true s = (s1, .error (.fault code va)) →
          ∃ t, exec i s = .next t ∧ t.mem = s1.mem ∧ (sequencer t src part.val cls).next = q.next ∧
            (sequencer t src part.val cls).stopped = true ∧
            ∃ o ∈ t.fabric.out, o.batten.dst = src ∧
              o.batten.body = .commitRecord ((p.num + 2 ^ 28 - 1) % 2 ^ 28) (some ⟨p.num, code, va, p.req.tries⟩) 0) ∧
        (∀ s1, remoteAccess g p.req true s = (s1, .error .held) →
          ∃ t, exec i s = .next t ∧ t.mem = s1.mem ∧ t.fabric.out = s.fabric.out ∧
            ∀ u, (sequencer t src part.val cls).head = some u → u.heldAt = some s.cycle))) ∧
    (∀ p, q.head = some p → p.res = none → p.heldAt.isSome = true → exec i s = .next s)

/-- The notification of a remote op is part of its commit: it waits for the graph and the task of its logical core, and is counted
on the landing word of that task; a commit that has waited 2,400,000 cycles faults with FABRIC_UNREACHABLE, and not before
(R244, R301). -/
def Sys2Proof.Claims.CommitsNotify : Prop :=
  ∀ (src : Party) (part : Fin 4) (cls : Cls) (s : State) (p : Pending),
    let q := sequencer s src part.val cls
    q.head = some p →
    (∀ res l, p.res = some res → p.req.land = some l →
      let host := (remoteGraph s part.val p.req.hash).bind fun g => taskOn s g.handle l.lwcore
      (host = none → ∃ t, exec (.commit src part cls) s = .next t ∧ t.mem = s.mem ∧
        (sequencer t src part.val cls).next = q.next ∧ t.fabric.out = s.fabric.out) ∧
      (∀ k s1, host = some k → notifyTask k l.lwoff (actBytes p.req.act) s = (s1, none) → q.skips = [] →
        ∃ t, exec (.commit src part cls) s = .next t ∧ t.mem = s1.mem ∧ t.tasks = s1.tasks ∧
          (sequencer t src part.val cls).next = (q.next + 1) % 2 ^ 28)) ∧
    (let i := Instr.notifyHoldExpired src part cls
     (p.since = none → exec i s = .next s) ∧
     (∀ n, p.since = some n → s.cycle < n + 2400000 → exec i s = .next s) ∧
     (∀ n, p.since = some n → n + 2400000 ≤ s.cycle → ∃ t, exec i s = .next t ∧ t.mem = s.mem ∧
        (sequencer t src part.val cls).stopped = true ∧ ∃ o ∈ t.fabric.out, o.batten.dst = src ∧
          o.batten.body = .commitRecord ((p.num + 2 ^ 28 - 1) % 2 ^ 28) (some ⟨p.num, 0x11, p.req.va, p.req.tries⟩) 0))

/-- What reaches a source. A commit record acknowledges the destinations up to its number, save those of ops that a reply completes
and those whose own record is to come; its fault goes to the op that has the number, once: an op that is FAULTED, or that goes on
in another sending, takes none; an op that is being cancelled keeps the fault and goes on to its end. The numbers of ended ops that
it covers hold the commit window no more. A reply goes to its op, whole once all its battens are there. Another batten's body does
nothing here (R170, R245, R300, R301, R302). -/
def Sys2Proof.Claims.AnswersArrive : Prop :=
  ∀ (b : Batten) (s : State),
    ((∀ u f g, b.body ≠ .commitRecord u f g) → exec (.commitRecord b) s = .next s) ∧
    ((∀ n d g, b.body ≠ .reply n d g) → exec (.reply b) s = .next s) ∧
    let passed := fun (upto : Nat) => s.fabric.skipped.filter fun n => !(n.part == b.dst.part && n.dst == b.src && n.cls == b.cls &&
      (n.next == upto || numBefore n.next upto))
    let pruned := fun (upto : Nat) => { s with fabric := { s.fabric with skipped := passed upto } }
    (∀ upto o, b.body = .commitRecord upto none 0 → fabricOps s b.dst.part = [o] → s.findOp o.oid = some o →
      o.kind.byReply = false → ∃ t, exec (.commitRecord b) s = .next t ∧ t.mem = s.mem ∧ t.tasks = s.tasks ∧
        t.fabric.skipped = passed upto ∧
        OpIs t o.oid fun q => q.status = o.status ∧ q.kind.dests = o.kind.dests.map fun d =>
          if d.party = some b.src ∧ o.cls = b.cls ∧ (d.num = upto ∨ (numBefore d.num upto = true ∧ o.kind.ownRecord = false)) then
            { d with done := true } else d) ∧
    (∀ upto o, b.body = .commitRecord upto none 0 → fabricOps s b.dst.part = [o] → o.kind.byReply = true →
      exec (.commitRecord b) s = .next (pruned upto)) ∧
    (∀ upto e flags o d, b.body = .commitRecord upto (some e) flags → fabricOps s b.dst.part = [o] →
      s.findOp o.oid = some o → o.kind.byReply = true → o.kind.dests = [d] → isDest o b e.num d = true →
      ((o.status = .faulted ∨ o.kind.tries ≠ e.tries) → exec (.commitRecord b) s = .next (pruned upto)) ∧
      (o.status ≠ .faulted → o.kind.tries = e.tries → o.owner = none →
        ∃ t, exec (.commitRecord b) s = .next t ∧ OpIs t o.oid fun q =>
          q.status = (if o.cancel = true then o.status else .failed) ∧
          q.fcode = (if o.fcode = 0 then e.code else o.fcode) ∧ (o.fcode = 0 → q.faddr = gangAddr d.rank e.addr))) ∧
    (∀ num data flags o d, b.body = .reply num data flags → fabricOps s b.dst.part = [o] → s.findOp o.oid = some o →
      o.kind.byReply = true → o.kind.dests = [d] → isDest o b num d = true →
      ∃ t, exec (.reply b) s = .next t ∧ t.mem = s.mem ∧ OpIs t o.oid fun q =>
        (battensFor data.length ≤ (d.got ++ [b.bidx]).eraseDups.length → q.reply = some (data, BitVec.ofNat 6 flags)) ∧
        ((d.got ++ [b.bidx]).eraseDups.length < battensFor data.length → q.reply = none))

/-- SKIP_RECORD. A number that has been passed is discarded; the number that is next is passed at once, with what its battens left,
and a commit record that names it acknowledges it (that it does is the model's choice, notes/assumptions/119.md); a later one is
kept until its turn (R300, R301). -/
def Sys2Proof.Claims.NumbersAreSkipped : Prop :=
  ∀ (b : Batten) (s : State),
    let q := sequencer s b.src b.dst.part b.cls
    let i := Instr.skipRecord b
    ((∀ n, b.body ≠ .skip n) → exec i s = .next s) ∧
    (∀ n, b.body = .skip n → numBefore n q.next = true → exec i s = .next s) ∧
    (b.body = .skip q.next → q.skips = [] → ∃ t, exec i s = .next t ∧ t.mem = s.mem ∧
      sequencer t b.src b.dst.part b.cls =
        { q with next := (q.next + 1) % 2 ^ 28, stopped := false, skips := [], ops := q.ops.filter (·.num != q.next) } ∧
      ∃ o ∈ t.fabric.out, o.batten.dst = b.src ∧ o.batten.cls = b.cls ∧ o.path = .any ∧ o.prio = 3 ∧
        o.batten.body = .commitRecord (q.next % 2 ^ 28) none 0) ∧
    (∀ n, b.body = .skip n → numBefore n q.next = false → n ≠ q.next → q.next ∉ q.skips → ∃ t, exec i s = .next t ∧
      t.mem = s.mem ∧ sequencer t b.src b.dst.part b.cls = { q with skips := n :: q.skips })

/-- INTERNAL_DELIVERY. Of the queued battens for this device that may be sent, one whose course is over, else the one of the
greatest priority, of equals the one whose op was accepted first, reaches the receiving side of its partition, as a batten from a fibre would; with none nothing happens (R168,
R364). -/
def Sys2Proof.Claims.InternalBattens : Prop :=
  ∀ (s : State),
    let mine := fun (o : OutB) => o.batten.dst.pos == s.position && maySend s o && !refused s o.batten
    ((∀ o ∈ s.fabric.out, mine o = false) → exec .internalDelivery s = .next s) ∧
    (∀ o, pickInternal s = some o → o ∈ s.fabric.out ∧ o.batten.dst.pos = s.position ∧ mine o = true ∧
      (∀ p ∈ internalReady s, o.ready + 7680 ≤ s.cycle ∨ (s.cycle < p.ready + 7680 ∧ battenKey s o ≤ battenKey s p)) ∧
      ∃ t, exec .internalDelivery s = .next t ∧
        (∀ req, o.batten.body = .data req →
          let b := o.batten
          let q := sequencer s b.src b.dst.part b.cls
          t.fabric.out = s.fabric.out.erase o ∧ t.mem = s.mem ∧
          (numBefore b.cseq q.next = false → (∀ p ∈ q.ops, p.num ≠ b.cseq) → sequencer t b.src b.dst.part b.cls =
            { q with ops := q.ops ++ [⟨b.cseq, req, [b.bidx], none, none, none⟩] })))

/-- FABRIC_UNREACHABLE. A fabric op that can reach nobody, has had 32 rounds without a path or 64 rounds without an answer records
the fault; detached it is FAILED, attached FAULTED, and a RRED is FAILED either way; one that is being cancelled keeps the fault and
goes on to its end. One that still may go on, or does not run, stays. A calibration course is no path (R170, R172, R294, R297,
R303, R304). -/
def Sys2Proof.Claims.RanksAreUnreachable : Prop :=
  ∀ (o : Nat) (s : State) (op : Op), s.findOp o = some op →
    let i := Instr.fabricUnreachable o
    ((unreachable s op = none ∨ (op.status ≠ .queued ∧ op.status ≠ .running)) → exec i s = .next s) ∧
    (∀ e m q place got pa n, unreachable s op = some e → (op.status = .queued ∨ op.status = .running) →
      op.kind = .rred m q place got pa n → (e = 0x11 ∨ e = 0x12) ∧
      ∃ t, exec i s = .next t ∧ t.mem = s.mem ∧ OpIs t o fun p =>
        p.status = .failed ∧ p.fcode = (if op.fcode = 0 then e else op.fcode)) ∧
    (∀ m q place got pa n, op.kind = .rred m q place got pa n → (∀ b ∈ s.fabric.out, b.oid ≠ o) → op.oid = o →
      (unreachable s op = some 0x11 ↔ n ≠ 0 ∧ n + 64 * 32 * 7680 ≤ s.cycle ∧ op.reply = none)) ∧
    (∀ e, op.kind.isFabric = true → unreachable s op = some e → (op.status = .queued ∨ op.status = .running) →
      (e = 0x11 ∨ e = 0x12) ∧ ∃ t, exec i s = .next t ∧ t.mem = s.mem ∧ OpIs t o fun q =>
        q.status = (if op.cancel = true then op.status else if op.owner = none then .failed else .faulted) ∧
        q.fcode = (if op.fcode = 0 then e else op.fcode)) ∧
    ((∃ d ∈ op.kind.dests, d.party = none) → unreachable s op = some 0x11) ∧
    (∀ b : OutB, pathNow s b = true → (inHallStage s b.batten = false ∨ (b.path = .direct ∧ hasDirect s b.part b.batten = true)) →
      ∃ f, directHop s b.batten f (coursePos s.course) = true ∧ calibratesNow s f = false)

/-- REDUCTION_FOLD. Once every contribution of a match is there they leave the store and the result, folded in ascending rank, goes
to every contributor that the rank table names. A match whose contributors do not agree in FUNC and COUNT is answered as failed to
each that is there: with no data and flags 64, which is the model's form of that answer (notes/assumptions/12.md). With no whole
match nothing happens (R246, R248, R306). -/
def Sys2Proof.Claims.ReductionsFold : Prop :=
  ∀ (part : Fin 4) (s : State),
    let i := Instr.reductionFold part
    let answers := fun (t : State) (c : RredMsg) (data : List Byte) (flags : Nat) =>
      ∀ p, rankParty s part c.rank = some p → ∃ o ∈ t.fabric.out, o.batten.dst = p ∧
        ∃ w, o.batten.body = .rredResult w flags ∧ w.rank = c.rank ∧ w.data = data
    let gone := fun (t : State) (m : RredMsg) (l : List RredMsg) => t.mem = s.mem ∧
      (∀ e ∈ t.fabric.rreds, e ∈ s.fabric.rreds) ∧
      ∀ e ∈ t.fabric.rreds, e.1 = part.val → sameRred m e.2.1 = true → ∀ c ∈ l, c.rank ≠ e.2.1.rank
    ((∀ m ∈ rredWhole s part.val, rredFails s part.val m = false ∧ rredReady s part.val m = none) → exec i s = .next s) ∧
    (∀ m l, rredReady s part.val m = some l →
      l.length = m.count ∧ ∀ k (h : k < l.length), l[k].rank = m.point + k ∧ l[k] ∈ rredGroup s part.val m) ∧
    (∀ m l, (∀ w ∈ rredWhole s part.val, rredFails s part.val w = false) →
      (rredWhole s part.val).findSome? (fun m => (rredReady s part.val m).map fun g => (m, g)) = some (m, l) →
      let r := redFold (redCode m.func) (l.map fun c => wordsOf c.data)
      ∃ t, exec i s = .next t ∧ gone t m l ∧
        ∀ c ∈ l, answers t c ((r.1.map fun w => toBytes 4 w.toNat).flatten) r.2.toNat) ∧
    (∀ m, (rredWhole s part.val).find? (rredFails s part.val) = some m →
      ∃ t, exec i s = .next t ∧ gone t m (rredGroup s part.val m) ∧ ∀ c ∈ rredGroup s part.val m, answers t c [] 64) ∧
    ∀ m c, c ∈ rredGroup s part.val m → (c.func ≠ m.func ∨ c.count ≠ m.count) → rredFails s part.val m = true

/-- The fabric's registers. RSVn ignores a write that sets a bit another of them has; SWC arms a switch, which flips CUR at cycle 0 of
its course or of a later one; CEPOCH is taken until COURSE is set; before READY the first two are ignored (R290, R296, R308,
R353). -/
def Sys2Proof.Claims.FabricRegisters : Prop :=
  ∀ (part : Fin 4) (n : Fin 16) (v : W64) (s : State),
    let p := s.parts[part]
    let clash := ∃ m : Fin 16, m ≠ n ∧ p.rsv[m] &&& v ≠ 0
    ((partReady s part = false ∨ clash) → exec (.rsvWrite part n v) s = .next s) ∧
    (partReady s part = true → ¬clash → exec (.rsvWrite part n v) s = .next (s.updPart part fun p => { p with rsv := p.rsv.set n v })) ∧
    (partReady s part = false → exec (.replicaSwitchArm part v) s = .next s) ∧
    (partReady s part = true → exec (.replicaSwitchArm part v) s =
      .next (s.updPart part fun p => { p with swc := v.toNat % 2 ^ 48, armed := true })) ∧
    (let due := p.armed = true ∧ s.cycle = s.fabric.began ∧ p.swc ≤ s.course
     (due → exec (.replicaSwitch part) s = .next (s.updPart part fun p => { p with cur := !p.cur, armed := false })) ∧
     (¬due → exec (.replicaSwitch part) s = .next s)) ∧
    (s.fabric.set = true → exec (.cepoch v) s = .next s) ∧
    (s.fabric.set = false → exec (.cepoch v) s = .next { s with mgmt := { s.mgmt with epoch := some (v, s.fabric.began) } })

/-! ## Bring-up, updates and service -/

/-- POWER_ON, by its phases: an image that does not verify, is older than the fuses, memory that does not train, and a device that
is not divided with too few clusters each lead to recovery with their code; phase 2 leaves each fibre a width of at most 16, and
none without its light; phase 3 leaves the device's memory zero; phase 4 waits for a source of COURSE and builds the mapping, also
of a divided device, of which a partition with too few clusters reads as in recovery with FAIL 3 and is not READY; phase 5 sets
READY, with the slots of the course that are past left unused. Nothing happens once READY is set or while the clocks are stopped
(R12, R13, R20, R289, R290, R303, R353, R354, R355). -/
def Sys2Proof.Claims.PowerOnPhases : Prop :=
  ∀ (s : State),
    let m := s.mgmt
    let fails := fun (t : State) (code : Nat) => t.mgmt.phase = 6 ∧ t.mgmt.fail = code ∧ t.mem = s.mem
    ((m.ready = true ∨ m.tripped = true ∨ 5 < m.phase) → exec .powerOn s = .next s) ∧
    (m.ready = false → m.tripped = false →
      (m.phase = 0 →
        (Config.signed m.image = false → ∃ t, exec .powerOn s = .next t ∧ fails t 1) ∧
        (Config.signed m.image = true → m.isvn < m.fuse → ∃ t, exec .powerOn s = .next t ∧ fails t 2) ∧
        (Config.signed m.image = true → m.fuse ≤ m.isvn → exec .powerOn s = .next { s with mgmt := { m with phase := 1 } })) ∧
      (m.phase = 1 → exec .powerOn s = .next { s with mgmt := { m with phase := 2, svn := m.isvn } }) ∧
      (m.phase = 2 → ∃ t, exec .powerOn s = .next t ∧
        (∀ f : Fin 128, (t.fabric.fibres[f]).width ≤ 16 ∧ (t.fabric.fibres[f]).next = (t.fabric.fibres[f]).width ∧
          (fibreLit s f = false → (t.fabric.fibres[f]).width = 0)) ∧
        (Config.hbmTrains s.free = true → t.mgmt = { m with phase := 3 }) ∧
        (Config.hbmTrains s.free = false → fails t 4)) ∧
      (m.phase = 3 → ∃ t, exec .powerOn s = .next t ∧ t.mgmt = { m with phase := 4 } ∧ t.poison = [] ∧
        ∀ a, t.mem.read a = if a < 2 ^ 65 then 0 else s.mem.read a) ∧
      (m.phase = 4 → courseSource s = none → exec .powerOn s = .next s) ∧
      (∀ n, m.phase = 4 → courseSource s = some n → ∃ t, exec .powerOn s = .next t ∧ t.fabric.set = true ∧
        t.fabric.course = BitVec.ofNat 48 n ∧ t.mem = s.mem ∧
        (∀ p : Fin 4, (s.parts[p]).used = true → (t.parts[p]).used = true ∧ (t.parts[p]).map = usableMap t p ∧
          ((t.parts[p]).short = true ↔ (t.parts[p]).map.length < 10)) ∧
        (m.pmode = 0 → (s.parts[(0 : Fin 4)]).used = true →
          (10 ≤ (usableMap t 0).length → t.mgmt.phase = 5) ∧ ((usableMap t 0).length < 10 → fails t 3)) ∧
        (m.pmode ≠ 0 → t.mgmt.phase = 5)) ∧
      (m.phase = 5 → ∃ t, exec .powerOn s = .next t ∧ t.mgmt = { m with ready := true } ∧ t.mem = s.mem ∧ t.parts = s.parts ∧
        ∀ f : Fin 128, ∃ n, t.fabric.fibres[f] = { s.fabric.fibres[f] with slot := n } ∧
          ((s.fabric.fibres[f]).width ≠ 0 → ∀ k, k < n ↔ 240 + 48 * k / (s.fabric.fibres[f]).width < s.cycle - s.fabric.began))) ∧
    (∀ p : Fin 4, (s.parts[p]).used = true → let w := dstatReg s p
      w / 2 ^ 32 % 2 ^ 32 = m.svn.toNat ∧
      ((m.ready = true ∧ (s.parts[p]).short = true) → w % 2 = 0 ∧ w / 2 % 8 = 6 ∧ w / 2 ^ 8 % 256 = 3) ∧
      ((m.ready = false ∨ (s.parts[p]).short = false) → w / 2 % 8 = m.phase % 8 ∧ w / 2 ^ 8 % 256 = m.fail % 256 ∧
        (w % 2 = 1 ↔ m.ready = true ∧ 10 ≤ (s.parts[p]).map.length)))

/-- A thermal trip stops the clocks and loses all state of the device but its fuses, images, cabling and laser modules; after it the
device starts at phase 0, and what came in while the clocks stood is lost with the rest. In recovery, of the whole device or of
every partition of it, an image is taken and the device restarts at phase 0; otherwise it is not (that it then restarts every
partition is the model's choice, notes/assumptions/123.md) (R354, R357, R360). -/
def Sys2Proof.Claims.RestartsLoseState : Prop :=
  ∀ (image : List Byte) (svn : W32) (s : State),
    let lost := fun (t : State) => t.mgmt.phase = 0 ∧ t.mgmt.ready = false ∧ t.mgmt.epoch = none ∧ t.tasks = [] ∧ t.graphs = [] ∧
      t.ops = [] ∧ t.mgmt.fuse = s.mgmt.fuse ∧ t.mgmt.ucode = s.mgmt.ucode ∧ t.fabric.index = s.fabric.index ∧
      t.fabric.hall = s.fabric.hall ∧ (∀ f : Fin 128, t.fabric.fibres[f] = { Fibre.reset with lit := (s.fabric.fibres[f]).lit }) ∧
      (∀ c : CoreId, (t.core c).run = .idle ∧ t.ctx c = Ctx.reset) ∧ ∀ a, a < 2 ^ 65 → t.mem.read a = 0
    let recovering := s.mgmt.phase = 6 ∨ (s.mgmt.ready = true ∧ ∀ p : Fin 4, (s.parts[p]).used = true → (s.parts[p]).short = true)
    (∃ t, exec .thermalTrip s = .next t ∧ lost t ∧ t.mgmt.tripped = true ∧ t.mgmt.image = s.mgmt.image ∧ t.mgmt.isvn = s.mgmt.isvn) ∧
    (s.mgmt.tripped = true → ∃ t, exec .thermalRestart s = .next t ∧ lost t ∧ t.mgmt.tripped = false ∧
      t.mgmt.image = s.mgmt.image ∧ t.mgmt.isvn = s.mgmt.isvn) ∧
    (s.mgmt.tripped = false → exec .thermalRestart s = .next s) ∧
    (recovering → ∃ t, exec (.recoveryImage image svn) s = .next t ∧ lost t ∧ t.mgmt.image = image ∧ t.mgmt.isvn = svn) ∧
    (¬recovering → exec (.recoveryImage image svn) s = .next s)

/-- Updates, fuses and attestation, while firmware runs. An update that does not verify is refused; with no die being drained the
firmware's is active at once, and the microcode's at a slot boundary, after which dispatch waits at most 4,096 cycles. Fuses
are only raised. A nonce of 32 bytes is answered with what it covers, the nonce and a digest of each image and the partitions, and a
signature of 29,792 bytes over that (digest, signature and the order of what it covers are free, notes/assumptions/115.md)
(R355, R356, R359). -/
def Sys2Proof.Claims.UpdatesActivate : Prop :=
  ∀ (image : List Byte) (svn : W32) (nonce : List Byte) (s : State),
    let runs := firmwareRuns s = true
    let good := Config.signed image = true ∧ s.mgmt.fuse ≤ svn
    (¬(runs ∧ good) → exec (.firmwareUpdate image svn) s = .next s ∧ exec (.microcodeUpdate image svn) s = .next s) ∧
    (runs → good → s.mgmt.updates = [] →
      (s.mgmt.draining = [] →
        exec (.firmwareUpdate image svn) s = .next { s with mgmt := { s.mgmt with image := image, isvn := svn, svn := svn } } ∧
        (s.cycle % 2 = 0 → ∃ t, exec (.microcodeUpdate image svn) s = .next t ∧ t.mgmt.ucode = image ∧ t.mgmt.updates = [] ∧
          s.cycle ≤ t.mgmt.slotHold ∧ t.mgmt.slotHold ≤ s.cycle + 4096 ∧ t.mem = s.mem)) ∧
      (s.mgmt.draining ≠ [] → ∃ t, exec (.firmwareUpdate image svn) s = .next t ∧
        t.mgmt = { s.mgmt with updates := [(false, image, svn)] })) ∧
    (exec (.fuseRaise svn) s =
      .next (if firmwareRuns s = true ∧ s.mgmt.fuse < svn then { s with mgmt := { s.mgmt with fuse := svn } } else s)) ∧
    (¬(runs ∧ nonce.length = 32) → exec (.attestationRequest nonce) s = .next s) ∧
    (runs → nonce.length = 32 → exec (.attestationRequest nonce) s =
      .next { s with outputs := s.outputs ++ [Output.report (attestedBytes s nonce ++ (Config.attest (attestedBytes s nonce)).toList)] }) ∧
    (Config.attest (attestedBytes s nonce)).toList.length = 29792 ∧
    ∃ rest, attestedBytes s nonce = nonce ++ toBytes 32 (Config.sha256 s.mgmt.image).toNat ++
      toBytes 32 (Config.sha256 s.mgmt.ucode).toNat ++ toBytes 4 s.mgmt.svn.toNat ++ rest

/-- Plain registers of the privileged page. Before READY a write is ignored. After it each takes its fields: RCTL.AGE ignores 0,
RTBASE and NRANK ignore a write while a fabric op is live, CBASE clears ERR by a 1; HQDROP and ECCSTAT are cleared by any write,
and an offset without a register is ignored (R6, R92, R119, R226, R228, R291, R308, R339, R353, R358). -/
def Sys2Proof.Claims.RegistersAreWritten : Prop :=
  ∀ (port : Fin 2) (part : Fin 4) (v : BitVec 128) (off : Nat) (n : Fin 8) (base : W64) (npg : W32) (en : Bool) (s : State),
    let write := fun off => exec (.registerWrite port part off v) s
    let w := v.toNat
    let lo := BitVec.ofNat 64 w
    (partReady s part = false → write off = .next s) ∧
    ((∀ p, partReady s p = false) → exec (.hqdropWrite port) s = .next s ∧ exec .eccstatWrite s = .next s ∧
      exec (.outboundWindowWrite port n base npg en) s = .next s) ∧
    (partReady s part = true →
      write 0x400 = .next (s.updPart part fun p => { p with age := if w % 256 = 0 then p.age else w % 256 }) ∧
      write 0x508 = .next (s.updPart part fun p => { p with yregs := { p.yregs with addr := lo } }) ∧
      write 0x510 = .next (s.updPart part fun p => { p with yregs := { p.yregs with hash := v } }) ∧
      write 0x700 = .next (s.updPort port fun p => { p with hqbase := lo }) ∧
      write 0x710 = .next (s.updPort port fun p => { p with hthr := BitVec.ofNat 16 w }) ∧
      write 0x430 = .next s ∧ write 0x408 = .next s ∧ ((off < 0x400 ∨ 0x1000 ≤ off) → write off = .next s) ∧
      (fabricBusy s = true → write 0x808 = .next s ∧ write 0x810 = .next s) ∧
      (fabricBusy s = false →
        write 0x808 = .next (s.updPart part fun p => { p with rtbase := BitVec.ofNat 64 (w / 65536 % 2 ^ 48 * 65536) }) ∧
        write 0x810 = .next (s.updPart part fun p => { p with nrank := w % 2 ^ 20, ownrank := w / 2 ^ 32 % 2 ^ 20 })) ∧
      (∀ k : Fin 64, write (0xE00 + 8 * k.val) = .next (s.updContext port k fun c => { c with
        cerr := c.cerr && !lo.getLsbD 0, cbase := BitVec.ofNat 64 (w / 16384 % 2 ^ 29 * 16384) })) ∧
      exec (.hqdropWrite port) s = .next (s.updPort port fun p => { p with hqdrop := 0 }) ∧
      exec .eccstatWrite s = .next { s with mgmt := { s.mgmt with cesp := 0, celoft := 0, cehbm := 0, ue := 0 } } ∧
      exec (.outboundWindowWrite port n base npg en) s =
        .next (s.updPort port fun p => { p with obw := p.obw.set n ⟨base &&& 0xFFFFFFFFFFFF0000, npg, en⟩ }))

/-- An address of a memory of the device: HBM, the Loft or a scratchpad. -/
def deviceKey (a : Nat) : Prop :=
  a < 618475290624 ∨ (2 ^ 40 ≤ a ∧ a < 2 ^ 40 + 2 ^ 30) ∨ (2 ^ 41 ≤ a ∧ a < 2 ^ 41 + 640 * 2 ^ 21)

/-- MEM_UE poisons the aligned word of its address, counts it and reports it, after what has issued before it and touches the word,
and all that comes before that, has been performed; SCRUB changes no byte, and over a poisoned word counts
it; at an address that no memory has both stop, as the model's faults (R228, R229). -/
def Sys2Proof.Claims.WordsArePoisoned : Prop :=
  ∀ (a : Nat) (s : State),
    let w := a / 8 * 8
    (¬deviceKey a → exec (.memUe a) s = .fault .noSuchAddress ∧ exec (.scrub a) s = .fault .noSuchAddress) ∧
    (deviceKey a →
      (let u := settleWord w (unitsLeft s) s
       ((∀ e ∈ underWay s, touchesWord w e = false) → u = s) ∧
       ∃ t, exec (.memUe a) s = .next t ∧ w ∈ t.poison ∧ (∀ k, k ∈ t.poison ↔ k = w ∨ k ∈ u.poison) ∧
        t.mem = u.mem ∧ t.outputs = u.outputs ++ [.machineCheck w] ∧
        t.mgmt.ue = if u.mgmt.ue = 0xFFFF then 0xFFFF else u.mgmt.ue + 1) ∧
      (w ∈ s.poison → exec (.scrub a) s =
        .next { s with mgmt := { s.mgmt with ue := if s.mgmt.ue = 0xFFFF then 0xFFFF else s.mgmt.ue + 1 } }) ∧
      (w ∉ s.poison → ∃ t, exec (.scrub a) s = .next t ∧ t.mem = s.mem ∧ t.poison = s.poison ∧ t.mgmt.ue = s.mgmt.ue))

/-- HOST_MEMORY_ACCESS within HBM. A write stores the bytes it names, all or none, and no other; a read answers them and changes
nothing else; reserved HBM, but for a rank table there (the model's choice, notes/assumptions/76.md), a retired stack, and a part
of a poisoned word are not written (R78, R229, R361, R363). -/
def Sys2Proof.Claims.HostsReachMemory : Prop :=
  ∀ (port : Fin 2) (write : Bool) (a : Nat) (bytes : List Byte) (s : State),
    let i := Instr.hostMemoryAccess port write a bytes
    let n := bytes.length
    (618475290624 < a + n → a < 2 ^ 64 → exec i s = .fault .noSuchAddress) ∧
    (a + n ≤ 618475290624 →
      ((deviceReady s = false ∨ hostMayReach s a n = false) → exec i s = .next s) ∧
      (deviceReady s = true → hostMayReach s a n = true →
        (write = true → s.partPoison a n = true → exec i s = .next s) ∧
        (write = true → s.partPoison a n = false → s.mem.wf = true → ∃ t, exec i s = .next t ∧ t.mem.readN a n = bytes ∧
          (∀ k, (k < a ∨ a + n ≤ k) → t.mem.read k = s.mem.read k) ∧ t.cores = s.cores ∧ t.tasks = s.tasks) ∧
        (write = false → exec i s =
          .next { s with outputs := s.outputs ++ [Output.hostRead port.val a (s.mem.readN a n)] })))

/-- STKRET with bit 63 set retires the stack it names, once; POWER_CLAMP withholds the issue slots of the cores it names and gives the
others theirs; a change of the partitions, while the device holds no graphs and firmware runs, divides the dies as its mode
says, and of the open contexts that a device or partition is offered at most one has FAB (R20, R68, R357, R361). -/
def Sys2Proof.Claims.ServiceCommands : Prop :=
  ∀ (v : W64) (cores : List CoreId) (mode : Fin 3) (s : State),
    let k := v.toNat % 16
    ((deviceReady s = false ∨ v.getLsbD 63 = false ∨ 12 ≤ k ∨ k ∈ s.mgmt.retired) → exec (.stkret v) s = .next s) ∧
    (deviceReady s = true → v.getLsbD 63 = true → k < 12 → k ∉ s.mgmt.retired → ∃ t, exec (.stkret v) s = .next t ∧
      t.mgmt = { s.mgmt with retired := k :: s.mgmt.retired } ∧ t.mem = s.mem ∧ t.tasks = s.tasks) ∧
    (∃ t, exec (.powerClamp cores) s = .next t ∧ t.mem = s.mem ∧ t.tasks = s.tasks ∧
      ∀ c : CoreId, t.core c = { s.core c with held := cores.contains c }) ∧
    ((firmwareRuns s = false ∨ s.graphs ≠ []) → exec (.partition mode) s = .next s) ∧
    (firmwareRuns s = true → s.graphs = [] → ∃ t, exec (.partition mode) s = .next t ∧ t.mgmt = { s.mgmt with pmode := mode.val } ∧
      t.mem = s.mem ∧
      (∀ (p q : Fin 2) (n m : Fin 64), (t.ports[p].ctx[n]).en = true → (t.ports[p].ctx[n]).fab = true →
        (t.ports[q].ctx[m]).en = true → (t.ports[q].ctx[m]).fab = true → partOfCtx t n = partOfCtx t m → p = q ∧ n = m) ∧
      ∀ p : Fin 4,
        (t.parts[p]).dies = (match mode with
          | 0 => if p = 0 then [0, 1, 2, 3] else []
          | 1 => if p.val < 2 then [2 * p.val, 2 * p.val + 1] else []
          | 2 => [p.val]) ∧
        ((t.parts[p]).used = true ↔ (t.parts[p]).dies ≠ []) ∧
        ((t.parts[p]).used = true → (t.parts[p]).map = usableMap t p) ∧
        (t.parts[p]).mapGen = ((s.parts[p]).mapGen + 1) % 2 ^ 32)

/-- DIE_DRAIN and DIE_RETURN, while firmware runs. A die that is mapped is to be drained: its fibres leave the calendar at the next
boundary and all its cores are to be evicted. A drained one is to return: its lit fibres rejoin at a boundary, and the cores that
the change of the mapping affects are to be evicted. Otherwise, and of a die that failed its health check, nothing happens (R12,
R18, R330). -/
def Sys2Proof.Claims.DiesDrain : Prop :=
  ∀ (d : Fin 4) (s : State),
    let evicts := fun (t : State) => (∀ e ∈ s.evict, e ∈ t.evict) ∧ ∀ c : CoreId, c.val / 160 = d.val → ∃ n, (c, n) ∈ t.evict
    let away := d.val ∈ s.mgmt.drained ∧ d.val ∉ s.mgmt.returning
    let bad := d.val ∈ s.mgmt.badDies
    ((firmwareRuns s = false ∨ away ∨ d.val ∈ s.mgmt.draining ∨ bad) → exec (.dieDrain d) s = .next s) ∧
    ((firmwareRuns s = false ∨ ¬away) → exec (.dieReturn d) s = .next s) ∧
    (firmwareRuns s = true → ¬away → d.val ∉ s.mgmt.draining → ¬bad → ∃ t, exec (.dieDrain d) s = .next t ∧
      t.mgmt = { s.mgmt with
        draining := if d.val ∈ s.mgmt.drained then s.mgmt.draining else s.mgmt.draining ++ [d.val]
        returning := s.mgmt.returning.filter (· != d.val) } ∧ t.mem = s.mem ∧ t.tasks = s.tasks ∧ evicts t ∧
      ∀ f : Fin 128, t.fabric.fibres[f] =
        if f.val % 64 / 16 = d.val then { s.fabric.fibres[f] with next := 0, retrain := false } else s.fabric.fibres[f]) ∧
    (firmwareRuns s = true → away → d.val ∉ s.mgmt.draining → ∃ t, exec (.dieReturn d) s = .next t ∧
      t.mgmt = { s.mgmt with returning := s.mgmt.returning ++ [d.val] } ∧ t.mem = s.mem ∧ t.tasks = s.tasks ∧ evicts t ∧
      ∀ f : Fin 128, t.fabric.fibres[f] =
        if f.val % 64 / 16 = d.val ∧ s.fabric.fibres[f].lit = true ∧ s.fabric.fibres[f].dark = false ∧ ¬bad then
          { s.fabric.fibres[f] with next := 16 }
        else s.fabric.fibres[f])

/-! ## Decoding, the step and the state after reset -/

/-- The events of the device, of the fabric and of its hosts: what no stream executes. -/
def isEvent : Instr → Bool
  | .tsigAnswer _ | .successorWalk _ | .entryLand _ _ | .tinvComplete _ | .kmrgWriteback _
  | .opAccept _ _ | .copyBurst _ | .gatherElement _ | .kGroup _ | .accumulatorRow _ | .enginePush _ _ | .opComplete _
  | .opPull _ _ | .heldWriteRewalk _ | .writeHoldExpired _ | .scheduleMiss _ _ | .fetchRequest _ _ | .fetchFill _ _
  | .launch _ _ _ _ | .launchProcess _ _ | .gcan _ _ _ | .contextDescriptorWrite _ _ _ | .icinvContext _ _ | .icinvAll _ _
  | .icinvComplete _ _ | .xinv _ _ | .yelmExport _ _ _ _ | .yelmImport _ _ _ | .yelmDelete _ _ _ | .yelmFreeze _ _
  | .yelmThaw _ _ | .yelmCommandDone _ | .preemptGraph _ _ | .resumeGraph _ _ | .cutComplete _ | .handlerSpawn _
  | .cutResume _ | .eviction _ | .coreLost _ | .graphTimeout _ | .dispatchSlot _ | .candidateReady _ | .streamsStart _
  | .tracedStart _ _ | .guardStall _ | .gangAgreement _ _ _ _ _ | .graphRetire _ | .refinementPass _ | .notifierMessage _ _ _
  | .hotPageMessage _ | .battenSend _ | .battenReceive _ _ _ _ | .valleyForward _ | .battenRetransmit _ _ | .commit _ _ _
  | .commitRecord _ | .reply _ | .skipRecord _ | .notifyHoldExpired _ _ _ | .fabricUnreachable _ | .keyInstall _
  | .reductionFold _ | .wavelengthLost _ _ | .wavelengthRegained _ | .laserModuleRemoved _ | .laserModuleInserted _
  | .laserPower _ | .cepoch _ | .rsvWrite _ _ _ | .replicaSwitchArm _ _ | .replicaSwitch _ | .hqdropWrite _
  | .outboundWindowWrite _ _ _ _ _ | .stkret _ | .registerWrite _ _ _ _ | .attestationRequest _ | .fuseRaise _
  | .firmwareUpdate _ _ | .microcodeUpdate _ _ | .recoveryImage _ _ | .partition _ | .dieDrain _ | .dieReturn _ | .memUe _
  | .scrub _ | .resultWrite _ | .accessPerformed _ _ _ | .hostMemoryAccess _ _ _ _ | .copyOrderWaitExpired _
  | .cutStoreMove _ | .powerClamp _ | .counterDecrement | .courseBoundary | .internalDelivery | .landingNotify | .forcedCut
  | .eccstatWrite | .powerOn | .thermalTrip | .thermalRestart => true
  | _ => false

/-- Every well-formed instruction, but for an event, has a word in some stream; the stream decodes that word to it, and every word
that a stream decodes is the word of its instruction, with its second word when it has one: no bit of an encoding is dropped. No
stream has a word for an event (R127, R129, R130, R135). -/
def Obligations.WordsAndInstructionsAgree : Prop :=
  (∀ i : Instr, i.WellFormed = true → isEvent i = false → ∃ st, (encode st i).isSome = true) ∧
  (∀ (st : Stream) (i : Instr), isEvent i = true → encode st i = none) ∧
  ∀ (st : Stream) (i : Instr),
    (∀ w w2, encode st i = some (w, w2) → i.WellFormed = true →
      w < 2 ^ 32 ∧ w2 < 2 ^ 32 ∧ (isLong st w = false → w2 = 0) ∧ decode st w w2 = .ok i) ∧
    (∀ w w2, w < 2 ^ 32 → w2 < 2 ^ 32 → (isLong st w = false → w2 = 0) → decode st w w2 = .ok i →
      i.WellFormed = true ∧ encode st i = some (w, w2))

/-- Words written out from the spec's encodings: NOP, ADDI, ADD, LD, JMP, ALD, RDQS, FADD, GUARD, TEND, TOKW and TOKP (R127, R129,
R132, R147, R179, R180, R182, R196, R233, R234, R236, R253). -/
def Obligations.DecodedWords : Prop :=
  let none : Tok := ⟨false, false, false, false⟩
  decode .ctl 0x00000000 0 = .ok (.nop none) ∧
  decode .ctl 0x080A0002 0 = .ok (.addi none 5 0 2) ∧
  decode .ctl 0x04061100 0 = .ok (.alu none .add 3 1 2) ∧
  decode .ctl 0x280E3C02 0 = .ok (.ld none .b8 7 3 0 2) ∧
  decode .ctl 0x94007000 0 = .ok (.guard none 7) ∧
  decode .ctl 0x90000001 0 = .ok (.tend false false true) ∧
  decode .load 0x1801FFFB 0 = .ok (.jmpLoadStore none 0x1FFFB) ∧
  decode .store 0x1801FFFB 0 = .ok (.jmpLoadStore none 0x1FFFB) ∧
  decode .load 0x7804FC01 0 = .ok (.ald none .b8 2 15 0 1) ∧
  decode .load 0x24322188 0 = .ok (.rdqs none 1 2 3 1 0) ∧
  decode .math 0x06718000 0 = .ok (.fadd ⟨true, false, false, true⟩ (.oq 0) (.iq 0) (.v 0) ⟨.f32, .rne, false, false⟩) ∧
  decode .math 0xD0000084 0 = .ok (.tokwMath none true 4) ∧
  decode .load 0x70000001 0 = .ok (.tokpLoadStore none false 1)

/-- The state in which a stream's instruction executes: the stream has left the agenda, the lines its words were read from are the
most recently used of its cache, and the machine is about to execute these words. -/
def turnState (s : State) (rest : List Turn) (c : CoreId) (st : Stream) (w w2 : W32) : State :=
  touchWords c st { s with agenda := rest, focus := ⟨c, st, w, w2⟩ }

/-- A step runs the decoded instruction. When a stream has its turn and the line in its cache holds the word at its pc, and for a
long form the next word too, the step is exec of the instruction they decode to; a word of no instruction takes ILLEGAL_OP or
ILLEGAL_STREAM; a word or second word outside the image takes ILLEGAL_OP, one in a poisoned word of its line MEM_UE, and one whose
line could not be fetched the fault of that fetch, each precise at the stream; a line that is not there is awaited; an event runs
as it is; with nobody left the next cycle begins (R120, R121, R122, R126, R136). -/
def Sys2Proof.Claims.StepsRunTheDecoded : Prop :=
  ∀ (s : State) (rest : List Turn),
    (s.agenda = [] → step s = .next (tick s)) ∧
    (∀ i, s.agenda = .event i :: rest → step s = exec i { s with agenda := rest }) ∧
    (∀ c st, s.agenda = .stream c st :: rest → hasTurn s c st = false → step s = .next { s with agenda := rest }) ∧
    (∀ c st, s.agenda = .stream c st :: rest → hasTurn s c st = true → ((s.ctx c).strm st).taken = false →
      let q := (s.ctx c).strm st
      let a := q.pc.toNat
      let faults := fun (code addr : Nat) (w : W32) =>
        let t := fetchFault c st code addr w { s with agenda := rest }
        step s = .next t ∧ ∀ slot k, (s.core c).run = .running slot → s.findTask slot = some k →
          (t.core c).run = .cutting slot s.cycle ∧ t.mem = s.mem ∧ (t.ctx c).g = (s.ctx c).g ∧ (t.ctx c).tok = (s.ctx c).tok ∧
          ∃ e, t.findTask slot = some { k with fault := some e } ∧ e.code = code ∧ e.stream = st ∧ e.src = 0 ∧ e.pc = q.pc ∧
            e.word = w ∧ e.addr = BitVec.ofNat 64 addr
      let found := fun (a : Nat) (w : W32) =>
        (inImage q a = false → faults 0x01 a w) ∧
        (inImage q a = true → ∀ l, heldLine s c st (lineOf a) = some l → l.bad a = true → faults 0x10 a w) ∧
        (inImage q a = true → heldLine s c st (lineOf a) = none → q.miss = some (BitVec.ofNat 64 (lineOf a)) → q.missCode ≠ 0 →
          faults q.missCode a w) ∧
        (inImage q a = true → heldLine s c st (lineOf a) = none → q.miss = none → ∃ t, step s = .next t ∧
          ((t.ctx c).strm st).miss = some (BitVec.ofNat 64 (lineOf a)) ∧ t.mem = s.mem ∧ (t.ctx c).g = (s.ctx c).g)
      found a 0 ∧
      (inImage q a = true → ∀ l, heldLine s c st (lineOf a) = some l → l.bad a = false →
        let w := l.word a
        (isLong st w.toNat = false →
          (∀ i, decode st w.toNat 0 = .ok i → step s = exec i (turnState s rest c st w 0)) ∧
          (∀ e, decode st w.toNat 0 = .error e → step s = .next (takeFault (turnState s rest c st w 0)
            { code := if e = .illegalStream then 0x02 else 0x01 }))) ∧
        (isLong st w.toNat = true → found (a + 4) w ∧ (inImage q (a + 4) = true →
          ∀ l2, heldLine s c st (lineOf (a + 4)) = some l2 → l2.bad (a + 4) = false →
            let w2 := l2.word (a + 4)
            (∀ i, decode st w.toNat w2.toNat = .ok i → step s = exec i (turnState s rest c st w w2)) ∧
            (∀ e, decode st w.toNat w2.toNat = .error e → step s = .next (takeFault (turnState s rest c st w w2)
              { code := if e = .illegalStream then 0x02 else 0x01 })))))) ∧
    (∀ c st i, s.agenda = .stream c st :: rest → hasTurn s c st = true → ((s.ctx c).strm st).taken = true →
      decode st ((s.ctx c).strm st).words.1.toNat ((s.ctx c).strm st).words.2.toNat = .ok i →
      step s = exec i (turnState s rest c st ((s.ctx c).strm st).words.1 ((s.ctx c).strm st).words.2))

/-- An instruction of the opcode table that is placed for the next step is the one that step executes, on core 0, from every
state. -/
def Sys2Proof.Claims.PlacedWordsRun : Prop :=
  ∀ (s : State) (nbits w : Nat) (i : Instr), decodeTableWord nbits w = some i →
    ∃ t, step (s.withFetchWord nbits w) = exec i t ∧ t.fcore = 0 ∧ t.mem = s.mem ∧ t.tasks = s.tasks ∧ t.cycle = s.cycle

/-- A step keeps the memory's canonical form. -/
def Obligations.StepsKeepMemoryGood : Prop :=
  ∀ (s t : State), s.MemGood → step s = .next t → t.MemGood

/-- No step lowers the anti-rollback fuses, and none changes the index and the hall that the cabling fixes (R291, R355). -/
def Obligations.FusesNeverFall : Prop :=
  ∀ (s t : State), step s = .next t →
    s.mgmt.fuse.toNat ≤ t.mgmt.fuse.toNat ∧ t.fabric.index = s.fabric.index ∧ t.fabric.hall = s.fabric.hall

/-- The machine after reset: phase 0, READY clear, no context open, no graph and no task, every core idle; one partition of 80
clusters, AGE 8, HTHR 256, every fibre at width 16 with key counter 0; memory in its canonical form, and (the model's choice,
notes/assumptions/3.md) zero. -/
def Obligations.StateAfterReset : Prop :=
  let s := State.reset
  s.MemGood ∧ (∀ a, s.mem.read a = 0) ∧ s.mgmt.phase = 0 ∧ s.mgmt.ready = false ∧ s.graphs = [] ∧ s.tasks = [] ∧ s.ops = [] ∧
  (∀ c : CoreId, (s.core c).run = .idle) ∧ (∀ (p : Fin 2) (n : Fin 64), (s.ports[p].ctx[n]).en = false) ∧
  (∀ p : Fin 2, s.ports[p].hthr = 256) ∧ (s.parts[(0 : Fin 4)]).map.length = 80 ∧ (∀ p : Fin 4, (s.parts[p]).age = 8) ∧
  (∀ f : Fin 128, s.fabric.fibres[f].width = 16 ∧ s.fabric.fibres[f].ctr = 0)

/-! ## Two rules as they stand -/

/-- The campus calendar: in a course of position c campus fibre 64 + g of the device (H, i) is matched with the device
(H XOR x, i), where x = (g + 8·c) mod 256; each x comes in exactly 8 courses of a round, each on one fibre (R293). -/
def Obligations.CampusCalendar : Prop :=
  (∀ H i g c, H < 256 → i < 2048 → g < 64 → c < 32 →
    partnerOf (H * 2048 + i) (64 + g) c = (H ^^^ ((g + 8 * c) % 256)) * 2048 + i) ∧
  ∀ x, x < 256 →
    (((List.range 32).filter fun c => (List.range 64).any fun g => (g + 8 * c) % 256 == x).length = 8) ∧
    ∀ c g k, c < 32 → g < 64 → k < 64 → (g + 8 * c) % 256 = x → (k + 8 * c) % 256 = x → g = k

/-- An op channel is available to a task when it holds no live op of another graph and fewer than 8 live ops. A task fits on a core
only if every channel named in its kernel's CHUSE is available there, and a channel that CHUSE does not name may be in any state
(R87). -/
def Obligations.ChannelsAvailable : Prop :=
  ∀ (s : State) (c : CoreId) (k : Task),
    let live := fun (n : Fin 8) => s.ops.filter fun o => o.status.isLive && o.rights.pcore == c.val && o.chan == n
    let free := fun (n : Fin 8) => (∀ o ∈ live n, o.graph = k.graph) ∧ (live n).length < 8
    (∀ n, channelFree s c k.graph n = true ↔ free n) ∧
    (∀ b, fitBase s c k = some b → ∀ n : Fin 8, k.chuse.getLsbD n.val = true → free n) ∧
    ((∀ n : Fin 8, k.chuse.getLsbD n.val = true → free n) → fitBase s c k = lowestBase (heldRanges s c.val) k.size)

/-! ## The statements, grouped -/

/-- Integer instructions of the control, load and store streams write their destination and nothing else; g0 stays 0. -/
def Obligations.IntegersExecute : Prop :=
  Claims.ControlIntegersExecute ∧ Claims.LoadStoreIntegersExecute ∧ Claims.RegisterZero

/-- What ALU, SHI, SETW, AMO and IOP compute, in integers and bits, for all operands. -/
def Obligations.IntegerFunctions : Prop :=
  Claims.AluComputesTheTable ∧ Claims.ShiftAndSetForms ∧ Claims.AmoComputesTheTable ∧ Claims.IopComputesTheTable

/-- NOP, TOKW, TOKP and STAMP complete; what tokens are taken and posted, and when a token or a stamp holds an instruction
or faults it. -/
def Obligations.TokensAndStamps : Prop :=
  Claims.TokenInstructionsExecute ∧ Claims.TokenCounts ∧ Claims.TokenWaitAndOverflow ∧ Claims.StampExecutes ∧
  Claims.StampGate ∧ Claims.StampsAreMissed

/-- Branches, jumps, loops and END: where the stream goes on, and what is written. -/
def Obligations.BranchesAndLoops : Prop :=
  Claims.BranchesExecute ∧ Claims.JumpsExecute ∧ Claims.LoopsStart ∧ Claims.LoopFromQueue ∧ Claims.LoopEnds ∧
  Claims.EndsExecute

/-- A precise fault cuts the task with its record; UDF and TRAP; which fault of a cycle is kept. -/
def Obligations.FaultsArise : Prop :=
  Claims.FaultsAndTraps ∧ Claims.FirstFaultOfACycle

/-- SYSR and SYSW execute for every register number; what each register holds, of the core, the task, its frame and its
ops. -/
def Obligations.SystemRegisters : Prop :=
  Claims.SysrExecutes ∧ Claims.SyswExecutes ∧ Claims.SysregValues ∧ Claims.SysregFields ∧ Claims.OpRegisters

/-- LD, LDU, ALD and ST execute: their checks, values, bytes stored and frame. -/
def Obligations.LoadsAndStores : Prop :=
  Claims.LoadsExecute ∧ Claims.StoreExecutes

/-- AMO and LOFT execute: their checks, an AMO that WB holds, the elements they change and their frame. -/
def Obligations.AmosAndLofts : Prop :=
  Claims.AmoExecutes ∧ Claims.LoftsExecute ∧ Claims.LoftChecks ∧ Claims.LoftElementPerforms

/-- An access of a stream is performed by its own step; ordered accesses and FENCE wait for earlier ones. -/
def Obligations.AccessesAndFences : Prop :=
  Claims.AccessesPerform ∧ Claims.OrderedAccessesWait ∧ Claims.FencesExecute

/-- RDQ, RDQS, WRQ and WRQS execute; where a queue entry comes from, lands and is stored. -/
def Obligations.QueueMoves : Prop :=
  Claims.QueueFillsExecute ∧ Claims.QueueDrainsExecute ∧ Claims.EntryLands

/-- Space tags, the task's range, leaf checks, reserved HBM and hot-page counts and notices: what an access reaches and
changes. -/
def Obligations.SpacesAndTranslation : Prop :=
  Claims.OwnScratchpad ∧ Claims.SpaceTags ∧ Claims.TranslationFrame ∧ Claims.LeafChecks ∧ Claims.ReservedFrames
  ∧ Claims.HotPagesCount

/-- SHAPE, NEST and FMT load a checked record from the task's scratchpad. -/
def Obligations.Records : Prop :=
  Claims.RecordsAreRead ∧ Claims.RecordsExecute

/-- FRAME, LEXP and LWAIT execute in every stream that has them, and the checks of landing words. -/
def Obligations.FramesAndLandings : Prop :=
  Claims.FrameExecutes ∧ Claims.LexpExecutes ∧ Claims.LwaitExecutes ∧ Claims.LandingWordsAreChecked

/-- Every vector instruction of the math stream executes: its sources, destination, value, flags and frame. -/
def Obligations.VectorsExecute : Prop :=
  Claims.VectorInstructionsExecute ∧ Claims.PeekExecutes ∧ Claims.MvqExecutes

/-- Queue underflow and overflow, what a v register reads inside a window, when a result is written, and the pop or peek
of a poisoned entry. -/
def Obligations.VectorResults : Prop :=
  Claims.QueueFaults ∧ Claims.WindowReads ∧ Claims.ResultsAreWritten ∧ Claims.PoisonedEntries

/-- KMRG executes: its checks, the heap it leaves and what it writes back. -/
def Obligations.Merges : Prop :=
  Claims.KmrgExecutes ∧ Claims.MergeLane ∧ Claims.KmrgWritesBack

/-- The rounding modes; a code rounds to itself; invalid sums, NaNs, infinities and signed zeros. -/
def Obligations.NumbersRound : Prop :=
  Claims.RoundingModes ∧ Claims.CodesRoundToThemselves ∧ Claims.SpecialNumbers

/-- OCANCEL, ODET, OADOPT, OPRIO and OTEST act on the op a name resolves to; what an adopted op may reach. -/
def Obligations.OpManagement : Prop :=
  Claims.OpManagementExecutes ∧ Claims.NamesResolve ∧ Claims.OcancelExecutes ∧ Claims.OpsHaveRights

/-- OWAIT and OREC execute: what they wait for and what they write. -/
def Obligations.OpWaits : Prop :=
  Claims.OwaitExecutes ∧ Claims.OrecExecutes

/-- CPY, CPYC, GATH, SCAT and GRED create exactly their op, or fault with nothing created. -/
def Obligations.CopiesAndGathersCreate : Prop :=
  Claims.CopiesCreate ∧ Claims.GathersCreate

/-- MMA, MMAT, MMAL, MMAS, ZLD and ZST create their op; FIDX sets an origin; what a full channel does to every op-creating
instruction. -/
def Obligations.MatrixOpsAreCreated : Prop :=
  Claims.MatrixOpsCreate ∧ Claims.AccumulatorMovesCreate ∧ Claims.FullChannel ∧ Claims.FidxExecutes

/-- ZDRN and ZCLR take their place in the accumulator's order and run there, with the values they push and the flags they
set. -/
def Obligations.Drains : Prop :=
  Claims.DrainsIssue ∧ Claims.DrainsRun ∧ Claims.DrainsPush

/-- TINV executes and completes; an invalidation of code drops every line of the context. -/
def Obligations.Invalidations : Prop :=
  Claims.TinvExecutes ∧ Claims.InvalidationsComplete ∧ Claims.CodeIsInvalidated

/-- RLD, RST, RAMO and MCST create their op with the fields of the descriptor, after their checks. -/
def Obligations.FabricOps : Prop :=
  Claims.FabricOpsCreate ∧ Claims.FabricChecks

/-- RRED and COLL create their op; how it begins and what a member sends; what a reduction point folds and answers. -/
def Obligations.Reductions : Prop :=
  Claims.RredExecutes ∧ Claims.CollsExecute ∧ Claims.CollShares ∧ Claims.CollectivesBegin ∧
  Claims.ReductionsFold

/-- The copy engine: which op it serves, the addresses of a burst, the bytes it moves and how an op ends. -/
def Obligations.Copies : Prop :=
  Claims.EngineOrder ∧ Claims.BurstAddresses ∧ Claims.CopyBursts ∧ Claims.ConditionalCopies ∧
  Claims.CopyOrderExpires

/-- The gather engine: elements, addresses, bytes, element faults, the rows it sums and the entries it pushes. -/
def Obligations.Gathers : Prop :=
  Claims.GredPairs ∧ Claims.GredSums ∧ Claims.GatherElements ∧ Claims.GatherElementPerforms ∧
  Claims.GatherPushes

/-- The matrix engine: the K-groups of an op, the sums they form, dense, sparse, ternary and low-bit, the rows of a move,
and pulling an op. -/
def Obligations.MatrixUnits : Prop :=
  Claims.KGroupsApply ∧ Claims.KGroupComputes ∧ Claims.SparseGroupComputes ∧ Claims.AccumulatorRows ∧
  Claims.OpPulls

/-- An op that has done its work becomes DONE, and notifies its landing word; what a COLL writes as it ends. -/
def Obligations.Completion : Prop :=
  Claims.OpsComplete ∧ Claims.CollsComplete ∧ Claims.Notifications

/-- A held write, of a stream, an op or a commit, performs nothing until its release; then it is checked and performed, or
faults. -/
def Obligations.HeldWriteBuffer : Prop :=
  Claims.HeldWrites ∧ Claims.HeldWritesRelease

/-- BMAKE, BGIVE, BTAKE, BDROP and ROT execute: their checks, who holds a region, and what rotates. -/
def Obligations.BuffersAndRotation : Prop :=
  Claims.BmakeExecutes ∧ Claims.BufferHandles ∧ Claims.GiveAndDrop ∧ Claims.BtakeExecutes ∧ Claims.RotExecutes

/-- TCTR makes a counter; TNEW publishes a task, or says by its fault which check failed. -/
def Obligations.TasksArePublished : Prop :=
  Claims.TctrExecutes ∧ Claims.TnewExecutes ∧ Claims.Publication

/-- TSIG executes, and a decrement moves its counter between its states. -/
def Obligations.CountersSignal : Prop :=
  Claims.TsigExecutes ∧ Claims.CountersDecrement

/-- GUARD, HNOTE and TYLD execute. -/
def Obligations.GuardsAndNotes : Prop :=
  Claims.GuardExecutes ∧ Claims.HnoteExecutes ∧ Claims.TyldExecutes

/-- TEND waits for what it must and ends the task, and the walk signals its successors. -/
def Obligations.TasksEnd : Prop :=
  Claims.TendExecutes ∧ Claims.SuccessorsWalk

/-- A fault's handler is spawned, and TRES and TKILL dispose of the faulted task. -/
def Obligations.Handlers : Prop :=
  Claims.HandlersDispose ∧ Claims.HandlersSpawn

/-- A cut completes when what is in flight is written, waits are withdrawn, and ops pause. -/
def Obligations.CutsTakePlace : Prop :=
  Claims.CutsComplete ∧ Claims.WaitsAreWithdrawn ∧ Claims.OpsPause

/-- The state in which streams start, and how a cut task resumes, here or on another core. -/
def Obligations.TasksGoOn : Prop :=
  Claims.StreamsStart ∧ Claims.CutsGoOn ∧ Claims.CutsResume ∧ Claims.CutsMove

/-- Pre-emption commands, forced cuts and the cancelling of a graph. -/
def Obligations.Preemption : Prop :=
  Claims.PreemptionCommands ∧ Claims.ForcedCuts ∧ Claims.GraphsCancel

/-- Evictions, lost cores and the draining of a die. -/
def Obligations.CoresAndPagesLeave : Prop :=
  Claims.Evictions ∧ Claims.LostCores ∧ Claims.DiesDrain

/-- A stream's lines are requested, joined and delivered; a failed fill is told only to a stream that waits for it. -/
def Obligations.CodeIsFetched : Prop :=
  Claims.LinesAreRequested ∧ Claims.FillsArrive

/-- Contexts open and close; launches are numbered in the order of their writes, and answered by the first check that
fails. -/
def Obligations.Launches : Prop :=
  Claims.LaunchesAreTaken ∧ Claims.LaunchesAreAnswered ∧ Claims.ContextsOpenAndClose

/-- When an entry is a candidate, how the rings turn and candidates rank, what a dispatch slot does and when a drain
starts. -/
def Obligations.RidgeDispatches : Prop :=
  Claims.CandidatesAreReady ∧ Claims.RingsTurn ∧ Claims.ReadyOrderRanks ∧ Claims.SlotsDispatch ∧
  Claims.DrainsStart

/-- A graph retires when nothing of it is left; its completion entry and how it is written, and the messages to its host.
-/
def Obligations.Retirement : Prop :=
  Claims.MessagesAreSent ∧ Claims.GraphsRetire ∧ Claims.CompletionEntries

/-- Traced entries start, stalls are counted, gangs propose and agree and refinements are stored. -/
def Obligations.Replays : Prop :=
  Claims.StallsAreCounted ∧ Claims.TracedEntriesStart ∧ Claims.GangsPropose ∧ Claims.GangsAgree ∧
  Claims.RefinementsAreStored

/-- The commands of the yelm store and what an import accepts. -/
def Obligations.Yelms : Prop :=
  Claims.YelmCommands ∧ Claims.ImagesAreImported

/-- Courses begin, fibres change width and state, the fabric's registers, and partners are mutual. -/
def Obligations.Fibres : Prop :=
  Claims.CoursesBegin ∧ Claims.FibresChange ∧ Claims.FabricRegisters ∧ Claims.PartnersAreMutual

/-- A batten is sent, with its header, forwarded, received and acknowledged, or goes back. -/
def Obligations.Battens : Prop :=
  Claims.BattensAreSent ∧ Claims.SlotsCarryHeaders ∧ Claims.BattensAreForwarded ∧ Claims.BattensAreReceived ∧
  Claims.BattensReturn

/-- Remote accesses commit in the order of their numbers, and notify before the next. -/
def Obligations.Commits : Prop :=
  Claims.CommitsInOrder ∧ Claims.CommitsNotify

/-- What a commit record, a reply, a skip or an unreachable rank does to a fabric op, and the message of another member to
a COLL. -/
def Obligations.Answers : Prop :=
  Claims.AnswersArrive ∧ Claims.NumbersAreSkipped ∧ Claims.InternalBattens ∧ Claims.RanksAreUnreachable ∧
  Claims.CollMismatches

/-- The phases of bring-up, of a divided device too, what a restart keeps, and how an update is activated. -/
def Obligations.BringUp : Prop :=
  Claims.PowerOnPhases ∧ Claims.RestartsLoseState ∧ Claims.UpdatesActivate

/-- Privileged registers, poisoned words, host access to memory and service commands. -/
def Obligations.Service : Prop :=
  Claims.RegistersAreWritten ∧ Claims.WordsArePoisoned ∧ Claims.HostsReachMemory ∧ Claims.ServiceCommands

/-- A step executes the instruction that the words at a stream's pc decode to, and takes the fault of a word that cannot
be fetched. -/
def Obligations.StepsRunInstructions : Prop :=
  Claims.StepsRunTheDecoded ∧ Claims.PlacedWordsRun
end

