-- ==== Sys2Proof/Laws/Exec.lean ====
section
/-! SUPPORT. What exec calls for each constructor, so that no proof unfolds exec itself. -/

namespace Sys2Proof.Machine

open Sys2Proof

@[simp] theorem exec_nop (t : Tok) (s : State) :
    exec (.nop t) s = execNop t s := rfl
@[simp] theorem exec_stamp (t : Tok) (k : Fin 4194304) (s : State) :
    exec (.stamp t k) s = execStamp t k s := rfl
@[simp] theorem exec_udf (t : Tok) (v : Fin 4194304) (s : State) :
    exec (.udf t v) s = execUdf t v s := rfl
@[simp] theorem exec_alu (t : Tok) (f : AluOp) (d : GReg) (a : GReg) (b : GReg) (s : State) :
    exec (.alu t f d a b) s = execAlu t f d a b s := rfl
@[simp] theorem exec_addi (t : Tok) (d : GReg) (a : GReg) (i : Fin 4096) (s : State) :
    exec (.addi t d a i) s = execAddi t d a i s := rfl
@[simp] theorem exec_andi (t : Tok) (d : GReg) (a : GReg) (i : Fin 4096) (s : State) :
    exec (.andi t d a i) s = execAndi t d a i s := rfl
@[simp] theorem exec_ori (t : Tok) (d : GReg) (a : GReg) (i : Fin 4096) (s : State) :
    exec (.ori t d a i) s = execOri t d a i s := rfl
@[simp] theorem exec_xori (t : Tok) (d : GReg) (a : GReg) (i : Fin 4096) (s : State) :
    exec (.xori t d a i) s = execXori t d a i s := rfl
@[simp] theorem exec_shi (t : Tok) (f : ShiftOp) (d : GReg) (a : GReg) (sh : Fin 64) (s : State) :
    exec (.shi t f d a sh) s = execShi t f d a sh s := rfl
@[simp] theorem exec_slti (t : Tok) (d : GReg) (a : GReg) (i : Fin 4096) (s : State) :
    exec (.slti t d a i) s = execSlti t d a i s := rfl
@[simp] theorem exec_sltiu (t : Tok) (d : GReg) (a : GReg) (i : Fin 4096) (s : State) :
    exec (.sltiu t d a i) s = execSltiu t d a i s := rfl
@[simp] theorem exec_setw (t : Tok) (f : SetForm) (d : GReg) (w2 : W32) (s : State) :
    exec (.setw t f d w2) s = execSetw t f d w2 s := rfl
@[simp] theorem exec_ld (t : Tok) (sz : Size) (d : GReg) (a : GReg) (c : Cls) (o : Fin 64) (s : State) :
    exec (.ld t sz d a c o) s = execLd t sz d a c o s := rfl
@[simp] theorem exec_ldu (t : Tok) (sz : Size) (d : GReg) (a : GReg) (c : Cls) (o : Fin 64) (s : State) :
    exec (.ldu t sz d a c o) s = execLdu t sz d a c o s := rfl
@[simp] theorem exec_st (t : Tok) (sz : Size) (a : GReg) (b : GReg) (c : Cls) (o : Fin 64) (s : State) :
    exec (.st t sz a b c o) s = execSt t sz a b c o s := rfl
@[simp] theorem exec_amo (t : Tok) (op : AmoOp) (d : GReg) (a : GReg) (b : GReg) (cmp : GReg) (sz : Size) (c : Cls) (sc : Scope) (ord : AmoOrder) (s : State) :
    exec (.amo t op d a b cmp sz c sc ord) s = execAmo t op d a b cmp sz c sc ord s := rfl
@[simp] theorem exec_fenceControl (t : Tok) (k : FenceKind) (sc : Scope) (m : BitVec 16) (s : State) :
    exec (.fenceControl t k sc m) s = execFenceControl t k sc m s := rfl
@[simp] theorem exec_beq (t : Tok) (a : GReg) (b : GReg) (i : Fin 4096) (s : State) :
    exec (.beq t a b i) s = execBeq t a b i s := rfl
@[simp] theorem exec_bne (t : Tok) (a : GReg) (b : GReg) (i : Fin 4096) (s : State) :
    exec (.bne t a b i) s = execBne t a b i s := rfl
@[simp] theorem exec_blt (t : Tok) (a : GReg) (b : GReg) (i : Fin 4096) (s : State) :
    exec (.blt t a b i) s = execBlt t a b i s := rfl
@[simp] theorem exec_bge (t : Tok) (a : GReg) (b : GReg) (i : Fin 4096) (s : State) :
    exec (.bge t a b i) s = execBge t a b i s := rfl
@[simp] theorem exec_bltu (t : Tok) (a : GReg) (b : GReg) (i : Fin 4096) (s : State) :
    exec (.bltu t a b i) s = execBltu t a b i s := rfl
@[simp] theorem exec_bgeu (t : Tok) (a : GReg) (b : GReg) (i : Fin 4096) (s : State) :
    exec (.bgeu t a b i) s = execBgeu t a b i s := rfl
@[simp] theorem exec_jal (t : Tok) (d : GReg) (i : Fin 131072) (s : State) :
    exec (.jal t d i) s = execJal t d i s := rfl
@[simp] theorem exec_jalr (t : Tok) (d : GReg) (a : GReg) (i : Fin 4096) (s : State) :
    exec (.jalr t d a i) s = execJalr t d a i s := rfl
@[simp] theorem exec_loopControl (t : Tok) (n : Fin 4) (a : GReg) (l : Fin 4096) (s : State) :
    exec (.loopControl t n a l) s = execLoopControl t n a l s := rfl
@[simp] theorem exec_loopiControl (t : Tok) (n : Fin 4) (c : Fin 1024) (l : Fin 1024) (s : State) :
    exec (.loopiControl t n c l) s = execLoopiControl t n c l s := rfl
@[simp] theorem exec_sysr (t : Tok) (d : GReg) (r : SysReg) (s : State) :
    exec (.sysr t d r) s = execSysr t d r s := rfl
@[simp] theorem exec_sysw (t : Tok) (a : GReg) (r : SysReg) (s : State) :
    exec (.sysw t a r) s = execSysw t a r s := rfl
@[simp] theorem exec_trap (t : Tok) (c : Fin 4194304) (s : State) :
    exec (.trap t c) s = execTrap t c s := rfl
@[simp] theorem exec_tnew (t : Tok) (d : GReg) (a : GReg) (b : GReg) (s : State) :
    exec (.tnew t d a b) s = execTnew t d a b s := rfl
@[simp] theorem exec_tsig (t : Tok) (a : GReg) (s : State) :
    exec (.tsig t a) s = execTsig t a s := rfl
@[simp] theorem exec_tsigAnswer (c : CoreId) (s : State) :
    exec (.tsigAnswer c) s = execTsigAnswer c s := rfl
@[simp] theorem exec_tctr (t : Tok) (d : GReg) (a : GReg) (k : Fin 5) (s : State) :
    exec (.tctr t d a k) s = execTctr t d a k s := rfl
@[simp] theorem exec_tyld (t : Tok) (s : State) :
    exec (.tyld t) s = execTyld t s := rfl
@[simp] theorem exec_tend (wp : Bool) (wn : Bool) (orphan : Bool) (s : State) :
    exec (.tend wp wn orphan) s = execTend wp wn orphan s := rfl
@[simp] theorem exec_successorWalk (c : CoreId) (s : State) :
    exec (.successorWalk c) s = execSuccessorWalk c s := rfl
@[simp] theorem exec_guard (t : Tok) (a : GReg) (s : State) :
    exec (.guard t a) s = execGuard t a s := rfl
@[simp] theorem exec_hnote (t : Tok) (a : GReg) (n : Fin 64) (s : State) :
    exec (.hnote t a n) s = execHnote t a n s := rfl
@[simp] theorem exec_tresResume (t : Tok) (a : GReg) (s : State) :
    exec (.tresResume t a) s = execTresResume t a s := rfl
@[simp] theorem exec_tresRetry (t : Tok) (a : GReg) (s : State) :
    exec (.tresRetry t a) s = execTresRetry t a s := rfl
@[simp] theorem exec_tkill (t : Tok) (a : GReg) (s : State) :
    exec (.tkill t a) s = execTkill t a s := rfl
@[simp] theorem exec_owait (t : Tok) (d : GReg) (a : GReg) (s : State) :
    exec (.owait t d a) s = execOwait t d a s := rfl
@[simp] theorem exec_otest (t : Tok) (d : GReg) (a : GReg) (s : State) :
    exec (.otest t d a) s = execOtest t d a s := rfl
@[simp] theorem exec_ocancel (t : Tok) (d : GReg) (a : GReg) (s : State) :
    exec (.ocancel t d a) s = execOcancel t d a s := rfl
@[simp] theorem exec_odetach (t : Tok) (d : GReg) (a : GReg) (s : State) :
    exec (.odetach t d a) s = execOdetach t d a s := rfl
@[simp] theorem exec_oadopt (t : Tok) (d : GReg) (a : GReg) (s : State) :
    exec (.oadopt t d a) s = execOadopt t d a s := rfl
@[simp] theorem exec_oprio (t : Tok) (d : GReg) (a : GReg) (p : Fin 4) (s : State) :
    exec (.oprio t d a p) s = execOprio t d a p s := rfl
@[simp] theorem exec_orec (t : Tok) (d : GReg) (a : GReg) (b : GReg) (c : Cls) (s : State) :
    exec (.orec t d a b c) s = execOrec t d a b c s := rfl
@[simp] theorem exec_bmake (t : Tok) (d : GReg) (a : GReg) (b : GReg) (s : State) :
    exec (.bmake t d a b) s = execBmake t d a b s := rfl
@[simp] theorem exec_bgive (t : Tok) (a : GReg) (b : GReg) (s : State) :
    exec (.bgive t a b) s = execBgive t a b s := rfl
@[simp] theorem exec_btake (t : Tok) (d : GReg) (a : GReg) (s : State) :
    exec (.btake t d a) s = execBtake t d a s := rfl
@[simp] theorem exec_bdrop (t : Tok) (a : GReg) (s : State) :
    exec (.bdrop t a) s = execBdrop t a s := rfl
@[simp] theorem exec_rot (t : Tok) (prev : Bool) (a : GReg) (u : Fin 4096) (s : State) :
    exec (.rot t prev a u) s = execRot t prev a u s := rfl
@[simp] theorem exec_shape (t : Tok) (n : Fin 16) (a : GReg) (s : State) :
    exec (.shape t n a) s = execShape t n a s := rfl
@[simp] theorem exec_nest (t : Tok) (n : Fin 8) (a : GReg) (s : State) :
    exec (.nest t n a) s = execNest t n a s := rfl
@[simp] theorem exec_fmt (t : Tok) (e : Fin 32) (a : GReg) (c : Fin 64) (s : State) :
    exec (.fmt t e a c) s = execFmt t e a c s := rfl
@[simp] theorem exec_lexpControl (t : Tok) (d : GReg) (a : GReg) (i : Fin 4096) (s : State) :
    exec (.lexpControl t d a i) s = execLexpControl t d a i s := rfl
@[simp] theorem exec_lwaitControl (t : Tok) (d : GReg) (a : GReg) (i : Fin 4096) (s : State) :
    exec (.lwaitControl t d a i) s = execLwaitControl t d a i s := rfl
@[simp] theorem exec_frame (t : Tok) (m : FrameMode) (a : GReg) (i : Fin 4096) (s : State) :
    exec (.frame t m a i) s = execFrame t m a i s := rfl
@[simp] theorem exec_tokwControl (t : Tok) (next : Bool) (n : Fin 64) (s : State) :
    exec (.tokwControl t next n) s = execTokwControl t next n s := rfl
@[simp] theorem exec_tokpControl (t : Tok) (next : Bool) (n : Fin 64) (s : State) :
    exec (.tokpControl t next n) s = execTokpControl t next n s := rfl
@[simp] theorem exec_aalu (t : Tok) (f : AaluOp) (d : AReg) (a : AReg) (b : AReg) (s : State) :
    exec (.aalu t f d a b) s = execAalu t f d a b s := rfl
@[simp] theorem exec_aaddi (t : Tok) (d : AReg) (a : AReg) (i : Fin 4096) (s : State) :
    exec (.aaddi t d a i) s = execAaddi t d a i s := rfl
@[simp] theorem exec_aset (t : Tok) (f : SetForm) (d : AReg) (w2 : W32) (s : State) :
    exec (.aset t f d w2) s = execAset t f d w2 s := rfl
@[simp] theorem exec_loopLoadStore (t : Tok) (n : Fin 4) (a : AReg) (l : Fin 4096) (s : State) :
    exec (.loopLoadStore t n a l) s = execLoopLoadStore t n a l s := rfl
@[simp] theorem exec_loopiLoadStore (t : Tok) (n : Fin 4) (c : Fin 1024) (l : Fin 1024) (s : State) :
    exec (.loopiLoadStore t n c l) s = execLoopiLoadStore t n c l s := rfl
@[simp] theorem exec_jmpLoadStore (t : Tok) (i : Fin 131072) (s : State) :
    exec (.jmpLoadStore t i) s = execJmpLoadStore t i s := rfl
@[simp] theorem exec_endLoadStore (t : Tok) (s : State) :
    exec (.endLoadStore t) s = execEndLoadStore t s := rfl
@[simp] theorem exec_rdq (t : Tok) (q : QNum) (a : AReg) (c : Cls) (o : Fin 256) (s : State) :
    exec (.rdq t q a c o) s = execRdq t q a c o s := rfl
@[simp] theorem exec_rdqs (t : Tok) (q : QNum) (a : AReg) (b : AReg) (c : Cls) (p : Fin 6) (s : State) :
    exec (.rdqs t q a b c p) s = execRdqs t q a b c p s := rfl
@[simp] theorem exec_wrq (t : Tok) (q : QNum) (a : AReg) (c : Cls) (o : Fin 256) (s : State) :
    exec (.wrq t q a c o) s = execWrq t q a c o s := rfl
@[simp] theorem exec_wrqs (t : Tok) (q : QNum) (a : AReg) (b : AReg) (c : Cls) (p : Fin 6) (s : State) :
    exec (.wrqs t q a b c p) s = execWrqs t q a b c p s := rfl
@[simp] theorem exec_entryLand (c : CoreId) (q : QNum) (s : State) :
    exec (.entryLand c q) s = execEntryLand c q s := rfl
@[simp] theorem exec_cpy (t : Tok) (d : AReg) (a : AReg) (n : Fin 8) (ch : Fin 4) (w : OpWord) (notify : Bool) (s : State) :
    exec (.cpy t d a n ch w notify) s = execCpy t d a n ch w notify s := rfl
@[simp] theorem exec_cpyc (t : Tok) (d : AReg) (a : AReg) (n : Fin 8) (ch : Fin 4) (w : OpWord) (notify : Bool) (vreg : Fin 32) (s : State) :
    exec (.cpyc t d a n ch w notify vreg) s = execCpyc t d a n ch w notify vreg s := rfl
@[simp] theorem exec_gath (t : Tok) (g : GatherBody) (w : OpWord) (s : State) :
    exec (.gath t g w) s = execGath t g w s := rfl
@[simp] theorem exec_scat (t : Tok) (g : GatherBody) (w : OpWord) (s : State) :
    exec (.scat t g w) s = execScat t g w s := rfl
@[simp] theorem exec_gred (t : Tok) (g : GatherBody) (w : OpWord) (s : State) :
    exec (.gred t g w) s = execGred t g w s := rfl
@[simp] theorem exec_loftAcc (t : Tok) (d : AReg) (a : AReg) (b : AReg) (c : Cls) (s : State) :
    exec (.loftAcc t d a b c) s = execLoftAcc t d a b c s := rfl
@[simp] theorem exec_loftAccb (t : Tok) (d : AReg) (a : AReg) (b : AReg) (c : Cls) (s : State) :
    exec (.loftAccb t d a b c) s = execLoftAccb t d a b c s := rfl
@[simp] theorem exec_loftMax (t : Tok) (d : AReg) (a : AReg) (b : AReg) (c : Cls) (s : State) :
    exec (.loftMax t d a b c) s = execLoftMax t d a b c s := rfl
@[simp] theorem exec_loftMin (t : Tok) (d : AReg) (a : AReg) (b : AReg) (c : Cls) (s : State) :
    exec (.loftMin t d a b c) s = execLoftMin t d a b c s := rfl
@[simp] theorem exec_loftScale (t : Tok) (d : AReg) (a : AReg) (b : AReg) (c : Cls) (s : State) :
    exec (.loftScale t d a b c) s = execLoftScale t d a b c s := rfl
@[simp] theorem exec_loftZero (t : Tok) (d : AReg) (b : AReg) (c : Cls) (s : State) :
    exec (.loftZero t d b c) s = execLoftZero t d b c s := rfl
@[simp] theorem exec_rld (t : Tok) (q : QNum) (a : AReg) (i : Fin 4096) (s : State) :
    exec (.rld t q a i) s = execRld t q a i s := rfl
@[simp] theorem exec_rst (t : Tok) (q : QNum) (a : AReg) (i : Fin 4096) (s : State) :
    exec (.rst t q a i) s = execRst t q a i s := rfl
@[simp] theorem exec_ramo (t : Tok) (op : AmoOp) (d : AReg) (a : AReg) (b : AReg) (dword : Bool) (ret : Bool) (s : State) :
    exec (.ramo t op d a b dword ret) s = execRamo t op d a b dword ret s := rfl
@[simp] theorem exec_mcst (t : Tok) (q : QNum) (a : AReg) (b : AReg) (s : State) :
    exec (.mcst t q a b) s = execMcst t q a b s := rfl
@[simp] theorem exec_rred (t : Tok) (q : QNum) (a : AReg) (f : RedFunc) (s : State) :
    exec (.rred t q a f) s = execRred t q a f s := rfl
@[simp] theorem exec_collAllgather (t : Tok) (d : AReg) (a : AReg) (b : AReg) (p : Fin 4) (det : Bool) (nw : Bool) (s : State) :
    exec (.collAllgather t d a b p det nw) s = execCollAllgather t d a b p det nw s := rfl
@[simp] theorem exec_collRedscat (t : Tok) (d : AReg) (a : AReg) (b : AReg) (p : Fin 4) (det : Bool) (nw : Bool) (s : State) :
    exec (.collRedscat t d a b p det nw) s = execCollRedscat t d a b p det nw s := rfl
@[simp] theorem exec_collAllred (t : Tok) (d : AReg) (a : AReg) (b : AReg) (p : Fin 4) (det : Bool) (nw : Bool) (s : State) :
    exec (.collAllred t d a b p det nw) s = execCollAllred t d a b p det nw s := rfl
@[simp] theorem exec_collBcast (t : Tok) (d : AReg) (a : AReg) (b : AReg) (p : Fin 4) (det : Bool) (nw : Bool) (s : State) :
    exec (.collBcast t d a b p det nw) s = execCollBcast t d a b p det nw s := rfl
@[simp] theorem exec_collBarrier (t : Tok) (a : AReg) (p : Fin 4) (det : Bool) (nw : Bool) (s : State) :
    exec (.collBarrier t a p det nw) s = execCollBarrier t a p det nw s := rfl
@[simp] theorem exec_lexpLoadStore (t : Tok) (d : AReg) (a : AReg) (i : Fin 4096) (s : State) :
    exec (.lexpLoadStore t d a i) s = execLexpLoadStore t d a i s := rfl
@[simp] theorem exec_lwaitLoadStore (t : Tok) (d : AReg) (a : AReg) (i : Fin 4096) (s : State) :
    exec (.lwaitLoadStore t d a i) s = execLwaitLoadStore t d a i s := rfl
@[simp] theorem exec_fenceLoadStore (t : Tok) (k : FenceKind) (sc : Scope) (m : BitVec 16) (s : State) :
    exec (.fenceLoadStore t k sc m) s = execFenceLoadStore t k sc m s := rfl
@[simp] theorem exec_tokwLoadStore (t : Tok) (next : Bool) (n : Fin 64) (s : State) :
    exec (.tokwLoadStore t next n) s = execTokwLoadStore t next n s := rfl
@[simp] theorem exec_tokpLoadStore (t : Tok) (next : Bool) (n : Fin 64) (s : State) :
    exec (.tokpLoadStore t next n) s = execTokpLoadStore t next n s := rfl
@[simp] theorem exec_tinv (t : Tok) (s : State) :
    exec (.tinv t) s = execTinv t s := rfl
@[simp] theorem exec_tinvComplete (n : Nat) (s : State) :
    exec (.tinvComplete n) s = execTinvComplete n s := rfl
@[simp] theorem exec_ald (t : Tok) (sz : Size) (d : AReg) (a : AReg) (c : Cls) (o : Fin 64) (s : State) :
    exec (.ald t sz d a c o) s = execAld t sz d a c o s := rfl
@[simp] theorem exec_fadd (t : Tok) (d : VDst) (a : VSrc) (b : VSrc) (f : FpCtl) (s : State) :
    exec (.fadd t d a b f) s = execFadd t d a b f s := rfl
@[simp] theorem exec_fsub (t : Tok) (d : VDst) (a : VSrc) (b : VSrc) (f : FpCtl) (s : State) :
    exec (.fsub t d a b f) s = execFsub t d a b f s := rfl
@[simp] theorem exec_fmul (t : Tok) (d : VDst) (a : VSrc) (b : VSrc) (f : FpCtl) (s : State) :
    exec (.fmul t d a b f) s = execFmul t d a b f s := rfl
@[simp] theorem exec_fmin (t : Tok) (d : VDst) (a : VSrc) (b : VSrc) (f : FpCtlX) (s : State) :
    exec (.fmin t d a b f) s = execFmin t d a b f s := rfl
@[simp] theorem exec_fmax (t : Tok) (d : VDst) (a : VSrc) (b : VSrc) (f : FpCtlX) (s : State) :
    exec (.fmax t d a b f) s = execFmax t d a b f s := rfl
@[simp] theorem exec_fabs (t : Tok) (d : VDst) (a : VSrc) (f : FpCtlX) (s : State) :
    exec (.fabs t d a f) s = execFabs t d a f s := rfl
@[simp] theorem exec_fneg (t : Tok) (d : VDst) (a : VSrc) (f : FpCtlX) (s : State) :
    exec (.fneg t d a f) s = execFneg t d a f s := rfl
@[simp] theorem exec_fcps (t : Tok) (d : VDst) (a : VSrc) (b : VSrc) (f : FpCtlX) (s : State) :
    exec (.fcps t d a b f) s = execFcps t d a b f s := rfl
@[simp] theorem exec_fceq (t : Tok) (d : VDst) (a : VSrc) (b : VSrc) (f : FpCtlX) (s : State) :
    exec (.fceq t d a b f) s = execFceq t d a b f s := rfl
@[simp] theorem exec_fclt (t : Tok) (d : VDst) (a : VSrc) (b : VSrc) (f : FpCtlX) (s : State) :
    exec (.fclt t d a b f) s = execFclt t d a b f s := rfl
@[simp] theorem exec_fcle (t : Tok) (d : VDst) (a : VSrc) (b : VSrc) (f : FpCtlX) (s : State) :
    exec (.fcle t d a b f) s = execFcle t d a b f s := rfl
@[simp] theorem exec_frcp (t : Tok) (d : VDst) (a : VSrc) (f : FpCtl) (s : State) :
    exec (.frcp t d a f) s = execFrcp t d a f s := rfl
@[simp] theorem exec_frsq (t : Tok) (d : VDst) (a : VSrc) (f : FpCtl) (s : State) :
    exec (.frsq t d a f) s = execFrsq t d a f s := rfl
@[simp] theorem exec_fexp2 (t : Tok) (d : VDst) (a : VSrc) (f : FpCtl) (s : State) :
    exec (.fexp2 t d a f) s = execFexp2 t d a f s := rfl
@[simp] theorem exec_flog2 (t : Tok) (d : VDst) (a : VSrc) (f : FpCtl) (s : State) :
    exec (.flog2 t d a f) s = execFlog2 t d a f s := rfl
@[simp] theorem exec_fsqrt (t : Tok) (d : VDst) (a : VSrc) (f : FpCtl) (s : State) :
    exec (.fsqrt t d a f) s = execFsqrt t d a f s := rfl
@[simp] theorem exec_fma (t : Tok) (d : VReg) (a : VSrc) (b : VSrc) (f : FpCtl) (s : State) :
    exec (.fma t d a b f) s = execFma t d a b f s := rfl
@[simp] theorem exec_fms (t : Tok) (d : VReg) (a : VSrc) (b : VSrc) (f : FpCtl) (s : State) :
    exec (.fms t d a b f) s = execFms t d a b f s := rfl
@[simp] theorem exec_fnma (t : Tok) (d : VReg) (a : VSrc) (b : VSrc) (f : FpCtl) (s : State) :
    exec (.fnma t d a b f) s = execFnma t d a b f s := rfl
@[simp] theorem exec_iop (t : Tok) (w : IWidth) (f : IopOp) (d : VDst) (a : VSrc) (b : VSrc) (s : State) :
    exec (.iop t w f d a b) s = execIop t w f d a b s := rfl
@[simp] theorem exec_sel (t : Tok) (d : VDst) (a : VSrc) (b : VSrc) (m : VReg) (s : State) :
    exec (.sel t d a b m) s = execSel t d a b m s := rfl
@[simp] theorem exec_cvt (t : Tok) (p : CvtPair) (d : VDst) (a : VSrc) (b : VSrc) (m : CvtCtl) (s : State) :
    exec (.cvt t p d a b m) s = execCvt t p d a b m s := rfl
@[simp] theorem exec_bcast (t : Tok) (d : VDst) (a : VSrc) (lane : Fin 64) (s : State) :
    exec (.bcast t d a lane) s = execBcast t d a lane s := rfl
@[simp] theorem exec_perm (t : Tok) (d : VDst) (a : VSrc) (b : VSrc) (s : State) :
    exec (.perm t d a b) s = execPerm t d a b s := rfl
@[simp] theorem exec_redadd (t : Tok) (d : VDst) (a : VSrc) (w : RedFmt) (rm : Rm) (fzi : Bool) (fzo : Bool) (s : State) :
    exec (.redadd t d a w rm fzi fzo) s = execRedadd t d a w rm fzi fzo s := rfl
@[simp] theorem exec_redmax (t : Tok) (d : VDst) (a : VSrc) (w : RedFmt) (fzi : Bool) (s : State) :
    exec (.redmax t d a w fzi) s = execRedmax t d a w fzi s := rfl
@[simp] theorem exec_redmin (t : Tok) (d : VDst) (a : VSrc) (w : RedFmt) (fzi : Bool) (s : State) :
    exec (.redmin t d a w fzi) s = execRedmin t d a w fzi s := rfl
@[simp] theorem exec_scanadd (t : Tok) (d : VDst) (a : VSrc) (w : RedFmt) (rm : Rm) (fzi : Bool) (fzo : Bool) (s : State) :
    exec (.scanadd t d a w rm fzi fzo) s = execScanadd t d a w rm fzi fzo s := rfl
@[simp] theorem exec_iota (t : Tok) (d : VDst) (s : State) :
    exec (.iota t d) s = execIota t d s := rfl
@[simp] theorem exec_lrot (t : Tok) (d : VDst) (a : VSrc) (sh : Fin 64) (s : State) :
    exec (.lrot t d a sh) s = execLrot t d a sh s := rfl
@[simp] theorem exec_lpopc (t : Tok) (d : VDst) (a : VSrc) (s : State) :
    exec (.lpopc t d a) s = execLpopc t d a s := rfl
@[simp] theorem exec_movi (t : Tok) (d : VDst) (w2 : W32) (s : State) :
    exec (.movi t d w2) s = execMovi t d w2 s := rfl
@[simp] theorem exec_mov (t : Tok) (d : VDst) (a : VSrc) (peek : Bool) (s : State) :
    exec (.mov t d a peek) s = execMov t d a peek s := rfl
@[simp] theorem exec_mvq (t : Tok) (d : VDst) (gq : Bool) (nr : Bool) (s : State) :
    exec (.mvq t d gq nr) s = execMvq t d gq nr s := rfl
@[simp] theorem exec_kmrg (t : Tok) (d : VDst) (a : VSrc) (b : VSrc) (h : VReg) (s : State) :
    exec (.kmrg t d a b h) s = execKmrg t d a b h s := rfl
@[simp] theorem exec_kmrgWriteback (c : CoreId) (s : State) :
    exec (.kmrgWriteback c) s = execKmrgWriteback c s := rfl
@[simp] theorem exec_mma (t : Tok) (m : MmaBody) (s : State) :
    exec (.mma t m) s = execMma t m s := rfl
@[simp] theorem exec_mmas (t : Tok) (m : MmaBody) (hm : Fin 16) (s : State) :
    exec (.mmas t m hm) s = execMmas t m hm s := rfl
@[simp] theorem exec_mmat (t : Tok) (m : MmaBody) (s : State) :
    exec (.mmat t m) s = execMmat t m s := rfl
@[simp] theorem exec_mmal (t : Tok) (m : MmaBody) (bits : Fin 4) (s : State) :
    exec (.mmal t m bits) s = execMmal t m bits s := rfl
@[simp] theorem exec_zdrn (t : Tok) (z : Fin 4) (fsel : Fin 32) (vs : VReg) (row : Fin 64) (nblk : Fin 16) (s : State) :
    exec (.zdrn t z fsel vs row nblk) s = execZdrn t z fsel vs row nblk s := rfl
@[simp] theorem exec_zclr (t : Tok) (z : Fin 4) (s : State) :
    exec (.zclr t z) s = execZclr t z s := rfl
@[simp] theorem exec_zld (t : Tok) (z : Fin 4) (h : Fin 16) (p : Fin 4) (s : State) :
    exec (.zld t z h p) s = execZld t z h p s := rfl
@[simp] theorem exec_zst (t : Tok) (z : Fin 4) (h : Fin 16) (det : Bool) (p : Fin 4) (s : State) :
    exec (.zst t z h det p) s = execZst t z h det p s := rfl
@[simp] theorem exec_fidx (t : Tok) (h : Fin 16) (a : VSrc) (add : Bool) (s : State) :
    exec (.fidx t h a add) s = execFidx t h a add s := rfl
@[simp] theorem exec_loopMath (t : Tok) (n : Fin 4) (a : VSrc) (l : Fin 4096) (s : State) :
    exec (.loopMath t n a l) s = execLoopMath t n a l s := rfl
@[simp] theorem exec_loopiMath (t : Tok) (n : Fin 4) (c : Fin 1024) (l : Fin 1024) (s : State) :
    exec (.loopiMath t n c l) s = execLoopiMath t n c l s := rfl
@[simp] theorem exec_jmpMath (t : Tok) (i : Fin 131072) (s : State) :
    exec (.jmpMath t i) s = execJmpMath t i s := rfl
@[simp] theorem exec_endMath (t : Tok) (s : State) :
    exec (.endMath t) s = execEndMath t s := rfl
@[simp] theorem exec_tokwMath (t : Tok) (next : Bool) (n : Fin 64) (s : State) :
    exec (.tokwMath t next n) s = execTokwMath t next n s := rfl
@[simp] theorem exec_tokpMath (t : Tok) (next : Bool) (n : Fin 64) (s : State) :
    exec (.tokpMath t next n) s = execTokpMath t next n s := rfl
@[simp] theorem exec_opAccept (c : CoreId) (st : Stream) (s : State) :
    exec (.opAccept c st) s = execOpAccept c st s := rfl
@[simp] theorem exec_copyBurst (o : Nat) (s : State) :
    exec (.copyBurst o) s = execCopyBurst o s := rfl
@[simp] theorem exec_gatherElement (o : Nat) (s : State) :
    exec (.gatherElement o) s = execGatherElement o s := rfl
@[simp] theorem exec_kGroup (o : Nat) (s : State) :
    exec (.kGroup o) s = execKGroup o s := rfl
@[simp] theorem exec_accumulatorRow (o : Nat) (s : State) :
    exec (.accumulatorRow o) s = execAccumulatorRow o s := rfl
@[simp] theorem exec_enginePush (c : CoreId) (gq : Bool) (s : State) :
    exec (.enginePush c gq) s = execEnginePush c gq s := rfl
@[simp] theorem exec_opComplete (o : Nat) (s : State) :
    exec (.opComplete o) s = execOpComplete o s := rfl
@[simp] theorem exec_opPull (c : CoreId) (o : Nat) (s : State) :
    exec (.opPull c o) s = execOpPull c o s := rfl
@[simp] theorem exec_heldWriteRewalk (h : Nat) (s : State) :
    exec (.heldWriteRewalk h) s = execHeldWriteRewalk h s := rfl
@[simp] theorem exec_writeHoldExpired (h : Nat) (s : State) :
    exec (.writeHoldExpired h) s = execWriteHoldExpired h s := rfl
@[simp] theorem exec_scheduleMiss (c : CoreId) (st : Stream) (s : State) :
    exec (.scheduleMiss c st) s = execScheduleMiss c st s := rfl
@[simp] theorem exec_fetchRequest (c : CoreId) (st : Stream) (s : State) :
    exec (.fetchRequest c st) s = execFetchRequest c st s := rfl
@[simp] theorem exec_fetchFill (die : Fin 4) (k : Nat) (s : State) :
    exec (.fetchFill die k) s = execFetchFill die k s := rfl
@[simp] theorem exec_launch (port : Fin 2) (ctx : Fin 64) (off : Nat) (bytes : List Byte) (s : State) :
    exec (.launch port ctx off bytes) s = execLaunch port ctx off bytes s := rfl
@[simp] theorem exec_launchProcess (port : Fin 2) (ctx : Fin 64) (s : State) :
    exec (.launchProcess port ctx) s = execLaunchProcess port ctx s := rfl
@[simp] theorem exec_gcan (port : Fin 2) (ctx : Fin 64) (handle : W32) (s : State) :
    exec (.gcan port ctx handle) s = execGcan port ctx handle s := rfl
@[simp] theorem exec_contextDescriptorWrite (port : Fin 2) (ctx : Fin 64) (lo : W64) (s : State) :
    exec (.contextDescriptorWrite port ctx lo) s = execContextDescriptorWrite port ctx lo s := rfl
@[simp] theorem exec_icinvContext (port : Fin 2) (ctx : Fin 64) (s : State) :
    exec (.icinvContext port ctx) s = execIcinvContext port ctx s := rfl
@[simp] theorem exec_icinvAll (port : Fin 2) (part : Fin 4) (s : State) :
    exec (.icinvAll port part) s = execIcinvAll port part s := rfl
@[simp] theorem exec_icinvComplete (port : Fin 2) (part : Fin 4) (s : State) :
    exec (.icinvComplete port part) s = execIcinvComplete port part s := rfl
@[simp] theorem exec_xinv (port : Fin 2) (ctx : Fin 64) (s : State) :
    exec (.xinv port ctx) s = execXinv port ctx s := rfl
@[simp] theorem exec_yelmExport (port : Fin 2) (part : Fin 4) (ctx : Fin 64) (rev : Byte) (s : State) :
    exec (.yelmExport port part ctx rev) s = execYelmExport port part ctx rev s := rfl
@[simp] theorem exec_yelmImport (port : Fin 2) (part : Fin 4) (ctx : Fin 64) (s : State) :
    exec (.yelmImport port part ctx) s = execYelmImport port part ctx s := rfl
@[simp] theorem exec_yelmDelete (port : Fin 2) (part : Fin 4) (rev : Byte) (s : State) :
    exec (.yelmDelete port part rev) s = execYelmDelete port part rev s := rfl
@[simp] theorem exec_yelmFreeze (port : Fin 2) (part : Fin 4) (s : State) :
    exec (.yelmFreeze port part) s = execYelmFreeze port part s := rfl
@[simp] theorem exec_yelmThaw (port : Fin 2) (part : Fin 4) (s : State) :
    exec (.yelmThaw port part) s = execYelmThaw port part s := rfl
@[simp] theorem exec_yelmCommandDone (part : Fin 4) (s : State) :
    exec (.yelmCommandDone part) s = execYelmCommandDone part s := rfl
@[simp] theorem exec_preemptGraph (port : Fin 2) (handle : W32) (s : State) :
    exec (.preemptGraph port handle) s = execPreemptGraph port handle s := rfl
@[simp] theorem exec_resumeGraph (port : Fin 2) (handle : W32) (s : State) :
    exec (.resumeGraph port handle) s = execResumeGraph port handle s := rfl
@[simp] theorem exec_cutComplete (c : CoreId) (s : State) :
    exec (.cutComplete c) s = execCutComplete c s := rfl
@[simp] theorem exec_handlerSpawn (slot : Nat) (s : State) :
    exec (.handlerSpawn slot) s = execHandlerSpawn slot s := rfl
@[simp] theorem exec_cutResume (slot : Nat) (s : State) :
    exec (.cutResume slot) s = execCutResume slot s := rfl
@[simp] theorem exec_eviction (cores : List CoreId) (s : State) :
    exec (.eviction cores) s = execEviction cores s := rfl
@[simp] theorem exec_coreLost (c : CoreId) (s : State) :
    exec (.coreLost c) s = execCoreLost c s := rfl
@[simp] theorem exec_graphTimeout (g : Nat) (s : State) :
    exec (.graphTimeout g) s = execGraphTimeout g s := rfl
@[simp] theorem exec_dispatchSlot (part : Fin 4) (s : State) :
    exec (.dispatchSlot part) s = execDispatchSlot part s := rfl
@[simp] theorem exec_candidateReady (part : Fin 4) (s : State) :
    exec (.candidateReady part) s = execCandidateReady part s := rfl
@[simp] theorem exec_streamsStart (c : CoreId) (s : State) :
    exec (.streamsStart c) s = execStreamsStart c s := rfl
@[simp] theorem exec_tracedStart (lcore : Fin 640) (part : Fin 4) (s : State) :
    exec (.tracedStart lcore part) s = execTracedStart lcore part s := rfl
@[simp] theorem exec_guardStall (g : Nat) (s : State) :
    exec (.guardStall g) s = execGuardStall g s := rfl
@[simp] theorem exec_gangAgreement (g : Nat) (rev : Nat) (join : Nat) (held : Bool) (timely : Bool) (s : State) :
    exec (.gangAgreement g rev join held timely) s = execGangAgreement g rev join held timely s := rfl
@[simp] theorem exec_graphRetire (g : Nat) (s : State) :
    exec (.graphRetire g) s = execGraphRetire g s := rfl
@[simp] theorem exec_refinementPass (part : Fin 4) (s : State) :
    exec (.refinementPass part) s = execRefinementPass part s := rfl
@[simp] theorem exec_notifierMessage (port : Fin 2) (ctx : Fin 64) (n : Fin 64) (s : State) :
    exec (.notifierMessage port ctx n) s = execNotifierMessage port ctx n s := rfl
@[simp] theorem exec_hotPageMessage (port : Fin 2) (s : State) :
    exec (.hotPageMessage port) s = execHotPageMessage port s := rfl
@[simp] theorem exec_battenSend (f : Fin 128) (s : State) :
    exec (.battenSend f) s = execBattenSend f s := rfl
@[simp] theorem exec_battenReceive (f : Fin 128) (good : Bool) (acks : Acks) (b : Batten) (s : State) :
    exec (.battenReceive f good acks b) s = execBattenReceive f good acks b s := rfl
@[simp] theorem exec_valleyForward (f : Fin 128) (s : State) :
    exec (.valleyForward f) s = execValleyForward f s := rfl
@[simp] theorem exec_battenRetransmit (f : Fin 128) (slot : Nat) (s : State) :
    exec (.battenRetransmit f slot) s = execBattenRetransmit f slot s := rfl
@[simp] theorem exec_commit (src : Party) (part : Fin 4) (cls : Cls) (s : State) :
    exec (.commit src part cls) s = execCommit src part cls s := rfl
@[simp] theorem exec_commitRecord (b : Batten) (s : State) :
    exec (.commitRecord b) s = execCommitRecord b s := rfl
@[simp] theorem exec_reply (b : Batten) (s : State) :
    exec (.reply b) s = execReply b s := rfl
@[simp] theorem exec_skipRecord (b : Batten) (s : State) :
    exec (.skipRecord b) s = execSkipRecord b s := rfl
@[simp] theorem exec_notifyHoldExpired (src : Party) (part : Fin 4) (cls : Cls) (s : State) :
    exec (.notifyHoldExpired src part cls) s = execNotifyHoldExpired src part cls s := rfl
@[simp] theorem exec_fabricUnreachable (o : Nat) (s : State) :
    exec (.fabricUnreachable o) s = execFabricUnreachable o s := rfl
@[simp] theorem exec_keyInstall (k : KeyGift) (s : State) :
    exec (.keyInstall k) s = execKeyInstall k s := rfl
@[simp] theorem exec_reductionFold (part : Fin 4) (s : State) :
    exec (.reductionFold part) s = execReductionFold part s := rfl
@[simp] theorem exec_wavelengthLost (f : Fin 128) (slot : Nat) (s : State) :
    exec (.wavelengthLost f slot) s = execWavelengthLost f slot s := rfl
@[simp] theorem exec_wavelengthRegained (f : Fin 128) (s : State) :
    exec (.wavelengthRegained f) s = execWavelengthRegained f s := rfl
@[simp] theorem exec_laserModuleRemoved (m : Fin 8) (s : State) :
    exec (.laserModuleRemoved m) s = execLaserModuleRemoved m s := rfl
@[simp] theorem exec_laserModuleInserted (m : Fin 8) (s : State) :
    exec (.laserModuleInserted m) s = execLaserModuleInserted m s := rfl
@[simp] theorem exec_laserPower (f : Fin 128) (s : State) :
    exec (.laserPower f) s = execLaserPower f s := rfl
@[simp] theorem exec_cepoch (v : W64) (s : State) :
    exec (.cepoch v) s = execCepoch v s := rfl
@[simp] theorem exec_rsvWrite (part : Fin 4) (n : Fin 16) (v : W64) (s : State) :
    exec (.rsvWrite part n v) s = execRsvWrite part n v s := rfl
@[simp] theorem exec_replicaSwitchArm (part : Fin 4) (v : W64) (s : State) :
    exec (.replicaSwitchArm part v) s = execReplicaSwitchArm part v s := rfl
@[simp] theorem exec_replicaSwitch (part : Fin 4) (s : State) :
    exec (.replicaSwitch part) s = execReplicaSwitch part s := rfl
@[simp] theorem exec_hqdropWrite (port : Fin 2) (s : State) :
    exec (.hqdropWrite port) s = execHqdropWrite port s := rfl
@[simp] theorem exec_outboundWindowWrite (port : Fin 2) (n : Fin 8) (base : W64) (npg : W32) (en : Bool) (s : State) :
    exec (.outboundWindowWrite port n base npg en) s = execOutboundWindowWrite port n base npg en s := rfl
@[simp] theorem exec_stkret (v : W64) (s : State) :
    exec (.stkret v) s = execStkret v s := rfl
@[simp] theorem exec_registerWrite (port : Fin 2) (part : Fin 4) (off : Nat) (v : BitVec 128) (s : State) :
    exec (.registerWrite port part off v) s = execRegisterWrite port part off v s := rfl
@[simp] theorem exec_attestationRequest (nonce : List Byte) (s : State) :
    exec (.attestationRequest nonce) s = execAttestationRequest nonce s := rfl
@[simp] theorem exec_fuseRaise (v : W32) (s : State) :
    exec (.fuseRaise v) s = execFuseRaise v s := rfl
@[simp] theorem exec_firmwareUpdate (image : List Byte) (svn : W32) (s : State) :
    exec (.firmwareUpdate image svn) s = execFirmwareUpdate image svn s := rfl
@[simp] theorem exec_microcodeUpdate (image : List Byte) (svn : W32) (s : State) :
    exec (.microcodeUpdate image svn) s = execMicrocodeUpdate image svn s := rfl
@[simp] theorem exec_recoveryImage (image : List Byte) (svn : W32) (s : State) :
    exec (.recoveryImage image svn) s = execRecoveryImage image svn s := rfl
@[simp] theorem exec_partition (mode : Fin 3) (s : State) :
    exec (.partition mode) s = execPartition mode s := rfl
@[simp] theorem exec_dieDrain (d : Fin 4) (s : State) :
    exec (.dieDrain d) s = execDieDrain d s := rfl
@[simp] theorem exec_dieReturn (d : Fin 4) (s : State) :
    exec (.dieReturn d) s = execDieReturn d s := rfl
@[simp] theorem exec_memUe (addr : Nat) (s : State) :
    exec (.memUe addr) s = execMemUe addr s := rfl
@[simp] theorem exec_scrub (addr : Nat) (s : State) :
    exec (.scrub addr) s = execScrub addr s := rfl
@[simp] theorem exec_resultWrite (c : CoreId) (s : State) :
    exec (.resultWrite c) s = execResultWrite c s := rfl
@[simp] theorem exec_accessPerformed (c : CoreId) (st : Stream) (i : Nat) (s : State) :
    exec (.accessPerformed c st i) s = execAccessPerformed c st i s := rfl
@[simp] theorem exec_hostMemoryAccess (port : Fin 2) (write : Bool) (addr : Nat) (bytes : List Byte) (s : State) :
    exec (.hostMemoryAccess port write addr bytes) s = execHostMemoryAccess port write addr bytes s := rfl
@[simp] theorem exec_copyOrderWaitExpired (o : Nat) (s : State) :
    exec (.copyOrderWaitExpired o) s = execCopyOrderWaitExpired o s := rfl
@[simp] theorem exec_cutStoreMove (slot : Nat) (s : State) :
    exec (.cutStoreMove slot) s = execCutStoreMove slot s := rfl
@[simp] theorem exec_powerClamp (cores : List CoreId) (s : State) :
    exec (.powerClamp cores) s = execPowerClamp cores s := rfl
@[simp] theorem exec_counterDecrement (s : State) :
    exec (.counterDecrement) s = execCounterDecrement s := rfl
@[simp] theorem exec_courseBoundary (s : State) :
    exec (.courseBoundary) s = execCourseBoundary s := rfl
@[simp] theorem exec_internalDelivery (s : State) :
    exec (.internalDelivery) s = execInternalDelivery s := rfl
@[simp] theorem exec_landingNotify (s : State) :
    exec (.landingNotify) s = execLandingNotify s := rfl
@[simp] theorem exec_forcedCut (s : State) :
    exec (.forcedCut) s = execForcedCut s := rfl
@[simp] theorem exec_eccstatWrite (s : State) :
    exec (.eccstatWrite) s = execEccstatWrite s := rfl
@[simp] theorem exec_powerOn (s : State) :
    exec (.powerOn) s = execPowerOn s := rfl
@[simp] theorem exec_thermalTrip (s : State) :
    exec (.thermalTrip) s = execThermalTrip s := rfl
@[simp] theorem exec_thermalRestart (s : State) :
    exec (.thermalRestart) s = execThermalRestart s := rfl

end Sys2Proof.Machine
end

