-- ==== Sys2Proof/Laws/State.lean ====
section
/-! SUPPORT. What each update of the state and of a task's registers leaves as it was, field by field, and what reading
back what was written gives. -/

namespace Sys2Proof.Machine

open Sys2Proof

/-! ## Updates of the state -/

@[simp] theorem State.setCore_cycle (s : State) (c : CoreId) (k : Core) : (s.setCore c k).cycle = s.cycle := rfl
@[simp] theorem State.setCore_free (s : State) (c : CoreId) (k : Core) : (s.setCore c k).free = s.free := rfl
@[simp] theorem State.setCore_nextOid (s : State) (c : CoreId) (k : Core) : (s.setCore c k).nextOid = s.nextOid := rfl
@[simp] theorem State.setCore_focus (s : State) (c : CoreId) (k : Core) : (s.setCore c k).focus = s.focus := rfl
@[simp] theorem State.setCore_agenda (s : State) (c : CoreId) (k : Core) : (s.setCore c k).agenda = s.agenda := rfl
@[simp] theorem State.setCore_inputs (s : State) (c : CoreId) (k : Core) : (s.setCore c k).inputs = s.inputs := rfl
@[simp] theorem State.setCore_mem (s : State) (c : CoreId) (k : Core) : (s.setCore c k).mem = s.mem := rfl
@[simp] theorem State.setCore_poison (s : State) (c : CoreId) (k : Core) : (s.setCore c k).poison = s.poison := rfl
@[simp] theorem State.setCore_dies (s : State) (c : CoreId) (k : Core) : (s.setCore c k).dies = s.dies := rfl
@[simp] theorem State.setCore_parts (s : State) (c : CoreId) (k : Core) : (s.setCore c k).parts = s.parts := rfl
@[simp] theorem State.setCore_ports (s : State) (c : CoreId) (k : Core) : (s.setCore c k).ports = s.ports := rfl
@[simp] theorem State.setCore_graphs (s : State) (c : CoreId) (k : Core) : (s.setCore c k).graphs = s.graphs := rfl
@[simp] theorem State.setCore_tasks (s : State) (c : CoreId) (k : Core) : (s.setCore c k).tasks = s.tasks := rfl
@[simp] theorem State.setCore_slotGens (s : State) (c : CoreId) (k : Core) : (s.setCore c k).slotGens = s.slotGens := rfl
@[simp] theorem State.setCore_counters (s : State) (c : CoreId) (k : Core) : (s.setCore c k).counters = s.counters := rfl
@[simp] theorem State.setCore_decrs (s : State) (c : CoreId) (k : Core) : (s.setCore c k).decrs = s.decrs := rfl
@[simp] theorem State.setCore_pubs (s : State) (c : CoreId) (k : Core) : (s.setCore c k).pubs = s.pubs := rfl
@[simp] theorem State.setCore_answers (s : State) (c : CoreId) (k : Core) : (s.setCore c k).answers = s.answers := rfl
@[simp] theorem State.setCore_ops (s : State) (c : CoreId) (k : Core) : (s.setCore c k).ops = s.ops := rfl
@[simp] theorem State.setCore_buffers (s : State) (c : CoreId) (k : Core) : (s.setCore c k).buffers = s.buffers := rfl
@[simp] theorem State.setCore_notifies (s : State) (c : CoreId) (k : Core) : (s.setCore c k).notifies = s.notifies := rfl
@[simp] theorem State.setCore_invals (s : State) (c : CoreId) (k : Core) : (s.setCore c k).invals = s.invals := rfl
@[simp] theorem State.setCore_debts (s : State) (c : CoreId) (k : Core) : (s.setCore c k).debts = s.debts := rfl
@[simp] theorem State.setCore_evict (s : State) (c : CoreId) (k : Core) : (s.setCore c k).evict = s.evict := rfl
@[simp] theorem State.setCore_saves (s : State) (c : CoreId) (k : Core) : (s.setCore c k).saves = s.saves := rfl
@[simp] theorem State.setCore_fabric (s : State) (c : CoreId) (k : Core) : (s.setCore c k).fabric = s.fabric := rfl
@[simp] theorem State.setCore_mgmt (s : State) (c : CoreId) (k : Core) : (s.setCore c k).mgmt = s.mgmt := rfl
@[simp] theorem State.setCore_outputs (s : State) (c : CoreId) (k : Core) : (s.setCore c k).outputs = s.outputs := rfl
@[simp] theorem State.setCtx_cycle (s : State) (c : CoreId) (x : Ctx) : (s.setCtx c x).cycle = s.cycle := rfl
@[simp] theorem State.setCtx_free (s : State) (c : CoreId) (x : Ctx) : (s.setCtx c x).free = s.free := rfl
@[simp] theorem State.setCtx_nextOid (s : State) (c : CoreId) (x : Ctx) : (s.setCtx c x).nextOid = s.nextOid := rfl
@[simp] theorem State.setCtx_focus (s : State) (c : CoreId) (x : Ctx) : (s.setCtx c x).focus = s.focus := rfl
@[simp] theorem State.setCtx_agenda (s : State) (c : CoreId) (x : Ctx) : (s.setCtx c x).agenda = s.agenda := rfl
@[simp] theorem State.setCtx_inputs (s : State) (c : CoreId) (x : Ctx) : (s.setCtx c x).inputs = s.inputs := rfl
@[simp] theorem State.setCtx_mem (s : State) (c : CoreId) (x : Ctx) : (s.setCtx c x).mem = s.mem := rfl
@[simp] theorem State.setCtx_poison (s : State) (c : CoreId) (x : Ctx) : (s.setCtx c x).poison = s.poison := rfl
@[simp] theorem State.setCtx_dies (s : State) (c : CoreId) (x : Ctx) : (s.setCtx c x).dies = s.dies := rfl
@[simp] theorem State.setCtx_parts (s : State) (c : CoreId) (x : Ctx) : (s.setCtx c x).parts = s.parts := rfl
@[simp] theorem State.setCtx_ports (s : State) (c : CoreId) (x : Ctx) : (s.setCtx c x).ports = s.ports := rfl
@[simp] theorem State.setCtx_graphs (s : State) (c : CoreId) (x : Ctx) : (s.setCtx c x).graphs = s.graphs := rfl
@[simp] theorem State.setCtx_tasks (s : State) (c : CoreId) (x : Ctx) : (s.setCtx c x).tasks = s.tasks := rfl
@[simp] theorem State.setCtx_slotGens (s : State) (c : CoreId) (x : Ctx) : (s.setCtx c x).slotGens = s.slotGens := rfl
@[simp] theorem State.setCtx_counters (s : State) (c : CoreId) (x : Ctx) : (s.setCtx c x).counters = s.counters := rfl
@[simp] theorem State.setCtx_decrs (s : State) (c : CoreId) (x : Ctx) : (s.setCtx c x).decrs = s.decrs := rfl
@[simp] theorem State.setCtx_pubs (s : State) (c : CoreId) (x : Ctx) : (s.setCtx c x).pubs = s.pubs := rfl
@[simp] theorem State.setCtx_answers (s : State) (c : CoreId) (x : Ctx) : (s.setCtx c x).answers = s.answers := rfl
@[simp] theorem State.setCtx_ops (s : State) (c : CoreId) (x : Ctx) : (s.setCtx c x).ops = s.ops := rfl
@[simp] theorem State.setCtx_buffers (s : State) (c : CoreId) (x : Ctx) : (s.setCtx c x).buffers = s.buffers := rfl
@[simp] theorem State.setCtx_notifies (s : State) (c : CoreId) (x : Ctx) : (s.setCtx c x).notifies = s.notifies := rfl
@[simp] theorem State.setCtx_invals (s : State) (c : CoreId) (x : Ctx) : (s.setCtx c x).invals = s.invals := rfl
@[simp] theorem State.setCtx_debts (s : State) (c : CoreId) (x : Ctx) : (s.setCtx c x).debts = s.debts := rfl
@[simp] theorem State.setCtx_evict (s : State) (c : CoreId) (x : Ctx) : (s.setCtx c x).evict = s.evict := rfl
@[simp] theorem State.setCtx_saves (s : State) (c : CoreId) (x : Ctx) : (s.setCtx c x).saves = s.saves := rfl
@[simp] theorem State.setCtx_fabric (s : State) (c : CoreId) (x : Ctx) : (s.setCtx c x).fabric = s.fabric := rfl
@[simp] theorem State.setCtx_mgmt (s : State) (c : CoreId) (x : Ctx) : (s.setCtx c x).mgmt = s.mgmt := rfl
@[simp] theorem State.setCtx_outputs (s : State) (c : CoreId) (x : Ctx) : (s.setCtx c x).outputs = s.outputs := rfl
@[simp] theorem State.updTask_cycle (s : State) (n : Nat) (f : Task → Task) : (s.updTask n f).cycle = s.cycle := rfl
@[simp] theorem State.updTask_free (s : State) (n : Nat) (f : Task → Task) : (s.updTask n f).free = s.free := rfl
@[simp] theorem State.updTask_nextOid (s : State) (n : Nat) (f : Task → Task) : (s.updTask n f).nextOid = s.nextOid := rfl
@[simp] theorem State.updTask_focus (s : State) (n : Nat) (f : Task → Task) : (s.updTask n f).focus = s.focus := rfl
@[simp] theorem State.updTask_agenda (s : State) (n : Nat) (f : Task → Task) : (s.updTask n f).agenda = s.agenda := rfl
@[simp] theorem State.updTask_inputs (s : State) (n : Nat) (f : Task → Task) : (s.updTask n f).inputs = s.inputs := rfl
@[simp] theorem State.updTask_mem (s : State) (n : Nat) (f : Task → Task) : (s.updTask n f).mem = s.mem := rfl
@[simp] theorem State.updTask_poison (s : State) (n : Nat) (f : Task → Task) : (s.updTask n f).poison = s.poison := rfl
@[simp] theorem State.updTask_cores (s : State) (n : Nat) (f : Task → Task) : (s.updTask n f).cores = s.cores := rfl
@[simp] theorem State.updTask_dies (s : State) (n : Nat) (f : Task → Task) : (s.updTask n f).dies = s.dies := rfl
@[simp] theorem State.updTask_parts (s : State) (n : Nat) (f : Task → Task) : (s.updTask n f).parts = s.parts := rfl
@[simp] theorem State.updTask_ports (s : State) (n : Nat) (f : Task → Task) : (s.updTask n f).ports = s.ports := rfl
@[simp] theorem State.updTask_graphs (s : State) (n : Nat) (f : Task → Task) : (s.updTask n f).graphs = s.graphs := rfl
@[simp] theorem State.updTask_slotGens (s : State) (n : Nat) (f : Task → Task) : (s.updTask n f).slotGens = s.slotGens := rfl
@[simp] theorem State.updTask_counters (s : State) (n : Nat) (f : Task → Task) : (s.updTask n f).counters = s.counters := rfl
@[simp] theorem State.updTask_decrs (s : State) (n : Nat) (f : Task → Task) : (s.updTask n f).decrs = s.decrs := rfl
@[simp] theorem State.updTask_pubs (s : State) (n : Nat) (f : Task → Task) : (s.updTask n f).pubs = s.pubs := rfl
@[simp] theorem State.updTask_answers (s : State) (n : Nat) (f : Task → Task) : (s.updTask n f).answers = s.answers := rfl
@[simp] theorem State.updTask_ops (s : State) (n : Nat) (f : Task → Task) : (s.updTask n f).ops = s.ops := rfl
@[simp] theorem State.updTask_buffers (s : State) (n : Nat) (f : Task → Task) : (s.updTask n f).buffers = s.buffers := rfl
@[simp] theorem State.updTask_notifies (s : State) (n : Nat) (f : Task → Task) : (s.updTask n f).notifies = s.notifies := rfl
@[simp] theorem State.updTask_invals (s : State) (n : Nat) (f : Task → Task) : (s.updTask n f).invals = s.invals := rfl
@[simp] theorem State.updTask_debts (s : State) (n : Nat) (f : Task → Task) : (s.updTask n f).debts = s.debts := rfl
@[simp] theorem State.updTask_evict (s : State) (n : Nat) (f : Task → Task) : (s.updTask n f).evict = s.evict := rfl
@[simp] theorem State.updTask_saves (s : State) (n : Nat) (f : Task → Task) : (s.updTask n f).saves = s.saves := rfl
@[simp] theorem State.updTask_fabric (s : State) (n : Nat) (f : Task → Task) : (s.updTask n f).fabric = s.fabric := rfl
@[simp] theorem State.updTask_mgmt (s : State) (n : Nat) (f : Task → Task) : (s.updTask n f).mgmt = s.mgmt := rfl
@[simp] theorem State.updTask_outputs (s : State) (n : Nat) (f : Task → Task) : (s.updTask n f).outputs = s.outputs := rfl
@[simp] theorem State.updGraph_cycle (s : State) (h : Nat) (f : Graph → Graph) : (s.updGraph h f).cycle = s.cycle := rfl
@[simp] theorem State.updGraph_free (s : State) (h : Nat) (f : Graph → Graph) : (s.updGraph h f).free = s.free := rfl
@[simp] theorem State.updGraph_nextOid (s : State) (h : Nat) (f : Graph → Graph) : (s.updGraph h f).nextOid = s.nextOid := rfl
@[simp] theorem State.updGraph_focus (s : State) (h : Nat) (f : Graph → Graph) : (s.updGraph h f).focus = s.focus := rfl
@[simp] theorem State.updGraph_agenda (s : State) (h : Nat) (f : Graph → Graph) : (s.updGraph h f).agenda = s.agenda := rfl
@[simp] theorem State.updGraph_inputs (s : State) (h : Nat) (f : Graph → Graph) : (s.updGraph h f).inputs = s.inputs := rfl
@[simp] theorem State.updGraph_mem (s : State) (h : Nat) (f : Graph → Graph) : (s.updGraph h f).mem = s.mem := rfl
@[simp] theorem State.updGraph_poison (s : State) (h : Nat) (f : Graph → Graph) : (s.updGraph h f).poison = s.poison := rfl
@[simp] theorem State.updGraph_cores (s : State) (h : Nat) (f : Graph → Graph) : (s.updGraph h f).cores = s.cores := rfl
@[simp] theorem State.updGraph_dies (s : State) (h : Nat) (f : Graph → Graph) : (s.updGraph h f).dies = s.dies := rfl
@[simp] theorem State.updGraph_parts (s : State) (h : Nat) (f : Graph → Graph) : (s.updGraph h f).parts = s.parts := rfl
@[simp] theorem State.updGraph_ports (s : State) (h : Nat) (f : Graph → Graph) : (s.updGraph h f).ports = s.ports := rfl
@[simp] theorem State.updGraph_tasks (s : State) (h : Nat) (f : Graph → Graph) : (s.updGraph h f).tasks = s.tasks := rfl
@[simp] theorem State.updGraph_slotGens (s : State) (h : Nat) (f : Graph → Graph) : (s.updGraph h f).slotGens = s.slotGens := rfl
@[simp] theorem State.updGraph_counters (s : State) (h : Nat) (f : Graph → Graph) : (s.updGraph h f).counters = s.counters := rfl
@[simp] theorem State.updGraph_decrs (s : State) (h : Nat) (f : Graph → Graph) : (s.updGraph h f).decrs = s.decrs := rfl
@[simp] theorem State.updGraph_pubs (s : State) (h : Nat) (f : Graph → Graph) : (s.updGraph h f).pubs = s.pubs := rfl
@[simp] theorem State.updGraph_answers (s : State) (h : Nat) (f : Graph → Graph) : (s.updGraph h f).answers = s.answers := rfl
@[simp] theorem State.updGraph_ops (s : State) (h : Nat) (f : Graph → Graph) : (s.updGraph h f).ops = s.ops := rfl
@[simp] theorem State.updGraph_buffers (s : State) (h : Nat) (f : Graph → Graph) : (s.updGraph h f).buffers = s.buffers := rfl
@[simp] theorem State.updGraph_notifies (s : State) (h : Nat) (f : Graph → Graph) : (s.updGraph h f).notifies = s.notifies := rfl
@[simp] theorem State.updGraph_invals (s : State) (h : Nat) (f : Graph → Graph) : (s.updGraph h f).invals = s.invals := rfl
@[simp] theorem State.updGraph_debts (s : State) (h : Nat) (f : Graph → Graph) : (s.updGraph h f).debts = s.debts := rfl
@[simp] theorem State.updGraph_evict (s : State) (h : Nat) (f : Graph → Graph) : (s.updGraph h f).evict = s.evict := rfl
@[simp] theorem State.updGraph_saves (s : State) (h : Nat) (f : Graph → Graph) : (s.updGraph h f).saves = s.saves := rfl
@[simp] theorem State.updGraph_fabric (s : State) (h : Nat) (f : Graph → Graph) : (s.updGraph h f).fabric = s.fabric := rfl
@[simp] theorem State.updGraph_mgmt (s : State) (h : Nat) (f : Graph → Graph) : (s.updGraph h f).mgmt = s.mgmt := rfl
@[simp] theorem State.updGraph_outputs (s : State) (h : Nat) (f : Graph → Graph) : (s.updGraph h f).outputs = s.outputs := rfl
@[simp] theorem State.updOp_cycle (s : State) (o : Nat) (f : Op → Op) : (s.updOp o f).cycle = s.cycle := rfl
@[simp] theorem State.updOp_free (s : State) (o : Nat) (f : Op → Op) : (s.updOp o f).free = s.free := rfl
@[simp] theorem State.updOp_nextOid (s : State) (o : Nat) (f : Op → Op) : (s.updOp o f).nextOid = s.nextOid := rfl
@[simp] theorem State.updOp_focus (s : State) (o : Nat) (f : Op → Op) : (s.updOp o f).focus = s.focus := rfl
@[simp] theorem State.updOp_agenda (s : State) (o : Nat) (f : Op → Op) : (s.updOp o f).agenda = s.agenda := rfl
@[simp] theorem State.updOp_inputs (s : State) (o : Nat) (f : Op → Op) : (s.updOp o f).inputs = s.inputs := rfl
@[simp] theorem State.updOp_mem (s : State) (o : Nat) (f : Op → Op) : (s.updOp o f).mem = s.mem := rfl
@[simp] theorem State.updOp_poison (s : State) (o : Nat) (f : Op → Op) : (s.updOp o f).poison = s.poison := rfl
@[simp] theorem State.updOp_cores (s : State) (o : Nat) (f : Op → Op) : (s.updOp o f).cores = s.cores := rfl
@[simp] theorem State.updOp_dies (s : State) (o : Nat) (f : Op → Op) : (s.updOp o f).dies = s.dies := rfl
@[simp] theorem State.updOp_parts (s : State) (o : Nat) (f : Op → Op) : (s.updOp o f).parts = s.parts := rfl
@[simp] theorem State.updOp_ports (s : State) (o : Nat) (f : Op → Op) : (s.updOp o f).ports = s.ports := rfl
@[simp] theorem State.updOp_graphs (s : State) (o : Nat) (f : Op → Op) : (s.updOp o f).graphs = s.graphs := rfl
@[simp] theorem State.updOp_tasks (s : State) (o : Nat) (f : Op → Op) : (s.updOp o f).tasks = s.tasks := rfl
@[simp] theorem State.updOp_slotGens (s : State) (o : Nat) (f : Op → Op) : (s.updOp o f).slotGens = s.slotGens := rfl
@[simp] theorem State.updOp_counters (s : State) (o : Nat) (f : Op → Op) : (s.updOp o f).counters = s.counters := rfl
@[simp] theorem State.updOp_decrs (s : State) (o : Nat) (f : Op → Op) : (s.updOp o f).decrs = s.decrs := rfl
@[simp] theorem State.updOp_pubs (s : State) (o : Nat) (f : Op → Op) : (s.updOp o f).pubs = s.pubs := rfl
@[simp] theorem State.updOp_answers (s : State) (o : Nat) (f : Op → Op) : (s.updOp o f).answers = s.answers := rfl
@[simp] theorem State.updOp_buffers (s : State) (o : Nat) (f : Op → Op) : (s.updOp o f).buffers = s.buffers := rfl
@[simp] theorem State.updOp_notifies (s : State) (o : Nat) (f : Op → Op) : (s.updOp o f).notifies = s.notifies := rfl
@[simp] theorem State.updOp_invals (s : State) (o : Nat) (f : Op → Op) : (s.updOp o f).invals = s.invals := rfl
@[simp] theorem State.updOp_debts (s : State) (o : Nat) (f : Op → Op) : (s.updOp o f).debts = s.debts := rfl
@[simp] theorem State.updOp_evict (s : State) (o : Nat) (f : Op → Op) : (s.updOp o f).evict = s.evict := rfl
@[simp] theorem State.updOp_saves (s : State) (o : Nat) (f : Op → Op) : (s.updOp o f).saves = s.saves := rfl
@[simp] theorem State.updOp_fabric (s : State) (o : Nat) (f : Op → Op) : (s.updOp o f).fabric = s.fabric := rfl
@[simp] theorem State.updOp_mgmt (s : State) (o : Nat) (f : Op → Op) : (s.updOp o f).mgmt = s.mgmt := rfl
@[simp] theorem State.updOp_outputs (s : State) (o : Nat) (f : Op → Op) : (s.updOp o f).outputs = s.outputs := rfl
@[simp] theorem State.updPart_cycle (s : State) (p : Fin 4) (f : Part → Part) : (s.updPart p f).cycle = s.cycle := rfl
@[simp] theorem State.updPart_free (s : State) (p : Fin 4) (f : Part → Part) : (s.updPart p f).free = s.free := rfl
@[simp] theorem State.updPart_nextOid (s : State) (p : Fin 4) (f : Part → Part) : (s.updPart p f).nextOid = s.nextOid := rfl
@[simp] theorem State.updPart_focus (s : State) (p : Fin 4) (f : Part → Part) : (s.updPart p f).focus = s.focus := rfl
@[simp] theorem State.updPart_agenda (s : State) (p : Fin 4) (f : Part → Part) : (s.updPart p f).agenda = s.agenda := rfl
@[simp] theorem State.updPart_inputs (s : State) (p : Fin 4) (f : Part → Part) : (s.updPart p f).inputs = s.inputs := rfl
@[simp] theorem State.updPart_mem (s : State) (p : Fin 4) (f : Part → Part) : (s.updPart p f).mem = s.mem := rfl
@[simp] theorem State.updPart_poison (s : State) (p : Fin 4) (f : Part → Part) : (s.updPart p f).poison = s.poison := rfl
@[simp] theorem State.updPart_cores (s : State) (p : Fin 4) (f : Part → Part) : (s.updPart p f).cores = s.cores := rfl
@[simp] theorem State.updPart_dies (s : State) (p : Fin 4) (f : Part → Part) : (s.updPart p f).dies = s.dies := rfl
@[simp] theorem State.updPart_ports (s : State) (p : Fin 4) (f : Part → Part) : (s.updPart p f).ports = s.ports := rfl
@[simp] theorem State.updPart_graphs (s : State) (p : Fin 4) (f : Part → Part) : (s.updPart p f).graphs = s.graphs := rfl
@[simp] theorem State.updPart_tasks (s : State) (p : Fin 4) (f : Part → Part) : (s.updPart p f).tasks = s.tasks := rfl
@[simp] theorem State.updPart_slotGens (s : State) (p : Fin 4) (f : Part → Part) : (s.updPart p f).slotGens = s.slotGens := rfl
@[simp] theorem State.updPart_counters (s : State) (p : Fin 4) (f : Part → Part) : (s.updPart p f).counters = s.counters := rfl
@[simp] theorem State.updPart_decrs (s : State) (p : Fin 4) (f : Part → Part) : (s.updPart p f).decrs = s.decrs := rfl
@[simp] theorem State.updPart_pubs (s : State) (p : Fin 4) (f : Part → Part) : (s.updPart p f).pubs = s.pubs := rfl
@[simp] theorem State.updPart_answers (s : State) (p : Fin 4) (f : Part → Part) : (s.updPart p f).answers = s.answers := rfl
@[simp] theorem State.updPart_ops (s : State) (p : Fin 4) (f : Part → Part) : (s.updPart p f).ops = s.ops := rfl
@[simp] theorem State.updPart_buffers (s : State) (p : Fin 4) (f : Part → Part) : (s.updPart p f).buffers = s.buffers := rfl
@[simp] theorem State.updPart_notifies (s : State) (p : Fin 4) (f : Part → Part) : (s.updPart p f).notifies = s.notifies := rfl
@[simp] theorem State.updPart_invals (s : State) (p : Fin 4) (f : Part → Part) : (s.updPart p f).invals = s.invals := rfl
@[simp] theorem State.updPart_debts (s : State) (p : Fin 4) (f : Part → Part) : (s.updPart p f).debts = s.debts := rfl
@[simp] theorem State.updPart_evict (s : State) (p : Fin 4) (f : Part → Part) : (s.updPart p f).evict = s.evict := rfl
@[simp] theorem State.updPart_saves (s : State) (p : Fin 4) (f : Part → Part) : (s.updPart p f).saves = s.saves := rfl
@[simp] theorem State.updPart_fabric (s : State) (p : Fin 4) (f : Part → Part) : (s.updPart p f).fabric = s.fabric := rfl
@[simp] theorem State.updPart_mgmt (s : State) (p : Fin 4) (f : Part → Part) : (s.updPart p f).mgmt = s.mgmt := rfl
@[simp] theorem State.updPart_outputs (s : State) (p : Fin 4) (f : Part → Part) : (s.updPart p f).outputs = s.outputs := rfl
@[simp] theorem State.updPort_cycle (s : State) (p : Fin 2) (f : Port → Port) : (s.updPort p f).cycle = s.cycle := rfl
@[simp] theorem State.updPort_free (s : State) (p : Fin 2) (f : Port → Port) : (s.updPort p f).free = s.free := rfl
@[simp] theorem State.updPort_nextOid (s : State) (p : Fin 2) (f : Port → Port) : (s.updPort p f).nextOid = s.nextOid := rfl
@[simp] theorem State.updPort_focus (s : State) (p : Fin 2) (f : Port → Port) : (s.updPort p f).focus = s.focus := rfl
@[simp] theorem State.updPort_agenda (s : State) (p : Fin 2) (f : Port → Port) : (s.updPort p f).agenda = s.agenda := rfl
@[simp] theorem State.updPort_inputs (s : State) (p : Fin 2) (f : Port → Port) : (s.updPort p f).inputs = s.inputs := rfl
@[simp] theorem State.updPort_mem (s : State) (p : Fin 2) (f : Port → Port) : (s.updPort p f).mem = s.mem := rfl
@[simp] theorem State.updPort_poison (s : State) (p : Fin 2) (f : Port → Port) : (s.updPort p f).poison = s.poison := rfl
@[simp] theorem State.updPort_cores (s : State) (p : Fin 2) (f : Port → Port) : (s.updPort p f).cores = s.cores := rfl
@[simp] theorem State.updPort_dies (s : State) (p : Fin 2) (f : Port → Port) : (s.updPort p f).dies = s.dies := rfl
@[simp] theorem State.updPort_parts (s : State) (p : Fin 2) (f : Port → Port) : (s.updPort p f).parts = s.parts := rfl
@[simp] theorem State.updPort_graphs (s : State) (p : Fin 2) (f : Port → Port) : (s.updPort p f).graphs = s.graphs := rfl
@[simp] theorem State.updPort_tasks (s : State) (p : Fin 2) (f : Port → Port) : (s.updPort p f).tasks = s.tasks := rfl
@[simp] theorem State.updPort_slotGens (s : State) (p : Fin 2) (f : Port → Port) : (s.updPort p f).slotGens = s.slotGens := rfl
@[simp] theorem State.updPort_counters (s : State) (p : Fin 2) (f : Port → Port) : (s.updPort p f).counters = s.counters := rfl
@[simp] theorem State.updPort_decrs (s : State) (p : Fin 2) (f : Port → Port) : (s.updPort p f).decrs = s.decrs := rfl
@[simp] theorem State.updPort_pubs (s : State) (p : Fin 2) (f : Port → Port) : (s.updPort p f).pubs = s.pubs := rfl
@[simp] theorem State.updPort_answers (s : State) (p : Fin 2) (f : Port → Port) : (s.updPort p f).answers = s.answers := rfl
@[simp] theorem State.updPort_ops (s : State) (p : Fin 2) (f : Port → Port) : (s.updPort p f).ops = s.ops := rfl
@[simp] theorem State.updPort_buffers (s : State) (p : Fin 2) (f : Port → Port) : (s.updPort p f).buffers = s.buffers := rfl
@[simp] theorem State.updPort_notifies (s : State) (p : Fin 2) (f : Port → Port) : (s.updPort p f).notifies = s.notifies := rfl
@[simp] theorem State.updPort_invals (s : State) (p : Fin 2) (f : Port → Port) : (s.updPort p f).invals = s.invals := rfl
@[simp] theorem State.updPort_debts (s : State) (p : Fin 2) (f : Port → Port) : (s.updPort p f).debts = s.debts := rfl
@[simp] theorem State.updPort_evict (s : State) (p : Fin 2) (f : Port → Port) : (s.updPort p f).evict = s.evict := rfl
@[simp] theorem State.updPort_saves (s : State) (p : Fin 2) (f : Port → Port) : (s.updPort p f).saves = s.saves := rfl
@[simp] theorem State.updPort_fabric (s : State) (p : Fin 2) (f : Port → Port) : (s.updPort p f).fabric = s.fabric := rfl
@[simp] theorem State.updPort_mgmt (s : State) (p : Fin 2) (f : Port → Port) : (s.updPort p f).mgmt = s.mgmt := rfl
@[simp] theorem State.updPort_outputs (s : State) (p : Fin 2) (f : Port → Port) : (s.updPort p f).outputs = s.outputs := rfl
@[simp] theorem State.updContext_cycle (s : State) (p : Fin 2) (n : Fin 64) (f : Context → Context) : (s.updContext p n f).cycle = s.cycle := rfl
@[simp] theorem State.updContext_free (s : State) (p : Fin 2) (n : Fin 64) (f : Context → Context) : (s.updContext p n f).free = s.free := rfl
@[simp] theorem State.updContext_nextOid (s : State) (p : Fin 2) (n : Fin 64) (f : Context → Context) : (s.updContext p n f).nextOid = s.nextOid := rfl
@[simp] theorem State.updContext_focus (s : State) (p : Fin 2) (n : Fin 64) (f : Context → Context) : (s.updContext p n f).focus = s.focus := rfl
@[simp] theorem State.updContext_agenda (s : State) (p : Fin 2) (n : Fin 64) (f : Context → Context) : (s.updContext p n f).agenda = s.agenda := rfl
@[simp] theorem State.updContext_inputs (s : State) (p : Fin 2) (n : Fin 64) (f : Context → Context) : (s.updContext p n f).inputs = s.inputs := rfl
@[simp] theorem State.updContext_mem (s : State) (p : Fin 2) (n : Fin 64) (f : Context → Context) : (s.updContext p n f).mem = s.mem := rfl
@[simp] theorem State.updContext_poison (s : State) (p : Fin 2) (n : Fin 64) (f : Context → Context) : (s.updContext p n f).poison = s.poison := rfl
@[simp] theorem State.updContext_cores (s : State) (p : Fin 2) (n : Fin 64) (f : Context → Context) : (s.updContext p n f).cores = s.cores := rfl
@[simp] theorem State.updContext_dies (s : State) (p : Fin 2) (n : Fin 64) (f : Context → Context) : (s.updContext p n f).dies = s.dies := rfl
@[simp] theorem State.updContext_parts (s : State) (p : Fin 2) (n : Fin 64) (f : Context → Context) : (s.updContext p n f).parts = s.parts := rfl
@[simp] theorem State.updContext_graphs (s : State) (p : Fin 2) (n : Fin 64) (f : Context → Context) : (s.updContext p n f).graphs = s.graphs := rfl
@[simp] theorem State.updContext_tasks (s : State) (p : Fin 2) (n : Fin 64) (f : Context → Context) : (s.updContext p n f).tasks = s.tasks := rfl
@[simp] theorem State.updContext_slotGens (s : State) (p : Fin 2) (n : Fin 64) (f : Context → Context) : (s.updContext p n f).slotGens = s.slotGens := rfl
@[simp] theorem State.updContext_counters (s : State) (p : Fin 2) (n : Fin 64) (f : Context → Context) : (s.updContext p n f).counters = s.counters := rfl
@[simp] theorem State.updContext_decrs (s : State) (p : Fin 2) (n : Fin 64) (f : Context → Context) : (s.updContext p n f).decrs = s.decrs := rfl
@[simp] theorem State.updContext_pubs (s : State) (p : Fin 2) (n : Fin 64) (f : Context → Context) : (s.updContext p n f).pubs = s.pubs := rfl
@[simp] theorem State.updContext_answers (s : State) (p : Fin 2) (n : Fin 64) (f : Context → Context) : (s.updContext p n f).answers = s.answers := rfl
@[simp] theorem State.updContext_ops (s : State) (p : Fin 2) (n : Fin 64) (f : Context → Context) : (s.updContext p n f).ops = s.ops := rfl
@[simp] theorem State.updContext_buffers (s : State) (p : Fin 2) (n : Fin 64) (f : Context → Context) : (s.updContext p n f).buffers = s.buffers := rfl
@[simp] theorem State.updContext_notifies (s : State) (p : Fin 2) (n : Fin 64) (f : Context → Context) : (s.updContext p n f).notifies = s.notifies := rfl
@[simp] theorem State.updContext_invals (s : State) (p : Fin 2) (n : Fin 64) (f : Context → Context) : (s.updContext p n f).invals = s.invals := rfl
@[simp] theorem State.updContext_debts (s : State) (p : Fin 2) (n : Fin 64) (f : Context → Context) : (s.updContext p n f).debts = s.debts := rfl
@[simp] theorem State.updContext_evict (s : State) (p : Fin 2) (n : Fin 64) (f : Context → Context) : (s.updContext p n f).evict = s.evict := rfl
@[simp] theorem State.updContext_saves (s : State) (p : Fin 2) (n : Fin 64) (f : Context → Context) : (s.updContext p n f).saves = s.saves := rfl
@[simp] theorem State.updContext_fabric (s : State) (p : Fin 2) (n : Fin 64) (f : Context → Context) : (s.updContext p n f).fabric = s.fabric := rfl
@[simp] theorem State.updContext_mgmt (s : State) (p : Fin 2) (n : Fin 64) (f : Context → Context) : (s.updContext p n f).mgmt = s.mgmt := rfl
@[simp] theorem State.updContext_outputs (s : State) (p : Fin 2) (n : Fin 64) (f : Context → Context) : (s.updContext p n f).outputs = s.outputs := rfl
@[simp] theorem State.store_cycle (s : State) (k : Nat) (b : List Byte) : (s.store k b).cycle = s.cycle := rfl
@[simp] theorem State.store_free (s : State) (k : Nat) (b : List Byte) : (s.store k b).free = s.free := rfl
@[simp] theorem State.store_nextOid (s : State) (k : Nat) (b : List Byte) : (s.store k b).nextOid = s.nextOid := rfl
@[simp] theorem State.store_focus (s : State) (k : Nat) (b : List Byte) : (s.store k b).focus = s.focus := rfl
@[simp] theorem State.store_agenda (s : State) (k : Nat) (b : List Byte) : (s.store k b).agenda = s.agenda := rfl
@[simp] theorem State.store_inputs (s : State) (k : Nat) (b : List Byte) : (s.store k b).inputs = s.inputs := rfl
@[simp] theorem State.store_cores (s : State) (k : Nat) (b : List Byte) : (s.store k b).cores = s.cores := rfl
@[simp] theorem State.store_dies (s : State) (k : Nat) (b : List Byte) : (s.store k b).dies = s.dies := rfl
@[simp] theorem State.store_parts (s : State) (k : Nat) (b : List Byte) : (s.store k b).parts = s.parts := rfl
@[simp] theorem State.store_ports (s : State) (k : Nat) (b : List Byte) : (s.store k b).ports = s.ports := rfl
@[simp] theorem State.store_graphs (s : State) (k : Nat) (b : List Byte) : (s.store k b).graphs = s.graphs := rfl
@[simp] theorem State.store_tasks (s : State) (k : Nat) (b : List Byte) : (s.store k b).tasks = s.tasks := rfl
@[simp] theorem State.store_slotGens (s : State) (k : Nat) (b : List Byte) : (s.store k b).slotGens = s.slotGens := rfl
@[simp] theorem State.store_counters (s : State) (k : Nat) (b : List Byte) : (s.store k b).counters = s.counters := rfl
@[simp] theorem State.store_decrs (s : State) (k : Nat) (b : List Byte) : (s.store k b).decrs = s.decrs := rfl
@[simp] theorem State.store_pubs (s : State) (k : Nat) (b : List Byte) : (s.store k b).pubs = s.pubs := rfl
@[simp] theorem State.store_answers (s : State) (k : Nat) (b : List Byte) : (s.store k b).answers = s.answers := rfl
@[simp] theorem State.store_ops (s : State) (k : Nat) (b : List Byte) : (s.store k b).ops = s.ops := rfl
@[simp] theorem State.store_buffers (s : State) (k : Nat) (b : List Byte) : (s.store k b).buffers = s.buffers := rfl
@[simp] theorem State.store_notifies (s : State) (k : Nat) (b : List Byte) : (s.store k b).notifies = s.notifies := rfl
@[simp] theorem State.store_invals (s : State) (k : Nat) (b : List Byte) : (s.store k b).invals = s.invals := rfl
@[simp] theorem State.store_debts (s : State) (k : Nat) (b : List Byte) : (s.store k b).debts = s.debts := rfl
@[simp] theorem State.store_evict (s : State) (k : Nat) (b : List Byte) : (s.store k b).evict = s.evict := rfl
@[simp] theorem State.store_saves (s : State) (k : Nat) (b : List Byte) : (s.store k b).saves = s.saves := rfl
@[simp] theorem State.store_fabric (s : State) (k : Nat) (b : List Byte) : (s.store k b).fabric = s.fabric := rfl
@[simp] theorem State.store_mgmt (s : State) (k : Nat) (b : List Byte) : (s.store k b).mgmt = s.mgmt := rfl
@[simp] theorem State.store_outputs (s : State) (k : Nat) (b : List Byte) : (s.store k b).outputs = s.outputs := rfl

@[simp] theorem State.core_setCore (s : State) (c : CoreId) (k : Core) : (s.setCore c k).core c = k := by
  simp [State.core, State.setCore]
@[simp] theorem State.core_setCore_ne (s : State) (c d : CoreId) (k : Core) (h : c ≠ d) :
    (s.setCore c k).core d = s.core d := by
  have h' : c.val ≠ d.val := fun e => h (Fin.ext e)
  simp [State.core, State.setCore, h']
@[simp] theorem State.setCore_setCore (s : State) (c : CoreId) (k l : Core) :
    (s.setCore c k).setCore c l = s.setCore c l := by simp [State.setCore]
@[simp] theorem State.ctx_setCtx (s : State) (c : CoreId) (x : Ctx) : (s.setCtx c x).ctx c = x := by
  simp [State.ctx, State.setCtx]
@[simp] theorem State.ctx_setCtx_ne (s : State) (c d : CoreId) (x : Ctx) (h : c ≠ d) :
    (s.setCtx c x).ctx d = s.ctx d := by simp [State.ctx, State.setCtx, h]
@[simp] theorem State.setCtx_setCtx (s : State) (c : CoreId) (x y : Ctx) :
    (s.setCtx c x).setCtx c y = s.setCtx c y := by simp [State.setCtx]
@[simp] theorem State.setCtx_same (s : State) (c : CoreId) : s.setCtx c (s.ctx c) = s :=
  show { s with cores := s.cores.set c s.cores[c] } = s by simp
@[simp] theorem State.fcore_setCtx (s : State) (c : CoreId) (x : Ctx) : (s.setCtx c x).fcore = s.fcore := rfl
@[simp] theorem State.fstr_setCtx (s : State) (c : CoreId) (x : Ctx) : (s.setCtx c x).fstr = s.fstr := rfl
@[simp] theorem State.run_setCtx (s : State) (c d : CoreId) (x : Ctx) :
    ((s.setCtx c x).core d).run = (s.core d).run := by
  by_cases h : c = d
  · subst h; simp [State.setCtx]
  · simp [State.setCtx, h]

/-! ## Updates of a task's registers -/

@[simp] theorem Ctx.setStrm_g (x : Ctx) (st : Stream) (q : StreamSt) : (x.setStrm st q).g = x.g := rfl
@[simp] theorem Ctx.setStrm_aL (x : Ctx) (st : Stream) (q : StreamSt) : (x.setStrm st q).aL = x.aL := rfl
@[simp] theorem Ctx.setStrm_aS (x : Ctx) (st : Stream) (q : StreamSt) : (x.setStrm st q).aS = x.aS := rfl
@[simp] theorem Ctx.setStrm_v (x : Ctx) (st : Stream) (q : StreamSt) : (x.setStrm st q).v = x.v := rfl
@[simp] theorem Ctx.setStrm_z (x : Ctx) (st : Stream) (q : StreamSt) : (x.setStrm st q).z = x.z := rfl
@[simp] theorem Ctx.setStrm_iq (x : Ctx) (st : Stream) (q : StreamSt) : (x.setStrm st q).iq = x.iq := rfl
@[simp] theorem Ctx.setStrm_oq (x : Ctx) (st : Stream) (q : StreamSt) : (x.setStrm st q).oq = x.oq := rfl
@[simp] theorem Ctx.setStrm_mq (x : Ctx) (st : Stream) (q : StreamSt) : (x.setStrm st q).mq = x.mq := rfl
@[simp] theorem Ctx.setStrm_gq (x : Ctx) (st : Stream) (q : StreamSt) : (x.setStrm st q).gq = x.gq := rfl
@[simp] theorem Ctx.setStrm_tok (x : Ctx) (st : Stream) (q : StreamSt) : (x.setStrm st q).tok = x.tok := rfl
@[simp] theorem Ctx.setStrm_snaps (x : Ctx) (st : Stream) (q : StreamSt) : (x.setStrm st q).snaps = x.snaps := rfl
@[simp] theorem Ctx.setStrm_owed (x : Ctx) (st : Stream) (q : StreamSt) : (x.setStrm st q).owed = x.owed := rfl
@[simp] theorem Ctx.setStrm_lc (x : Ctx) (st : Stream) (q : StreamSt) : (x.setStrm st q).lc = x.lc := rfl
@[simp] theorem Ctx.setStrm_h (x : Ctx) (st : Stream) (q : StreamSt) : (x.setStrm st q).h = x.h := rfl
@[simp] theorem Ctx.setStrm_n (x : Ctx) (st : Stream) (q : StreamSt) : (x.setStrm st q).n = x.n := rfl
@[simp] theorem Ctx.setStrm_fmt (x : Ctx) (st : Stream) (q : StreamSt) : (x.setStrm st q).fmt = x.fmt := rfl
@[simp] theorem Ctx.setStrm_fctl (x : Ctx) (st : Stream) (q : StreamSt) : (x.setStrm st q).fctl = x.fctl := rfl
@[simp] theorem Ctx.setStrm_fstat (x : Ctx) (st : Stream) (q : StreamSt) : (x.setStrm st q).fstat = x.fstat := rfl
@[simp] theorem Ctx.setStrm_ftb (x : Ctx) (st : Stream) (q : StreamSt) : (x.setStrm st q).ftb = x.ftb := rfl
@[simp] theorem Ctx.setStrm_frmode (x : Ctx) (st : Stream) (q : StreamSt) : (x.setStrm st q).frmode = x.frmode := rfl
@[simp] theorem Ctx.setStrm_fwait (x : Ctx) (st : Stream) (q : StreamSt) : (x.setStrm st q).fwait = x.fwait := rfl
@[simp] theorem Ctx.setStrm_resumed (x : Ctx) (st : Stream) (q : StreamSt) : (x.setStrm st q).resumed = x.resumed := rfl
@[simp] theorem Ctx.setStrm_fcourse (x : Ctx) (st : Stream) (q : StreamSt) : (x.setStrm st q).fcourse = x.fcourse := rfl
@[simp] theorem Ctx.setStrm_fbegan (x : Ctx) (st : Stream) (q : StreamSt) : (x.setStrm st q).fbegan = x.fbegan := rfl
@[simp] theorem Ctx.setStrm_slack (x : Ctx) (st : Stream) (q : StreamSt) : (x.setStrm st q).slack = x.slack := rfl
@[simp] theorem Ctx.setStrm_smiss (x : Ctx) (st : Stream) (q : StreamSt) : (x.setStrm st q).smiss = x.smiss := rfl
@[simp] theorem Ctx.setStrm_nr (x : Ctx) (st : Stream) (q : StreamSt) : (x.setStrm st q).nr = x.nr := rfl
@[simp] theorem Ctx.setStrm_demote (x : Ctx) (st : Stream) (q : StreamSt) : (x.setStrm st q).demote = x.demote := rfl
@[simp] theorem Ctx.setStrm_tstat (x : Ctx) (st : Stream) (q : StreamSt) : (x.setStrm st q).tstat = x.tstat := rfl
@[simp] theorem Ctx.setStrm_task (x : Ctx) (st : Stream) (q : StreamSt) : (x.setStrm st q).task = x.task := rfl
@[simp] theorem Ctx.setStrm_graph (x : Ctx) (st : Stream) (q : StreamSt) : (x.setStrm st q).graph = x.graph := rfl
@[simp] theorem Ctx.setStrm_tseq (x : Ctx) (st : Stream) (q : StreamSt) : (x.setStrm st q).tseq = x.tseq := rfl
@[simp] theorem Ctx.setStrm_lcore (x : Ctx) (st : Stream) (q : StreamSt) : (x.setStrm st q).lcore = x.lcore := rfl
@[simp] theorem Ctx.setStrm_oseq (x : Ctx) (st : Stream) (q : StreamSt) : (x.setStrm st q).oseq = x.oseq := rfl
@[simp] theorem Ctx.setStrm_chuse (x : Ctx) (st : Stream) (q : StreamSt) : (x.setStrm st q).chuse = x.chuse := rfl
@[simp] theorem Ctx.setStrm_base (x : Ctx) (st : Stream) (q : StreamSt) : (x.setStrm st q).base = x.base := rfl
@[simp] theorem Ctx.setStrm_size (x : Ctx) (st : Stream) (q : StreamSt) : (x.setStrm st q).size = x.size := rfl
@[simp] theorem Ctx.setStrm_fab (x : Ctx) (st : Stream) (q : StreamSt) : (x.setStrm st q).fab = x.fab := rfl
@[simp] theorem Ctx.setStrm_priv (x : Ctx) (st : Stream) (q : StreamSt) : (x.setStrm st q).priv = x.priv := rfl
@[simp] theorem Ctx.setStrm_reloc (x : Ctx) (st : Stream) (q : StreamSt) : (x.setStrm st q).reloc = x.reloc := rfl
@[simp] theorem Ctx.setStrm_guards (x : Ctx) (st : Stream) (q : StreamSt) : (x.setStrm st q).guards = x.guards := rfl
@[simp] theorem Ctx.setStrm_tendAt (x : Ctx) (st : Stream) (q : StreamSt) : (x.setStrm st q).tendAt = x.tendAt := rfl
@[simp] theorem Ctx.setStrm_rot (x : Ctx) (st : Stream) (q : StreamSt) : (x.setStrm st q).rot = x.rot := rfl
@[simp] theorem Ctx.setStrm_pend (x : Ctx) (st : Stream) (q : StreamSt) : (x.setStrm st q).pend = x.pend := rfl
@[simp] theorem Ctx.setStrm_kmrg (x : Ctx) (st : Stream) (q : StreamSt) : (x.setStrm st q).kmrg = x.kmrg := rfl
@[simp] theorem Ctx.setStrm_drains (x : Ctx) (st : Stream) (q : StreamSt) : (x.setStrm st q).drains = x.drains := rfl
@[simp] theorem Ctx.setStrm_zorder (x : Ctx) (st : Stream) (q : StreamSt) : (x.setStrm st q).zorder = x.zorder := rfl
@[simp] theorem Ctx.setStrm_mathEnd (x : Ctx) (st : Stream) (q : StreamSt) : (x.setStrm st q).mathEnd = x.mathEnd := rfl
@[simp] theorem Ctx.setStrm_serial (x : Ctx) (st : Stream) (q : StreamSt) : (x.setStrm st q).serial = x.serial := rfl
@[simp] theorem Ctx.modTok_g (x : Ctx) (i : Fin 8) (f : TokQ → TokQ) : (x.modTok i f).g = x.g := rfl
@[simp] theorem Ctx.modTok_aL (x : Ctx) (i : Fin 8) (f : TokQ → TokQ) : (x.modTok i f).aL = x.aL := rfl
@[simp] theorem Ctx.modTok_aS (x : Ctx) (i : Fin 8) (f : TokQ → TokQ) : (x.modTok i f).aS = x.aS := rfl
@[simp] theorem Ctx.modTok_v (x : Ctx) (i : Fin 8) (f : TokQ → TokQ) : (x.modTok i f).v = x.v := rfl
@[simp] theorem Ctx.modTok_z (x : Ctx) (i : Fin 8) (f : TokQ → TokQ) : (x.modTok i f).z = x.z := rfl
@[simp] theorem Ctx.modTok_iq (x : Ctx) (i : Fin 8) (f : TokQ → TokQ) : (x.modTok i f).iq = x.iq := rfl
@[simp] theorem Ctx.modTok_oq (x : Ctx) (i : Fin 8) (f : TokQ → TokQ) : (x.modTok i f).oq = x.oq := rfl
@[simp] theorem Ctx.modTok_mq (x : Ctx) (i : Fin 8) (f : TokQ → TokQ) : (x.modTok i f).mq = x.mq := rfl
@[simp] theorem Ctx.modTok_gq (x : Ctx) (i : Fin 8) (f : TokQ → TokQ) : (x.modTok i f).gq = x.gq := rfl
@[simp] theorem Ctx.modTok_snaps (x : Ctx) (i : Fin 8) (f : TokQ → TokQ) : (x.modTok i f).snaps = x.snaps := rfl
@[simp] theorem Ctx.modTok_owed (x : Ctx) (i : Fin 8) (f : TokQ → TokQ) : (x.modTok i f).owed = x.owed := rfl
@[simp] theorem Ctx.modTok_lc (x : Ctx) (i : Fin 8) (f : TokQ → TokQ) : (x.modTok i f).lc = x.lc := rfl
@[simp] theorem Ctx.modTok_h (x : Ctx) (i : Fin 8) (f : TokQ → TokQ) : (x.modTok i f).h = x.h := rfl
@[simp] theorem Ctx.modTok_n (x : Ctx) (i : Fin 8) (f : TokQ → TokQ) : (x.modTok i f).n = x.n := rfl
@[simp] theorem Ctx.modTok_fmt (x : Ctx) (i : Fin 8) (f : TokQ → TokQ) : (x.modTok i f).fmt = x.fmt := rfl
@[simp] theorem Ctx.modTok_str (x : Ctx) (i : Fin 8) (f : TokQ → TokQ) : (x.modTok i f).str = x.str := rfl
@[simp] theorem Ctx.modTok_fctl (x : Ctx) (i : Fin 8) (f : TokQ → TokQ) : (x.modTok i f).fctl = x.fctl := rfl
@[simp] theorem Ctx.modTok_fstat (x : Ctx) (i : Fin 8) (f : TokQ → TokQ) : (x.modTok i f).fstat = x.fstat := rfl
@[simp] theorem Ctx.modTok_ftb (x : Ctx) (i : Fin 8) (f : TokQ → TokQ) : (x.modTok i f).ftb = x.ftb := rfl
@[simp] theorem Ctx.modTok_frmode (x : Ctx) (i : Fin 8) (f : TokQ → TokQ) : (x.modTok i f).frmode = x.frmode := rfl
@[simp] theorem Ctx.modTok_fwait (x : Ctx) (i : Fin 8) (f : TokQ → TokQ) : (x.modTok i f).fwait = x.fwait := rfl
@[simp] theorem Ctx.modTok_resumed (x : Ctx) (i : Fin 8) (f : TokQ → TokQ) : (x.modTok i f).resumed = x.resumed := rfl
@[simp] theorem Ctx.modTok_fcourse (x : Ctx) (i : Fin 8) (f : TokQ → TokQ) : (x.modTok i f).fcourse = x.fcourse := rfl
@[simp] theorem Ctx.modTok_fbegan (x : Ctx) (i : Fin 8) (f : TokQ → TokQ) : (x.modTok i f).fbegan = x.fbegan := rfl
@[simp] theorem Ctx.modTok_slack (x : Ctx) (i : Fin 8) (f : TokQ → TokQ) : (x.modTok i f).slack = x.slack := rfl
@[simp] theorem Ctx.modTok_smiss (x : Ctx) (i : Fin 8) (f : TokQ → TokQ) : (x.modTok i f).smiss = x.smiss := rfl
@[simp] theorem Ctx.modTok_nr (x : Ctx) (i : Fin 8) (f : TokQ → TokQ) : (x.modTok i f).nr = x.nr := rfl
@[simp] theorem Ctx.modTok_demote (x : Ctx) (i : Fin 8) (f : TokQ → TokQ) : (x.modTok i f).demote = x.demote := rfl
@[simp] theorem Ctx.modTok_tstat (x : Ctx) (i : Fin 8) (f : TokQ → TokQ) : (x.modTok i f).tstat = x.tstat := rfl
@[simp] theorem Ctx.modTok_task (x : Ctx) (i : Fin 8) (f : TokQ → TokQ) : (x.modTok i f).task = x.task := rfl
@[simp] theorem Ctx.modTok_graph (x : Ctx) (i : Fin 8) (f : TokQ → TokQ) : (x.modTok i f).graph = x.graph := rfl
@[simp] theorem Ctx.modTok_tseq (x : Ctx) (i : Fin 8) (f : TokQ → TokQ) : (x.modTok i f).tseq = x.tseq := rfl
@[simp] theorem Ctx.modTok_lcore (x : Ctx) (i : Fin 8) (f : TokQ → TokQ) : (x.modTok i f).lcore = x.lcore := rfl
@[simp] theorem Ctx.modTok_oseq (x : Ctx) (i : Fin 8) (f : TokQ → TokQ) : (x.modTok i f).oseq = x.oseq := rfl
@[simp] theorem Ctx.modTok_chuse (x : Ctx) (i : Fin 8) (f : TokQ → TokQ) : (x.modTok i f).chuse = x.chuse := rfl
@[simp] theorem Ctx.modTok_base (x : Ctx) (i : Fin 8) (f : TokQ → TokQ) : (x.modTok i f).base = x.base := rfl
@[simp] theorem Ctx.modTok_size (x : Ctx) (i : Fin 8) (f : TokQ → TokQ) : (x.modTok i f).size = x.size := rfl
@[simp] theorem Ctx.modTok_fab (x : Ctx) (i : Fin 8) (f : TokQ → TokQ) : (x.modTok i f).fab = x.fab := rfl
@[simp] theorem Ctx.modTok_priv (x : Ctx) (i : Fin 8) (f : TokQ → TokQ) : (x.modTok i f).priv = x.priv := rfl
@[simp] theorem Ctx.modTok_reloc (x : Ctx) (i : Fin 8) (f : TokQ → TokQ) : (x.modTok i f).reloc = x.reloc := rfl
@[simp] theorem Ctx.modTok_guards (x : Ctx) (i : Fin 8) (f : TokQ → TokQ) : (x.modTok i f).guards = x.guards := rfl
@[simp] theorem Ctx.modTok_tendAt (x : Ctx) (i : Fin 8) (f : TokQ → TokQ) : (x.modTok i f).tendAt = x.tendAt := rfl
@[simp] theorem Ctx.modTok_rot (x : Ctx) (i : Fin 8) (f : TokQ → TokQ) : (x.modTok i f).rot = x.rot := rfl
@[simp] theorem Ctx.modTok_pend (x : Ctx) (i : Fin 8) (f : TokQ → TokQ) : (x.modTok i f).pend = x.pend := rfl
@[simp] theorem Ctx.modTok_kmrg (x : Ctx) (i : Fin 8) (f : TokQ → TokQ) : (x.modTok i f).kmrg = x.kmrg := rfl
@[simp] theorem Ctx.modTok_drains (x : Ctx) (i : Fin 8) (f : TokQ → TokQ) : (x.modTok i f).drains = x.drains := rfl
@[simp] theorem Ctx.modTok_zorder (x : Ctx) (i : Fin 8) (f : TokQ → TokQ) : (x.modTok i f).zorder = x.zorder := rfl
@[simp] theorem Ctx.modTok_mathEnd (x : Ctx) (i : Fin 8) (f : TokQ → TokQ) : (x.modTok i f).mathEnd = x.mathEnd := rfl
@[simp] theorem Ctx.modTok_serial (x : Ctx) (i : Fin 8) (f : TokQ → TokQ) : (x.modTok i f).serial = x.serial := rfl
@[simp] theorem Ctx.flag_g (x : Ctx) (f : BitVec 6) : (x.flag f).g = x.g := rfl
@[simp] theorem Ctx.flag_aL (x : Ctx) (f : BitVec 6) : (x.flag f).aL = x.aL := rfl
@[simp] theorem Ctx.flag_aS (x : Ctx) (f : BitVec 6) : (x.flag f).aS = x.aS := rfl
@[simp] theorem Ctx.flag_v (x : Ctx) (f : BitVec 6) : (x.flag f).v = x.v := rfl
@[simp] theorem Ctx.flag_z (x : Ctx) (f : BitVec 6) : (x.flag f).z = x.z := rfl
@[simp] theorem Ctx.flag_iq (x : Ctx) (f : BitVec 6) : (x.flag f).iq = x.iq := rfl
@[simp] theorem Ctx.flag_oq (x : Ctx) (f : BitVec 6) : (x.flag f).oq = x.oq := rfl
@[simp] theorem Ctx.flag_mq (x : Ctx) (f : BitVec 6) : (x.flag f).mq = x.mq := rfl
@[simp] theorem Ctx.flag_gq (x : Ctx) (f : BitVec 6) : (x.flag f).gq = x.gq := rfl
@[simp] theorem Ctx.flag_tok (x : Ctx) (f : BitVec 6) : (x.flag f).tok = x.tok := rfl
@[simp] theorem Ctx.flag_snaps (x : Ctx) (f : BitVec 6) : (x.flag f).snaps = x.snaps := rfl
@[simp] theorem Ctx.flag_owed (x : Ctx) (f : BitVec 6) : (x.flag f).owed = x.owed := rfl
@[simp] theorem Ctx.flag_lc (x : Ctx) (f : BitVec 6) : (x.flag f).lc = x.lc := rfl
@[simp] theorem Ctx.flag_h (x : Ctx) (f : BitVec 6) : (x.flag f).h = x.h := rfl
@[simp] theorem Ctx.flag_n (x : Ctx) (f : BitVec 6) : (x.flag f).n = x.n := rfl
@[simp] theorem Ctx.flag_fmt (x : Ctx) (f : BitVec 6) : (x.flag f).fmt = x.fmt := rfl
@[simp] theorem Ctx.flag_str (x : Ctx) (f : BitVec 6) : (x.flag f).str = x.str := rfl
@[simp] theorem Ctx.flag_fctl (x : Ctx) (f : BitVec 6) : (x.flag f).fctl = x.fctl := rfl
@[simp] theorem Ctx.flag_ftb (x : Ctx) (f : BitVec 6) : (x.flag f).ftb = x.ftb := rfl
@[simp] theorem Ctx.flag_frmode (x : Ctx) (f : BitVec 6) : (x.flag f).frmode = x.frmode := rfl
@[simp] theorem Ctx.flag_fwait (x : Ctx) (f : BitVec 6) : (x.flag f).fwait = x.fwait := rfl
@[simp] theorem Ctx.flag_resumed (x : Ctx) (f : BitVec 6) : (x.flag f).resumed = x.resumed := rfl
@[simp] theorem Ctx.flag_fcourse (x : Ctx) (f : BitVec 6) : (x.flag f).fcourse = x.fcourse := rfl
@[simp] theorem Ctx.flag_fbegan (x : Ctx) (f : BitVec 6) : (x.flag f).fbegan = x.fbegan := rfl
@[simp] theorem Ctx.flag_slack (x : Ctx) (f : BitVec 6) : (x.flag f).slack = x.slack := rfl
@[simp] theorem Ctx.flag_smiss (x : Ctx) (f : BitVec 6) : (x.flag f).smiss = x.smiss := rfl
@[simp] theorem Ctx.flag_nr (x : Ctx) (f : BitVec 6) : (x.flag f).nr = x.nr := rfl
@[simp] theorem Ctx.flag_demote (x : Ctx) (f : BitVec 6) : (x.flag f).demote = x.demote := rfl
@[simp] theorem Ctx.flag_tstat (x : Ctx) (f : BitVec 6) : (x.flag f).tstat = x.tstat := rfl
@[simp] theorem Ctx.flag_task (x : Ctx) (f : BitVec 6) : (x.flag f).task = x.task := rfl
@[simp] theorem Ctx.flag_graph (x : Ctx) (f : BitVec 6) : (x.flag f).graph = x.graph := rfl
@[simp] theorem Ctx.flag_tseq (x : Ctx) (f : BitVec 6) : (x.flag f).tseq = x.tseq := rfl
@[simp] theorem Ctx.flag_lcore (x : Ctx) (f : BitVec 6) : (x.flag f).lcore = x.lcore := rfl
@[simp] theorem Ctx.flag_oseq (x : Ctx) (f : BitVec 6) : (x.flag f).oseq = x.oseq := rfl
@[simp] theorem Ctx.flag_chuse (x : Ctx) (f : BitVec 6) : (x.flag f).chuse = x.chuse := rfl
@[simp] theorem Ctx.flag_base (x : Ctx) (f : BitVec 6) : (x.flag f).base = x.base := rfl
@[simp] theorem Ctx.flag_size (x : Ctx) (f : BitVec 6) : (x.flag f).size = x.size := rfl
@[simp] theorem Ctx.flag_fab (x : Ctx) (f : BitVec 6) : (x.flag f).fab = x.fab := rfl
@[simp] theorem Ctx.flag_priv (x : Ctx) (f : BitVec 6) : (x.flag f).priv = x.priv := rfl
@[simp] theorem Ctx.flag_reloc (x : Ctx) (f : BitVec 6) : (x.flag f).reloc = x.reloc := rfl
@[simp] theorem Ctx.flag_guards (x : Ctx) (f : BitVec 6) : (x.flag f).guards = x.guards := rfl
@[simp] theorem Ctx.flag_tendAt (x : Ctx) (f : BitVec 6) : (x.flag f).tendAt = x.tendAt := rfl
@[simp] theorem Ctx.flag_rot (x : Ctx) (f : BitVec 6) : (x.flag f).rot = x.rot := rfl
@[simp] theorem Ctx.flag_pend (x : Ctx) (f : BitVec 6) : (x.flag f).pend = x.pend := rfl
@[simp] theorem Ctx.flag_kmrg (x : Ctx) (f : BitVec 6) : (x.flag f).kmrg = x.kmrg := rfl
@[simp] theorem Ctx.flag_drains (x : Ctx) (f : BitVec 6) : (x.flag f).drains = x.drains := rfl
@[simp] theorem Ctx.flag_zorder (x : Ctx) (f : BitVec 6) : (x.flag f).zorder = x.zorder := rfl
@[simp] theorem Ctx.flag_mathEnd (x : Ctx) (f : BitVec 6) : (x.flag f).mathEnd = x.mathEnd := rfl
@[simp] theorem Ctx.flag_serial (x : Ctx) (f : BitVec 6) : (x.flag f).serial = x.serial := rfl
@[simp] theorem Ctx.setG_aL (x : Ctx) (r : GReg) (v : W64) : (x.setG r v).aL = x.aL := by
  unfold Ctx.setG; split <;> rfl
@[simp] theorem Ctx.setG_aS (x : Ctx) (r : GReg) (v : W64) : (x.setG r v).aS = x.aS := by
  unfold Ctx.setG; split <;> rfl
@[simp] theorem Ctx.setG_v (x : Ctx) (r : GReg) (v : W64) : (x.setG r v).v = x.v := by
  unfold Ctx.setG; split <;> rfl
@[simp] theorem Ctx.setG_z (x : Ctx) (r : GReg) (v : W64) : (x.setG r v).z = x.z := by
  unfold Ctx.setG; split <;> rfl
@[simp] theorem Ctx.setG_iq (x : Ctx) (r : GReg) (v : W64) : (x.setG r v).iq = x.iq := by
  unfold Ctx.setG; split <;> rfl
@[simp] theorem Ctx.setG_oq (x : Ctx) (r : GReg) (v : W64) : (x.setG r v).oq = x.oq := by
  unfold Ctx.setG; split <;> rfl
@[simp] theorem Ctx.setG_mq (x : Ctx) (r : GReg) (v : W64) : (x.setG r v).mq = x.mq := by
  unfold Ctx.setG; split <;> rfl
@[simp] theorem Ctx.setG_gq (x : Ctx) (r : GReg) (v : W64) : (x.setG r v).gq = x.gq := by
  unfold Ctx.setG; split <;> rfl
@[simp] theorem Ctx.setG_tok (x : Ctx) (r : GReg) (v : W64) : (x.setG r v).tok = x.tok := by
  unfold Ctx.setG; split <;> rfl
@[simp] theorem Ctx.setG_snaps (x : Ctx) (r : GReg) (v : W64) : (x.setG r v).snaps = x.snaps := by
  unfold Ctx.setG; split <;> rfl
@[simp] theorem Ctx.setG_owed (x : Ctx) (r : GReg) (v : W64) : (x.setG r v).owed = x.owed := by
  unfold Ctx.setG; split <;> rfl
@[simp] theorem Ctx.setG_lc (x : Ctx) (r : GReg) (v : W64) : (x.setG r v).lc = x.lc := by
  unfold Ctx.setG; split <;> rfl
@[simp] theorem Ctx.setG_h (x : Ctx) (r : GReg) (v : W64) : (x.setG r v).h = x.h := by
  unfold Ctx.setG; split <;> rfl
@[simp] theorem Ctx.setG_n (x : Ctx) (r : GReg) (v : W64) : (x.setG r v).n = x.n := by
  unfold Ctx.setG; split <;> rfl
@[simp] theorem Ctx.setG_fmt (x : Ctx) (r : GReg) (v : W64) : (x.setG r v).fmt = x.fmt := by
  unfold Ctx.setG; split <;> rfl
@[simp] theorem Ctx.setG_str (x : Ctx) (r : GReg) (v : W64) : (x.setG r v).str = x.str := by
  unfold Ctx.setG; split <;> rfl
@[simp] theorem Ctx.setG_fctl (x : Ctx) (r : GReg) (v : W64) : (x.setG r v).fctl = x.fctl := by
  unfold Ctx.setG; split <;> rfl
@[simp] theorem Ctx.setG_fstat (x : Ctx) (r : GReg) (v : W64) : (x.setG r v).fstat = x.fstat := by
  unfold Ctx.setG; split <;> rfl
@[simp] theorem Ctx.setG_ftb (x : Ctx) (r : GReg) (v : W64) : (x.setG r v).ftb = x.ftb := by
  unfold Ctx.setG; split <;> rfl
@[simp] theorem Ctx.setG_frmode (x : Ctx) (r : GReg) (v : W64) : (x.setG r v).frmode = x.frmode := by
  unfold Ctx.setG; split <;> rfl
@[simp] theorem Ctx.setG_fwait (x : Ctx) (r : GReg) (v : W64) : (x.setG r v).fwait = x.fwait := by
  unfold Ctx.setG; split <;> rfl
@[simp] theorem Ctx.setG_resumed (x : Ctx) (r : GReg) (v : W64) : (x.setG r v).resumed = x.resumed := by
  unfold Ctx.setG; split <;> rfl
@[simp] theorem Ctx.setG_fcourse (x : Ctx) (r : GReg) (v : W64) : (x.setG r v).fcourse = x.fcourse := by
  unfold Ctx.setG; split <;> rfl
@[simp] theorem Ctx.setG_fbegan (x : Ctx) (r : GReg) (v : W64) : (x.setG r v).fbegan = x.fbegan := by
  unfold Ctx.setG; split <;> rfl
@[simp] theorem Ctx.setG_slack (x : Ctx) (r : GReg) (v : W64) : (x.setG r v).slack = x.slack := by
  unfold Ctx.setG; split <;> rfl
@[simp] theorem Ctx.setG_smiss (x : Ctx) (r : GReg) (v : W64) : (x.setG r v).smiss = x.smiss := by
  unfold Ctx.setG; split <;> rfl
@[simp] theorem Ctx.setG_nr (x : Ctx) (r : GReg) (v : W64) : (x.setG r v).nr = x.nr := by
  unfold Ctx.setG; split <;> rfl
@[simp] theorem Ctx.setG_demote (x : Ctx) (r : GReg) (v : W64) : (x.setG r v).demote = x.demote := by
  unfold Ctx.setG; split <;> rfl
@[simp] theorem Ctx.setG_tstat (x : Ctx) (r : GReg) (v : W64) : (x.setG r v).tstat = x.tstat := by
  unfold Ctx.setG; split <;> rfl
@[simp] theorem Ctx.setG_task (x : Ctx) (r : GReg) (v : W64) : (x.setG r v).task = x.task := by
  unfold Ctx.setG; split <;> rfl
@[simp] theorem Ctx.setG_graph (x : Ctx) (r : GReg) (v : W64) : (x.setG r v).graph = x.graph := by
  unfold Ctx.setG; split <;> rfl
@[simp] theorem Ctx.setG_tseq (x : Ctx) (r : GReg) (v : W64) : (x.setG r v).tseq = x.tseq := by
  unfold Ctx.setG; split <;> rfl
@[simp] theorem Ctx.setG_lcore (x : Ctx) (r : GReg) (v : W64) : (x.setG r v).lcore = x.lcore := by
  unfold Ctx.setG; split <;> rfl
@[simp] theorem Ctx.setG_oseq (x : Ctx) (r : GReg) (v : W64) : (x.setG r v).oseq = x.oseq := by
  unfold Ctx.setG; split <;> rfl
@[simp] theorem Ctx.setG_chuse (x : Ctx) (r : GReg) (v : W64) : (x.setG r v).chuse = x.chuse := by
  unfold Ctx.setG; split <;> rfl
@[simp] theorem Ctx.setG_base (x : Ctx) (r : GReg) (v : W64) : (x.setG r v).base = x.base := by
  unfold Ctx.setG; split <;> rfl
@[simp] theorem Ctx.setG_size (x : Ctx) (r : GReg) (v : W64) : (x.setG r v).size = x.size := by
  unfold Ctx.setG; split <;> rfl
@[simp] theorem Ctx.setG_fab (x : Ctx) (r : GReg) (v : W64) : (x.setG r v).fab = x.fab := by
  unfold Ctx.setG; split <;> rfl
@[simp] theorem Ctx.setG_priv (x : Ctx) (r : GReg) (v : W64) : (x.setG r v).priv = x.priv := by
  unfold Ctx.setG; split <;> rfl
@[simp] theorem Ctx.setG_reloc (x : Ctx) (r : GReg) (v : W64) : (x.setG r v).reloc = x.reloc := by
  unfold Ctx.setG; split <;> rfl
@[simp] theorem Ctx.setG_guards (x : Ctx) (r : GReg) (v : W64) : (x.setG r v).guards = x.guards := by
  unfold Ctx.setG; split <;> rfl
@[simp] theorem Ctx.setG_tendAt (x : Ctx) (r : GReg) (v : W64) : (x.setG r v).tendAt = x.tendAt := by
  unfold Ctx.setG; split <;> rfl
@[simp] theorem Ctx.setG_rot (x : Ctx) (r : GReg) (v : W64) : (x.setG r v).rot = x.rot := by
  unfold Ctx.setG; split <;> rfl
@[simp] theorem Ctx.setG_pend (x : Ctx) (r : GReg) (v : W64) : (x.setG r v).pend = x.pend := by
  unfold Ctx.setG; split <;> rfl
@[simp] theorem Ctx.setG_kmrg (x : Ctx) (r : GReg) (v : W64) : (x.setG r v).kmrg = x.kmrg := by
  unfold Ctx.setG; split <;> rfl
@[simp] theorem Ctx.setG_drains (x : Ctx) (r : GReg) (v : W64) : (x.setG r v).drains = x.drains := by
  unfold Ctx.setG; split <;> rfl
@[simp] theorem Ctx.setG_zorder (x : Ctx) (r : GReg) (v : W64) : (x.setG r v).zorder = x.zorder := by
  unfold Ctx.setG; split <;> rfl
@[simp] theorem Ctx.setG_mathEnd (x : Ctx) (r : GReg) (v : W64) : (x.setG r v).mathEnd = x.mathEnd := by
  unfold Ctx.setG; split <;> rfl
@[simp] theorem Ctx.setG_serial (x : Ctx) (r : GReg) (v : W64) : (x.setG r v).serial = x.serial := by
  unfold Ctx.setG; split <;> rfl
@[simp] theorem Ctx.setA_g (x : Ctx) (st : Stream) (r : AReg) (v : W64) : (x.setA st r v).g = x.g := by
  unfold Ctx.setA; split <;> rfl
@[simp] theorem Ctx.setA_v (x : Ctx) (st : Stream) (r : AReg) (v : W64) : (x.setA st r v).v = x.v := by
  unfold Ctx.setA; split <;> rfl
@[simp] theorem Ctx.setA_z (x : Ctx) (st : Stream) (r : AReg) (v : W64) : (x.setA st r v).z = x.z := by
  unfold Ctx.setA; split <;> rfl
@[simp] theorem Ctx.setA_iq (x : Ctx) (st : Stream) (r : AReg) (v : W64) : (x.setA st r v).iq = x.iq := by
  unfold Ctx.setA; split <;> rfl
@[simp] theorem Ctx.setA_oq (x : Ctx) (st : Stream) (r : AReg) (v : W64) : (x.setA st r v).oq = x.oq := by
  unfold Ctx.setA; split <;> rfl
@[simp] theorem Ctx.setA_mq (x : Ctx) (st : Stream) (r : AReg) (v : W64) : (x.setA st r v).mq = x.mq := by
  unfold Ctx.setA; split <;> rfl
@[simp] theorem Ctx.setA_gq (x : Ctx) (st : Stream) (r : AReg) (v : W64) : (x.setA st r v).gq = x.gq := by
  unfold Ctx.setA; split <;> rfl
@[simp] theorem Ctx.setA_tok (x : Ctx) (st : Stream) (r : AReg) (v : W64) : (x.setA st r v).tok = x.tok := by
  unfold Ctx.setA; split <;> rfl
@[simp] theorem Ctx.setA_snaps (x : Ctx) (st : Stream) (r : AReg) (v : W64) : (x.setA st r v).snaps = x.snaps := by
  unfold Ctx.setA; split <;> rfl
@[simp] theorem Ctx.setA_owed (x : Ctx) (st : Stream) (r : AReg) (v : W64) : (x.setA st r v).owed = x.owed := by
  unfold Ctx.setA; split <;> rfl
@[simp] theorem Ctx.setA_lc (x : Ctx) (st : Stream) (r : AReg) (v : W64) : (x.setA st r v).lc = x.lc := by
  unfold Ctx.setA; split <;> rfl
@[simp] theorem Ctx.setA_h (x : Ctx) (st : Stream) (r : AReg) (v : W64) : (x.setA st r v).h = x.h := by
  unfold Ctx.setA; split <;> rfl
@[simp] theorem Ctx.setA_n (x : Ctx) (st : Stream) (r : AReg) (v : W64) : (x.setA st r v).n = x.n := by
  unfold Ctx.setA; split <;> rfl
@[simp] theorem Ctx.setA_fmt (x : Ctx) (st : Stream) (r : AReg) (v : W64) : (x.setA st r v).fmt = x.fmt := by
  unfold Ctx.setA; split <;> rfl
@[simp] theorem Ctx.setA_str (x : Ctx) (st : Stream) (r : AReg) (v : W64) : (x.setA st r v).str = x.str := by
  unfold Ctx.setA; split <;> rfl
@[simp] theorem Ctx.setA_fctl (x : Ctx) (st : Stream) (r : AReg) (v : W64) : (x.setA st r v).fctl = x.fctl := by
  unfold Ctx.setA; split <;> rfl
@[simp] theorem Ctx.setA_fstat (x : Ctx) (st : Stream) (r : AReg) (v : W64) : (x.setA st r v).fstat = x.fstat := by
  unfold Ctx.setA; split <;> rfl
@[simp] theorem Ctx.setA_ftb (x : Ctx) (st : Stream) (r : AReg) (v : W64) : (x.setA st r v).ftb = x.ftb := by
  unfold Ctx.setA; split <;> rfl
@[simp] theorem Ctx.setA_frmode (x : Ctx) (st : Stream) (r : AReg) (v : W64) : (x.setA st r v).frmode = x.frmode := by
  unfold Ctx.setA; split <;> rfl
@[simp] theorem Ctx.setA_fwait (x : Ctx) (st : Stream) (r : AReg) (v : W64) : (x.setA st r v).fwait = x.fwait := by
  unfold Ctx.setA; split <;> rfl
@[simp] theorem Ctx.setA_resumed (x : Ctx) (st : Stream) (r : AReg) (v : W64) : (x.setA st r v).resumed = x.resumed := by
  unfold Ctx.setA; split <;> rfl
@[simp] theorem Ctx.setA_fcourse (x : Ctx) (st : Stream) (r : AReg) (v : W64) : (x.setA st r v).fcourse = x.fcourse := by
  unfold Ctx.setA; split <;> rfl
@[simp] theorem Ctx.setA_fbegan (x : Ctx) (st : Stream) (r : AReg) (v : W64) : (x.setA st r v).fbegan = x.fbegan := by
  unfold Ctx.setA; split <;> rfl
@[simp] theorem Ctx.setA_slack (x : Ctx) (st : Stream) (r : AReg) (v : W64) : (x.setA st r v).slack = x.slack := by
  unfold Ctx.setA; split <;> rfl
@[simp] theorem Ctx.setA_smiss (x : Ctx) (st : Stream) (r : AReg) (v : W64) : (x.setA st r v).smiss = x.smiss := by
  unfold Ctx.setA; split <;> rfl
@[simp] theorem Ctx.setA_nr (x : Ctx) (st : Stream) (r : AReg) (v : W64) : (x.setA st r v).nr = x.nr := by
  unfold Ctx.setA; split <;> rfl
@[simp] theorem Ctx.setA_demote (x : Ctx) (st : Stream) (r : AReg) (v : W64) : (x.setA st r v).demote = x.demote := by
  unfold Ctx.setA; split <;> rfl
@[simp] theorem Ctx.setA_tstat (x : Ctx) (st : Stream) (r : AReg) (v : W64) : (x.setA st r v).tstat = x.tstat := by
  unfold Ctx.setA; split <;> rfl
@[simp] theorem Ctx.setA_task (x : Ctx) (st : Stream) (r : AReg) (v : W64) : (x.setA st r v).task = x.task := by
  unfold Ctx.setA; split <;> rfl
@[simp] theorem Ctx.setA_graph (x : Ctx) (st : Stream) (r : AReg) (v : W64) : (x.setA st r v).graph = x.graph := by
  unfold Ctx.setA; split <;> rfl
@[simp] theorem Ctx.setA_tseq (x : Ctx) (st : Stream) (r : AReg) (v : W64) : (x.setA st r v).tseq = x.tseq := by
  unfold Ctx.setA; split <;> rfl
@[simp] theorem Ctx.setA_lcore (x : Ctx) (st : Stream) (r : AReg) (v : W64) : (x.setA st r v).lcore = x.lcore := by
  unfold Ctx.setA; split <;> rfl
@[simp] theorem Ctx.setA_oseq (x : Ctx) (st : Stream) (r : AReg) (v : W64) : (x.setA st r v).oseq = x.oseq := by
  unfold Ctx.setA; split <;> rfl
@[simp] theorem Ctx.setA_chuse (x : Ctx) (st : Stream) (r : AReg) (v : W64) : (x.setA st r v).chuse = x.chuse := by
  unfold Ctx.setA; split <;> rfl
@[simp] theorem Ctx.setA_base (x : Ctx) (st : Stream) (r : AReg) (v : W64) : (x.setA st r v).base = x.base := by
  unfold Ctx.setA; split <;> rfl
@[simp] theorem Ctx.setA_size (x : Ctx) (st : Stream) (r : AReg) (v : W64) : (x.setA st r v).size = x.size := by
  unfold Ctx.setA; split <;> rfl
@[simp] theorem Ctx.setA_fab (x : Ctx) (st : Stream) (r : AReg) (v : W64) : (x.setA st r v).fab = x.fab := by
  unfold Ctx.setA; split <;> rfl
@[simp] theorem Ctx.setA_priv (x : Ctx) (st : Stream) (r : AReg) (v : W64) : (x.setA st r v).priv = x.priv := by
  unfold Ctx.setA; split <;> rfl
@[simp] theorem Ctx.setA_reloc (x : Ctx) (st : Stream) (r : AReg) (v : W64) : (x.setA st r v).reloc = x.reloc := by
  unfold Ctx.setA; split <;> rfl
@[simp] theorem Ctx.setA_guards (x : Ctx) (st : Stream) (r : AReg) (v : W64) : (x.setA st r v).guards = x.guards := by
  unfold Ctx.setA; split <;> rfl
@[simp] theorem Ctx.setA_tendAt (x : Ctx) (st : Stream) (r : AReg) (v : W64) : (x.setA st r v).tendAt = x.tendAt := by
  unfold Ctx.setA; split <;> rfl
@[simp] theorem Ctx.setA_rot (x : Ctx) (st : Stream) (r : AReg) (v : W64) : (x.setA st r v).rot = x.rot := by
  unfold Ctx.setA; split <;> rfl
@[simp] theorem Ctx.setA_pend (x : Ctx) (st : Stream) (r : AReg) (v : W64) : (x.setA st r v).pend = x.pend := by
  unfold Ctx.setA; split <;> rfl
@[simp] theorem Ctx.setA_kmrg (x : Ctx) (st : Stream) (r : AReg) (v : W64) : (x.setA st r v).kmrg = x.kmrg := by
  unfold Ctx.setA; split <;> rfl
@[simp] theorem Ctx.setA_drains (x : Ctx) (st : Stream) (r : AReg) (v : W64) : (x.setA st r v).drains = x.drains := by
  unfold Ctx.setA; split <;> rfl
@[simp] theorem Ctx.setA_zorder (x : Ctx) (st : Stream) (r : AReg) (v : W64) : (x.setA st r v).zorder = x.zorder := by
  unfold Ctx.setA; split <;> rfl
@[simp] theorem Ctx.setA_mathEnd (x : Ctx) (st : Stream) (r : AReg) (v : W64) : (x.setA st r v).mathEnd = x.mathEnd := by
  unfold Ctx.setA; split <;> rfl
@[simp] theorem Ctx.setA_serial (x : Ctx) (st : Stream) (r : AReg) (v : W64) : (x.setA st r v).serial = x.serial := by
  unfold Ctx.setA; split <;> rfl

@[simp] theorem Ctx.strm_setStrm (x : Ctx) (st : Stream) (q : StreamSt) : (x.setStrm st q).strm st = q := by
  simp [Ctx.strm, Ctx.setStrm]
@[simp] theorem Ctx.strm_setStrm_ne (x : Ctx) (st su : Stream) (q : StreamSt) (h : st ≠ su) :
    (x.setStrm st q).strm su = x.strm su := by
  have h' : st.idx ≠ su.idx := by revert h; cases st <;> cases su <;> decide
  have h'' : st.idx.val ≠ su.idx.val := fun e => h' (Fin.ext e)
  simp [Ctx.strm, Ctx.setStrm, h'']
@[simp] theorem Ctx.setStrm_setStrm (x : Ctx) (st : Stream) (p q : StreamSt) :
    (x.setStrm st p).setStrm st q = x.setStrm st q := by simp [Ctx.setStrm]
@[simp] theorem Ctx.setStrm_same (x : Ctx) (st : Stream) : x.setStrm st (x.strm st) = x := by
  simp [Ctx.setStrm, Ctx.strm]
@[simp] theorem Ctx.strm_modTok (x : Ctx) (i : Fin 8) (f : TokQ → TokQ) (st : Stream) :
    (x.modTok i f).strm st = x.strm st := rfl
@[simp] theorem Ctx.strm_setG (x : Ctx) (r : GReg) (v : W64) (st : Stream) : (x.setG r v).strm st = x.strm st := by
  simp [Ctx.strm]
@[simp] theorem Ctx.strm_setA (x : Ctx) (sa : Stream) (r : AReg) (v : W64) (st : Stream) :
    (x.setA sa r v).strm st = x.strm st := by simp [Ctx.strm]
@[simp] theorem Ctx.strm_flag (x : Ctx) (f : BitVec 6) (st : Stream) : (x.flag f).strm st = x.strm st := rfl
@[simp] theorem Ctx.gr_setStrm (x : Ctx) (st : Stream) (q : StreamSt) (r : GReg) : (x.setStrm st q).gr r = x.gr r := rfl
@[simp] theorem Ctx.gr_modTok (x : Ctx) (i : Fin 8) (f : TokQ → TokQ) (r : GReg) : (x.modTok i f).gr r = x.gr r := rfl
@[simp] theorem Ctx.ar_setStrm (x : Ctx) (st sa : Stream) (q : StreamSt) (r : AReg) :
    (x.setStrm st q).ar sa r = x.ar sa r := rfl
@[simp] theorem Ctx.ar_modTok (x : Ctx) (i : Fin 8) (f : TokQ → TokQ) (sa : Stream) (r : AReg) :
    (x.modTok i f).ar sa r = x.ar sa r := rfl
/-- g0 reads as 0 whatever is written to it (R132). -/
@[simp] theorem Ctx.gr_zero (x : Ctx) : x.gr 0 = 0 := by simp [Ctx.gr]
@[simp] theorem Ctx.gr_setG (x : Ctx) (r : GReg) (v : W64) (h : r ≠ 0) : (x.setG r v).gr r = v := by
  simp [Ctx.gr, Ctx.setG, h]
@[simp] theorem Ctx.gr_setG_ne (x : Ctx) (r q : GReg) (v : W64) (h : r ≠ q) : (x.setG r v).gr q = x.gr q := by
  have h' : r.val ≠ q.val := fun e => h (Fin.ext e)
  unfold Ctx.gr Ctx.setG
  by_cases hr : r = 0
  · simp [hr]
  · simp [hr, h']

end Sys2Proof.Machine
end

