-- ==== Sys2Proof/Laws/Issue.lean ====
section
/-! SUPPORT. The issue of an instruction: what it does when the instruction may issue, and its frame. -/

namespace Sys2Proof.Machine

open Sys2Proof

theorem State.fctx_eq (s : State) : s.ctx s.fcore = s.fctx := rfl
theorem State.fstrm_eq (s : State) : s.fctx.strm s.fstr = s.fstrm := rfl

@[simp] theorem State.counted_fcore (s : State) : s.counted.fcore = s.fcore := by
  unfold State.counted; split <;> rfl
@[simp] theorem State.counted_fstr (s : State) : s.counted.fstr = s.fstr := by
  unfold State.counted; split <;> rfl
@[simp] theorem State.counted_cycle (s : State) : s.counted.cycle = s.cycle := by
  unfold State.counted; split <;> rfl
@[simp] theorem State.counted_focus (s : State) : s.counted.focus = s.focus := by
  unfold State.counted; split <;> rfl
@[simp] theorem State.counted_words (s : State) : s.counted.words = s.words := by
  simp [State.words]

@[simp] theorem Ctx.rest_modTok (x : Ctx) (i : Fin 8) (f : TokQ → TokQ) : (x.modTok i f).rest = x.rest := rfl
@[simp] theorem Ctx.rest_setStrm (x : Ctx) (st : Stream) (q : StreamSt) : (x.setStrm st q).rest = x.rest := rfl

theorem strm_congr {x y : Ctx} (h : x.str = y.str) (st : Stream) : x.strm st = y.strm st := by
  unfold Ctx.strm; rw [h]

/-- The schedule misses and the mark of a miss are all that counting a miss changes. -/
theorem countMiss_frame (x : Ctx) (st : Stream) :
    (countMiss x st).rest = x.rest ∧ (countMiss x st).tok = x.tok ∧ (countMiss x st).lc = x.lc ∧
    (countMiss x st).serial = x.serial ∧ (∀ su, su ≠ st → (countMiss x st).strm su = x.strm su) ∧
    (countMiss x st).strm st = { x.strm st with missed := true } :=
  ⟨rfl, rfl, rfl, rfl, fun su h => (Ctx.strm_setStrm_ne _ _ _ _ (Ne.symm h)).trans (strm_congr rfl su),
    Ctx.strm_setStrm _ _ _⟩

/-- A state that has counted its miss differs from the one before in the task's registers only. -/
theorem State.counted_eq (s : State) : ∃ x, s.counted = s.setCtx s.fcore x ∧ x.rest = s.fctx.rest ∧
    x.tok = s.fctx.tok ∧ x.lc = s.fctx.lc ∧ x.serial = s.fctx.serial ∧
    (∀ st, st ≠ s.fstr → x.strm st = s.fctx.strm st) ∧
    x.strm s.fstr = { s.fstrm with missed := (x.strm s.fstr).missed } := by
  unfold State.counted
  split
  · obtain ⟨h1, h2, h3, h4, h5, h6⟩ := countMiss_frame s.fctx s.fstr
    exact ⟨_, rfl, h1, h2, h3, h4, h5, by rw [h6]; rfl⟩
  · exact ⟨s.fctx, (State.setCtx_same s s.fcore).symm, rfl, rfl, rfl, rfl, fun _ _ => rfl, rfl⟩

/-! ## Tokens -/

/-- Taking tokens of one queue changes the token queues, and what the stream has acquired. -/
theorem takeFrom_frame (x : Ctx) (st : Stream) (q : Fin 8) (n : Nat) :
    (takeFrom x st q n).rest = x.rest ∧ (takeFrom x st q n).lc = x.lc ∧
    (takeFrom x st q n).serial = x.serial ∧ (takeFrom x st q n).smiss = x.smiss ∧
    (∀ su, su ≠ st → (takeFrom x st q n).strm su = x.strm su) ∧
    (takeFrom x st q n).strm st = { x.strm st with acq := ((takeFrom x st q n).strm st).acq } := by
  refine ⟨rfl, rfl, rfl, rfl, fun su h => ?_, ?_⟩
  · exact (Ctx.strm_setStrm_ne _ _ _ _ (Ne.symm h)).trans (strm_congr rfl su)
  · have h : (takeFrom x st q n).strm st = { x.strm st with acq := joinAcq (x.strm st).acq (x.snaps[q].take n) } :=
      Ctx.strm_setStrm _ _ _
    rw [h]

/-- So does taking the tokens of both neighbours. -/
theorem takeTokens_frame (x : Ctx) (st : Stream) (p n : Nat) :
    (takeTokens x st p n).rest = x.rest ∧ (takeTokens x st p n).lc = x.lc ∧
    (takeTokens x st p n).serial = x.serial ∧ (takeTokens x st p n).smiss = x.smiss ∧
    (∀ su, su ≠ st → (takeTokens x st p n).strm su = x.strm su) ∧
    (takeTokens x st p n).strm st = { x.strm st with acq := ((takeTokens x st p n).strm st).acq } := by
  unfold takeTokens
  dsimp only
  generalize hy : (if p = 0 then x else takeFrom x st (waitQ st false) p) = y
  have h : y.rest = x.rest ∧ y.lc = x.lc ∧ y.serial = x.serial ∧ y.smiss = x.smiss ∧
      (∀ su, su ≠ st → y.strm su = x.strm su) ∧ y.strm st = { x.strm st with acq := (y.strm st).acq } := by
    subst hy
    split
    · exact ⟨rfl, rfl, rfl, rfl, fun _ _ => rfl, rfl⟩
    · exact takeFrom_frame _ _ _ _
  obtain ⟨h1, h2, h3, h4, h5, h6⟩ := h
  split
  · exact ⟨h1, h2, h3, h4, h5, h6⟩
  · obtain ⟨g1, g2, g3, g4, g5, g6⟩ := takeFrom_frame y st (waitQ st true) n
    refine ⟨g1.trans h1, g2.trans h2, g3.trans h3, g4.trans h4, fun su hs => (g5 su hs).trans (h5 su hs), ?_⟩
    rw [g6, h6]

/-- The token queues after taking depend on the queues before only. -/
theorem takeTokens_tok {x y : Ctx} (h : x.tok = y.tok) (st : Stream) (p n : Nat) :
    (takeTokens x st p n).tok = (takeTokens y st p n).tok := by
  unfold takeTokens takeFrom
  split <;> split <;> simp [Ctx.modTok, Ctx.setStrm, h]

/-- So do the queues after reserving and after posting. -/
theorem reservePosts_tok {x y : Ctx} (h : x.tok = y.tok) (st : Stream) (id p n : Nat) :
    (reservePosts x st id p n).tok = (reservePosts y st id p n).tok := by
  simp [reservePosts, Ctx.modTok, h]

theorem makePosts_tok {x y : Ctx} (h : x.tok = y.tok) (cy : Nat) (st : Stream) (id : Nat) :
    (makePosts x cy st id).tok = (makePosts y cy st id).tok := by
  simp [makePosts, postOn, Ctx.modTok, h]

/-! ## The pc and the loops -/

theorem loopEnd_frame (n : Nat) (x : Ctx) (st : Stream) (e : W64) :
    (loopEnd n x st e).1 = { x with lc := (loopEnd n x st e).1.lc } := by
  induction n generalizing x with
  | zero => rfl
  | succ n ih =>
    unfold loopEnd
    split
    · rfl
    · dsimp only
      split
      · rfl
      · rw [ih]

/-- A loop-end test, and then a pc: nothing but the loop counters and the stream's own pc. -/
theorem loopEnd_goes (x : Ctx) (st : Stream) (e n : W64) (y : Ctx)
    (hy : y = (loopEnd 4 x st e).1.setStrm st { (loopEnd 4 x st e).1.strm st with pc := (loopEnd 4 x st e).2.getD n }) :
    y.rest = x.rest ∧ y.tok = x.tok ∧ y.smiss = x.smiss ∧ (∀ su, su ≠ st → y.strm su = x.strm su) ∧
    y.strm st = { x.strm st with pc := (y.strm st).pc } := by
  have h := loopEnd_frame 4 x st e
  generalize loopEnd 4 x st e = r at h hy
  rw [hy, h]
  refine ⟨rfl, rfl, rfl, fun su hu => ?_, ?_⟩
  · exact (Ctx.strm_setStrm_ne _ _ _ _ (Ne.symm hu)).trans (strm_congr rfl su)
  · rw [Ctx.strm_setStrm]; rfl

/-- The pc and the loops: nothing but the loop counters and the stream's own pc. -/
theorem advance_frame (x : Ctx) (st : Stream) (w : Nat) (p : PcUpd) :
    (advance x st w p).rest = x.rest ∧ (advance x st w p).tok = x.tok ∧ (advance x st w p).smiss = x.smiss ∧
    (∀ su, su ≠ st → (advance x st w p).strm su = x.strm su) ∧
    (advance x st w p).strm st = { x.strm st with pc := ((advance x st w p).strm st).pc } := by
  cases p with
  | stay => exact ⟨rfl, rfl, rfl, fun _ _ => rfl, rfl⟩
  | jump t =>
    refine ⟨rfl, rfl, rfl, fun su h => ?_, ?_⟩
    · exact (Ctx.strm_setStrm_ne _ _ _ _ (Ne.symm h)).trans (strm_congr rfl su)
    · simp only [advance, Ctx.strm_setStrm]
  | past n => exact loopEnd_goes x st _ n _ rfl
  | seq => exact loopEnd_goes x st _ ((x.strm st).pc + BitVec.ofNat 64 (4 * w)) _ rfl

theorem leastBy_eq_none {α : Type} (key : α → Nat) (l : List α) : leastBy key l = none ↔ l = [] := by
  cases l with
  | nil => simp [leastBy]
  | cons a l =>
    simp only [leastBy]
    split
    · simp
    · split <;> simp

/-- Whether a loop ends at an address depends on the loop counters only. -/
theorem loopAt_congr {x y : Ctx} (h : x.lc = y.lc) (st : Stream) (e : W64) :
    loopAt x st e = none ↔ loopAt y st e = none := by
  simp only [loopAt, leastBy_eq_none, h]

/-- No loop ends at the instruction: the next one in memory follows. -/
theorem advance_seq (x : Ctx) (st : Stream) (w : Nat)
    (h : loopAt x st ((x.strm st).pc + BitVec.ofNat 64 (4 * w) - 4) = none) :
    (advance x st w .seq).lc = x.lc ∧ ((advance x st w .seq).strm st).pc = (x.strm st).pc + BitVec.ofNat 64 (4 * w) := by
  simp only [advance]
  have he : loopEnd 4 x st ((x.strm st).pc + BitVec.ofNat 64 (4 * w) - 4) = (x, none) := by
    unfold loopEnd; rw [h]
  rw [he]
  exact ⟨rfl, by simp only [Ctx.strm_setStrm, Option.getD_none]⟩

/-- A taken branch: the pc is its target, and the loops it leaves are inactive. -/
theorem advance_jump (x : Ctx) (st : Stream) (w : Nat) (t : W64) :
    (advance x st w (.jump t)).lc = (leaveLoops x st t).lc ∧ ((advance x st w (.jump t)).strm st).pc = t :=
  ⟨rfl, by simp only [advance, Ctx.strm_setStrm]⟩

/-! ## The issue -/

/-- The state an instruction reads its operands in differs from the one before in the task's registers only: the tokens
taken, the number of its effect, the counted miss, and its stream's stamp and what it has acquired. -/
theorem enter_frame (t : Tok) (p : Plan) (s : State) : ∃ e, enter t p s.counted = s.setCtx s.fcore e ∧
    e.rest = s.fctx.rest ∧ e.lc = s.fctx.lc ∧ e.serial = s.fctx.serial + 1 ∧ e.smiss = s.counted.fctx.smiss ∧
    e.tok = (takeTokens s.fctx s.fstr (t.wp.toNat + p.takeP) (t.wn.toNat + p.takeN)).tok ∧
    (∀ st, st ≠ s.fstr → e.strm st = s.fctx.strm st) ∧
    e.strm s.fstr = { s.fstrm with
      acq := (e.strm s.fstr).acq
      stamp := none
      missed := false
      stalled := none
      issuedAt := some s.cycle } := by
  obtain ⟨x, hx, hr, ht, hl, hn, ho, hs⟩ := s.counted_eq
  have hf : s.counted.ctx s.fcore = x := by rw [hx]; exact State.ctx_setCtx _ _ _
  have hsm : s.counted.fctx.smiss = x.smiss := by
    show (s.counted.ctx s.counted.fcore).smiss = _
    rw [State.counted_fcore, hf]
  obtain ⟨f1, f2, f3, f4, f5, f6⟩ := takeTokens_frame { x with serial := x.serial + 1 } s.fstr
    (t.wp.toNat + p.takeP) (t.wn.toNat + p.takeN)
  have he : enter t p s.counted = s.setCtx s.fcore
      ((takeTokens { x with serial := x.serial + 1 } s.fstr (t.wp.toNat + p.takeP) (t.wn.toNat + p.takeN)).setStrm
        s.fstr { (takeTokens { x with serial := x.serial + 1 } s.fstr (t.wp.toNat + p.takeP)
          (t.wn.toNat + p.takeN)).strm s.fstr with
            stamp := none
            missed := false
            stalled := none
            issuedAt := some s.cycle }) := by
    simp only [enter, State.counted_fcore, State.counted_fstr, State.counted_cycle, hf]
    rw [hx, State.setCtx_setCtx]
  refine ⟨_, he, ?_, ?_, ?_, ?_, ?_, ?_, ?_⟩
  · exact f1.trans hr
  · exact f2.trans hl
  · exact f3.trans (by rw [hn])
  · exact f4.trans hsm.symm
  · exact takeTokens_tok (by exact ht) _ _ _
  · intro su h
    rw [Ctx.strm_setStrm_ne _ _ _ _ (Ne.symm h), f5 su h]
    exact ho su h
  · rw [Ctx.strm_setStrm, f6]
    show _ = _
    have : ({ x with serial := x.serial + 1 } : Ctx).strm s.fstr = x.strm s.fstr := rfl
    rw [this, hs]

/-- Whether the tokens are there and fit does not depend on the counted miss. -/
theorem canIssue_counted {t : Tok} {p : Plan} {s : State}
    (h : ReadyWith t p.regs p.takeP p.takeN p.postP p.postN s) : canIssue t p s.counted = true := by
  obtain ⟨x, hx, hr, ht, hl, hn, ho, hs⟩ := s.counted_eq
  have hf : s.counted.ctx s.fcore = x := by rw [hx]; exact State.ctx_setCtx _ _ _
  have hb : (x.strm s.fstr).busy = s.fstrm.busy := by rw [hs]
  simp only [canIssue, State.counted_fcore, State.counted_fstr, State.counted_cycle, hf, Bool.and_eq_true,
    Bool.not_eq_true', List.any_eq_false, hb]
  refine ⟨fun r hr => ?_, ?_⟩
  · have := h.clear r hr
    simpa using this
  · have := h.tokens
    simpa only [tokensThere, ht] using this

theorem postsOver_counted {t : Tok} {p : Plan} {s : State}
    (h : ReadyWith t p.regs p.takeP p.takeN p.postP p.postN s) : postsOver t p s.counted = false := by
  obtain ⟨x, hx, hr, ht, hl, hn, ho, hs⟩ := s.counted_eq
  have hf : s.counted.ctx s.fcore = x := by rw [hx]; exact State.ctx_setCtx _ _ _
  simp only [postsOver, State.counted_fcore, State.counted_fstr, hf]
  have := h.room
  simpa only [tokensOver, ht] using this

theorem ixOf_counted (s : State) : ixOf s.counted = ixOf s := by
  obtain ⟨x, hx, hr, ht, hl, hn, ho, hs⟩ := s.counted_eq
  have hf : s.counted.ctx s.fcore = x := by rw [hx]; exact State.ctx_setCtx _ _ _
  have h1 : x.rest.frmode = s.fctx.rest.frmode := congrArg Ctx.frmode hr
  have h1 : x.frmode = s.fctx.frmode := h1
  have h2 : (x.strm s.fstr).stamp = s.fstrm.stamp := by rw [hs]
  simp only [ixOf, State.counted_fcore, State.counted_fstr, hf, hn, h1, h2]
  rfl

/-- An instruction that may issue issues: what its body says at its turn decides. -/
theorem issue_ready {t : Tok} {p : Plan} {s : State} (hp : p.pre = none)
    (h : ReadyWith t p.regs p.takeP p.takeN p.postP p.postN s) :
    issue t p s = issuePassed t p s.counted := by
  have h1 := h.free
  have h2 := h.whole
  simp only [issue, State.fctx_eq, h1, h2, hp, Bool.false_eq_true, if_false, State.fstrm_eq]
  rcases h.onTime with h3 | h3
  · simp [h3, State.counted]
  · simp [h3, State.counted]

/-- An instruction that may issue and whose body goes on commits. -/
theorem issue_go {t : Tok} {p : Plan} {s s' : State} {late : Bool} {pc : PcUpd} (hp : p.pre = none)
    (h : ReadyWith t p.regs p.takeP p.takeN p.postP p.postN s)
    (hb : p.body (ixOf s) (enter t p s.counted) = .go s' late pc) :
    issue t p s = commitIssue t p s s' late pc := by
  rw [issue_ready hp h]
  simp only [issuePassed, canIssue_counted h, if_true, ixOf_counted, hb, postsOver_counted h, Bool.false_eq_true,
    if_false, commitIssue, State.counted_fcore, State.counted_fstr, State.counted_words]

/-- An instruction whose body faults takes its fault, and nothing else changes but a counted miss. -/
theorem issue_fault {t : Tok} {p : Plan} {s : State} {f : Flt} (hp : p.pre = none)
    (h : ReadyWith t p.regs p.takeP p.takeN p.postP p.postN s)
    (hb : p.body (ixOf s) (enter t p s.counted) = .fault f) :
    issue t p s = takeFault s.counted f := by
  rw [issue_ready hp h]
  simp only [issuePassed, canIssue_counted h, if_true, ixOf_counted, hb]

theorem tokensAfter_eq {t : Tok} {p : Plan} {s : State} {x : Ctx} (late : Bool)
    (hx : x.tok = (takeTokens s.fctx s.fstr (t.wp.toNat + p.takeP) (t.wn.toNat + p.takeN)).tok) :
    (if late then reservePosts x s.fstr (ixOf s).id (t.pp.toNat + p.postP) (t.pn.toNat + p.postN) else
      makePosts (reservePosts x s.fstr (ixOf s).id (t.pp.toNat + p.postP) (t.pn.toNat + p.postN)) s.cycle s.fstr
        (ixOf s).id).tok = tokensAfter t p.takeP p.takeN p.postP p.postN late s := by
  have h := reservePosts_tok hx s.fstr (ixOf s).id (t.pp.toNat + p.postP) (t.pn.toNat + p.postN)
  cases late
  · exact makePosts_tok h _ _ _
  · exact h

/-- The posts on one queue change the token queues only. -/
theorem postOn_frame (x : Ctx) (cy : Nat) (st : Stream) (id : Nat) (b : Bool) :
    (postOn x cy st id b).rest = x.rest ∧ (postOn x cy st id b).lc = x.lc ∧ (postOn x cy st id b).smiss = x.smiss ∧
    (postOn x cy st id b).str = x.str := by
  simp only [postOn]
  exact ⟨rfl, rfl, rfl, rfl⟩

/-- The posts of an instruction change the token queues only. -/
theorem posts_frame (x : Ctx) (st : Stream) (late : Bool) (id p n cy : Nat) (r : Ctx)
    (hr : r = if late then reservePosts x st id p n else makePosts (reservePosts x st id p n) cy st id) :
    r.rest = x.rest ∧ r.lc = x.lc ∧ r.smiss = x.smiss ∧ r.str = x.str := by
  subst hr
  cases late
  · simp only [makePosts, Bool.false_eq_true, if_false]
    obtain ⟨a1, a2, a3, a4⟩ := postOn_frame (reservePosts x st id p n) cy st id false
    obtain ⟨b1, b2, b3, b4⟩ := postOn_frame (postOn (reservePosts x st id p n) cy st id false) cy st id true
    exact ⟨b1.trans a1, b2.trans a2, b3.trans a3, b4.trans a4⟩
  · exact ⟨rfl, rfl, rfl, rfl⟩

/-- What an issue leaves as it was: s1 is the state after the instruction's own effect on the state it entered. -/
theorem commitIssue_keeps {t : Tok} {p : Plan} {s s1 : State} {late : Bool} {pc : PcUpd} (hc : s1.cycle = s.cycle)
    (ht : (s1.ctx s.fcore).tok = (takeTokens s.fctx s.fstr (t.wp.toNat + p.takeP) (t.wn.toNat + p.takeN)).tok)
    (hu : ((s1.ctx s.fcore).strm s.fstr).missed = false ∧ ((s1.ctx s.fcore).strm s.fstr).stalled = none ∧
      ((s1.ctx s.fcore).strm s.fstr).issuedAt = some s.cycle) :
    ∃ y, commitIssue t p s s1 late pc = s1.setCtx s.fcore y ∧
      KeepsWith t p.takeP p.takeN p.postP p.postN late s (s1.ctx s.fcore) y ∧
      (y.strm s.fstr).stamp = ((s1.ctx s.fcore).strm s.fstr).stamp ∧
      ∃ z : Ctx, z.lc = (s1.ctx s.fcore).lc ∧ z.str = (s1.ctx s.fcore).str ∧ y = advance z s.fstr s.words pc := by
  have hk := tokensAfter_eq (t := t) (p := p) (s := s) late ht
  unfold commitIssue
  dsimp only
  rw [hc]
  generalize hr : (if late = true then
      reservePosts (s1.ctx s.fcore) s.fstr (ixOf s).id (t.pp.toNat + p.postP) (t.pn.toNat + p.postN) else
      makePosts (reservePosts (s1.ctx s.fcore) s.fstr (ixOf s).id (t.pp.toNat + p.postP) (t.pn.toNat + p.postN))
        s.cycle s.fstr (ixOf s).id) = r at hk ⊢
  obtain ⟨p1, p2, p3, p4⟩ := posts_frame _ _ _ _ _ _ _ r hr.symm
  obtain ⟨a1, a2, a3, a4, a5⟩ := advance_frame r s.fstr s.words pc
  have ho := strm_congr p4 s.fstr
  refine ⟨_, rfl, ⟨a1.trans p1, fun su h => (a4 su h).trans (strm_congr p4 su), ?_, ?_, a2.trans hk,
    a3.trans p3⟩, ?_, r, p2, p4, rfl⟩
  · rw [a5, ho]; rfl
  · rw [a5, ho]; exact hu
  · rw [a5, ho]

/-! ## Whole issues -/

/-- The registers after counting a miss, against those before. -/
theorem State.counted_fctx (s : State) : s.counted.fctx.rest = s.fctx.rest ∧ s.counted.fctx.tok = s.fctx.tok ∧
    s.counted.fctx.lc = s.fctx.lc ∧ s.counted.fctx.serial = s.fctx.serial ∧
    (∀ st, st ≠ s.fstr → s.counted.fctx.strm st = s.fctx.strm st) ∧
    s.counted.fctx.strm s.fstr = { s.fstrm with missed := (s.counted.fctx.strm s.fstr).missed } := by
  obtain ⟨x, hx, hr, ht, hl, hn, ho, hs⟩ := s.counted_eq
  have hf : s.counted.fctx = x := by
    show s.counted.ctx s.counted.fcore = x
    rw [State.counted_fcore, hx]; exact State.ctx_setCtx _ _ _
  rw [hf]
  exact ⟨hr, ht, hl, hn, ho, hs⟩

/-- What the entered registers are, against those at the turn. -/
structure Entered (t : Tok) (p : Plan) (s : State) (e : Ctx) : Prop where
  eq     : enter t p s.counted = s.setCtx s.fcore e
  rest   : e.rest = s.counted.fctx.rest
  lc     : e.lc = s.fctx.lc
  serial : e.serial = s.fctx.serial + 1
  smiss  : e.smiss = s.counted.fctx.smiss
  tok    : e.tok = (takeTokens s.fctx s.fstr (t.wp.toNat + p.takeP) (t.wn.toNat + p.takeN)).tok
  others : ∀ st, st ≠ s.fstr → e.strm st = s.counted.fctx.strm st
  own    : (e.strm s.fstr).rest = (s.counted.fctx.strm s.fstr).rest
  pc     : (e.strm s.fstr).pc = s.fstrm.pc
  stamp  : (e.strm s.fstr).stamp = none
  used   : (e.strm s.fstr).missed = false ∧ (e.strm s.fstr).stalled = none ∧
    (e.strm s.fstr).issuedAt = some s.cycle

theorem entered_of (t : Tok) (p : Plan) (s : State) : ∃ e, Entered t p s e := by
  obtain ⟨e, h1, h2, h3, h4, h5, h6, h7, h8⟩ := enter_frame t p s
  obtain ⟨c1, c2, c3, c4, c5, c6⟩ := s.counted_fctx
  refine ⟨e, ⟨h1, h2.trans c1.symm, h3, h4, h5, h6, fun st h => (h7 st h).trans (c5 st h).symm, ?_, ?_, ?_, ?_⟩⟩
  · rw [h8, c6]; rfl
  · rw [h8]
  · rw [h8]
  · rw [h8]; exact ⟨rfl, rfl, rfl⟩

/-- An instruction whose body leaves the machine m and the registers x1 with the frame of its turn executes with that
effect, its pc going on, or to a target, or staying. -/
theorem issue_commits {t : Tok} {p : Plan} {s s1 m : State} {late : Bool} {pc : PcUpd} {x : Ctx} (hp : p.pre = none)
    (hr : ReadyWith t p.regs p.takeP p.takeN p.postP p.postN s)
    (hb : p.body (ixOf s) (enter t p s.counted) = .go s1 late pc)
    (hm : ∀ y, s1.setCtx s.fcore y = m.setCtx s.fcore y) (hc : s1.cycle = s.cycle)
    (h1 : (s1.ctx s.fcore).rest = x.rest) (h3 : (s1.ctx s.fcore).smiss = x.smiss)
    (h4 : (s1.ctx s.fcore).tok = (takeTokens s.fctx s.fstr (t.wp.toNat + p.takeP) (t.wn.toNat + p.takeN)).tok)
    (h5 : ∀ st, st ≠ s.fstr → (s1.ctx s.fcore).strm st = x.strm st)
    (h6 : ((s1.ctx s.fcore).strm s.fstr).rest = (x.strm s.fstr).rest)
    (h7 : ((s1.ctx s.fcore).strm s.fstr).missed = false ∧ ((s1.ctx s.fcore).strm s.fstr).stalled = none ∧
      ((s1.ctx s.fcore).strm s.fstr).issuedAt = some s.cycle) :
    ∃ y, issue t p s = m.setCtx s.fcore y ∧ KeepsWith t p.takeP p.takeN p.postP p.postN late s x y ∧
      (y.strm s.fstr).stamp = ((s1.ctx s.fcore).strm s.fstr).stamp ∧
      ∃ z : Ctx, z.lc = (s1.ctx s.fcore).lc ∧ z.str = (s1.ctx s.fcore).str ∧ y = advance z s.fstr s.words pc := by
  rw [issue_go hp hr hb]
  obtain ⟨y, hy, hk, hs, z, hz⟩ := commitIssue_keeps (t := t) (p := p) (late := late) (pc := pc) hc h4 h7
  exact ⟨y, hy.trans (hm y), ⟨hk.rest.trans h1, fun st h => (hk.others st h).trans (h5 st h), hk.own.trans h6, hk.used,
    hk.tok, hk.smiss.trans h3⟩, hs, z, hz⟩

/-- The same for an instruction that goes on. -/
theorem issue_does {t : Tok} {p : Plan} {s s1 m : State} {late : Bool} {x : Ctx} (hp : p.pre = none)
    (hr : ReadyWith t p.regs p.takeP p.takeN p.postP p.postN s)
    (hb : p.body (ixOf s) (enter t p s.counted) = .go s1 late .seq)
    (hm : ∀ y, s1.setCtx s.fcore y = m.setCtx s.fcore y) (hc : s1.cycle = s.cycle)
    (h1 : (s1.ctx s.fcore).rest = x.rest) (h2 : (s1.ctx s.fcore).lc = x.lc)
    (h3 : (s1.ctx s.fcore).smiss = x.smiss)
    (h4 : (s1.ctx s.fcore).tok = (takeTokens s.fctx s.fstr (t.wp.toNat + p.takeP) (t.wn.toNat + p.takeN)).tok)
    (h5 : ∀ st, st ≠ s.fstr → (s1.ctx s.fcore).strm st = x.strm st)
    (h6 : ((s1.ctx s.fcore).strm s.fstr).rest = (x.strm s.fstr).rest)
    (h7 : ((s1.ctx s.fcore).strm s.fstr).missed = false ∧ ((s1.ctx s.fcore).strm s.fstr).stalled = none ∧
      ((s1.ctx s.fcore).strm s.fstr).issuedAt = some s.cycle)
    (h8 : ((s1.ctx s.fcore).strm s.fstr).stamp = none) (h9 : ((s1.ctx s.fcore).strm s.fstr).pc = s.fstrm.pc)
    (h10 : loopAt s.fctx s.fstr s.lastWord = none → loopAt (s1.ctx s.fcore) s.fstr s.lastWord = none) :
    DoesWith (.next (issue t p s)) t p.takeP p.takeN p.postP p.postN late s m x := by
  obtain ⟨y, hy, hk, hs, z, z1, z2, rfl⟩ := issue_commits hp hr hb hm hc h1 h3 h4 h5 h6 h7
  refine ⟨_, by rw [hy], hk, hs.trans h8, fun hl => ?_⟩
  have hz : (z.strm s.fstr).pc = s.fstrm.pc := by rw [strm_congr z2]; exact h9
  have := advance_seq z s.fstr s.words (by
    rw [hz]; exact (loopAt_congr z1 _ _).mpr (h10 hl))
  exact ⟨this.1.trans (z1.trans h2), by rw [this.2, hz]⟩

/-- An instruction whose effect is a change g of the task's registers that any issue frames. -/
theorem issue_onCtx {t : Tok} {p : Plan} {s : State} {late : Bool} {g : Ctx → Ctx} {x : Ctx} (hp : p.pre = none)
    (hr : ReadyWith t p.regs p.takeP p.takeN p.postP p.postN s)
    (hb : ∀ e, Entered t p s e → p.body (ixOf s) (enter t p s.counted) = .go (s.setCtx s.fcore (g e)) late .seq)
    (hg : ∀ e, Entered t p s e → (g e).rest = x.rest ∧ (g e).tok = e.tok ∧ (g e).str = e.str ∧ (g e).lc = x.lc ∧
      (g e).smiss = x.smiss)
    (hx : x.str = s.counted.fctx.str)
    (hl : loopAt s.fctx s.fstr s.lastWord = none → loopAt x s.fstr s.lastWord = none) :
    DoesWith (.next (issue t p s)) t p.takeP p.takeN p.postP p.postN late s s x := by
  obtain ⟨e, he⟩ := entered_of t p s
  obtain ⟨g1, g2, g3, g4, g5⟩ := hg e he
  have hst : ∀ st, (g e).strm st = e.strm st := strm_congr g3
  have hxs : ∀ st, x.strm st = s.counted.fctx.strm st := strm_congr hx
  refine issue_does hp hr (hb e he) (fun y => by simp) rfl ?_ ?_ ?_ ?_ ?_ ?_ ?_ ?_ ?_ ?_
  · simpa using g1
  · simpa using g4
  · simpa using g5
  · simpa [g2] using he.tok
  · intro st h; simp only [State.ctx_setCtx, hst, hxs]; exact he.others st h
  · simp only [State.ctx_setCtx, hst, hxs]; exact he.own
  · simp only [State.ctx_setCtx, hst]; exact he.used
  · simp only [State.ctx_setCtx, hst]; exact he.stamp
  · simp only [State.ctx_setCtx, hst]; exact he.pc
  · intro h; simp only [State.ctx_setCtx]; exact (loopAt_congr g4 _ _).mpr (hl h)

end Sys2Proof.Machine
end

