-- ==== Sys2Proof/Laws/Memory.lean ====
section
/-! SUPPORT. Memory: what a read gives after a write, and that every operation keeps the canonical form. -/

namespace Sys2Proof.Machine

open Sys2Proof

/-- A byte below everything listed reads as 0. -/
theorem Memory.read_below {m : Memory} {lo k : Nat} (h : m.wfFrom lo = true) (hk : k < lo) : m.read k = 0 := by
  cases m with
  | nil => rfl
  | cons e m =>
    obtain ⟨a, x⟩ := e
    simp only [Memory.wfFrom, Bool.and_eq_true, decide_eq_true_eq] at h
    have h1 : k ≠ a := by omega
    have h2 : k < a := by omega
    simp [Memory.read, h1, h2]

/-- The canonical form above a bound holds above every lower one. -/
theorem Memory.wfFrom_mono {m : Memory} {lo lo' : Nat} (h : m.wfFrom lo = true) (hl : lo' ≤ lo) :
    m.wfFrom lo' = true := by
  cases m with
  | nil => rfl
  | cons e m =>
    obtain ⟨a, x⟩ := e
    simp only [Memory.wfFrom, Bool.and_eq_true, decide_eq_true_eq] at h ⊢
    exact ⟨⟨by omega, h.1.2⟩, h.2⟩

/-- A write keeps the canonical form above a bound that its key is not below. -/
theorem Memory.write_wfFrom {m : Memory} {lo k : Nat} (b : Byte) (h : m.wfFrom lo = true) (hk : lo ≤ k) :
    (m.write k b).wfFrom lo = true := by
  induction m generalizing lo with
  | nil =>
    unfold Memory.write
    split
    · rfl
    · simp_all [Memory.wfFrom]
  | cons e m ih =>
    obtain ⟨a, x⟩ := e
    simp only [Memory.wfFrom, Bool.and_eq_true, decide_eq_true_eq] at h
    unfold Memory.write
    split
    · split
      · simp only [Memory.wfFrom, Bool.and_eq_true, decide_eq_true_eq]; exact h
      · simp only [Memory.wfFrom, Bool.and_eq_true, decide_eq_true_eq]
        exact ⟨⟨hk, by simp_all⟩, ⟨by omega, h.1.2⟩, h.2⟩
    · split
      · split
        · exact Memory.wfFrom_mono h.2 (by omega)
        · simp only [Memory.wfFrom, Bool.and_eq_true, decide_eq_true_eq]
          exact ⟨⟨h.1.1, by simp_all⟩, h.2⟩
      · simp only [Memory.wfFrom, Bool.and_eq_true, decide_eq_true_eq]
        exact ⟨⟨h.1.1, h.1.2⟩, ih h.2 (by omega)⟩

/-- A write keeps the canonical form. -/
theorem Memory.write_wf {m : Memory} (k : Nat) (b : Byte) (h : m.wf = true) : (m.write k b).wf = true :=
  Memory.write_wfFrom b h (Nat.zero_le k)

/-- Writing bytes keeps the canonical form. -/
theorem Memory.writeL_wf {m : Memory} (k : Nat) (bs : List Byte) (h : m.wf = true) : (m.writeL k bs).wf = true := by
  induction bs generalizing m k with
  | nil => exact h
  | cons b bs ih => exact ih (k + 1) (Memory.write_wf k b h)

/-- Unlisting bytes keeps the canonical form above a bound. -/
theorem Memory.filter_wfFrom {m : Memory} {lo : Nat} (p : Host.Cell → Bool) (h : m.wfFrom lo = true) :
    Memory.wfFrom (m.filter p) lo = true := by
  induction m generalizing lo with
  | nil => rfl
  | cons e m ih =>
    obtain ⟨a, x⟩ := e
    simp only [Memory.wfFrom, Bool.and_eq_true, decide_eq_true_eq] at h
    rw [List.filter_cons]
    split
    · simp only [Memory.wfFrom, Bool.and_eq_true, decide_eq_true_eq]
      exact ⟨h.1, ih h.2⟩
    · exact ih (Memory.wfFrom_mono h.2 (by omega))

/-- Unlisting bytes keeps the canonical form. -/
theorem Memory.filter_wf {m : Memory} (p : Host.Cell → Bool) (h : m.wf = true) :
    Memory.wf (m.filter p) = true := Memory.filter_wfFrom p h

/-- Clearing bytes keeps the canonical form. -/
theorem Memory.clear_wf {m : Memory} (lo n : Nat) (h : m.wf = true) : (m.clear lo n).wf = true :=
  Memory.filter_wf _ h

/-- Pasting bytes keeps the canonical form. -/
theorem Memory.paste_wf {m : Memory} (lo : Nat) (l : List Host.Cell) (h : m.wf = true) : (m.paste lo l).wf = true := by
  unfold Memory.paste
  induction l generalizing m with
  | nil => exact h
  | cons e l ih => exact ih (Memory.write_wf _ _ h)

/-- A read after a write to the same key gives the byte written. -/
theorem Memory.read_write_same {m : Memory} {lo : Nat} (k : Nat) (b : Byte) (h : m.wfFrom lo = true) :
    (m.write k b).read k = b := by
  induction m generalizing lo with
  | nil =>
    unfold Memory.write
    split
    · simp_all [Memory.read]
    · simp [Memory.read]
  | cons e m ih =>
    obtain ⟨a, x⟩ := e
    simp only [Memory.wfFrom, Bool.and_eq_true, decide_eq_true_eq] at h
    unfold Memory.write
    split
    · next hk =>
      split
      · have h1 : k ≠ a := by omega
        simp_all [Memory.read]
      · simp [Memory.read]
    · split
      · next hk =>
        split
        · next hb => rw [Memory.read_below h.2 (by omega), hb]
        · simp [Memory.read, hk]
      · next h1 h2 => simp [Memory.read, h1, h2, ih h.2]

/-- A write leaves every other byte as it was. -/
theorem Memory.read_write_other {m : Memory} {lo : Nat} {k j : Nat} (b : Byte) (h : m.wfFrom lo = true) (hj : j ≠ k) :
    (m.write k b).read j = m.read j := by
  induction m generalizing lo with
  | nil =>
    unfold Memory.write
    split
    · rfl
    · simp [Memory.read, hj]
  | cons e m ih =>
    obtain ⟨a, x⟩ := e
    simp only [Memory.wfFrom, Bool.and_eq_true, decide_eq_true_eq] at h
    unfold Memory.write
    split
    · next hk =>
      split
      · rfl
      · by_cases h1 : j = a
        · have : ¬ j < k := by omega
          simp [Memory.read, hj, this]
        · by_cases h2 : j < k
          · have : j < a := by omega
            simp [Memory.read, hj, h1, h2, this]
          · simp [Memory.read, hj, h2]
    · split
      · next hk =>
        subst hk
        split
        · by_cases h2 : j < k
          · rw [Memory.read_below h.2 (by omega)]; simp [Memory.read, hj, h2]
          · simp [Memory.read, hj, h2]
        · simp [Memory.read, hj]
      · by_cases h1 : j = a
        · simp [Memory.read, h1]
        · by_cases h2 : j < a
          · simp [Memory.read, h1, h2]
          · simp [Memory.read, h1, h2, ih h.2]

/-- Bytes outside those written read as before. -/
theorem Memory.read_writeL_other {m : Memory} {k j : Nat} (bs : List Byte) (h : m.wf = true)
    (hj : j < k ∨ k + bs.length ≤ j) : (m.writeL k bs).read j = m.read j := by
  induction bs generalizing m k with
  | nil => rfl
  | cons b bs ih =>
    simp only [List.length_cons] at hj
    rw [Memory.writeL, ih (Memory.write_wf k b h) (by omega), Memory.read_write_other b h (by omega)]

/-- The bytes written read back. -/
theorem Memory.readN_writeL {m : Memory} (k : Nat) (bs : List Byte) (h : m.wf = true) :
    (m.writeL k bs).readN k bs.length = bs := by
  induction bs generalizing m k with
  | nil => rfl
  | cons b bs ih =>
    rw [Memory.writeL, List.length_cons, Memory.readN,
      Memory.read_writeL_other bs (Memory.write_wf k b h) (.inl (by omega)), Memory.read_write_same k b h,
      ih (k + 1) (Memory.write_wf k b h)]

/-- The memory after reset is in its canonical form. -/
theorem State.reset_mem_wf : State.reset.mem.wf = true := rfl

/-- A store keeps the canonical form. -/
theorem State.store_wf {s : State} (k : Nat) (bs : List Byte) (h : s.mem.wf = true) : (s.store k bs).mem.wf = true :=
  Memory.writeL_wf k bs h

/-- W has a bank for each of the usable Loft banks (R15). -/
theorem physicalBanks_length (s : State) (part : Fin 4) : (physicalBanks s part).length = usableBanks s part := by
  have h (l : List Nat) : (l.flatMap fun d => (List.range 128).map (128 * d + ·)).length = 128 * l.length := by
    induction l with
    | nil => rfl
    | cons d l ih => rw [List.flatMap_cons, List.length_append, ih, List.length_map, List.length_range, List.length_cons]; omega
  rw [physicalBanks, usableBanks, h, List.countP_eq_length_filter]

end Sys2Proof.Machine
end

