-- ==== Sys2Proof/Tests/Slice0.lean ====
section
/-! SUPPORT. Tests: words of the spec's encodings decoded, ill-formed terms refused, single steps, and for every statement
with hypotheses a state and operands that meet them. -/

namespace Sys2Proof.Tests

set_option Elab.async false

open Sys2Proof Sys2Proof.Machine

/-! ## Small states -/

/-- An address of the task's own scratchpad. -/
def sp (n : Nat) : W64 := BitVec.ofNat 64 (2 ^ 56 + n)

/-- A stream that runs in an image of one line at address 0x1000. -/
def strm0 : StreamSt := { StreamSt.reset with ended := false, lines := 1, pc := 0x1000, image := 0x1000 }

/-- The registers of a task of graph 0 with a range of 64 KiB and every channel named, and g1 to g4, a1 to a4 set. -/
def regs : Ctx :=
  { Ctx.reset with
    size := 65536
    chuse := 0xFF
    fab := true
    str := Vector.replicate 4 strm0
    g := (((Ctx.reset.g.set 1 (sp 64)).set 2 (sp 4096)).set 3 256).set 4 5
    aL := (((Ctx.reset.aL.set 1 (sp 64)).set 2 (sp 4096)).set 3 256).set 4 5
    aS := (((Ctx.reset.aS.set 1 (sp 64)).set 2 (sp 4096)).set 3 256).set 4 5 }

/-- The task in slot 0, which core 0 runs. -/
def job : Task := { (default : Task) with st := .running, tsize := 1, size := 65536, chuse := 0xFF }

/-- Its graph, of handle 0. -/
def net : Graph := default

/-- Core 0 runs the task, and a stream of it executes. -/
def world (st : Stream) (x : Ctx) : State :=
  { State.reset with
    cycle := 100
    focus := ⟨0, st, 0, 0⟩
    cores := State.reset.cores.set 0 { Core.reset with ctx := x, run := .running 0 }
    tasks := [job]
    graphs := [net]
    mgmt := { Mgmt.reset with phase := 5, ready := true } }

/-- The control stream executes. -/
def base : State := world .ctl regs

/-- The conditions of ReadyWith, computed. -/
def readyB (t : Tok) (r : List Nat) (tp tn pp pn : Nat) (s : State) : Bool :=
  !blocked s.fctx s.fstr && !loopSplits s &&
  (gate s.cycle s.fctx s.fstrm == .pass || gate s.cycle s.fctx s.fstrm == .missed) &&
  r.all (fun k => !s.fstrm.busy.contains k) &&
  tokensThere s.fctx s.cycle s.fstr (t.wp.toNat + tp) (t.wn.toNat + tn) &&
  !tokensOver s.fctx s.fstr (t.pp.toNat + pp) (t.pn.toNat + pn)

theorem ready_of {t : Tok} {r : List Nat} {tp tn pp pn : Nat} {s : State} (h : readyB t r tp tn pp pn s = true) :
    ReadyWith t r tp tn pp pn s := by
  simp only [readyB, Bool.and_eq_true, Bool.not_eq_true', Bool.or_eq_true, beq_iff_eq, List.all_eq_true] at h
  obtain ⟨⟨⟨⟨⟨h1, h2⟩, h3⟩, h4⟩, h5⟩, h6⟩ := h
  exact ⟨h1, h2, h3, fun k hk hb => by simpa [hb] using h4 k hk, h5, h6⟩

/-- No token bit. -/
def o : Tok := ⟨false, false, false, false⟩

/-- Token bits. -/
def tk (wp wn pp pn : Bool) : Tok := ⟨wp, wn, pp, pn⟩

/-! ## Words written out from the encodings -/

theorem test_decode_every_stream :
    (decode .store 0x03000000 0x0).toOption = some (.nop (tk true true false false)) ∧
    (decode .math 0xEC0004B0 0x0).toOption = some (.stamp o 1200) ∧
    (decode .load 0xFE80004D 0x0).toOption = some (.udf (tk true false true false) 77) := by decide +kernel

theorem test_decode_control_integers :
    (decode .ctl 0x040E7400 0x0).toOption = some (.alu o .add 7 7 8) ∧
    (decode .ctl 0x04022F91 0x0).toOption = some (.alu o .mulh 1 2 31) ∧
    (decode .ctl 0x047C2019 0x0).toOption = some (.alu (tk false false false true) .popc 30 2 0) ∧
    (decode .ctl 0x080A0064 0x0).toOption = some (.addi o 5 0 100) ∧
    (decode .ctl 0x0C0A6FFF 0x0).toOption = some (.andi o 5 6 4095) ∧
    (decode .ctl 0x100A6009 0x0).toOption = some (.ori o 5 6 9) ∧
    (decode .ctl 0x140A6009 0x0).toOption = some (.xori o 5 6 9) ∧
    (decode .ctl 0x18064408 0x0).toOption = some (.shi o .shr 3 4 8) ∧
    (decode .ctl 0x1C0A6009 0x0).toOption = some (.slti o 5 6 9) ∧
    (decode .ctl 0x200A6009 0x0).toOption = some (.sltiu o 5 6 9) ∧
    (decode .ctl 0x240C1000 0x20000100).toOption = some (.setw o .zero 6 0x20000100) := by decide +kernel

theorem test_decode_control_memory :
    (decode .ctl 0x28121882 0x0).toOption = some (.ld o .b4 9 1 2 2) ∧
    (decode .ctl 0x2C149800 0x0).toOption = some (.ldu o .b4 10 9 0 0) ∧
    (decode .ctl 0x30029883 0x0).toOption = some (.st o .b4 1 9 2 3) ∧
    (decode .ctl 0x34082289 0x330706).toOption = some (.amo o .cas 4 2 5 6 .b8 1 .device .ar) ∧
    (decode .ctl 0x340E5000 0x130600).toOption = some (.amo o .add 7 5 0 0 .b4 1 .device .acq) ∧
    (decode .ctl 0x38030004 0x0).toOption = some (.fenceControl o .full .device 4) := by decide +kernel

theorem test_decode_control_flow :
    (decode .ctl 0x40120003 0x0).toOption = some (.beq o 9 0 3) ∧
    (decode .ctl 0x440A0FFD 0x0).toOption = some (.bne o 5 0 4093) ∧
    (decode .ctl 0x48064005 0x0).toOption = some (.blt o 3 4 5) ∧
    (decode .ctl 0x4C064005 0x0).toOption = some (.bge o 3 4 5) ∧
    (decode .ctl 0x50064005 0x0).toOption = some (.bltu o 3 4 5) ∧
    (decode .ctl 0x54107FFE 0x0).toOption = some (.bgeu o 8 7 4094) ∧
    (decode .ctl 0x583E0010 0x0).toOption = some (.jal o 31 16) ∧
    (decode .ctl 0x5C022003 0x0).toOption = some (.jalr o 1 2 3) ∧
    (decode .ctl 0x60047009 0x0).toOption = some (.loopControl o 2 7 9) ∧
    (decode .ctl 0x64102803 0x0).toOption = some (.loopiControl o 1 10 3) := by decide +kernel

theorem test_decode_control_system :
    (decode .ctl 0x68120028 0x0).toOption = some (.sysr o 9 (.owm 0)) ∧
    (decode .ctl 0x6C005010 0x0).toOption = some (.sysw o 5 .fctl) ∧
    (decode .ctl 0x70000063 0x0).toOption = some (.trap o 99) ∧
    (decode .ctl 0xE8045010 0x0).toOption = some (.frame o .strict 5 16) ∧
    (decode .ctl 0xF0000085 0x0).toOption = some (.tokwControl o true 5) ∧
    (decode .ctl 0xF400003F 0x0).toOption = some (.tokpControl o false 63) := by decide +kernel

theorem test_decode_control_tasks :
    (decode .ctl 0x80022180 0x0).toOption = some (.tnew o 1 2 3) ∧
    (decode .ctl 0x8400A000 0x0).toOption = some (.tsig o 10) ∧
    (decode .ctl 0x88022004 0x0).toOption = some (.tctr o 1 2 4) ∧
    (decode .ctl 0x8C400000 0x0).toOption = some (.tyld (tk false false false true)) ∧
    (decode .ctl 0x90000001 0x0).toOption = some (.tend false false true) ∧
    (decode .ctl 0x90000000 0x0).toOption = some (.tend false false false) ∧
    (decode .ctl 0x94007000 0x0).toOption = some (.guard o 7) ∧
    (decode .ctl 0x98007021 0x0).toOption = some (.hnote o 7 33) ∧
    (decode .ctl 0x9C007000 0x0).toOption = some (.tresResume o 7) ∧
    (decode .ctl 0x9C007001 0x0).toOption = some (.tresRetry o 7) ∧
    (decode .ctl 0xA0007000 0x0).toOption = some (.tkill o 7) := by decide +kernel

theorem test_decode_control_ops :
    (decode .ctl 0xA4568000 0x0).toOption = some (.owait (tk false false false true) 11 8) ∧
    (decode .ctl 0xA8022000 0x0).toOption = some (.otest o 1 2) ∧
    (decode .ctl 0xAC022000 0x0).toOption = some (.ocancel o 1 2) ∧
    (decode .ctl 0xB0022000 0x0).toOption = some (.odetach o 1 2) ∧
    (decode .ctl 0xB4022000 0x0).toOption = some (.oadopt o 1 2) ∧
    (decode .ctl 0xB8022003 0x0).toOption = some (.oprio o 1 2 3) ∧
    (decode .ctl 0xBC02218F 0x0).toOption = some (.orec o 1 2 3 15) := by decide +kernel

theorem test_decode_control_records :
    (decode .ctl 0xC0022180 0x0).toOption = some (.bmake o 1 2 3) ∧
    (decode .ctl 0xC4002180 0x0).toOption = some (.bgive o 2 3) ∧
    (decode .ctl 0xC8022000 0x0).toOption = some (.btake o 1 2) ∧
    (decode .ctl 0xCC002000 0x0).toOption = some (.bdrop o 2) ∧
    (decode .ctl 0xD0022007 0x0).toOption = some (.rot o true 2 7) ∧
    (decode .ctl 0xD4122000 0x0).toOption = some (.shape o 9 2) ∧
    (decode .ctl 0xD80A2000 0x0).toOption = some (.nest o 5 2) ∧
    (decode .ctl 0xDC3C2002 0x0).toOption = some (.fmt o 30 2 2) ∧
    (decode .ctl 0xE0022FFF 0x0).toOption = some (.lexpControl o 1 2 4095) ∧
    (decode .ctl 0xE4022003 0x0).toOption = some (.lwaitControl o 1 2 3) := by decide +kernel

theorem test_decode_data_integers :
    (decode .load 0x04063206 0x0).toOption = some (.aalu o .shl 3 3 4) ∧
    (decode .store 0x08064FFF 0x0).toOption = some (.aaddi o 3 4 4095) ∧
    (decode .load 0x0C0A2000 0xDEADBEEF).toOption = some (.aset o .high 5 0xDEADBEEF) ∧
    (decode .store 0x10047009 0x0).toOption = some (.loopLoadStore o 2 7 9) ∧
    (decode .load 0x143FA006 0x0).toOption = some (.loopiLoadStore o 3 1000 6) ∧
    (decode .load 0x1801FFFB 0x0).toOption = some (.jmpLoadStore o 0x1FFFB) ∧
    (decode .store 0x1C000000 0x0).toOption = some (.endLoadStore o) ∧
    (decode .load 0x60022003 0x0).toOption = some (.lexpLoadStore o 1 2 3) ∧
    (decode .store 0x64022003 0x0).toOption = some (.lwaitLoadStore o 1 2 3) ∧
    (decode .store 0x68118001 0x0).toOption = some (.fenceLoadStore o .rel .cluster 0x8001) ∧
    (decode .load 0x6C000005 0x0).toOption = some (.tokwLoadStore o false 5) ∧
    (decode .store 0x70000085 0x0).toOption = some (.tokpLoadStore o true 5) ∧
    (decode .load 0x74000000 0x0).toOption = some (.tinv o) ∧
    (decode .load 0x7804FC01 0x0).toOption = some (.ald o .b8 2 15 0 1) := by decide +kernel

theorem test_decode_data_moves :
    (decode .load 0x2070F000 0x0).toOption = some (.rdq (tk false false false true) 0 15 0 0) ∧
    (decode .load 0x21703000 0x0).toOption = some (.rdq (tk false true false true) 0 3 0 0) ∧
    (decode .store 0x2A30F001 0x0).toOption = some (.wrq (tk true false false false) 0 15 0 1) ∧
    (decode .load 0x24322195 0x0).toOption = some (.rdqs o 1 2 3 2 5) ∧
    (decode .store 0x2C3E21F8 0x0).toOption = some (.wrqs o 7 2 3 15 0) ∧
    (decode .load 0x30085300 0x1100010).toOption = some (.cpy o 4 5 1 2 ⟨0, 1, 1, false, false⟩ true) ∧
    (decode .store 0x34085300 0xA400013).toOption = some (.cpyc o 4 5 1 2 ⟨3, 1, 0, true, false⟩ false 5) ∧
    (decode .load 0x38000010 0x10).toOption = some (.gath o ⟨0, 0, 0, 1, false, false⟩ ⟨0, 1, 0, false, false⟩) ∧
    (decode .store 0x3C040210 0x10).toOption = some (.scat o ⟨2, 0, 2, 1, false, false⟩ ⟨0, 1, 0, false, false⟩) ∧
    (decode .load 0x42000010 0x10).toOption = some (.gred (tk true false false false) ⟨0, 0, 0, 1, false, false⟩ ⟨0, 1, 0, false, false⟩) ∧
    (decode .load 0x44022180 0x5).toOption = some (.loftAcc o 1 2 3 5) ∧
    (decode .load 0x44022181 0x5).toOption = some (.loftAccb o 1 2 3 5) ∧
    (decode .load 0x44022182 0x5).toOption = some (.loftMax o 1 2 3 5) ∧
    (decode .load 0x44022183 0x5).toOption = some (.loftMin o 1 2 3 5) ∧
    (decode .store 0x46001184 0x0).toOption = some (.loftScale (tk true false false false) 0 1 3 0) ∧
    (decode .store 0x44020185 0x5).toOption = some (.loftZero o 1 3 5) := by decide +kernel

theorem test_decode_data_fabric :
    (decode .load 0x48344000 0x0).toOption = some (.rld o 2 4 0) ∧
    (decode .store 0x4C344009 0x0).toOption = some (.rst o 2 4 9) ∧
    (decode .store 0x500221CE 0x0).toOption = some (.ramo o .cas 1 2 3 true true) ∧
    (decode .store 0x54344280 0x0).toOption = some (.mcst o 2 4 5) ∧
    (decode .load 0x58344300 0x0).toOption = some (.rred o 2 4 .iadd) ∧
    (decode .load 0x5C022189 0x0).toOption = some (.collAllgather o 1 2 3 2 false true) ∧
    (decode .load 0x5C022199 0x0).toOption = some (.collRedscat o 1 2 3 2 false true) ∧
    (decode .load 0x5C0221A9 0x0).toOption = some (.collAllred o 1 2 3 2 false true) ∧
    (decode .load 0x5C0221B9 0x0).toOption = some (.collBcast o 1 2 3 2 false true) ∧
    (decode .store 0x5C002046 0x0).toOption = some (.collBarrier o 2 1 true false) := by decide +kernel

theorem test_decode_vector_arithmetic :
    (decode .math 0x06718000 0x0).toOption = some (.fadd (tk true false false true) (.oq 0) (.iq 0) (.v 0) ⟨.f32, .rne, false, false⟩) ∧
    (decode .math 0x06821C40 0x0).toOption = some (.fadd (tk true false true false) (.v 1) (.v 1) (.iq 0) ⟨.f16, .rne, false, false⟩) ∧
    (decode .math 0x080221B6 0x0).toOption = some (.fsub o (.v 1) (.v 2) (.v 3) ⟨.bf16, .dyn, true, false⟩) ∧
    (decode .math 0x0C0221B6 0x0).toOption = some (.fmul o (.v 1) (.v 2) (.v 3) ⟨.bf16, .dyn, true, false⟩) ∧
    (decode .math 0x100221C2 0x0).toOption = some (.fmin o (.v 1) (.v 2) (.v 3) ⟨.f16, true⟩) ∧
    (decode .math 0x140221C2 0x0).toOption = some (.fmax o (.v 1) (.v 2) (.v 3) ⟨.f16, true⟩) ∧
    (decode .math 0x200221C2 0x0).toOption = some (.fcps o (.v 1) (.v 2) (.v 3) ⟨.f16, true⟩) ∧
    (decode .math 0x240221C2 0x0).toOption = some (.fceq o (.v 1) (.v 2) (.v 3) ⟨.f16, true⟩) ∧
    (decode .math 0x280221C2 0x0).toOption = some (.fclt o (.v 1) (.v 2) (.v 3) ⟨.f16, true⟩) ∧
    (decode .math 0x2C0221C2 0x0).toOption = some (.fcle o (.v 1) (.v 2) (.v 3) ⟨.f16, true⟩) ∧
    (decode .math 0x18022020 0x0).toOption = some (.fabs o (.v 1) (.v 2) ⟨.bf16, false⟩) ∧
    (decode .math 0x1C022020 0x0).toOption = some (.fneg o (.v 1) (.v 2) ⟨.bf16, false⟩) ∧
    (decode .math 0x302E200D 0x0).toOption = some (.frcp o (.v 23) (.v 2) ⟨.f32, .rup, false, true⟩) ∧
    (decode .math 0x342E200D 0x0).toOption = some (.frsq o (.v 23) (.v 2) ⟨.f32, .rup, false, true⟩) ∧
    (decode .math 0x382E200D 0x0).toOption = some (.fexp2 o (.v 23) (.v 2) ⟨.f32, .rup, false, true⟩) ∧
    (decode .math 0x3C2E200D 0x0).toOption = some (.flog2 o (.v 23) (.v 2) ⟨.f32, .rup, false, true⟩) ∧
    (decode .math 0x40043003 0x0).toOption = some (.fsqrt o (.v 2) (.v 3) ⟨.f32, .rne, true, true⟩) ∧
    (decode .math 0x44085324 0x0).toOption = some (.fma o 4 (.v 5) (.v 6) ⟨.bf16, .rtz, false, false⟩) ∧
    (decode .math 0x48085310 0x0).toOption = some (.fms o 4 (.v 5) (.v 6) ⟨.f32, .rna, false, false⟩) ∧
    (decode .math 0x4C085F88 0x0).toOption = some (.fnma o 4 (.v 5) (.iq 7) ⟨.f32, .rdn, false, false⟩) ∧
    (decode .math 0x500221A0 0x0).toOption = some (.iop o .w16 .add (.v 1) (.v 2) (.v 3)) := by decide +kernel

theorem test_decode_vector_moves :
    (decode .math 0x54022184 0x0).toOption = some (.sel o (.v 1) (.v 2) (.v 3) 4) ∧
    (decode .math 0x58065004 0x80).toOption = some (.cvt o .fp8e4_f32 (.v 3) (.v 5) (.v 0) ⟨.rne, false, false, false, 2⟩) ∧
    (decode .math 0x58022180 0x1).toOption = some (.cvt o .bf16_f32 (.v 1) (.v 2) (.v 3) ⟨.rtz, false, false, false, 0⟩) ∧
    (decode .math 0x5C022410 0x0).toOption = some (.bcast o (.v 1) (.v 2) 40) ∧
    (decode .math 0x5C022181 0x0).toOption = some (.perm o (.v 1) (.v 2) (.v 3)) ∧
    (decode .math 0x5C12A002 0x0).toOption = some (.redadd o (.v 9) (.v 10) .f32 .rne false false) ∧
    (decode .math 0x5C022143 0x0).toOption = some (.redmax o (.v 1) (.v 2) .f16 true) ∧
    (decode .math 0x5C022064 0x0).toOption = some (.redmin o (.v 1) (.v 2) .int32 false) ∧
    (decode .math 0x5C0223A5 0x0).toOption = some (.scanadd o (.v 1) (.v 2) .bf16 .rtz true true) ∧
    (decode .math 0x5C320006 0x0).toOption = some (.iota o (.oq 1)) ∧
    (decode .math 0x5C022F97 0x0).toOption = some (.lrot o (.v 1) (.v 2) 63) ∧
    (decode .math 0x5C022008 0x0).toOption = some (.lpopc o (.v 1) (.v 2)) ∧
    (decode .math 0x60040000 0x3F800000).toOption = some (.movi o (.v 2) 0x3F800000) ∧
    (decode .math 0x64079001 0x0).toOption = some (.mov o (.v 3) (.iq 1) true) ∧
    (decode .math 0x680A0000 0x0).toOption = some (.mvq o (.v 5) false false) ∧
    (decode .math 0x6C4D8C87 0x0).toOption = some (.kmrg (tk false false false true) (.v 6) (.iq 0) (.iq 1) 7) := by decide +kernel

theorem test_decode_matrix :
    (decode .math 0x80123240 0x0).toOption = some (.mma o ⟨1, 2, 3, 4, true, false, false, false, 0⟩) ∧
    (decode .math 0x84045140 0x6).toOption = some (.mmas o ⟨0, 4, 5, 2, true, false, false, false, 0⟩ 6) ∧
    (decode .math 0x88217280 0x0).toOption = some (.mmat o ⟨2, 1, 7, 5, false, false, false, false, 0⟩) ∧
    (decode .math 0x8C318340 0x2).toOption = some (.mmal o ⟨3, 1, 8, 6, true, false, false, false, 0⟩ 2) ∧
    (decode .math 0x803FEFBB 0x0).toOption = some (.mma o ⟨3, 15, 14, 31, false, true, true, true, 3⟩) ∧
    (decode .math 0x9013D00F 0x0).toOption = some (.zdrn o 1 7 20 0 15) ∧
    (decode .math 0x94200000 0x0).toOption = some (.zclr o 2) ∧
    (decode .math 0x98090000 0x0).toOption = some (.zld o 0 9 0) ∧
    (decode .math 0x9C3A0006 0x0).toOption = some (.zst o 3 10 true 2) ∧
    (decode .math 0xA00A2000 0x0).toOption = some (.fidx o 5 (.v 2) false) ∧
    (decode .math 0xA00A3001 0x0).toOption = some (.fidx o 5 (.v 3) true) := by decide +kernel

theorem test_decode_math_control :
    (decode .math 0xC0029006 0x0).toOption = some (.loopMath o 1 (.v 9) 6) ∧
    (decode .math 0xC4102803 0x0).toOption = some (.loopiMath o 1 10 3) ∧
    (decode .math 0xC8000010 0x0).toOption = some (.jmpMath o 16) ∧
    (decode .math 0xCC000000 0x0).toOption = some (.endMath o) ∧
    (decode .math 0xD0000084 0x0).toOption = some (.tokwMath o true 4) ∧
    (decode .math 0xD4000004 0x0).toOption = some (.tokpMath o false 4) := by decide +kernel

/-! ## Witnesses: integers, tokens, stamps -/

theorem witness_integers :
    (∃ f, gForm (.alu o .add 0 31 31) = some (o, 0, [31, 31], f)) ∧ Ready o [0, 31, 31] base ∧
    (∃ f, gForm (.setw o .high 31 7) = some (o, 31, [31], f)) ∧ Ready o [31, 31] base := by
  exact ⟨⟨_, rfl⟩, ready_of (by decide +kernel), ⟨_, rfl⟩, ready_of (by decide +kernel)⟩

theorem witness_address_integers :
    (∃ f, aForm (.aalu o .mul 0 15 15) = some (o, 0, [15, 15], f)) ∧ Ready o [0, 15, 15] (world .load regs) ∧
    Ready o [0, 15, 15] (world .store regs) := by
  exact ⟨⟨_, rfl⟩, ready_of (by decide +kernel), ready_of (by decide +kernel)⟩

/-- The range of sizes and operands of AMO, IOP and ALU: the bounds themselves. -/
theorem witness_functions :
    (4 = 4 ∨ 4 = 8) ∧ (0xFFFFFFFF < 2 ^ (8 * 4)) ∧ (0xFFFFFFFFFFFFFFFF < 2 ^ (8 * 8)) ∧ (0xFF < 2 ^ 8) ∧
    (AmoOp.fadd.isFp = true ∧ AmoOp.cas.isFp = false ∧ AmoOp.cas ≠ .minu ∧ AmoOp.cas ≠ .maxu) ∧
    (31 : GReg) ≠ 0 ∧ (30 : GReg) ≠ 31 := by decide

/-- A count of 63 in every token queue. -/
def full63 : Ctx := { regs with tok := Vector.replicate 8 ⟨63, 0, 0, []⟩ }

theorem witness_tokens :
    tokenForm (.tokwMath o true 63) = some (o, 0, 63, 0, 0) ∧ ReadyWith o [] 0 63 0 0 (world .math full63) ∧
    tokenForm (.tokpControl o false 63) = some (o, 0, 0, 63, 0) ∧ ReadyWith o [] 0 0 63 0 base ∧
    (∀ k : Fin 8, (world .math full63).fctx.tok[k].pending = []) := by
  exact ⟨rfl, ready_of (by decide +kernel), rfl, ready_of (by decide +kernel), by decide +kernel⟩

/-- With no token there a NOP that takes one waits; with 63 there one that posts one more overflows. -/
theorem witness_token_wait_overflow :
    tokenForm (.nop (tk true false false false)) = some (tk true false false false, 0, 0, 0, 0) ∧
    blocked base.fctx .ctl = false ∧ loopSplits base = false ∧ base.fstrm.stamp = none ∧
    tokensThere base.fctx base.cycle .ctl 1 0 = false ∧
    (let s := world .ctl full63
     blocked s.fctx .ctl = false ∧ loopSplits s = false ∧ s.fstrm.stamp = none ∧
     tokensThere s.fctx s.cycle .ctl 0 0 = true ∧ tokensOver s.fctx .ctl 1 0 = true) := by decide +kernel

/-- A frame begun at cycle b in a mode, the control stream with a pending stamp k. -/
def framed (mode : BitVec 2) (b k : Nat) : State :=
  world .ctl { regs with frmode := mode, fbegan := some b, str := regs.str.set 0 { strm0 with stamp := some k } }

theorem witness_stamps :
    Ready o [] base ∧ Ready o [] (framed 1 90 10) ∧ Ready o [] (framed 1 90 9) ∧
    gate 100 (framed 1 90 9).fctx (framed 1 90 9).fstrm = .missed ∧
    (∀ s ∈ [framed 1 90 11, framed 2 90 9, framed 0 90 9], blocked s.fctx s.fstr = false ∧ loopSplits s = false) ∧
    ((framed 1 90 11).fstrm.stamp = some 11 ∧ frameCycle 100 (framed 1 90 11).fctx < 11 ∧
      (framed 1 90 11).fctx.frmode ≠ 0) ∧
    ((framed 2 90 9).fctx.frmode = 2 ∧ (framed 2 90 9).fctx.fbegan ≠ none ∧
      9 + (framed 2 90 9).fctx.slack.toNat < frameCycle 100 (framed 2 90 9).fctx) ∧
    (framed 0 90 9).fctx.frmode = 0 := by
  exact ⟨ready_of (by decide +kernel), ready_of (by decide +kernel), ready_of (by decide +kernel), by decide +kernel,
    by decide +kernel, by decide +kernel, by decide +kernel, by decide +kernel⟩

/-- SCHEDULE_MISS: on time, one miss of an ELASTIC frame, and a STRICT frame. -/
theorem witness_missed_stamps :
    ∀ e ∈ [(framed 1 90 10, false), (framed 1 90 9, true), (framed 2 90 9, true)],
      (e.1.core 0).run = .running 0 ∧ ((e.1.ctx 0).strm .ctl).stamp ≠ none ∧ ((e.1.ctx 0).strm .ctl).missed = false ∧
      (e.1.ctx 0).fbegan ≠ none ∧
      decide ((((e.1.ctx 0).strm .ctl).stamp.getD 0) + (e.1.ctx 0).slack.toNat < frameCycle 100 (e.1.ctx 0)) = e.2 := by
  decide +kernel

/-! ## Witnesses: branches, loops, ends, faults -/

theorem witness_branches :
    (∃ c, branchForm (.beq o 0 0 2047) = some (o, 0, 0, 2047, c) ∧ c 0 0) ∧ Ready o [0, 0] base ∧
    (∃ c, branchForm (.bltu o 0 1 2048) = some (o, 0, 1, 2048, c) ∧ c (base.fctx.gr 0) (base.fctx.gr 1)) ∧
    (∃ c, branchForm (.bgeu o 0 1 4095) = some (o, 0, 1, 4095, c) ∧ ¬c (base.fctx.gr 0) (base.fctx.gr 1)) ∧
    Ready o [0, 1] base := by
  exact ⟨⟨_, rfl, rfl⟩, ready_of (by decide +kernel), ⟨_, rfl, by decide +kernel⟩, ⟨_, rfl, by decide +kernel⟩,
    ready_of (by decide +kernel)⟩

theorem witness_jumps :
    Ready o [31] base ∧ Ready o [] base ∧ Ready o [0, 1] base ∧
    (base.fctx.gr 1 + BitVec.ofInt 64 (4 * 2047)).toNat % 4 = 0 ∧ (base.fctx.gr 4 + BitVec.ofInt 64 0).toNat % 4 ≠ 0 := by
  exact ⟨ready_of (by decide +kernel), ready_of (by decide +kernel), ready_of (by decide +kernel), by decide +kernel,
    by decide +kernel⟩

/-- Loop counter 0 is active in the load stream. -/
def looping : Ctx := { regs with lc := regs.lc.set 0 ⟨1, .load, true, 3, 0x1004, 0x1004, 1⟩ }

/-- A loop starts from a count over 0, from one of 0, and not on a counter of another stream. -/
theorem witness_loops :
    (∃ c, loopForm (.loopControl o 0 4 1) = some (o, 0, 1, [4], c) ∧ c base.fctx .ctl = 5) ∧
    (∃ c, loopForm (.loopControl o 3 0 4095) = some (o, 3, 4095, [0], c) ∧ c base.fctx .ctl = 0) ∧
    Ready o [4] base ∧ Ready o [0] base ∧ base.words = 1 ∧ base.fctx.pend = [] ∧ base.fctx.lc[(0 : Fin 4)].active = false ∧
    (Ready o [4] (world .ctl looping) ∧ looping.lc[(0 : Fin 4)].active = true ∧ looping.lc[(0 : Fin 4)].owner ≠ .ctl) ∧
    (∃ c, loopForm (.loopMath o 0 (.v 23) 1) = some (o, 0, 1, [], c) ∧ c (world .math regs).fctx .math = 0) ∧
    Ready o [] (world .math regs) ∧ (world .math regs).words = 1 := by
  refine ⟨⟨_, rfl, by decide +kernel⟩, ⟨_, rfl, by decide +kernel⟩, ready_of (by decide +kernel), ready_of (by decide +kernel),
    by decide +kernel, by decide +kernel, by decide +kernel, ⟨ready_of (by decide +kernel), by decide +kernel, by decide +kernel⟩,
    ⟨_, rfl, by decide +kernel⟩, ready_of (by decide +kernel), by decide +kernel⟩

/-- A vector of ones, and an entry of it that may be popped. -/
def ones : Vec := Vector.replicate 64 1

def entry1 : QPlace := ⟨0, ones, false, some 50⟩

/-- The math stream executes, one entry in every iq and oq. -/
def queued : State := world .math { regs with iq := Vector.replicate 8 [entry1], oq := Vector.replicate 8 [entry1] }

theorem witness_loop_from_queue :
    Ready o [] queued ∧ queued.words = 1 ∧ oldest queued.fctx.iq[(7 : QNum)] queued.cycle = some entry1 ∧
    entry1.poison = false ∧ entry1.data[0] ≠ 0 ∧ queued.fctx.lc[(3 : Fin 4)].active = false := by
  refine ⟨ready_of (by decide +kernel), ?_⟩
  decide +kernel

/-- A loop of the control stream that ends at its NOP, with a round left and without. -/
def atEnd (v : W32) : State :=
  world .ctl { regs with serial := 1, lc := regs.lc.set 2 ⟨v, .ctl, true, 3, 0x1000, 0x1000, 1⟩ }

theorem witness_loop_ends :
    ∀ v ∈ [(1 : W32), 2], Ready o [] (atEnd v) ∧ loopAt (atEnd v).fctx .ctl (atEnd v).lastWord = some 2 ∧
      (∀ k : Fin 4, (atEnd v).fctx.lc[k].serial ≤ (atEnd v).fctx.serial) ∧
      (∀ k : Fin 4, k ≠ 2 → (atEnd v).fctx.lc[k].active = false) := by
  intro v h
  simp only [List.mem_cons, List.mem_nil_iff, or_false] at h
  rcases h with rfl | rfl <;> exact ⟨ready_of (by decide +kernel), by decide +kernel, by decide +kernel, by decide +kernel⟩

theorem witness_faults : (base.core 0).run = .running 0 ∧ Ready o [] base := by
  exact ⟨by decide +kernel, ready_of (by decide +kernel)⟩

/-- A task cut in this cycle by a fault of its load stream. -/
def cutNow (at_ : Nat) : State :=
  { base with
    cores := base.cores.set 0 { base.core 0 with run := .cutting 0 at_ }
    tasks := [{ job with fault := some { (default : FaultInfo) with stream := .load } }] }

theorem witness_first_fault :
    ((cutNow 100).core 0).run = .cutting 0 100 ∧ ((cutNow 99).core 0).run = .cutting 0 99 ∧
    (∀ n ∈ [99, 100], ((cutNow n).findTask 0).bind (·.fault) = some { (default : FaultInfo) with stream := .load }) := by
  decide +kernel

theorem witness_system_registers :
    Ready o [0] base ∧ Ready o [31] base ∧ base.fctx.fbegan = none := by
  exact ⟨ready_of (by decide +kernel), ready_of (by decide +kernel), by decide +kernel⟩

/-! ## Witnesses: loads, stores and accesses -/

/-- How a check of an access ends. -/
def checkIs (p : State × Checked) : Nat :=
  match p.2 with
  | .ok _ => 0
  | .held => 1
  | .fault .. => 2

/-- Page tables at 64 KiB of HBM: the first GiB is one leaf with W, the second one with WB; the rest is not mapped. -/
def tables : Memory :=
  Memory.writeL (Memory.writeL (Memory.writeL [] 65536 (toBytes 8 (69632 + 1))) 69632 (toBytes 8 (2 ^ 30 + 7)))
    (69632 + 8) (toBytes 8 (2 ^ 30 + 0x87))

/-- The control stream executes in a graph whose root is that table. -/
def paged (x : Ctx) : State := { world .ctl x with mem := tables, graphs := [{ net with root := 65536 }] }

/-- The registers with g1 an address. -/
def atAddr (a : W64) : Ctx := { regs with g := regs.g.set 1 a }

/-- LDW at the ends of its offset and of the range: aligned and read, misaligned, spilling out of its space, not mapped, and
past the range. -/
theorem witness_loads :
    (∃ f, loadForm (.ld o .b4 31 1 0 32) = some (o, 31, 1, 4, true, 0, f, 32) ∧ f .ctl regs = sp 64) ∧
    (∃ f, loadForm (.ald o .b8 15 1 0 31) = some (o, 15, 1, 8, false, 0, f, 31) ∧ f .load regs = sp 64) ∧
    Ready o [31, 1] base ∧ Ready o [15, 1] (world .load regs) ∧
    (let va := sp 64 + BitVec.ofInt 64 (-32 * 4)
     va.toNat % 4 = 0 ∧ addrSpills (sp 64) va = true) ∧
    (let va := sp 64 + BitVec.ofInt 64 (31 * 4)
     va.toNat % 4 = 0 ∧ addrSpills (sp 64) va = false ∧ placeOf va.toNat ≠ none ∧
     checkIs (base.checked o false true [⟨va.toNat, 4, 0⟩]) = 0) ∧
    (sp 65).toNat % 4 ≠ 0 ∧ checkIs (base.checked o false true [⟨(sp 65532).toNat, 4, 0⟩]) = 0 ∧
    checkIs (base.checked o false true [⟨(sp 65536).toNat, 4, 0⟩]) = 2 := by
  refine ⟨⟨_, rfl, by decide +kernel⟩, ⟨_, rfl, by decide +kernel⟩, ready_of (by decide +kernel), ready_of (by decide +kernel), ?_⟩
  decide +kernel

/-- A store in the own scratchpad, to a leaf with W, to one with WB, and to no page. -/
theorem witness_stores :
    (∀ e ∈ [(sp 64, 0), (0x3FFFFFF8, 0), (0x40000000, 1), (0x80000000, 2)],
      let s := paged (atAddr e.1)
      let va := memAddr (s.fctx.gr 1) 0 .b8
      readyB o [1, 2] 0 0 0 0 s = true ∧ va.toNat % 8 = 0 ∧ addrSpills (s.fctx.gr 1) va = false ∧ placeOf va.toNat ≠ none ∧
      checkIs (s.checked o true true [⟨va.toNat, 8, 0⟩]) = e.2) := by decide +kernel

theorem witness_amo :
    Ready o [31, 1, 2, 3] base ∧ (base.fctx.gr 1).toNat % 8 = 0 ∧ placeOf (base.fctx.gr 1).toNat ≠ none ∧
    (∃ us, (base.checked o true true [⟨(base.fctx.gr 1).toNat, 8, 0⟩]).2 = .ok us ∧
      ∀ u ∈ us, (base.checked o true true [⟨(base.fctx.gr 1).toNat, 8, 0⟩]).1.poisoned u.key u.len = false) := by
  refine ⟨ready_of (by decide +kernel), by decide +kernel, by decide +kernel, [⟨spadKey 0 64, 8, 0⟩], ?_⟩
  decide +kernel

/-- An access of one unit of four bytes. -/
def access (id : Nat) (k : AccKind) (key : Nat) : Access :=
  { (default : Access) with id := id, kind := k, units := [⟨key, 4, 0⟩], all := [⟨key, 4, 0⟩], data := [1, 2, 3, 4] }

/-- The control stream with these accesses. -/
def accessing (l : List Access) : State :=
  world .ctl { regs with serial := 9, str := regs.str.set 0 { strm0 with accs := l } }

theorem witness_accesses_perform :
    ∀ k ∈ [AccKind.load 5 4 true, .store, .amo 5 .add 4 1 0 false false .core],
      let a := access 1 k (spadKey 0 64)
      let s := accessing [a]
      ((s.ctx 0).strm .ctl).accs[0]? = some a ∧ a.units = [⟨spadKey 0 64, 4, 0⟩] ∧ mayPerform (s.ctx 0) .ctl 0 a = true ∧
      a.stalls = false ∧ (∀ b ∈ ((s.ctx 0).strm .ctl).accs, b.id = a.id → b = a) ∧ s.mem.wf = true ∧ a.data.length = 4 := by
  decide +kernel

/-- The second access follows the first: by its class, by a byte, and by an acquire. -/
theorem witness_ordered_accesses :
    ∀ e ∈ [(access 2 .store (spadKey 0 96), 0), ({ access 2 .store (spadKey 0 67) with cls := 1 }, 1),
        ({ access 2 .store (spadKey 0 96) with cls := 1, acq := #v[2, 0, 0, 0] }, 2)],
      let b := access 1 .store (spadKey 0 64)
      let s := accessing [b, e.1]
      ((s.ctx 0).strm .ctl).accs[1]? = some e.1 ∧ ((s.ctx 0).strm .ctl).accs[0]? = some b ∧ b.units ≠ [] ∧
      (e.2 = 0 → b.cls = e.1.cls) ∧ (e.2 = 1 → ∃ u ∈ e.1.units, ∃ v ∈ b.units, u.key < v.key + v.len ∧ v.key < u.key + u.len) ∧
      (e.2 = 2 → b.id < e.1.acq[Stream.ctl.idx]) := by decide +kernel

/-- A FENCE that is taken or not, over a store of class 0 or over none. -/
def fencing (taken : Bool) (l : List Access) : State :=
  world .ctl { regs with str := regs.str.set 0 { strm0 with accs := l, taken := taken } }

theorem witness_fences :
    (fencing false []).fstrm.taken = false ∧ Ready o [] (fencing false []) ∧ (fencing false []).fstrm.accs = [] ∧
    (let a := access 1 .store (spadKey 0 64)
     Ready o [] (fencing false [a]) ∧ a ∈ (fencing false [a]).fstrm.accs ∧ a.units ≠ [] ∧ (0x0001 : BitVec 16).getLsbD a.cls.val = true ∧
     a.kind.writes = true ∧ (fencing true [a]).fstrm.taken = true ∧ a ∈ (fencing true [a]).fstrm.accs) ∧
    ((fencing true []).fstrm.taken = true ∧ (fencing true []).fstrm.accs = [] ∧
      loopAt (fencing true []).fctx .ctl (fencing true []).lastWord = none) := by
  refine ⟨by decide +kernel, ready_of (by decide +kernel), by decide +kernel, ⟨ready_of (by decide +kernel), ?_⟩, ?_⟩ <;>
    decide +kernel

/-- RDQ and RDQS with room, and with four entries; RDQS at the ends of its piece sizes. -/
theorem witness_queue_fills :
    (∃ f, fillForm (.rdq o 7 1 15 255) = some (o, 7, 15, [1], f) ∧ (f .load regs).2.2) ∧
    (∃ f, fillForm (.rdqs o 7 1 3 0 0) = some (o, 7, 0, [1, 3], f) ∧ (f .load regs).2.2) ∧
    (let s := world .load regs
     Ready o [1, 3] s ∧ s.fctx.iq[(7 : QNum)].length < 4 ∧
     checkIs (s.checked o false false (entryPieces (sp 65280).toNat)) = 0 ∧
     checkIs (s.checked o false false (stridedPieces (sp 64) 256 4)) = 0) ∧
    (let s := world .load { regs with iq := Vector.replicate 8 [entry1, entry1, entry1, entry1] }
     Ready o [1, 3] s ∧ 4 ≤ s.fctx.iq[(7 : QNum)].length ∧ s.fstrm.stamp = none) := by
  refine ⟨⟨_, rfl, ?_⟩, ⟨_, rfl, ?_⟩, ⟨ready_of (by decide +kernel), ?_⟩, ready_of (by decide +kernel), ?_⟩ <;> decide +kernel

/-- WRQ and WRQS with an entry and without. -/
theorem witness_queue_drains :
    (∃ f, drainForm (.wrq o 0 1 0 0) = some (o, 0, 0, [1], f) ∧ (f .store regs).2.2) ∧
    (∃ f, drainForm (.wrqs o 0 1 3 0 5) = some (o, 0, 0, [1, 3], f) ∧ (f .store { regs with aS := regs.aS.set 1 (sp 128) }).2.2) ∧
    (let s := world .store { regs with oq := Vector.replicate 8 [entry1] }
     Ready o [1, 3] s ∧ oldest s.fctx.oq[(0 : QNum)] s.cycle = some entry1 ∧
     checkIs (s.checked o true true (entryPieces (sp 64).toNat)) = 0) ∧
    (let s := world .store regs
     Ready o [1, 3] s ∧ oldest s.fctx.oq[(0 : QNum)] s.cycle = none ∧ s.fstrm.stamp = none) := by
  refine ⟨⟨_, rfl, ?_⟩, ⟨_, rfl, ?_⟩, ⟨ready_of (by decide +kernel), ?_⟩, ready_of (by decide +kernel), ?_⟩ <;> decide +kernel

theorem witness_entry_lands :
    let a := { access 1 (.fill 2 7) 0 with units := [] }
    let s := world .load { regs with str := regs.str.set 1 { strm0 with accs := [a] }, iq := regs.iq.set 2 [newPlace 7] }
    ((s.ctx 0).strm .load).accs = [a] ∧ a.units = [] ∧ a.heldAt = none ∧ a.kind = .fill 2 7 := by decide +kernel

/-- The store stream with a1 an address of the Loft, a2 a source, and a3 the bytes. -/
def lofting (off n : Nat) : State :=
  world .store { regs with aS := (regs.aS.set 1 (BitVec.ofNat 64 (3 * 2 ^ 56 + off))).set 3 (BitVec.ofNat 64 n) }

/-- LOFTACC of 16 bytes at the last place of the Loft; LOFTZERO needs no source. -/
theorem witness_lofts :
    (∃ f, loftForm (.loftAcc o 1 2 3 0) = some f ∧ f = (o, .acc, 1, 2, 3, 0)) ∧
    loftForm (.loftZero o 1 3 0) = some (o, .zero, 1, 1, 3, 0) ∧
    (let s := lofting (2 ^ 28 - 16) 16
     let dst := s.fctx.ar .store 1
     let src := s.fctx.ar .store 2
     let e := s.entered o 0 0
     Ready o [1, 2, 3] s ∧ dst.toNat % 16 = 0 ∧ dst.toNat / 2 ^ 28 = 3 * 2 ^ 28 ∧ dst.toNat % 2 ^ 28 + 16 ≤ 2 ^ 28 ∧
     s.inAlias (rightsOf e 0).part (dst.toNat % 2 ^ 28) 16 = false ∧ src.toNat % 16 = 0 ∧ tagOf src = 1 ∧
     placeOf src.toNat ≠ none ∧
     checkIs (checkPieces 0 (rightsOf e 0) false true true e [⟨src.toNat, 16, 0⟩] [] none false) = 0 ∧
     ∀ j < 4, s.poisoned (loftKey (rightsOf e 0).part (dst.toNat % 2 ^ 28) + 4 * j) 4 = false) := by
  refine ⟨⟨_, rfl, rfl⟩, rfl, ready_of (by decide +kernel), ?_⟩
  decide +kernel

theorem witness_loft_element :
    let a := access 1 (.loft .max 0) (loftKey 0 0)
    let s := world .store { regs with serial := 9, str := regs.str.set 3 { strm0 with accs := [a] } }
    ((s.ctx 0).strm .store).accs[0]? = some a ∧ a.kind = .loft .max 0 ∧ a.units = [⟨loftKey 0 0, 4, 0⟩] ∧
    mayPerform (s.ctx 0) .store 0 a = true ∧ a.stalls = false ∧ s.mem.wf = true ∧
    ∀ b ∈ ((s.ctx 0).strm .store).accs, b.id = a.id → b = a := by decide +kernel

/-! ## Witnesses: spaces and translation -/

/-- A buffer of the core's first 256 bytes, which another task holds. -/
def foreign : State :=
  { base with buffers := [{ (default : Buffer) with live := true, size := 256, holder := some 9, maker := 9 }] }

theorem witness_own_scratchpad :
    (let r := rightsOf base 0
     ¬(r.base ≤ 65533 ∧ 65533 + 4 ≤ r.base + r.size) ∧ (r.base ≤ 65532 ∧ 65532 + 4 ≤ r.base + r.size) ∧
     inForeign base r r.lcore 65532 4 = false) ∧
    (let r := rightsOf foreign 0
     r.base ≤ 255 ∧ 255 + 1 ≤ r.base + r.size ∧ inForeign foreign r r.lcore 255 1 = true ∧
     inForeign foreign r r.lcore 256 1 = false) := by decide +kernel

/-- An address at each end of each space. -/
theorem witness_space_tags :
    placeOf (2 ^ 43 - 1) = some (.dv (2 ^ 43 - 1)) ∧ placeOf (2 ^ 43) = none ∧ placeOf (2 ^ 56 - 1) = none ∧
    placeOf (2 ^ 56) = some (.own 0) ∧ placeOf (2 ^ 56 + 2 ^ 21 - 1) = some (.own (2 ^ 21 - 1)) ∧ placeOf (2 ^ 56 + 2 ^ 21) = none ∧
    placeOf (2 ^ 57 + 7 * 2 ^ 21 + 5) = some (.window 7 5) ∧ placeOf (2 ^ 57 + 2 ^ 24) = none ∧
    placeOf (3 * 2 ^ 56 + 2 ^ 28 - 1) = some (.loft (2 ^ 28 - 1)) ∧ placeOf (3 * 2 ^ 56 + 2 ^ 28) = none ∧
    placeOf (2 ^ 64 - 1) = none := by decide +kernel

/-- A bus window of port 0 over the first 64 KiB page. -/
def opened : State :=
  { base with ports := base.ports.set 0 { base.ports[(0 : Fin 2)] with obw := base.ports[(0 : Fin 2)].obw.set 0 ⟨0, 1, true⟩ } }

/-- Leaves of a GiB that meet each case: misaligned, past HBM at its end, reserved, without W, without X, in no window, with
WB, and allowed. -/
theorem witness_leaf_checks :
    (4096 / 4096 * 4096 % 2 ^ 30 ≠ 0) ∧ (618475290624 + 3) / 4096 * 4096 % 2 ^ 30 = 0 ∧
    reservedHbm (51539607552 - 4294967296) = true ∧ reservedHbm (51539607552 - 4294967297) = false ∧
    base.onRetired 0 = false ∧ (2 ^ 30 + 3) / 4 % 2 = 0 ∧ (2 ^ 30 + 3) / 8 % 2 = 0 ∧ (0x13 : Nat) / 16 % 2 = 1 ∧
    base.busOpen 0 0 = false ∧ opened.busOpen 0 65535 = true ∧ opened.busOpen 0 65536 = false ∧
    (2 ^ 30 + 0x87) / 128 % 2 = 1 ∧ (2 ^ 30 + 0x87) / 4 % 2 = 1 ∧
    ({ base with mgmt := { base.mgmt with retired := [11] } } : State).onRetired 618475290623 = true := by decide +kernel

/-- A hot leaf: level 3 with HOST and HC, of a port whose threshold is 0; and a leaf of another level. -/
theorem witness_hot_pages :
    base.mem.wf = true ∧ ¬((30 : Nat) = 16 ∧ (0x53 : Nat) / 16 % 2 = 1 ∧ (0x53 : Nat) / 64 % 2 = 1) ∧
    (0x53 : Nat) / 16 % 2 = 1 ∧ (0x53 : Nat) / 64 % 2 = 1 ∧
    ({ base with ports := base.ports.set 0 { base.ports[(0 : Fin 2)] with hthr := 0 } } : State).ports[(0 : Fin 2)].hthr = 0 := by
  decide +kernel

/-! ## Witnesses: records, frames and landing words -/

/-- Core 0 runs the task with these bytes at scratchpad offset 64, where g1 points. -/
def holding (n : Nat) (v : Nat) : State := { base with mem := Memory.writeL [] (spadKey 0 64) (toBytes n v) }

/-- A shape record: its base, stride, rows, columns and format. -/
def shapeRec (a : W64) (stride rows cols fmt : Nat) : Nat :=
  a.toNat + stride * 2 ^ 64 + rows * 2 ^ 96 + cols * 2 ^ 112 + fmt * 2 ^ 128

/-- A nest record of one element of 16 bytes. -/
def nestRec : Nat := 1 + 2 ^ 96 + 2 ^ 192 + 2 ^ 288 + 2 ^ 384 + 2 ^ 480 + 16 * 2 ^ 576

theorem witness_records_are_read :
    (0 < 32) ∧ (sp 65).toNat % 32 ≠ 0 ∧ (sp 64).toNat % 32 = 0 ∧ placeOf (sp 64).toNat = some (.own 64) ∧
    (∀ e ∈ [0x2000, 3 * 2 ^ 56, 2 ^ 57], e % 32 = 0 ∧ placeOf e ≠ some (.own 0)) ∧
    (let r := rightsOf base 0
     (r.base ≤ 65504 ∧ 65504 + 32 ≤ r.base + r.size) ∧ ¬(r.base ≤ 65536 ∧ 65536 + 32 ≤ r.base + r.size) ∧
     inForeign base r r.lcore 64 32 = false ∧ base.poisoned (spadKey 0 64) 32 = false ∧
     ({ base with poison := [spadKey 0 88] } : State).poisoned (spadKey 0 64) 32 = true) := by decide +kernel

/-- The record that SHAPE, NEST or FMT reads at g1, whether it passes its checks or not. -/
theorem witness_records :
    (∀ e ∈ [(shapeRec (sp 4096) 256 64 64 0, true, false), (shapeRec (sp 4096) 256 64 64 13, true, true),
        (shapeRec 0xFF00000000000000 256 64 64 0, false, false)],
      let s := holding 32 e.1
      readyB o [1] 0 0 0 0 s = true ∧ releasePending (s.entered o 0 0).fctx .ctl = false ∧
      (recordBytes (s.entered o 0 0) (s.fctx.gr 1) 32 32).toOption = some (toBytes 32 e.1) ∧ ofBytes (toBytes 32 e.1) = e.1 ∧
      (placeOf (e.1 % 2 ^ 64)).isSome = e.2.1 ∧ shapeBad e.1 = e.2.2) ∧
    (∀ e ∈ [(nestRec, false), (nestRec - 1, true)],
      let s := holding 96 e.1
      (recordBytes (s.entered o 0 0) (s.fctx.gr 1) 16 96).toOption = some (toBytes 96 e.1) ∧ ofBytes (toBytes 96 e.1) = e.1 ∧
      nestBad e.1 = e.2) ∧
    (∀ e ∈ [(0, false), (2 ^ 63, true)],
      let s := holding 8 e.1
      (recordBytes (s.entered o 0 0) (s.fctx.gr 1) 8 8).toOption = some (toBytes 8 e.1) ∧ 31 + 1 ≤ 32 ∧
      (dwordsOf 1 (toBytes 8 e.1)).any entryBad = e.2) := by decide +kernel

/-- Courses around the one that began in cycle 100. -/
def inCourse : State := { base with fabric := { base.fabric with course := 7, began := 100 } }

theorem witness_frames :
    (∀ r ∈ [(0 : GReg), 4], readyB o [r.val] 0 0 0 0 inCourse = true) ∧ inCourse.course = 7 ∧
    (inCourse.fctx.gr 0).toNat % 2 ^ 48 = 0 ∧ (inCourse.fctx.gr 4).toNat % 2 ^ 48 < 7 ∧
    (inCourse.fctx.gr 3).toNat % 2 ^ 48 = 256 ∧ inCourse.cycle ≤ inCourse.fabric.began ∧
    (inCourse.parts[inCourse.partOfCore 0]).oneToOne = true ∧
    ((inCourse.updPart 0 fun p => { p with map := List.range 79 }).parts[(0 : Fin 4)]).oneToOne = false := by decide +kernel

/-- A landing word at g1 with target, count and generation. -/
def landing (tgt cnt gen : Nat) : State := holding 12 (tgt + cnt * 2 ^ 32 + gen * 2 ^ 64)

theorem witness_lexp :
    (∃ b v, landForm (.lexpControl o 4 1 0) = some (true, o, [4, 1], b, v, 0) ∧ b .ctl regs = sp 64 ∧ v .ctl regs = 5) ∧
    (∃ b v, landForm (.lexpLoadStore o 15 1 2048) = some (true, o, [15, 1], b, v, 2048)) ∧
    (∀ e ∈ [(0, 5), (0, 4), (2 ^ 32 - 6, 0), (2 ^ 32 - 5, 0)],
      let s := landing e.1 e.2 9
      readyB o [4, 1] 0 0 0 0 s = true ∧ s.mem.wf = true ∧ releasePending (s.entered o 0 0).fctx .ctl = false ∧
      (landKey (s.entered o 0 0) (sp 64) (landAddr (sp 64) 0)).toOption = some (spadKey 0 64) ∧
      ((landRead s.mem (spadKey 0 64)).target + 5 < 2 ^ 32 ↔ e.1 ≠ 2 ^ 32 - 5)) := by
  refine ⟨⟨_, _, rfl, by decide +kernel, by decide +kernel⟩, ⟨_, _, rfl⟩, ?_⟩
  decide +kernel

/-- LWAIT for generation 5 at a word of generation 4, 5 and half way round, issuing and waiting. -/
theorem witness_lwait :
    (∃ b v, landForm (.lwaitControl o 4 1 0) = some (false, o, [4, 1], b, v, 0) ∧ v .ctl regs = 5) ∧
    (∀ e ∈ [(4, false), (5, true), (2 ^ 31 + 4, true), (2 ^ 31 + 5, false)],
      let s := landing 0 0 e.1
      readyB o [4, 1] 0 0 0 0 s = true ∧ s.fstrm.taken = false ∧
      (landKey (s.entered o 0 0) (sp 64) (landAddr (sp 64) 0)).toOption = some (spadKey 0 64) ∧
      decide (((landRead s.mem (spadKey 0 64)).gen + 2 ^ 32 - 5) % 2 ^ 32 < 2 ^ 31) = e.2 ∧
      (let t := s.setCtx 0 { s.fctx with str := s.fctx.str.set 0 { strm0 with taken := true } }
       t.fstrm.taken = true ∧ loopAt t.fctx .ctl t.lastWord = none ∧
       (landKey t (sp 64) (landAddr (sp 64) 0)).toOption = some (spadKey 0 64))) := by
  refine ⟨⟨_, _, rfl, by decide +kernel⟩, ?_⟩
  decide +kernel

/-! ## Witnesses: the math stream -/

theorem witness_vectors :
    (∃ f, vectorForm (.fadd o (.oq 7) (.iq 0) (.v 23) ⟨.f32, .dyn, false, false⟩) = some (o, [.iq 0, .v 23], .oq 7, 6, f)) ∧
    (∃ f, vectorForm (.fma o 23 (.iq 7) (.iq 7) ⟨.f16, .rne, false, false⟩) = some (o, [.v 23, .iq 7, .iq 7], .v 23, 8, f)) ∧
    (∃ f, vectorForm (.iota o (.v 0)) = some (o, [], .v 0, 6, f)) ∧
    Ready o [] queued ∧ srcValues queued [.iq 0, .v 23] = some [ones, Vec.zero] ∧ srcValues queued [] = some [] ∧
    queued.fctx.oq[(7 : QNum)].length < 4 ∧ srcValue queued (.iq 7) = some ones := by
  refine ⟨⟨_, rfl⟩, ⟨_, rfl⟩, ⟨_, rfl⟩, ready_of (by decide +kernel), ?_⟩
  decide +kernel

/-- MVQ with an entry, and on empty queues. -/
theorem witness_mvq :
    (let s := world .math { regs with mq := [entry1], gq := [entry1] }
     Ready o [] s ∧ oldest s.fctx.mq s.cycle = some entry1 ∧ oldest s.fctx.gq s.cycle = some entry1) ∧
    (let s := world .math regs
     Ready o [] s ∧ oldest s.fctx.mq s.cycle = none ∧ oldest s.fctx.gq s.cycle = none) := by
  refine ⟨⟨ready_of (by decide +kernel), ?_⟩, ready_of (by decide +kernel), ?_⟩ <;> decide +kernel

/-- An iq without an entry, and an oq with four. -/
theorem witness_queue_faults :
    (let s := world .math regs
     Ready o [] s ∧ s.fstrm.stamp = none ∧ oldest s.fctx.iq[(0 : QNum)] s.cycle = none) ∧
    (let s := world .math { regs with iq := queued.fctx.iq, oq := Vector.replicate 8 [entry1, entry1, entry1, entry1] }
     Ready o [] s ∧ srcValues s [.iq 0, .v 23] = some [ones, Vec.zero] ∧ 4 ≤ s.fctx.oq[(7 : QNum)].length) := by
  refine ⟨⟨ready_of (by decide +kernel), ?_⟩, ready_of (by decide +kernel), ?_⟩ <;> decide +kernel

/-- One result pending to v23 or to an oq, which may be written now and must be now. -/
def pending (d : VDst) : State :=
  world .math { regs with pend := [⟨4, d, 4, some ones, 0x3F, 100, 100⟩], oq := Vector.replicate 8 [newPlace 4] }

theorem witness_results :
    ∀ d ∈ [VDst.v 23, .oq 7], ((pending d).ctx 0).pend = [⟨4, d, 4, some ones, 0x3F, 100, 100⟩] ∧ 100 ≤ (pending d).cycle := by
  decide +kernel

/-- The math stream executes with v1 the offset 64 of a heap record. -/
def heapAt (n v : Nat) : State :=
  { world .math { regs with v := regs.v.set 1 (Vector.replicate 64 64) } with mem := Memory.writeL [] (spadKey 0 64) (toBytes n v) }

/-- KMRG on an empty heap of capacity 4,096, and on a full one of capacity 1. -/
theorem witness_kmrg :
    (∀ e ∈ [4096, 1],
      let s := heapAt 16 (e + (if e = 1 then 1 else 0) * 2 ^ 32)
      let cap := s.mem.num (spadKey 0 64) 4
      let count := s.mem.num (spadKey 0 68) 4
      readyB o [] 0 0 0 0 s = true ∧ (srcValues s [.v 2, .v 3, .v 1]).isSome = true ∧ cap = e ∧ count ≤ cap ∧ 64 % 16 = 0 ∧
      s.fctx.base ≤ 64 ∧ 64 + 16 + 8 * cap ≤ s.fctx.base + s.fctx.size ∧ s.mem.num (spadKey 0 72) 8 = 0 ∧
      s.poisoned (spadKey 0 64) (16 + 8 * cap) = false ∧ s.poisoned (spadKey 0 64) 16 = false ∧
      inForeign s (rightsOf s 0) s.fctx.lcore.toNat 64 (16 + 8 * cap) = false ∧
      isHeap (heapEntries count ((s.load (spadKey 0 64) 24).drop 16)) = true) := by decide +kernel

theorem witness_merge_lane :
    (([] : List HEntry).length ≤ 4096 ∧ 0 < 4096) ∧ (0xFFFFFFFE : W32).toNat ≥ 0xFFFFFFFE ∧ f32 0x7FC00000 = .nan ∧
    ((0xFFFFFFFD : W32).toNat < 0xFFFFFFFE ∧ f32 0x3F800000 ≠ .nan) ∧ [((0x40000000, 5) : HEntry)].length = 1 ∧
    worse (0x3F800000, 5) (0x40000000, 5) = true ∧ worse (0x40000000, 5) (0x40400000, 5) = true ∧
    worse (0x40000000, 6) (0x40000000, 5) = true := by decide +kernel

theorem witness_kmrg_written :
    ∀ d ∈ [VDst.v 23, .oq 7],
      let k : PendKmrg := ⟨4, d, 4, ones, spadKey 0 64, [1, 2, 3], 100, 500⟩
      let s := world .math { regs with kmrg := some k, oq := Vector.replicate 8 [newPlace 4] }
      (s.ctx 0).kmrg = some k ∧ k.first ≤ s.cycle ∧ s.mem.wf = true := by decide +kernel

/-! ## Witnesses: numbers -/

/-- An exact and an inexact magnitude; codes of each format, the greatest finite one among them; a rounding mode. -/
theorem witness_numbers :
    ((0 : Int) ≤ 3 ∧ ¬(3 : Int) ≤ 0) ∧ fmtFP4 ∈ [fmtF32, fmtBF16, fmtF16, fmtFP8e4, fmtFP8e5, fmtFP6e3, fmtFP6e2, fmtFP4] ∧
    0xF < 2 ^ fmtFP4.width ∧ 0x7F7FFFFF < 2 ^ fmtF32.width ∧
    (∃ n m e, unpack fmtFP4 0xF = .fin n m e) ∧ (∃ n m e, unpack fmtF32 0x7F7FFFFF = .fin n m e) ∧
    Rm.rdn ≠ .dyn ∧ f32 0xFFFFFFFF = .nan := by
  refine ⟨by decide, by decide, by decide, by decide, ⟨_, _, _, rfl⟩, ⟨_, _, _, rfl⟩, by decide, by decide +kernel⟩

/-! ## Witnesses: ops -/

/-- An op of the task, on channel 0 with sequence 5. -/
def op5 (k : OpKind) (st : OpStatus) : Op :=
  { (default : Op) with oid := 3, seq := 5, owner := some 0, status := st, kind := k, total := 256 }

/-- A nest of one burst. -/
def nest1 : NestReg := ⟨Vector.replicate 6 1, Vector.replicate 6 0, Vector.replicate 6 0, 256, 0, 0, 0⟩

/-- A plain copy of 256 bytes in the own scratchpad. -/
def copyKind : OpKind := .copy (sp 64) (sp 4096) nest1 false none none

/-- The control stream with g1 a name, this op listed, and 6 as the next sequence of channel 0. -/
def naming (w : W64) (l : List Op) : State :=
  let s : State := { world .ctl (atAddr w) with ops := l, nextOid := 9 }
  s.updContext 0 0 fun c => { c with oseq := [(0, 6)] }

/-- What a name is: an op, not yet given, gone or illegal. -/
def nameIs : Named → Nat
  | .op _ => 0
  | .notYet => 1
  | .gone => 2
  | .illegal => 3

/-- The names of each kind, at the ends of their ranges. -/
theorem witness_names :
    (∃ f, opManageForm (.otest o 31 1) = some (o, 31, 1, f, 6, 7)) ∧
    ∀ e ∈ [(opToken 0 5 0, 0), (opToken 0 6 0, 1), (opToken 0 (2 ^ 39 - 1) 0, 1), (opToken 0 (2 ^ 39) 0, 2), (opToken 0 4 0, 2),
        (8 * 2 ^ 56, 3), (7 * 2 ^ 56, 1), (orphanName 0 0 5, 0), (orphanName 0 0 6, 2), (orphanName 640 0 5, 3),
        (2 ^ 63 + 1, 3), (orphanName 639 7 (2 ^ 40 - 1), 2)],
      let s := naming (BitVec.ofNat 64 e.1) [op5 copyKind .running]
      readyB o [31, 1] 0 0 0 0 s = true ∧ s.fstrm.taken = false ∧ nameIs (resolveName s 0 (s.fctx.gr 1)) = e.2 := by
  refine ⟨⟨_, rfl⟩, ?_⟩
  decide +kernel

/-- The live op that a token names. -/
theorem witness_live_name :
    let s := naming (BitVec.ofNat 64 (opToken 0 5 0)) [op5 copyKind .running]
    ∃ p ∈ s.ops, p.graph = (s.ctx 0).graph.toNat ∧ p.status.isLive = true ∧ p.rights.lcore = (s.ctx 0).lcore.toNat ∧
      p.seq < 2 ^ 40 ∧ p.gen < 2 ^ 16 := by decide +kernel

/-- Ops that OCANCEL leaves alone, cancels at once and tells to stop. -/
theorem witness_cancel :
    (∀ e ∈ [(op5 copyKind .queued, 0), (op5 copyKind .faulted, 0), (op5 copyKind .running, 1), (op5 copyKind .paused, 1),
        (op5 copyKind .done, 2), ({ op5 copyKind .running with owner := some 7 }, 2), ({ op5 copyKind .running with owner := none }, 1)],
      let mine := e.1.owner = none ∨ e.1.owner = some base.myslot
      e.1.kind.isFabric = false ∧ e.1.kind.runsOn = false ∧ e.1.kind.isCopy = true ∧
      (e.2 = 2 ↔ ¬mine ∨ e.1.status.isLive = false) ∧ (e.2 = 0 → e.1.status = .queued ∨ e.1.status = .faulted) ∧
      (e.2 = 1 → e.1.status = .running ∨ e.1.status = .paused)) ∧
    (OpKind.coll default 0 0 0 false false).runsOn = true := by decide +kernel

/-- OWAIT at a live op, and at its turn once it is taken, with an op that has just completed and one that has not. -/
theorem witness_owait :
    ∀ e ∈ [(OpStatus.running, none), (OpStatus.done, some 99)],
      let s := naming (BitVec.ofNat 64 (opToken 0 5 0)) [{ op5 copyKind e.1 with doneAt := e.2 }]
      let t := s.setCtx 0 { s.fctx with str := s.fctx.str.set 0 { strm0 with taken := true } }
      t.fstrm.taken = true ∧ loopAt t.fctx .ctl t.lastWord = none ∧ nameIs (resolveFrom (t.cycle - 1) t 0 (t.fctx.gr 1)) = 0 := by
  decide +kernel

/-- OREC to an aligned address of the own scratchpad, to a misaligned one, to none and past the range. -/
theorem witness_orec :
    readyB o [31, 1, 2] 0 0 0 0 base = true ∧ (base.fctx.gr 2).toNat % 64 = 0 ∧ placeOf (base.fctx.gr 2).toNat ≠ none ∧
    checkIs (base.checked o true true [⟨(base.fctx.gr 2).toNat, 64, 0⟩]) = 0 ∧
    checkIs (base.checked o true true [⟨(sp 65536).toNat, 64, 0⟩]) = 2 ∧ (sp 96).toNat % 64 ≠ 0 ∧
    (2 ^ 56 + 2 ^ 21) % 64 = 0 ∧ placeOf (2 ^ 56 + 2 ^ 21) = none := by decide +kernel

/-! ## Witnesses: the creation of ops -/

/-- The load stream executes with these registers of records. -/
def creating (h : Vector (Option ShapeReg) 16) (n : Option NestReg) (l : List Op) : State :=
  { world .load { regs with h := h, n := Vector.replicate 8 n, aL := regs.aL.set 5 (sp 32768) } with ops := l, nextOid := 9 }

/-- An op that is asked for on a channel, which releases every class, and clears a bitmap or none. -/
def asking (chan : Fin 8) (bmap : W64) : NewOp := ⟨copyKind, chan, 0, false, false, 0, 0xFFFF, 256, bmap, false⟩

/-- An instruction may create its op. -/
def createB (t : Tok) (r : List Nat) (n : NewOp) (s : State) : Bool :=
  readyB t r 0 0 0 0 s && s.fctx.chuse.getLsbD n.chan.val && decide (placesTaken s s.fcore n.chan < 8) &&
  (n.bmap == 0 || !maskPending (s.entered t 0 0).fctx s.fstr n.rmask)

theorem create_of {t : Tok} {r : List Nat} {n : NewOp} {s : State} (h : createB t r n s = true) : MayCreate t r n s := by
  simp only [createB, Bool.and_eq_true, Bool.or_eq_true, beq_iff_eq, Bool.not_eq_true', decide_eq_true_eq] at h
  obtain ⟨⟨⟨h1, h2⟩, h3⟩, h4⟩ := h
  exact ⟨ready_of h1, h2, h3, h4⟩

/-- Seven ops of channel 3 leave the last place. -/
def seven : List Op := List.replicate 7 { op5 copyKind .queued with chan := 3 }

/-- CPY and CPYC of 65,536 bytes, with landing and version words. -/
theorem witness_copies :
    (let r : NestReg := { nest1 with ebytes := 256, counts := #v[256, 1, 1, 1, 1, 1], lwaddr := sp 16, vwaddr := sp 8 }
     let s := creating (Vector.replicate 16 none) (some r) seven
     s.fctx.n[(7 : Fin 8)] = some r ∧ MayCreate o [2, 1] (asking 3 0) s ∧ MayCreate o [2, 1, 15] (asking 3 0) s ∧ r.lwaddr ≠ 0 ∧
     (s.fctx.ar .load 2).toNat % 16 = 0 ∧ (s.fctx.ar .load 1).toNat % 16 = 0 ∧ placeOf (s.fctx.ar .load 2).toNat ≠ none ∧
     placeOf (s.fctx.ar .load 1).toNat ≠ none ∧ r.vwaddr ≠ 0 ∧ r.total = 65536) ∧
    (let r : NestReg := { nest1 with ebytes := 16, counts := #v[4097, 1, 1, 1, 1, 1] }
     let s := creating (Vector.replicate 16 none) (some r) []
     s.fctx.n[(0 : Fin 8)] = some r ∧ Ready o [2, 1] s ∧ s.fctx.chuse.getLsbD 0 = true ∧ r.lwaddr = 0 ∧ r.vwaddr = 0 ∧
     65536 < r.total) ∧
    (regs.aL[(4 : Fin 16)]).toNat % 16 ≠ 0 ∧ placeOf (2 ^ 63) = none ∧ (2 ^ 63) % 16 = 0 := by
  refine ⟨⟨by decide +kernel, create_of (by decide +kernel), create_of (by decide +kernel), ?_⟩,
    ⟨by decide +kernel, ready_of (by decide +kernel), ?_⟩, ?_⟩ <;> decide +kernel

/-- A table of FP32 rows, and index records of 1, 65,536 and 65,537 elements. -/
def table4 : ShapeReg := ⟨sp 4096, 256, 16, 64, 0, false, false, 0, 0, 0⟩

def index (rows cols : BitVec 16) : ShapeReg := ⟨sp 64, 256, rows, cols, 12, false, false, 0, 0, 0⟩

theorem witness_gathers :
    gatherForm (.gath o ⟨5, 5, 15, 0, false, true⟩ ⟨0, 0xFFFF, 0, false, false⟩) =
      some (.gath, o, ⟨5, 5, 15, 0, false, true⟩, ⟨0, 0xFFFF, 0, false, false⟩) ∧
    (∀ e ∈ [(index 1 1, true), (index 32768 2, true), (index 65535 2, false)],
      let s := creating ((Vector.replicate 16 (some table4)).set 0 (some e.1)) none []
      createB o [5, 5] (asking 5 (sp 32768)) s = true ∧ s.fctx.h[(15 : Fin 16)] = some table4 ∧ s.fctx.h[(0 : Fin 16)] = some e.1 ∧
      (decide (e.1.fmt = 12 ∧ 1 ≤ e.1.rows.toNat * e.1.cols.toNat ∧ e.1.rows.toNat * e.1.cols.toNat ≤ 65536) = e.2) ∧
      (s.fctx.ar .load 5).toNat % 16 = 0 ∧ placeOf (s.fctx.ar .load 5).toNat ≠ none ∧ tagOf (s.fctx.ar .load 5) = 1 ∧
      placeOf table4.base.toNat ≠ none ∧ tagOf e.1.base = 1 ∧ placeOf e.1.base.toNat ≠ none) ∧
    ((index 1 32).cols.toNat % 2 = 0 ∧ 2 ≤ (index 1 2).cols.toNat ∧ (index 1 32).cols.toNat ≤ 32 ∧ table4.fmt.toNat ≤ 2) ∧
    (creating (Vector.replicate 16 none) none []).fctx.h[(0 : Fin 16)] = none := by decide +kernel

/-- FP32 matrix records: the BF16 tiles of an MMA of one group, one misaligned, one of another format and one too short. -/
def tileA : ShapeReg := ⟨sp 0, 32, 64, 16, 1, false, false, 0, 0, 0⟩

def tileB : ShapeReg := ⟨sp 4096, 128, 16, 64, 1, false, false, 0, 0, 0⟩

/-- The entry A = B = BF16, C = FP32. -/
def entryBf : W64 := 0x11

theorem witness_matrix_ops :
    (let s := creating ((Vector.replicate 16 (some tileA)).set 1 (some tileB)) none []
     let s := s.setCtx 0 { s.fctx with fmt := Vector.replicate 32 entryBf }
     mmaForm (.mma o ⟨3, 0, 1, 4, true, false, false, false, 0⟩) = some (.mma, o, ⟨3, 0, 1, 4, true, false, false, false, 0⟩, none) ∧
     s.fctx.h[(0 : Fin 16)] = some tileA ∧ s.fctx.h[(1 : Fin 16)] = some tileB ∧ MayCreate o [] (asking 4 0) s ∧
     entryFits .mma (fmtEntry s.fctx 4) = true ∧ tileA.fmt.toNat = entA (fmtEntry s.fctx 4) ∧
     tileB.fmt.toNat = entB (fmtEntry s.fctx 4)) ∧
    tileA.sparse = false ∧ tileB.sparse = false ∧ Tile tileA 64 16 ∧ Tile tileB 16 64 ∧ OriginAligned tileA ∧ OriginAligned tileB ∧
    ¬Tile { tileA with rows := 63 } 64 16 ∧ Tile { tileA with rows := 63, pad := true } 64 16 ∧
    ¬OriginAligned { tileA with cols := 17, col0 := 1 } ∧ entryFits .mma 0x811 = false := by
  refine ⟨⟨rfl, by decide +kernel, by decide +kernel, create_of (by decide +kernel), by decide +kernel, by decide +kernel,
    by decide +kernel⟩, ?_⟩
  unfold Tile OriginAligned
  decide +kernel

/-- ZLD and ZST of a record that holds its tile, and of those that fail each check. -/
def tileZ : ShapeReg := ⟨sp 0, 256, 64, 64, 0, false, false, 0, 0, 0⟩

theorem witness_accumulator_moves :
    (let s := creating (Vector.replicate 16 (some tileZ)) none []
     s.fctx.h[(15 : Fin 16)] = some tileZ ∧ MayCreate o [] (asking 4 0) s ∧ Ready o [] s ∧ s.fctx.chuse.getLsbD 4 = true) ∧
    tileZ.sparse = false ∧ Tile tileZ 64 64 ∧ OriginAligned tileZ ∧ tileZ.fmt = 0 ∧
    ¬Tile { tileZ with cols := 63 } 64 64 ∧ ¬OriginAligned { tileZ with cols := 65, col0 := 1 } ∧
    Tile { tileZ with cols := 65, col0 := 1 } 64 64 ∧ ¬((1 : BitVec 4) = 0 ∨ (1 : BitVec 4) = 12) ∧
    (let s := creating (Vector.replicate 16 none) none []
     Ready o [] s ∧ s.fctx.h[(0 : Fin 16)] = none) := by
  refine ⟨⟨by decide +kernel, create_of (by decide +kernel), ready_of (by decide +kernel), by decide +kernel⟩, ?_⟩
  unfold Tile OriginAligned
  refine ⟨by decide +kernel, by decide +kernel, by decide +kernel, by decide +kernel, by decide +kernel, by decide +kernel,
    by decide +kernel, by decide +kernel, ready_of (by decide +kernel), by decide +kernel⟩

/-- A channel that the kernel does not name; eight ops in one; and one that waits for a place. -/
theorem witness_full_channel :
    (let s := world .load { regs with chuse := 0xFE }
     blocked s.fctx .load = false ∧ loopSplits s = false ∧ s.fctx.chuse.getLsbD 0 = false) ∧
    (let s := creating (Vector.replicate 16 none) (some nest1) ({ op5 copyKind .queued with chan := 3 } :: seven)
     readyB o [2, 1] 0 0 0 0 s = true ∧ s.fctx.chuse.getLsbD 3 = true ∧ s.fctx.n[(0 : Fin 8)] = some nest1 ∧
     8 ≤ placesTaken s 0 3 ∧ (s.fctx.ar .load 2).toNat % 16 = 0 ∧ (s.fctx.ar .load 1).toNat % 16 = 0) ∧
    (∀ l ∈ [seven, { op5 copyKind .queued with chan := 3 } :: seven],
     let s := creating (Vector.replicate 16 none) (some nest1) l
     let s := s.setCtx 0 { s.fctx with str := s.fctx.str.set 1 { strm0 with stalled := some 3 } }
     ((s.ctx 0).strm .load).stalled = some 3 ∧ (placesTaken s 0 3 < 8 ↔ l.length = 7)) := by
  decide +kernel

/-! ## Witnesses: drains, tile origins and invalidation -/

theorem witness_fidx :
    Ready o [] queued ∧ (∀ p ∈ queued.fctx.pend, p.dst ≠ .v 23) ∧
    (∃ p, oldest queued.fctx.iq[(7 : QNum)] queued.cycle = some p ∧ p.poison = false ∧ ones = p.data) ∧
    queued.fctx.h[(0 : Fin 16)] = none ∧ (creating (Vector.replicate 16 (some tileZ)) none []).fctx.h[(15 : Fin 16)] = some tileZ := by
  refine ⟨ready_of (by decide +kernel), by decide +kernel, ⟨entry1, by decide +kernel⟩, by decide +kernel, by decide +kernel⟩

/-- A drain queue with n entries, format entry e in every place. -/
def draining (n : Nat) (e : W64) : State :=
  world .math { regs with drains := List.replicate n (default : Drain), fmt := Vector.replicate 32 e }

/-- ZDRN by an entry with a bias, with vS at its last place and one past it, and with fifteen and sixteen entries. -/
theorem witness_drains_issue :
    (∀ n ∈ [15, 16], readyB o [] 0 0 0 0 (draining n (2 * 2 ^ 22)) = true ∧ (draining n (2 * 2 ^ 22)).fctx.drains.length = n) ∧
    (let e := fmtEntry (draining 15 (2 * 2 ^ 22)).fctx 30
     entC e = 0 ∧ entO e ≤ 9 ∧ entScl e = 2 ∧ (21 : VReg).val ≤ 21 ∧ ¬(22 : VReg).val ≤ 21 ∧
     ∀ p ∈ (draining 15 (2 * 2 ^ 22)).fctx.pend, p.dst ≠ .v 21) ∧
    ¬(entO 0xB000 ≤ 9 ∨ entO 0xB000 = 12) := by decide +kernel

/-- One clear and one drain of a row in the queue, which come first in their accumulator's order. -/
theorem witness_drains_run :
    ∀ d ∈ [{ (default : Drain) with id := 4, z := 3, clear := true }, { (default : Drain) with id := 4, z := 3, rows := 1, row := 63 }],
      let s := world .math { regs with drains := [d], zorder := [(3, .drain 4)] }
      (s.ctx 0).drains = [d] ∧ zFree (s.ctx 0) d.z (.drain d.id) = true ∧ d.out = [] ∧ (s.ctx 0).mathEnd = false ∧
      (s.ctx 0).mq.length < 16 ∧ entScl d.ent = 0 ∧ entC d.ent = 0 ∧ entO d.ent = 0 ∧ entFzo d.ent = false ∧
      (d.clear = false → d.rows = 1) := by decide +kernel

theorem witness_tinv :
    (let s := world .store { regs with priv := true }
     blocked s.fctx .store = false ∧ loopSplits s = false ∧ s.fctx.priv = true ∧ readyB o [] 0 0 0 0 s = true) ∧
    base.fctx.priv = false := by decide +kernel

theorem idle_elsewhere (st : Stream) (x : Ctx) (c : CoreId) (h : c ≠ 0) : (world st x).core c = Core.reset := by
  have hv : (0 : Nat) ≠ c.val := fun e => h (Fin.ext e.symm)
  simp [world, State.core, State.reset, hv]

/-- A machine whose one busy core is core 0 holds no write when that core holds none. -/
theorem held_none (st : Stream) (x : Ctx) (h : (allStreams.all fun su => (x.strm su).accs.all (·.heldAt.isNone)) = true) :
    heldRefs (world st x) = [] := by
  have hc : ∀ (c : CoreId), ∀ su ∈ allStreams, (((world st x).ctx c).strm su).accs.filter (·.heldAt.isSome) = [] := by
    intro c su hsu
    by_cases hc : c = 0
    · subst hc
      have hx : (world st x).ctx 0 = x := by simp [world, State.ctx, State.core]
      rw [hx, List.filter_eq_nil_iff]
      intro a ha
      have := (List.all_eq_true.1 ((List.all_eq_true.1 h) su hsu)) a ha
      simpa using this
    · simp only [State.ctx, idle_elsewhere st x c hc]
      cases su <;> rfl
  have h1 : ((List.finRange 640).map fun c => (allStreams.map fun su =>
      ((((world st x).ctx c).strm su).accs.filter (·.heldAt.isSome)).map (HeldRef.strm c su)).flatten).flatten = [] := by
    rw [List.flatten_eq_nil_iff]
    intro l hl
    obtain ⟨c, -, rfl⟩ := List.mem_map.1 hl
    rw [List.flatten_eq_nil_iff]
    intro m hm
    obtain ⟨su, hsu, rfl⟩ := List.mem_map.1 hm
    rw [hc c su hsu]; rfl
  unfold heldRefs
  rw [h1]
  rfl

/-- An invalidation whose marker stands behind a running op, and one with nothing ahead of it. -/
theorem witness_invalidations :
    base.ports[(1 : Fin 2)].xinv = false ∧ base.mgmt.ready = true ∧ State.reset.mgmt.ready = false ∧
    (let v : Inval := { (default : Inval) with num := 4, ahead := [3], host := true }
     let s : State := { base with invals := [v], ops := [op5 copyKind .running] }
     s.invals.find? (·.num == v.num) = some v ∧ (3 ∈ v.ahead ∧ settled s 3 = false)) ∧
    (let v : Inval := { (default : Inval) with num := 4, ahead := [3] }
     let s : State := { base with invals := [v] }
     s.invals.find? (·.num == v.num) = some v ∧ settled s 3 = true ∧ v.accs = [] ∧ s.coreOfSlot v.slot = some 0 ∧
     heldRefs s = []) := by
  refine ⟨?_, ?_, ?_, ?_, ?_, ?_, ?_, ?_, held_none .ctl regs (by decide +kernel)⟩ <;> decide +kernel

/-! ## Witnesses: fabric ops -/

/-- A descriptor that notifies, with every field at its greatest value. -/
def desc1 (notify : Nat) : W64 :=
  BitVec.ofNat 64 (15 + 2 * 2 ^ 4 + 3 * 2 ^ 6 + notify * 2 ^ 8 + 2 ^ 9 + 2 ^ 10 + 0xFFFF * 2 ^ 16 + 639 * 2 ^ 32 + (2 ^ 21 - 16) * 2 ^ 43)

/-- The registers a4 and a5 of both streams: a gang address of the last rank, and a descriptor; a6 a set of two ranks, a7 of
none. -/
def fabRegs (w : W64) : Ctx :=
  let f (a : Vector W64 16) : Vector W64 16 :=
    (((a.set 4 (BitVec.ofNat 64 (2 ^ 63 + (2 ^ 20 - 1) * 2 ^ 43 + 16))).set 5 w).set 6 (BitVec.ofNat 64 (5 + 2 * 2 ^ 20 + 7 * 2 ^ 40))).set 7 0
  { regs with aL := f regs.aL, aS := f regs.aS, oq := Vector.replicate 8 [entry1] }

/-- RLD, RST, RAMO with RET and MCST that may be accepted. -/
theorem witness_fabric_ops :
    ∀ e ∈ [(Instr.rld o 0 4 4095, 0), (.rst o 7 4 4095, 1), (.ramo o .cas 15 4 1 true true, 1), (.mcst o 7 4 6, 1)],
      let s := world .store (fabRegs (desc1 e.2))
      ∃ f, fabricForm e.1 s.fstr s.fctx = some f ∧ readyB f.tok f.regs 0 0 0 0 s = true ∧ s.fctx.fab = true ∧
        s.fctx.chuse.getLsbD 6 = true ∧ f.good ∧ f.va.toNat % f.align = 0 ∧ 2 ^ 63 ≤ f.base.toNat ∧
        f.base.toNat / 2 ^ 43 = f.va.toNat / 2 ^ 43 ∧ (∀ q, f.pop = some q → oldest s.fctx.oq[q] s.cycle ≠ none) ∧
        (∀ q, f.fill = some q → s.fctx.iq[q].length < 4) ∧ placesTaken s 0 6 < 8 ∧
        maskPending (s.entered f.tok 0 0).fctx s.fstr 0xFFFF = false := by
  intro e h
  simp only [List.mem_cons, List.mem_nil_iff, or_false] at h
  rcases h with rfl | rfl | rfl | rfl <;> refine ⟨_, rfl, ?_⟩ <;> unfold descGood <;> decide +kernel

/-- A graph without FAB, a kernel without channel 6, a bad descriptor and set, a bad address, an empty oq and a full iq. -/
theorem witness_fabric_checks :
    (let s := world .load { fabRegs (desc1 0) with fab := false }
     blocked s.fctx .load = false ∧ loopSplits s = false ∧ s.fctx.fab = false) ∧
    (let s := world .load { fabRegs (desc1 0) with chuse := 0xBF }
     s.fctx.fab = true ∧ s.fctx.chuse.getLsbD 6 = false) ∧
    ¬descGood (desc1 0 ||| 0x30) ∧ ¬descGood (BitVec.ofNat 64 (640 * 2 ^ 32)) ∧ ¬descGood (BitVec.ofNat 64 (2 ^ 43)) ∧
    descGood (desc1 0) ∧
    (let s := world .store { fabRegs (desc1 0) with oq := Vector.replicate 8 [] }
     readyB o [4, 5] 0 0 0 0 s = true ∧ s.fstrm.stamp = none ∧ oldest s.fctx.oq[(7 : QNum)] s.cycle = none) ∧
    (let s := world .load { fabRegs (desc1 0) with iq := Vector.replicate 8 [entry1, entry1, entry1, entry1] }
     readyB o [4, 5] 0 0 0 0 s = true ∧ 4 ≤ s.fctx.iq[(0 : QNum)].length) ∧
    ((sp 64).toNat < 2 ^ 63) := by
  unfold descGood
  decide +kernel

/-- RRED of the last member of a set of two: descriptor and address. -/
theorem witness_rred :
    let w := 15 + 2 * 2 ^ 43
    let s := world .load (let x := fabRegs (BitVec.ofNat 64 w)
      { x with aL := x.aL.set 4 (BitVec.ofNat 64 (2 ^ 63 + 16)) })
    let s := s.updPart 0 fun p => { p with ownrank := 1 }
    let bse := s.fctx.ar .load 4
    let v := (s.fctx.ar .load 5).toNat
    readyB o [4, 5] 0 0 0 0 s = true ∧ s.fctx.fab = true ∧ s.fctx.chuse.getLsbD 7 = true ∧ v / 2 ^ 4 % 4 ≠ 3 ∧
    v / 2 ^ 11 % 2 ^ 5 = 0 ∧ v / 2 ^ 42 % 2 = 0 ∧ v / 2 ^ 32 % 2 ^ 10 < 640 ∧ v / 2 ^ 63 = 0 ∧ v / 2 ^ 8 % 2 = 0 ∧
    v / 2 ^ 43 % 2 ^ 20 = 2 ∧ bse.toNat / 2 ^ 43 % 2 ^ 20 = 0 ∧ (s.parts[s.partOfCore 0]).ownrank = 1 ∧ bse.toNat % 16 = 0 ∧
    2 ^ 63 ≤ bse.toNat ∧ s.fctx.iq[(7 : QNum)].length < 4 ∧ placesTaken s 0 7 < 8 ∧
    maskPending (s.entered o 0 0).fctx .load 0 = false ∧ (∀ p ∈ s.ops, p.oid < s.nextOid) := by decide +kernel

/-- COLLs of a set of two, of 256 bytes, and a barrier. -/
theorem witness_coll :
    let v := 2 * 2 ^ 20 + 2 ^ 40 + 256 * 2 ^ 64
    let s := { world .load regs with mem := Memory.writeL [] (spadKey 0 64) (toBytes 32 v) }
    collForm (.collAllred o 2 1 2 3 true true) = some (.allred, o, some (2, 2), 1, 3, true, true) ∧
    collForm (.collBarrier o 1 0 false false) = some (.barrier, o, none, 1, 0, false, false) ∧
    readyB o [1, 2, 2] 0 0 0 0 s = true ∧ s.fctx.fab = true ∧ s.fctx.chuse.getLsbD 7 = true ∧
    releasePending (s.entered o 0 0).fctx .load = false ∧
    (recordBytes (s.entered o 0 0) (s.fctx.ar .load 1) 32 32).toOption = some (toBytes 32 v) ∧
    collBad .allred v (s.parts[s.partOfCore 0]).ownrank = false ∧ collBad .barrier v 0 = false ∧
    (s.fctx.ar .load 2).toNat % 16 = 0 ∧ tagOf (s.fctx.ar .load 2) = 1 ∧ placeOf (s.fctx.ar .load 2).toNat ≠ none ∧
    placesTaken s 0 7 < 8 ∧ maskPending (s.entered o 0 0).fctx .load 0xFFFF = false ∧ (∀ p ∈ s.ops, p.oid < s.nextOid) := by
  intro v s
  refine ⟨rfl, rfl, ?_⟩
  decide +kernel

/-! ## Witnesses: the units of ops -/

/-- An op of the task, with its rights. -/
def op6 (k : OpKind) (st : OpStatus) : Op :=
  { op5 k st with rights := { (default : Rights) with size := 65536, live := true } }

/-- The task's machine with these ops. -/
def working (l : List Op) : State := { base with ops := l, nextOid := 9 }

/-- Which of two equal ops an engine takes: the one accepted first, then the lower channel. -/
theorem witness_engine_order :
    (let a := op6 copyKind .running
     let b := { op6 copyKind .queued with oid := 4, accepted := 99 }
     let c := { op6 copyKind .queued with oid := 5, chan := 7 }
     let s := working [b, c, a]
     (∀ q ∈ s.ops, q.accepted < 2 ^ 64) ∧ enginePick s 0 (·.kind.isCopy) = some a) ∧
    ((nest1.counts.toList.all fun c => c != 0) = true ∧ 0 < nest1.ebytes.toNat) := by decide +kernel

/-- How a write ends. -/
def wroteIs (p : State × Wrote) : Nat :=
  match p.2 with
  | .done => 0
  | .held => 1
  | .fault .. => 2

/-- COPY_BURST that reads and writes, whose write is held or faults, and whose read faults: of an op whose turn it is, of one
whose burst has begun, and of one that must wait. -/
theorem witness_copy_bursts :
    ∀ f ∈ [(false, OpStatus.queued), (true, .running), (true, .queued)], ∀ e ∈ [(sp 64, sp 4096, true, 0), (sp 64, 0x40000000, true, 1), (sp 64, 0x80000000, true, 2), (0x80000000, sp 64, false, 0)],
      let n := { nest1 with ebytes := 16 }
      let op := op6 (.copy e.1 e.2.1 n false none none) .queued
      let op := { op with rights := { op.rights with root := 65536 }, flying := f.1, status := f.2 }
      let s := { paged regs with ops := [op] }
      let u := burstAt e.1 e.2.1 n op.cursor
      let rd := readVa (beginCopy s op) 0 (op.accessRights (beginCopy s op)) u.1.toNat u.2.2
      s.findOp 3 = some op ∧ (f.1 = false → CopyTurn s op) ∧ (f.1 = true → (canFinish s op = true ↔ f.2 = .running)) ∧
      rd.2.toOption.isSome = e.2.2.1 ∧
      (e.2.2.1 = true → wroteIs (writeVa rd.1 0 (op.accessRights rd.1) u.2.1.toNat (rd.2.toOption.getD [])) = e.2.2.2) := by
  unfold CopyTurn
  decide +kernel

/-- A CPYC whose stage is short, and one whose stage is whole, with the expected version and another. -/
theorem witness_conditional_copies :
    ∀ e ∈ [((0 : W64), 0), (0, 256), (7, 256)],
      let st : List Byte := List.replicate e.2 0
      let n := { nest1 with vwaddr := sp 8 }
      let op := op6 (.copy (sp 64) (sp 4096) n false (some e.1) (some st)) .running
      let s := working [op]
      s.findOp 3 = some op ∧ op.flying = false ∧ CopyTurn s op ∧
      (canFinish (working [{ op with flying := true }]) { op with flying := true } = true) ∧
      (st.length < op.total → (readVa (beginCopy s op) 0 (op.accessRights (beginCopy s op)) (burstAt (sp 64) (sp 4096) n st.length).1.toNat
        (burstAt (sp 64) (sp 4096) n st.length).2.2).2.toOption.isSome = true) ∧
      (op.total ≤ st.length → ∃ bs, (readVa (beginCopy s op) 0 (op.accessRights (beginCopy s op)) n.vwaddr.toNat 8).2.toOption = some bs ∧
        (BitVec.ofNat 64 (ofBytes bs) = e.1 ↔ e.1 = 0)) := by
  intro e he
  refine ⟨?_, rfl, ?_, rfl, ?_, fun _ => ⟨List.replicate 8 0, ?_⟩⟩
  · revert e; decide +kernel
  · unfold CopyTurn; revert e; decide +kernel
  · revert e; decide +kernel
  · revert e; decide +kernel

/-- A copy of a replay whose recorded order names another first, after and before 4,096 cycles. -/
theorem witness_copy_order :
    ∀ at_ ∈ [4196, 4195],
      let op := { op6 copyKind .queued with accepted := 100, copyAt := some ⟨0, 0, 0, 0⟩ }
      let y : Yelm := { (default : Yelm) with copies := [⟨0, 0, 1, 0⟩, ⟨0, 0, 0, 0⟩] }
      let s : State := { working [op] with cycle := at_, graphs := [{ net with mode := .replay 0 }] }
      let s := s.updPart 0 fun p => { p with yelms := [y] }
      s.findOp 3 = some op ∧ op.kind.isCopy = true ∧ op.status = .queued ∧ canUnit s op = true ∧
      copyTurn s op = false := by decide +kernel

/-- An element of a gather at an index in its table and one past it. -/
theorem witness_gather_elements :
    ∀ e ∈ [(GatherKind.gath, 15), (.scat, 15), (.gath, 16)],
      let op := op6 (.gather e.1 (sp 8192) table4 (index 1 1) false [] []) .queued
      let s := { working [op] with mem := Memory.writeL [] (spadKey 0 64) (toBytes 4 e.2) }
      let h := index 1 1
      let p := opRead op s (h.row (0 / h.cols.toNat) + BitVec.ofNat 64 (4 * (0 % h.cols.toNat))) 4
      e.1 ≠ .gred ∧ 0 < h.cols.toNat ∧ p.2.toOption = some (toBytes 4 e.2) ∧ ofBytes (toBytes 4 e.2) = e.2 ∧
      (e.2 < 16 → (opRead op p.1 (if e.1 = .scat then sp 8192 else table4.row e.2) table4.rowBytes).2.toOption.isSome = true) := by
  decide +kernel

/-- GATHER_ELEMENT of the only element, which is performed, faults or goes to gq: of an op whose turn it is, of one whose
element has begun, and of a paused one. -/
theorem witness_gather_performs :
    ∀ f ∈ [(OpStatus.queued, 0), (.running, 1), (.paused, 0)],
    ∀ e ∈ [(GatherKind.gath, false, 15), (.scat, false, 15), (.gath, false, 16), (.gath, true, 0)],
      let op := { op6 (.gather e.1 (sp 8192) table4 (index 1 1) e.2.1 [] []) f.1 with total := 1, elems := f.2 }
      let s := { working [op] with mem := Memory.writeL [] (spadKey 0 64) (toBytes 4 e.2.2) }
      s.findOp 3 = some op ∧
      ((enginePick s 0 (fun q => q.kind.isGather && q.elems < q.total)).map (·.oid) = some op.oid ↔ f.1 = .queued) ∧
      (elemFinishes s op = true ↔ f.1 = .running) ∧ gatherWaits s 0 = false ∧ op.cursor < op.total ∧ op.bmap = 0 ∧
      (let p := element op e.1 (sp 8192) table4 (index 1 1) 0 s
       p.2.toOption.isSome = decide (e.2.2 < 16) ∧
       ∀ r ∈ p.2.toOption, r.2.2 = 0 ∧ (e.2.1 = false → wroteIs (writeVa p.1 0 (op.accessRights p.1) r.1.toNat r.2.1) = 0)) := by
  decide +kernel

/-- ENGINE_PUSH into a gq with room and into a full one. -/
theorem witness_gather_pushes :
    ∀ n ∈ [15, 16],
      let op := { op6 (.gather .gath 0 table4 (index 1 1) true [(0, false)] [ones, ones]) .running with total := 1 }
      let s := { world .ctl { regs with gq := List.replicate n entry1 } with ops := [op] }
      (s.ops.find? fun q => q.rights.pcore == (0 : CoreId).val && pushesNow s q) = some op ∧
      s.home op = .core 0 ∧ s.noPopper op = false ∧ (s.ctx 0).gq.length = n ∧ [ones] ≠ [] ∧ s.findOp op.oid = some op := by
  decide +kernel

/-- An MMA of one group whose turn it is, on the array of the task's own core. -/
def mma1 (size : Nat) : Op :=
  { op6 (.mma .mma 0 tileA tileB none entryBf .rne false false false none) .queued with
    total := 1, chan := 4, rights := { (default : Rights) with size := size, live := true } }

theorem witness_k_groups :
    (∀ n ∈ [65536, 0],
      let op := mma1 n
      let s := { world .ctl { regs with zorder := [(0, .op 3)] } with ops := [op], tasks := [{ job with size := n }] }
      s.findOp 3 = some op ∧ s.home op = .core 0 ∧ op.owner.isSome = true ∧ op.adopted = false ∧
      matrixPick s (engineOf op) = some op ∧
      (groupStep op .mma tileA tileB none entryBf .rne false false false ((s.ctx 0).z[0]) s).2.toOption.isSome = decide (n ≠ 0)) ∧
    (let op := mma1 65536
     let s := working [op]
     let p := groupCodes op tileA true op.cursor s
     p.2.toOption.isSome = true ∧ (groupCodes op tileB false op.cursor p.1).2.toOption.isSome = true ∧
     entC entryBf = 0 ∧ entC 0xC88 ≠ 0) := by decide +kernel

/-- ACCUMULATOR_ROW of a ZLD and a ZST, on a row in the record and on one past it. -/
theorem witness_accumulator_rows :
    ∀ e ∈ [(0, false), (0, true), (63, false), (63, true)],
      let h := { tileZ with rows := 63, pad := true }
      let op := { op6 (if e.2 then .zst 3 h else .zld 3 h) .running with total := 64, cursor := e.1 }
      let s := { world .ctl { regs with zorder := [(3, .op 3)] } with ops := [op] }
      s.findOp 3 = some op ∧ s.home op = .core 0 ∧ matrixPick s (engineOf op) = some op ∧ op.cursor < 64 ∧
      (h.rows.toNat - h.row0.toNat ≤ op.cursor ↔ e.1 = 63) ∧
      (e.1 = 0 → (opRead op s (sp 0) 256).2.toOption.isSome = true ∧
        wroteIs (writeVa s 0 (op.accessRights s) (sp 0).toNat ((vecBytes (s.ctx 0).z[(3 : Fin 4)][(0 : Fin 64)]).take 256)) = 0) := by
  decide +kernel

/-- An op of core 0 that core 1 may pull, and core 1's engine idle or not. -/
theorem witness_pulls :
    ∀ busy ∈ [false, true],
      let h : ShapeReg := { tileA with base := 0 }
      let op := { op6 (.mma .mma 0 h h none entryBf .rne false false false none) .queued with chan := 4, rel := true, total := 1 }
      let q := { op6 copyKind .queued with oid := 4, chan := 4, rights := { op.rights with pcore := 1 } }
      let s := { world .ctl { regs with zorder := [(0, .op 3)] } with ops := if busy then [op, q] else [op] }
      (∀ v ∈ s.evict, v.1 ≠ (1 : CoreId)) ∧ ({ s with evict := [(1, 0)] } : State).evict.any (·.1 == 1) = true ∧
      op ∈ s.ops ∧ mayPull s op = true ∧ op.rights.pcore / 8 = (1 : CoreId).val / 8 ∧ op.rights.pcore ≠ (1 : CoreId).val ∧
      (s.homeCtx op).isSome = true ∧ (∀ p ∈ s.ops, p ≠ op → mayPull s p = false) ∧ (∀ p ∈ s.ops, p.seq < 2 ^ 40) ∧
      ((∀ p ∈ s.ops, p.status.isLive = true → ¬(p.rights.pcore = (1 : CoreId).val ∧ p.chan = 4) ∧
        (p.kind.isMma = true → engineOf p ≠ 1)) ↔ busy = false) := by decide +kernel

theorem witness_ops_complete :
    ∀ e ∈ [(OpStatus.faulted, false, 0), (.done, false, 0), (.paused, false, 0), (.paused, true, 0), (.running, true, 0),
        (.queued, false, 0), (.running, false, 255), (.running, false, 256)],
      let op := { op6 copyKind e.1 with cancel := e.2.1, cursor := e.2.2 }
      let s := working [op]
      s.findOp 3 = some op ∧ op.kind.isFabric = false ∧ op.kind.runsOn = false ∧ op.kind.pushes = [] ∧ s.notifies = [] ∧
      op.total = 256 := by decide +kernel

/-- A notification of 256 bytes at a landing word: below its target, at it, at the greatest count and past it. -/
theorem witness_notifications :
    ∀ e ∈ [(257, 0), (256, 0), (0, 2 ^ 32 - 257), (0, 2 ^ 32 - 256)],
      let op := op6 copyKind .running
      let n : Notify := ⟨3, sp 64, 256⟩
      let s := { landing e.1 e.2 0 with ops := [op], notifies := [n] }
      s.findOp n.oid = some op ∧ op.status ≠ .faulted ∧ placeOf n.va.toNat = some (.own 64) ∧
      ((s.issuer op).bind (·.image)).isNone = true ∧ s.mem.wf = true ∧
      (let r := op.accessRights s
       r.base ≤ 64 ∧ 64 + 16 ≤ r.base + r.size ∧ inForeign s r r.lcore 64 16 = false) ∧
      ((landRead s.mem (spadKey 0 64)).count + n.bytes < 2 ^ 32 ↔ e.2 ≠ 2 ^ 32 - 256) ∧ op.status.isLive = true ∧
      op.kind.runsOn = false ∧ op.owner.isSome = true := by decide +kernel

/-- The held writes of a machine whose one busy core is core 0. -/
theorem held_eq (s : State) (st : Stream) (x : Ctx) (h : s.cores = (world st x).cores) :
    heldRefs s = (allStreams.map fun su => ((x.strm su).accs.filter (·.heldAt.isSome)).map (HeldRef.strm 0 su)).flatten ++
      (s.ops.filterMap fun o => o.held.map (HeldRef.op o)) ++
      (s.fabric.seqs.filterMap fun q => (q.ops.find? (·.heldAt.isSome)).map (HeldRef.remote q)) := by
  have hx : s.ctx 0 = x := by simp [State.ctx, State.core, h, world]
  have hr : ∀ c : CoreId, c ≠ 0 → s.ctx c = Ctx.reset := by
    intro c hc
    have := idle_elsewhere st x c hc
    simp only [State.core] at this
    simp only [State.ctx, State.core, h, this]
    rfl
  unfold heldRefs
  rw [List.finRange_succ]
  simp only [List.map_cons, List.flatten_cons, hx]
  have he : (List.map (fun c => (List.map (fun st => List.map (HeldRef.strm c st)
      (((s.ctx c).strm st).accs.filter (·.heldAt.isSome))) allStreams).flatten) (List.map Fin.succ (List.finRange 639))).flatten = [] := by
    rw [List.flatten_eq_nil_iff]
    intro l hl
    obtain ⟨c, hc, rfl⟩ := List.mem_map.1 hl
    obtain ⟨d, -, rfl⟩ := List.mem_map.1 hc
    rw [hr _ (Fin.succ_ne_zero d)]
    rfl
  rw [he, List.append_nil]

/-- A store held since cycle 100, which walks again, and which is given up. -/
def heldStore : Access := { access 1 .store (2 ^ 30) with heldAt := some 100, va := 0x40000000, stalls := true }

/-- The machine with it at a cycle. -/
def holdingAt (n : Nat) : State :=
  { paged { regs with str := regs.str.set 0 { strm0 with accs := [heldStore] } } with cycle := n }

theorem witness_held_writes :
    ((heldRefs (holdingAt 4196))[0]? = some (.strm 0 .ctl heldStore) ∧ 100 < 4196 ∧ (4196 - 100) % 4096 = 0 ∧ (4195 - 100) % 4096 ≠ 0) ∧
    (100 + 2400000 ≤ (holdingAt 2400100).cycle ∧ ((holdingAt 2400100).core 0).run = .running 0 ∧
      ((holdingAt 2400100).findTask 0).isSome = true) ∧
    (let op := op6 copyKind .running
     let u : HeldUnit := ⟨100, sp 64, [1], 0⟩
     let s : State := { working [{ op with held := some u }] with cycle := 2400100 }
     (heldRefs s)[0]? = some (.op { op with held := some u } u) ∧ op.kind.isCopy = true ∧
     s.findOp op.oid = some { op with held := some u }) := by
  refine ⟨⟨?_, by decide +kernel⟩, by decide +kernel, ⟨?_, by decide +kernel⟩⟩
  · have h := held_eq (holdingAt 4196) .ctl { regs with str := regs.str.set 0 { strm0 with accs := [heldStore] } } rfl
    rw [h]; rfl
  · have h := held_eq { working [{ op6 copyKind .running with held := some ⟨100, sp 64, [1], 0⟩ }] with cycle := 2400100 } .ctl regs rfl
    rw [h]; rfl

/-- A held store that stays held, and one whose page is released. -/
theorem witness_held_release :
    ∀ e ∈ [(2 ^ 30, 1), (2 ^ 29, 0)],
      let a := { heldStore with all := [⟨e.1, 4, 0⟩] }
      let s := paged { regs with str := regs.str.set 0 { strm0 with accs := [a] } }
      let l : List Piece := a.all.map fun u => ⟨u.key, u.len, u.off⟩
      checkIs (freshWalk 0 (fun s => checkPieces 0 (rightsOf s 0) true true false s l [] none false) s) = e.2 ∧
      s.mem.wf = true ∧ (∀ b ∈ ((s.ctx 0).strm .ctl).accs, b.id = a.id → b = a) ∧ a ∈ ((s.ctx 0).strm .ctl).accs := by
  decide +kernel

/-! ## Witnesses: buffers and rotation -/

/-- A buffer of 256 bytes in slot j, which the task holds. -/
def buffer (j : Nat) : Buffer :=
  { (default : Buffer) with live := true, slot := j, addr := 256 * j, size := 256, holder := some 0 }

/-- The control stream with g1 and g2, and these buffers. -/
def buffering (a b : W64) (l : List Buffer) : State :=
  { world .ctl { regs with g := (regs.g.set 1 a).set 2 b } with buffers := l }

/-- BMAKE: misaligned, too large, in no own scratchpad, past the range, in it at its end, over a buffer, and with sixteen. -/
theorem witness_bmake :
    (∀ e ∈ [(sp 128, 256, 0), (sp 256, 255, 0), (sp 0, 2097408, 0), (0x1000, 256, 1), (sp 65536, 256, 2), (sp 65280, 256, 4),
        (sp 3840, 256, 3)],
      let s := buffering e.1 (BitVec.ofNat 64 e.2.1) [buffer 15]
      let n := (s.fctx.gr 2).toNat
      readyB o [31, 1, 2] 0 0 0 0 s = true ∧
      ((s.fctx.gr 1).toNat % 256 = 0 ∧ n % 256 = 0 ∧ 256 ≤ n ∧ n ≤ 2097152 ↔ e.2.2 ≠ 0) ∧
      (1 < e.2.2 → placeOf (s.fctx.gr 1).toNat = some (.own ((s.fctx.gr 1).toNat % 2 ^ 56))) ∧
      (e.2.2 = 1 → placeOf (s.fctx.gr 1).toNat = some (.dv 0x1000)) ∧
      (let off := (s.fctx.gr 1).toNat % 2 ^ 56
       (e.2.2 = 2 → ¬(s.fctx.base ≤ off ∧ off + n ≤ s.fctx.base + s.fctx.size)) ∧
       (2 < e.2.2 → s.fctx.base ≤ off ∧ off + n ≤ s.fctx.base + s.fctx.size ∧
        ((∀ b ∈ s.buffers, b.addr + b.size ≤ off ∨ off + n ≤ b.addr) ↔ e.2.2 = 4)))) ∧
    (let s := buffering (sp 4096) 256 ((List.range 16).map buffer)
     readyB o [31, 1, 2] 0 0 0 0 s = true ∧ (∀ j < 16, ∃ b ∈ s.buffers, b.live = true ∧ b.slot = j) ∧
     ∀ b ∈ s.buffers, b.addr + b.size ≤ 4096 ∨ 4096 + 256 ≤ b.addr) := by decide +kernel

/-- Handles of the first and the last buffer, and of none; the task's own position, a member's, and another. -/
theorem witness_buffer_handles :
    (∀ e ∈ [(0, 0), (15, 2 ^ 18 - 1)],
      let b := { buffer e.1 with gen := e.2 }
      let s := buffering (BitVec.ofNat 64 b.handle) 0 [b]
      heldNamed s (s.fctx.gr 1) = some b ∧ b.orig < 1024 ∧ b.slot < 16 ∧ b.gen < 2 ^ 18 ∧ readyB o [1, 2] 0 0 0 0 s = true ∧
      releasePending (s.entered o 0 0).fctx .ctl = false) ∧
    heldNamed (buffering (2 ^ 32) 0 [buffer 0]) (2 ^ 32) = none ∧
    (∀ e ∈ [(1, 0, true), (1, 1, false), (8, 7, true), (8, 8, false)],
      let k := { job with tsize := e.1 }
      let s : State := { buffering 0 (BitVec.ofNat 64 e.2.1) [buffer 0] with tasks := [k] }
      s.mytask = some k ∧ (((s.fctx.gr 2).toNat = s.fctx.lcore.toNat % 8 ∨ (1 < k.tsize ∧ (s.fctx.gr 2).toNat < k.tsize)) ↔
        e.2.2 = true)) := by decide +kernel

/-- BTAKE of any buffer and of a named one, with an offer of an earlier cycle, one of this cycle and none, issuing and waiting. -/
theorem witness_btake :
    ∀ e ∈ [(99, true), (100, false)],
      let b := { buffer 3 with holder := none, offer := some (0, 7, e.1) }
      let s := buffering (BitVec.ofNat 64 b.handle) 0 [b]
      let t := s.setCtx 0 { s.fctx with str := s.fctx.str.set 0 { strm0 with taken := true } }
      readyB o [4, 1] 0 0 0 0 s = true ∧ s.fstrm.taken = false ∧ t.fstrm.taken = true ∧
      loopAt t.fctx .ctl t.lastWord = none ∧
      (∀ u ∈ [s, t], ∀ n ∈ [none, some (u.fctx.gr 1).toNat], oldestOffer u n = if e.2 then some b else none) := by
  decide +kernel

/-- The task of core 0 and another on core 1. -/
def pair (st : Stream) (x y : Ctx) (t u : Task) : State :=
  { world st x with
    cores := (world st x).cores.set 1 { Core.reset with ctx := y, run := .running 1 }
    tasks := [t, u] }

/-- ROT of u = 0; of a task alone; the first and the last member of a team, with regions that agree and that do not. -/
theorem witness_rot :
    (let s := buffering (sp 0) 0 []
     s.mytask = some job ∧ s.fstrm.taken = false ∧ s.fstr = .ctl ∧ blocked s.fctx .ctl = false ∧ loopSplits s = false ∧
     readyB o [1] 0 0 0 0 s = true ∧ releasePending (s.entered o 0 0).fctx .ctl = false ∧
     (rotRegion s (s.fctx.gr 1) 65536).toOption = some 0 ∧ job.tsize ≤ 1) ∧
    (∀ e ∈ [none, some (RotWait.mk false 256 512 0), some (RotWait.mk false 256 256 0), some (RotWait.mk true 256 512 0)],
      let k := { job with tsize := 2, mpos := 1 }
      let u := { job with slot := 1, tsize := 2, pcore := 1 }
      let s := pair .ctl (atAddr (sp 65024)) { regs with rot := e } k u
      s.mytask = some k ∧ readyB o [1] 0 0 0 0 s = true ∧ releasePending (s.entered o 0 0).fctx .ctl = false ∧
      (rotRegion s (s.fctx.gr 1) 512).toOption = some 65024 ∧ k.mpos < 2 ∧ (1 : CoreId) ≠ s.fcore ∧ s.mem.wf = true ∧
      rotOthers s k = e.map (fun r => [(0, 1, r)]) ∧ 65024 + 512 ≤ 2 ^ 21 ∧ 256 + 512 ≤ 2 ^ 21 ∧
      (s.core s.fcore).run = .running k.slot ∧ (s.core 1).run = .running 1 ∧ 1 ≠ k.slot ∧ (s.findTask 1).isSome = true) := by
  decide +kernel

/-! ## Witnesses: counters and publication -/

/-- Counters of die 0 that are all in use. -/
@[irreducible] def allUsed : List Counter := (List.range 65536).map fun j => ⟨j, 0, .opened, 0, 0, 0⟩

/-- A counter that some entry of the list names is in use when every entry is. -/
theorem counter_used (s : State) (j : Nat) (h : s.counters = allUsed) (hj : j < 65536) :
    (counterAt s j).st ≠ .free := by
  have hs : (s.counters.find? (·.idx == j)).isSome = true := by
    rw [List.find?_isSome, h]
    unfold allUsed
    exact ⟨⟨j, 0, .opened, 0, 0, 0⟩, List.mem_map.2 ⟨j, List.mem_range.2 hj, rfl⟩, by simp⟩
  obtain ⟨k, hk⟩ := Option.isSome_iff_exists.1 hs
  have hm := List.mem_of_find?_eq_some hk
  rw [h] at hm
  unfold allUsed at hm
  obtain ⟨i, -, rfl⟩ := List.mem_map.1 hm
  simp [counterAt, hk]

/-- The machine with them. -/
def usedUp : State := { buffering 0 0 [] with counters := allUsed }

/-- TCTR with a free counter, with none, and with counts at the limit. -/
theorem witness_tctr :
    (let s : State := buffering 16777215 0 []
     readyB o [31, 1] 0 0 0 0 s = true ∧ (s.fctx.gr 1).toNat ≤ 16777215 ∧ (counterAt s 65535).st = .free ∧
     (counterAt s 65535).opAt ≠ s.cycle + 1 ∧
     (s.parts[s.partOfCore s.fcore]).dies.contains (dieOf s.fcore).val = true ∧
     s.mgmt.badDies = [] ∧ s.mgmt.drained = [] ∧ s.mgmt.draining = []) ∧
    16777215 < (16777216 : W64).toNat ∧
    readyB o [31, 1] 0 0 0 0 usedUp = true ∧ (usedUp.fctx.gr 1).toNat ≤ 16777215 ∧
    ∀ j < 65536, (counterAt usedUp (65536 * 0 + j)).st ≠ .free := by
  refine ⟨by decide +kernel, by decide, by decide +kernel, by decide +kernel, fun j hj => ?_⟩
  have h : usedUp.counters = allUsed := by unfold usedUp; rfl
  exact counter_used usedUp _ h (by omega)

/-- The leaves of the page tables, as an invalidation keeps them for what was translated before it. -/
def leaves : List TlbEntry :=
  [⟨0, 0, 0, 2 ^ 30, BitVec.ofNat 64 (2 ^ 30 + 7), 69632⟩, ⟨0, 0, 2 ^ 30, 2 ^ 30, BitVec.ofNat 64 (2 ^ 30 + 0x87), 69640⟩]

/-- The paged machine whose streams and Ridge keep those translations. -/
def mapped (x : Ctx) : State := { paged x with invals := [{ (default : Inval) with ahead := [0], old := leaves }] }

/-- A task record with a kernel object at 0x2000, a team size and position and a counter; and a kernel object of one line. -/
def taskRec (tsize mpos ctr : Nat) : Nat := 0x2000 + ctr * 2 ^ 208 + tsize * 2 ^ 272 + mpos * 2 ^ 276

def kernelObj : Nat := 2 ^ 256 + 2 ^ 336

/-- The mapped machine with that record at 0x1000 and g1 an address; no task is live. -/
def publishing (a : W64) (n : Nat) (l : List Counter) (ts : List Task) : State :=
  let s := mapped (atAddr a)
  { s with mem := ((s.mem.writeL (2 ^ 30 + 0x1000) (toBytes 64 n)).writeL (2 ^ 30 + 0x2000) (toBytes 64 kernelObj))
           counters := l, tasks := ts }

/-- How a publication ends. -/
def pubIs (p : State × PubRes) : Nat :=
  match p.2 with
  | .bad n .. => n
  | .noSlot => 7
  | .notYet _ => 8
  | .ok _ => 0

/-- TNEW that publishes, by the record's counter and by gB's; that fails its checks; that finds no slot; and in another space. -/
theorem witness_tnew :
    (∀ e ∈ [((0x1000 : W64), taskRec 1 0 0, 0), (0x1010, taskRec 1 0 0, 1), (0x80000000, taskRec 1 0 0, 2), (0x1000, taskRec 1 1 0, 4),
        (0x1000, taskRec 2 0 0, 5), (0x1000, taskRec 1 0 1, 6)],
      let s := publishing e.1 e.2.1 [⟨0, 0, .opened, 5, 0, 0⟩] []
      let t := s.entered o 0 0
      readyB o [31, 1, 2] 0 0 0 0 s = true ∧ releasePending t.fctx .ctl = false ∧
      s.findGraph s.fctx.graph.toNat = some { net with root := 65536 } ∧ (s.fctx.gr 1).toNat < 2 ^ 43 ∧
      pubIs (publish 0 { net with root := 65536 } (some 0) (s.fctx.gr 1).toNat none t) = e.2.2) ∧
    ¬((2 ^ 43 : W64).toNat < 2 ^ 43) := by decide +kernel

/-- A die without a free slot. -/
theorem no_slot (s : State) (die : Nat) (h : ∀ j < 16384, ∃ t ∈ s.tasks, t.slot = 16384 * die + j) :
    freeSlotOf s die = none := by
  have key : ∀ (n i : Nat), firstFrom (fun i => !(s.tasks.any (·.slot == 16384 * die + i))) 16384 n i = none := by
    intro n
    induction n with
    | zero => intro i; rfl
    | succ n ih =>
      intro i
      obtain ⟨t, ht, he⟩ := h (i % 16384) (Nat.mod_lt _ (by decide))
      have ha : s.tasks.any (·.slot == 16384 * die + i % 16384) = true := List.any_eq_true.2 ⟨t, ht, by simp [he]⟩
      simp only [firstFrom, ha, Bool.not_true, Bool.false_eq_true, if_false]
      exact ih _
  simp [freeSlotOf, State.takeFree, key]

/-- Tasks in every slot of die 0. -/
@[irreducible] def fullDie : List Task := (List.range 16384).map fun j => { job with slot := j }

theorem witness_no_slot : freeSlotOf { base with tasks := fullDie } 0 = none := by
  refine no_slot _ 0 fun j hj => ?_
  have h : { job with slot := j } ∈ fullDie := by
    unfold fullDie
    exact List.mem_map_of_mem (List.mem_range.2 hj)
  exact ⟨_, h, by simp⟩

/-- A record that is aligned or not, and one whose HND names a live task published from it. -/
theorem witness_publication :
    (0x1010 : Nat) % 64 ≠ 0 ∧ (0x1000 : Nat) % 64 = 0 ∧
    (let s := publishing 0x1000 (taskRec 1 0 0) [⟨0, 0, .opened, 5, 0, 0⟩] [{ job with recAddr := 0x1000 }]
     let g := { net with root := 65536 }
     let rd := readObject 0 (graphRights g) 0x1000 s
     rd.2.toOption = some (taskRec 1 0 0) ∧ (writable 0 (graphRights g) 0x1000 rd.1).2 = none ∧
     recordLive (writable 0 (graphRights g) 0x1000 rd.1).1 g.handle 0x1000 (taskRec 1 0 0) = true) := by decide +kernel

/-- TSIG at issue, while it waits, and at its answer. -/
theorem witness_tsig :
    (readyB o [1] 0 0 0 0 base = true ∧ base.fstrm.taken = false ∧ releasePending (base.entered o 0 0).fctx .ctl = false) ∧
    (∀ ok ∈ [true, false],
      let q : Answer := ⟨0, 100, ok, false, 64, 0⟩
      let s := { world .ctl { regs with str := regs.str.set 0 { strm0 with taken := true } } with answers := [q] }
      s.fstrm.taken = true ∧ s.answers = [q] ∧ q.core = 0 ∧ q.at_ ≤ s.cycle ∧ ((s.ctx 0).strm .ctl).taken = true ∧
      loopAt (s.ctx 0) .ctl ((s.ctx 0).strm .ctl).pc = none ∧ (s.core 0).run = .running 0 ∧ s.findTask 0 = some job) := by
  decide +kernel

/-- A decrement that counts, that fires, and that is stale, of a TSIG and of a walk. -/
theorem witness_decrements :
    ∀ e ∈ [((none : Option CoreId), Counter.mk 0 0 .opened 1 0 0), (some 0, ⟨0, 0, .bound 0, 2, 0, 0⟩), (none, ⟨0, 0, .bound 0, 1, 0, 0⟩),
        (some 0, ⟨0, 1, .bound 0, 1, 0, 0⟩), (none, ⟨0, 0, .bound 0, 0, 0, 0⟩), (some 0, ⟨0, 0, .bound 0, 1, 1, 0⟩)],
      let q : Decr := ⟨0, 100, 0, 0, e.1, 0, 0, 0⟩
      let s : State := { base with decrs := [q], counters := [e.2] }
      nextDecr s = some q ∧ s.findTask 0 = some job ∧ job.tsize ≤ 1 ∧ s.findGraph job.graph = some net ∧ net.mode = .dynamic := by
  decide +kernel

/-! ## Witnesses: guards, notes and yields -/

/-- GUARD in a dynamic graph, a recording and a replay, with the sixteenth value and one more. -/
theorem witness_guard :
    (∀ e ∈ [(GMode.dynamic, true, 0), (.recording false, false, 0), (.recording false, true, 15), (.recording false, true, 16)],
      let k := { job with grec := e.2.1, logIdx := some 0 }
      let s : State := { world .ctl { regs with guards := e.2.2 } with tasks := [k], graphs := [{ net with mode := e.1 }] }
      readyB o [1] 0 0 0 0 s = true ∧ (s.core s.fcore).run.slot? = some 0 ∧ s.findTask 0 = some k ∧
      s.findGraph k.graph = some { net with mode := e.1 } ∧ s.fctx.guards = e.2.2) ∧
    (∀ e ∈ [([sp 64], true), ([5], false), ([], false)],
      let k := { job with grec := true, traced := some 0 }
      let tr : Trace := { (default : Trace) with guards := e.1 }
      let y : Yelm := { (default : Yelm) with traces := [tr] }
      let s : State := { base with tasks := [k], graphs := [{ net with mode := .replay 1 }] }
      let s := s.updPart 0 fun p => { p with yelms := [y] }
      readyB o [1] 0 0 0 0 s = true ∧ s.findGraph k.graph = some { net with mode := .replay 1 } ∧ traceOf s k = some tr ∧
      (tr.guards[s.fctx.guards]? = some (s.fctx.gr 1) ↔ e.2 = true)) := by decide +kernel

/-- The mapped machine with its completion area at 0x4000, whose note ring has this tail; its context's table is the same. -/
def noting (tail : Nat) : State :=
  let s := mapped regs
  let s := { s with mem := s.mem.writeL (2 ^ 30 + 0x4000 + 0x1404) (toBytes 4 tail) }
  s.updContext 0 0 fun c => { c with cbase := 0x4000, ptroot := 65536 }

theorem witness_hnote :
    ∀ e ∈ [(510, false), (511, true)],
      let s := noting e.1
      let t := s.entered o 0 0
      let rd := areaRead 0 0 0x1400 8 t
      readyB o [1] 0 0 0 0 s = true ∧ releasePending t.fctx .ctl = false ∧ rd.2 = some (toBytes 8 (e.1 * 2 ^ 32)) ∧
      ((e.1 + 1) % 512 = 0 ↔ e.2 = true) ∧ (areaWrite 0 0 (0x2000 + 16 * e.1) (toBytes 16 0) rd.1).2 = true := by decide +kernel

theorem witness_tyld :
    ∀ b ∈ [false, true],
      let s := world .ctl { regs with tstat := if b then 1 else 0 }
      readyB o [] 0 0 0 0 s = true ∧ (s.core s.fcore).run = .running 0 ∧ s.findTask 0 = some job ∧ job.st = .running ∧
      s.fctx.tstat.getLsbD 0 = b ∧ cutRoom s job.size = true ∧
      (let s := { s with tasks := [job, { job with slot := 1, size := 2 ^ 33, image := some default }] }
       s.findTask 0 = some job ∧ cutRoom s job.size = false) := by decide +kernel

/-! ## Witnesses: the end of a task -/

/-- The registers of a task whose other streams have executed END. -/
def ending : Ctx := { regs with str := (Vector.replicate 4 { strm0 with ended := true }).set 0 strm0 }

theorem may_end (s : State) (k : Task) (hx : s.fctx = ending) (hs : s.fstr = .ctl) (hm : s.mytask = some k)
    (ho : s.ops = []) (hb : s.buffers = []) (hi : ∀ t ∈ s.tasks, t.image = none) (ht : k.traced = none) (hw : k.walkAt = 0) : MayEnd s k where
  mine := hm
  fresh := by simp only [State.fstrm, hx, hs]; decide
  first := by rw [hx]; rfl
  ended := by intro st h; rw [hx]; cases st <;> first | exact absurd rfl h | decide
  ops := by simp [ho]
  bufs := by simp [hb]
  imgs := fun t h i e => by simp [hi t h] at e
  accs := by intro st; rw [hx]; cases st <;> decide
  pend := by rw [hx]; rfl
  kmrg := by rw [hx]; rfl
  traced := ht
  start := hw

/-- TEND without successors, with some, and with a stream that has not ended. -/
theorem witness_tend :
    (∀ k ∈ [job, { job with nsucc := 1 }],
      let s : State := { world .ctl ending with tasks := [k] }
      readyB o [] 0 0 0 0 s = true ∧ s.fstr = .ctl ∧ s.mytask = some k ∧ k.serves = none ∧ (s.findGraph k.graph).isSome = true) ∧
    MayEnd (world .ctl ending) job ∧ MayEnd { world .ctl ending with tasks := [{ job with nsucc := 1 }] } { job with nsucc := 1 } ∧
    (readyB o [] 0 0 0 0 base = true ∧ base.fstr = .ctl ∧ base.mytask = some job ∧ base.fstrm.taken = false ∧
      base.fctx.tendAt = 0 ∧ (base.fctx.strm .load).ended = false) := by
  refine ⟨by decide +kernel, ?_, ?_, by decide +kernel⟩
  · exact may_end _ _ rfl rfl (by decide +kernel) rfl rfl (by intro t h; cases h with | head => rfl | tail _ h => cases h) rfl rfl
  · exact may_end _ _ rfl rfl (by decide +kernel) rfl rfl (by intro t h; cases h with | head => rfl | tail _ h => cases h) rfl rfl

/-- A walk at an entry, at an entry that is skipped, and past its list with and without a decrement under way, and with its
counter's bank taken in this cycle. -/
theorem witness_walk :
    ∀ n ∈ [0, 101], ∀ e ∈ [([5], 0, false), ([0xFFFFFFFF], 0, false), ([5], 1, true), ([5], 1, false)],
      let k : Task := { job with st := .ending, tend3 := some 99, list := e.1, walkAt := e.2.1, ctr := some 7 }
      let q : Decr := ⟨5, 110, 0, 0, none, 0, 0, 0⟩
      let s : State := { base with tasks := [k], decrs := if e.2.2 then [q] else [], counters := [⟨7, 0, .fired 0, 0, 0, n⟩] }
      (s.tasks.filter fun t => t.pcore == 0 && t.st == .ending) = [k] ∧ s.findTask k.slot = some k ∧ 99 < s.cycle ∧
      k.list ≠ [] ∧ (s.core 0).run = .running k.slot ∧ (counterAt s 7).st ≠ .free ∧
      (bankTaken (s.setCore 0 { s.core 0 with
        run := .idle, last := some k.context, ctx := { s.ctx 0 with mathEnd := true, mq := [], gq := [] } })
        (counterAt s 7) k.lcore = true ↔ n = 101) := by decide +kernel

/-- A handler on core 0 of a task that is held on core 1, or that met a walk fault, with a1 its handle or another. -/
def serving (st : TaskSt) (w : W64) (f : Option FaultInfo) : State :=
  let k := { job with serves := some 1 }
  let u := { job with slot := 1, gen := 2, pcore := 1, st := st, fault := f }
  let s := pair .ctl { ending with g := ending.g.set 1 w } regs k u
  { s with cores := s.cores.set 1 { Core.reset with ctx := regs, run := .held 1 } }

theorem may_end_serving (st : TaskSt) (w : W64) (f : Option FaultInfo) : MayEnd (serving st w f) { job with serves := some 1 } where
  mine := by rfl
  fresh := by rfl
  first := by rfl
  ended := by intro st h; cases st <;> first | exact absurd rfl h | rfl
  ops := by intro q hq; cases hq
  bufs := by intro q hq; cases hq
  imgs := by
    intro t h
    cases h with
    | head => rintro i ⟨⟩
    | tail _ h => cases h with
      | head => rintro i ⟨⟩
      | tail _ h => cases h
  accs := by intro st; cases st <;> rfl
  pend := by rfl
  kmrg := by rfl
  traced := by rfl
  start := by rfl

theorem witness_handlers :
    (∀ e ∈ [(TaskSt.cutHeld, (65538 : W64), true, none), (.walkFault, 65538, true, none), (.cutHeld, 65539, false, none),
        (.walkFault, 65538, true, some { (default : FaultInfo) with walk := true })],
      let s := serving e.1 e.2.1 e.2.2.2
      let k := { job with serves := some 1 }
      let u := { job with slot := 1, gen := 2, pcore := 1, st := e.1, fault := e.2.2.2 }
      s.fstr = .ctl ∧ s.mytask = some k ∧ u.slot ≠ k.slot ∧ s.findTask 1 = some u ∧ s.findGraph u.graph = some net ∧
      (s.core s.fcore).run = .running k.slot ∧ u.pcore ≠ s.fcore ∧ ((s.fctx.gr 1).toNat % 2 ^ 32 = u.handle ↔ e.2.2.1 = true) ∧
      (s.fctx.gr 1).toNat % 2 ^ 32 ≠ k.handle ∧ readyB o [1] 0 0 0 0 s = true ∧ readyB o [] 0 0 0 0 s = true ∧ s.fstrm.taken = false ∧
      (s.core u.pcore).run = .held u.slot ∧ u.dying = false ∧ (∀ f ∈ u.fault, f.lost = false) ∧ s.ops = [] ∧ u.handle ≠ k.handle) ∧
    ∀ st w f, MayEnd (serving st w f) { job with serves := some 1 } := by
  refine ⟨by decide +kernel, may_end_serving⟩

/-! ## Witnesses: cuts -/

/-- Core 0 in this condition, with these registers and this task. -/
def coreIn (r : CoreRun) (x : Ctx) (k : Task) : State :=
  { world .ctl x with cores := (world .ctl x).cores.set 0 { Core.reset with ctx := x, run := r }, tasks := [k] }

theorem settled_at (k : Task) (n : Nat) : Settled (coreIn (.cutting 0 n) regs k) 0 0 where
  accs := by intro st; cases st <;> rfl
  none := by intro st; cases st <;> rfl
  pend := by rfl
  kmrg := by rfl
  tsig := ⟨(by intro q hq; cases hq), (by intro q hq; cases hq)⟩
  ops := by intro q hq; cases hq
  zclr := by intro q hq; cases hq

/-- A cut of this cycle; one with an access on its way; and settled ones of a fault, of a request and of a task that is to die. -/
theorem witness_cuts :
    (∀ e ∈ [(100, job), (99, { job with fault := some default }), (99, job), (99, { job with dying := true })],
      let s := coreIn (.cutting 0 e.1) regs e.2
      (s.core 0).run = .cutting 0 e.1 ∧ s.findTask 0 = some e.2 ∧ e.2.pcore = 0 ∧ s.mem.wf = true ∧
      (e.1 = 100 → s.cycle ≤ e.1) ∧ (e.1 = 99 → e.1 < s.cycle) ∧ e.2.serves = none ∧ e.2.tsize ≤ 1) ∧
    (let a := access 1 .store (spadKey 0 64)
     let s := coreIn (.cutting 0 99) { regs with str := regs.str.set 0 { strm0 with accs := [a] } } job
     ((s.ctx 0).strm .ctl).accs ≠ [] ∧ a.heldAt = none ∧ s.findTask 0 = some job ∧ s.mem.wf = true ∧
     ((s.ctx 0).strm .load).accs = [] ∧ ((s.ctx 0).strm .math).accs = [] ∧ ((s.ctx 0).strm .store).accs = []) ∧
    ∀ k n, Settled (coreIn (.cutting 0 n) regs k) 0 0 :=
  ⟨by decide +kernel, by decide +kernel, settled_at⟩

theorem witness_withdrawn :
    let x := { regs with str := regs.str.set 3 { strm0 with taken := true, took := (2, 1) } }
    (x.strm .store).taken = true := by decide +kernel

/-- Ops that pause, and those that go on or stand. -/
theorem witness_ops_pause :
    (∀ e ∈ [(OpStatus.queued, true), (.running, true), (.paused, false), (.faulted, false), (.done, false)],
      let q := op6 copyKind e.1
      let s := working [q]
      s.findOp q.oid = some q ∧ q.kind.isMma = false ∧ q.runsThrough = false ∧ q.cancel = false ∧ q.inFlight = false ∧
      { q with flying := true }.inFlight = true ∧ ((q.status = .queued ∨ q.status = .running) ↔ e.2 = true)) ∧
    (let q := op6 (.coll default 0 0 0 false false) .running
     (working [q]).findOp 3 = some q ∧ q.kind.runsOn = true ∧ q.kind.isMma = false) ∧
    (let q := op6 (.fabric default [] .direct true none none 0) .running
     (working [q]).findOp 3 = some q ∧ q.kind.isSent = true ∧ q.opc ≠ opcMcst ∧ q.kind.isMma = false) := by decide +kernel

/-- Tasks whose cut waits for a handler: without one, with one whose object is misaligned, and with a good one. -/
theorem witness_spawn :
    ∀ h ∈ [0, 0x2001, 0x2000],
      let k := { job with st := .cutHeld, fault := some default, hand := h }
      let m := publishing 0 0 [] [k]
      let s : State := { m with cores := m.cores.set 0 { Core.reset with ctx := regs, run := .held 0 } }
      let g := { net with root := 65536 }
      s.findTask 0 = some k ∧ s.findGraph k.graph = some g ∧ wantsHandler s k = true ∧ (s.core k.pcore).run = .held 0 ∧
      (h = 0x2000 → (readObject k.pcore (graphRights g) h s).2.toOption = some kernelObj ∧ kernelBad kernelObj = false ∧
        kernelTeam kernelObj = 1 ∧ (s.parts[(Fin.ofNat 4 g.part : Fin 4)]).dies.contains 0 = true ∧ ∀ t ∈ s.tasks, t.slot ≠ 5) := by
  decide +kernel

/-- A held cut let go in an even and in an odd cycle, and a stored cut that has been dispatched. -/
theorem witness_resume :
    (∀ n ∈ [100, 101],
      let k := { job with st := .cutHeld, again := some false }
      let s := { coreIn (.held 0) regs k with cycle := n }
      s.findTask 0 = some k ∧ (s.core k.pcore).run = .held 0 ∧ k.again.isSome = true ∧ graphRuns s k.graph = true ∧
      s.mgmt.slotHold ≤ s.cycle) ∧
    (let i : CutImage := ⟨regs, [⟨0, 7⟩, ⟨65535, 9⟩], [8], [], []⟩
     let k := { job with st := .cutStored, again := some false, image := some i }
     let s := coreIn (.starting 0 90) Ctx.reset k
     s.findTask 0 = some k ∧ (s.core k.pcore).run = .starting 0 90 ∧ needsClear s k = false ∧ zstReads s k.pcore = false ∧
     s.mem.wf = true ∧ Memory.wf i.spad = true ∧ ∀ e ∈ i.spad, k.base ≤ e.1 ∧ e.1 < k.base + k.size) := by decide +kernel

theorem witness_move :
    ∀ r ∈ [CoreRun.held 0, .starting 0 100], ∀ st ∈ [TaskSt.cutHeld, .walkFault],
      let k := { job with st := st }
      let s := coreIn r regs k
      s.findTask 0 = some k ∧ s.mem.wf = true ∧ (s.core k.pcore).run = r ∧ cutRoom s k.size = true ∧
      (let s := { s with tasks := [k, { job with slot := 1, size := 2 ^ 33, image := some default }] }
       s.findTask 0 = some k ∧ cutRoom s k.size = false) := by decide +kernel

/-! ## Witnesses: pre-emption, eviction and cancelling -/

/-- PREEMPT_GRAPH and RESUME_GRAPH before READY, while a command is under way, of no graph, and of a running, a pre-empted and a
retired graph. -/
theorem witness_preempt :
    State.reset.mgmt.ready = false ∧
    (∀ st ∈ [2, 4], (({ base with ports := base.ports.set 0 { base.ports[(0 : Fin 2)] with pstat := Vector.replicate 4 (0, st) } } :
      State).ports[(0 : Fin 2)].pstat[partOfCtx base 0]).2 = st) ∧
    (base.mgmt.ready = true ∧ (base.ports[(0 : Fin 2)].pstat[partOfCtx base (ctxOf 0)]).2 = 0 ∧ portOf 0 = 0 ∧
      base.findGraph 1 = none ∧ portOf (2 ^ 31) ≠ 0 ∧ base.findGraph 0 = some net ∧ net.pre = .running ∧ net.ended = none ∧ base.ops = [] ∧ base.saves = []) ∧
    (({ base with graphs := [{ net with ended := some (0, 0) }] } : State).findGraph 0 = some { net with ended := some (0, 0) }) ∧
    (({ base with graphs := [{ net with pre := .preempted }] } : State).findGraph 0 = some { net with pre := .preempted }) := by
  decide +kernel

theorem witness_forced_cuts :
    (∀ n ∈ [480099, 480100],
      let g := { net with pre := .preempting 100 }
      let s : State := { base with cycle := n, graphs := [g] }
      s.graphs.filter (fun h => h.pre != .running) = [g] ∧ s.findGraph g.handle = some g ∧ s.evict = [] ∧ s.saves = [] ∧
      heldSlots s g.handle = [] ∧ s.findTask 0 = some job ∧ job.graph = g.handle ∧ job.st = .running ∧
      (s.core job.pcore).run = .running job.slot ∧ (s.tasks.map fun u => imageBytesOf u.size).sum ≤ 8589934592 ∧
      job.forced = false ∧ job.image = none ∧
      cutRoom { s with tasks := [job, { job with slot := 1, size := 2 ^ 33, image := some default }] } job.size = false) ∧
    (∀ p ∈ [GPre.preempting 100, .resuming],
      let k := { job with st := .cutStored }
      let g := { net with pre := p }
      let s := { coreIn .idle regs k with graphs := [g], ops := [op6 copyKind .paused] }
      s.graphs.filter (fun h => h.pre != .running) = [g] ∧ s.findGraph g.handle = some g ∧ s.evict = [] ∧ s.saves = [] ∧
      heldSlots s g.handle = [] ∧ k.st ≠ .ending ∧ onCore s k = false ∧ k.again = none ∧
      ∀ q ∈ s.ops, q.graph = g.handle → opStopped q = true) := by decide +kernel

/-- Cores that are evicted, when each is clear and no graph is left. -/
theorem witness_evictions :
    let s : State := { State.reset.updPart 0 (fun p => { p with dies := [], map := [] }) with evict := [(0, 90), (639, 90)] }
    s.evict ≠ [] ∧ s.graphs = [] ∧ s.ops = [] ∧ s.saves = [] ∧ s.mgmt.draining = [] ∧ s.cycle % 2 = 0 ∧
    (∀ e ∈ s.evict, (s.core e.1).run = .idle) ∧ movedHosts s = [] ∧ (s.parts[(0 : Fin 4)]).used = true ∧
    (let s : State := { s with mgmt := { s.mgmt with draining := [1] } }
     (∃ d ∈ s.mgmt.draining, ∃ k ∈ [3, 4, 5], k / 3 = d ∧ k ∉ s.mgmt.retired)) := by decide +kernel

theorem witness_lost_cores :
    let k := { job with st := .running }
    (base.core 0).run = .running 0 ∧ base.findTask 0 = some k ∧ k.dying = false ∧ k.serves = none ∧ base.ops = [] := by
  decide +kernel

/-- GCAN and GRAPH_TIMEOUT of a live graph with a task in each state, of one that is cancelled, of one that has retired, and of no graph. -/
theorem witness_cancel_graphs :
    (let b := { job with slot := 1, st := .bound }
     let r := { job with slot := 2, st := .ready }
     ∀ n ∈ [2399999, 2400000],
      let g := { net with tmo := 1, timed := n }
      let s : State := { base with tasks := [job, b, r], graphs := [g] }
      s.findGraph 0 = some g ∧ g.cancel = 0 ∧ g.ended = none ∧ s.mgmt.ready = true ∧ portOf 0 = 0 ∧ ctxOf 0 = 0 ∧ g.fcode = 0 ∧ 0 < g.tmo ∧
      job.st = .running ∧ job.dying = false ∧ (∀ u ∈ s.tasks, u.slot = job.slot → u = job) ∧
      (s.core job.pcore).run = .running job.slot) ∧
    base.findGraph 1 = none ∧ portOf (2 ^ 31) = 1 ∧
    (∀ g ∈ [{ net with cancel := 3 }, { net with ended := some (0, 0) }],
      (({ base with graphs := [g] } : State).findGraph 0 = some g ∧ (g.cancel ≠ 0 ∨ g.ended ≠ none))) := by
  decide +kernel

/-! ## Witnesses: fetching -/

/-- Core 0 whose control stream waits for its line, with this fetch agent. -/
def fetching (d : Die) : State :=
  let s := world .ctl { regs with str := regs.str.set 0 { strm0 with miss := some 0x1000 } }
  { s with dies := s.dies.set 0 d }

/-- The line that it asks for. -/
def wanted : ILine := ⟨0, 0, 0, .ctl, 0x1000, [], []⟩

/-- A stream that wants no line; one that wants a line that the buffer holds, that a fill of 64 or 65 cycles brings, or none. -/
theorem witness_requests :
    wantedLine base 0 .ctl = none ∧ fetches State.reset 0 = false ∧
    (∀ e ∈ [(0xF, true), (7, false)],
      let s0 := fetching ⟨[], [], []⟩
      let s : State := { s0 with
        graphs := [{ net with root := 65536 }]
        mem := Memory.writeL (Memory.writeL [] 65536 (toBytes 8 (69632 + 1))) 69632 (toBytes 8 (2 ^ 30 + e.1)) }
      wantedLine s 0 .ctl = some 0x1000 ∧ (findLine s 0 0x1000).2.toOption.isSome = e.2) ∧
    (∀ d ∈ [Die.mk [{ wanted with data := [1] }] [] [], ⟨[], [⟨wanted, 36, [(1, .ctl)], 0, 0⟩], []⟩, ⟨[], [⟨wanted, 35, [(1, .ctl)], 0, 0⟩], []⟩,
        ⟨[], [], []⟩],
      let s := fetching d
      wantedLine s 0 .ctl = some 0x1000 ∧ fetches s 0 = true ∧ fillPending s 0 .ctl 0x1000 = false ∧
      requestKey s 0 .ctl 0x1000 = wanted ∧ (s.dies[dieOf 0].buffer.find? wanted.sameKey).isSome = !d.buffer.isEmpty ∧
      ∀ f ∈ s.dies[dieOf 0].fills, f.line.sameKey wanted = true ∧ (f.first = 36 ↔ s.cycle ≤ f.first + 64)) := by decide +kernel

/-- A fill whose line is read, and one whose line may not be fetched; a stream that waits for it has joined. -/
theorem witness_fills :
    ∀ code ∈ [0, 0x0B],
      let f : Fill := ⟨wanted, 90, [(0, .ctl)], code, 2 ^ 30⟩
      let s := fetching ⟨[], [f, ⟨wanted, 0, [], 0, 0⟩], []⟩
      s.dies[(0 : Fin 4)].fills[0]? = some f ∧ waitsFor s (0, .ctl) f.line = true ∧
      s.dies[(0 : Fin 4)].fills[1]? = some ⟨wanted, 0, [], 0, 0⟩ := by decide +kernel

theorem witness_code_invalidated :
    (base.ports[(1 : Fin 2)].icinv[(3 : Fin 4)] = none ∧ base.ports[(1 : Fin 2)].icinv[partOfCtx base 63] = none) ∧
    base.mgmt.ready = true ∧ State.reset.mgmt.ready = false ∧
    ∀ w ∈ [none, some 63],
      (base.updPort 1 fun p => { p with icinv := p.icinv.set 3 (some (w, 90)) }).ports[(1 : Fin 2)].icinv[(3 : Fin 4)] =
        some (w, 90) := by decide +kernel

/-! ## Witnesses: launches and contexts -/

/-- A launch record of one root, whose address is at 0x5000, and no counters. -/
def launchRec : Nat := 0x5000 + 2 ^ 64 + 2 ^ 360

/-- A launch of it. -/
def launch1 : Launch := ⟨7, true, toBytes 64 launchRec⟩

/-- The mapped machine with no task and no graph but these, and context 0 of port 0 so. -/
def opening (c : Context) (gs : List Graph) : State :=
  let s := mapped regs
  ({ s with tasks := [], graphs := gs } : State).updContext 0 0 fun _ => c

/-- An open context with a completion area and launches. -/
def open1 (l : List Launch) : Context :=
  { Context.reset with en := true, cbase := 0x4000, gmax := 1, ptroot := 65536, queue := l }

/-- LAUNCH with the last place taken and with none left; before READY and outside the field. -/
theorem witness_launches_taken :
    (∀ n ∈ [15, 16],
      let s := opening { open1 [] with lcnt := BitVec.ofNat 32 n } []
      let c := s.ports[(0 : Fin 2)].ctx[(0 : Fin 64)]
      partReady s (partOfCtx s 0) = true ∧ 63 < 64 ∧ [(1 : Byte)] ≠ [] ∧ (c.lcnt - c.ldone = 16 ↔ n = 16)) ∧
    partReady State.reset (partOfCtx State.reset 0) = false := by decide +kernel

/-- Launches to a closed context, of a partial write, of a bad record, to a full context, without a free slot, and good ones. -/
theorem witness_launches_answered :
    (let s := opening { open1 [launch1] with en := false } []
     let x := s.ports[(0 : Fin 2)].ctx[(0 : Fin 64)]
     x.queue = [launch1] ∧ x.en = false) ∧
    (∀ l ∈ [({ launch1 with whole := false } : Launch), { launch1 with bytes := toBytes 64 (launchRec + 1) }, launch1],
      let s := opening (open1 [l]) [net]
      let x := s.ports[(0 : Fin 2)].ctx[(0 : Fin 64)]
      x.queue = [l] ∧ x.en = true ∧ x.cbase ≠ 0 ∧ (launchBad (ofBytes l.bytes) = true ↔ l.bytes ≠ launch1.bytes) ∧
      freeGraphSlot s 0 0 = none) ∧
    (let s := opening (open1 [launch1]) []
     let x := s.ports[(0 : Fin 2)].ctx[(0 : Fin 64)]
     let rd := readLaunch (portCore 0) (contextRights (partOfCtx s 0).val 0 0 x.ptroot) launchRec s
     ofBytes launch1.bytes = launchRec ∧ freeGraphSlot s 0 0 = some 0 ∧ rd.2.toOption = some ([0], []) ∧
     0 + 1 ≤ freeCounters s (launchDie s 0 (partOfCtx s 0)) ∧ 1 + handlersWaiting s 0 ≤ freeSlots s (launchDie s 0 (partOfCtx s 0))) := by decide +kernel

/-- A die with a task in every slot has none free. -/
theorem witness_no_free_slots : freeSlots { opening (open1 [launch1]) [] with tasks := fullDie } 0 < 1 := by
  have h : fullDie.countP (fun t => t.slot / 16384 == 0) = 16384 := by
    have hl : fullDie.length = 16384 := by
      unfold fullDie
      rw [List.length_map, List.length_range]
    rw [List.countP_eq_length.2, hl]
    intro t ht
    unfold fullDie at ht
    obtain ⟨j, hj, rfl⟩ := List.mem_map.1 ht
    have := List.mem_range.1 hj
    simp only [beq_iff_eq]
    omega
  unfold freeSlots
  simp only [h]
  omega

/-- A descriptor written before READY, that opens over a live graph, that opens and that closes. -/
theorem witness_contexts :
    partReady State.reset (partOfCtx State.reset 0) = false ∧
    (partReady base (partOfCtx base 0) = true ∧ (base.ports[(0 : Fin 2)].ctx[(0 : Fin 64)]).en = false ∧ graphsOf base 0 0 ≠ [] ∧
      graphsOf base 1 63 = [] ∧ (7 : W64).getLsbD 0 = true ∧ (6 : W64).getLsbD 0 = false) ∧
    ((opening (open1 []) [net]).ports[(0 : Fin 2)].ctx[(0 : Fin 64)]).en = true := by decide +kernel

/-! ## Witnesses: Ridge -/

/-- Entries of a task of each priority, class and sequence number. -/
theorem witness_ready_order :
    (let q : QEntry := ⟨[0], false, false, 0, true, 0⟩
     let a : QEntry × Task × Graph := (q, { job with prio := 7, seq := 2 ^ 40 - 1 }, { net with pcls := 3 })
     let b : QEntry × Task × Graph := (q, { job with prio := 0 }, net)
     a.1.handler = false ∧ b.1.handler = false ∧ a.2.1.prio < 8 ∧ a.2.2.pcls < 4 ∧ b.2.1.prio < a.2.1.prio ∧ a.2.1.seq < 2 ^ 40) ∧
    (20 + 80 ≤ base.cycle) := by decide +kernel

/-- The queue of partition 0 holds the task, ready, in this cycle; core 0 runs nothing. -/
def queueing (n : Nat) (e : QEntry) : State :=
  let s := coreIn .idle regs { job with st := .ready }
  { s with cycle := n }.updPart 0 fun p => { p with queue := [e] }

/-- A slot of an odd and of an even cycle: without a candidate, with one that fits, and with one that does not. -/
theorem witness_slots :
    ((queueing 101 default).cycle % 2 = 1 ∧ (base.parts[(1 : Fin 4)]).used = false) ∧
    (let s := queueing 100 ⟨[0], false, false, 0, false, 0⟩
     s.cycle % 2 = 0 ∧ s.mgmt.slotHold ≤ s.cycle ∧ (s.parts[(0 : Fin 4)]).used = true ∧ readyOrder (tidyRings 0 s) 0 = []) ∧
    (let e : QEntry := ⟨[0], false, false, 0, true, 0⟩
     let s := queueing 100 e
     let k := { job with st := .ready }
     let s1 := startDrain 0 e (tidyRings 0 s)
     readyOrder (tidyRings 0 s) 0 = [(e, k, net)] ∧ e.tasks = [k.slot] ∧ s.findTask k.slot = some k ∧
     entrySpots s1 0 e = some [⟨0, 0, 0⟩]) ∧
    (let e : QEntry := ⟨[0], false, true, 0, true, 0⟩
     let s := { queueing 100 e with evict := [(0, 90)] }
     let k := { job with st := .ready }
     readyOrder (tidyRings 0 s) 0 = [(e, k, net)] ∧ entrySpots (startDrain 0 e (tidyRings 0 s)) 0 e = none) := by decide +kernel

theorem witness_drains_start :
    (∀ e ∈ [(none, 8), (none, 7), (some (3, [4]), 8)],
      let s := base.updPart 0 fun p => { p with drain := e.1 }
      let p := s.parts[(0 : Fin 4)]
      p.map ≠ [] ∧ p.due = none ∧ (p.drain = none ∧ p.age ≤ e.2 ↔ e = (none, 8))) ∧
    (let s := base.updPart 0 fun p => { p with due := some [0], queue := [⟨[0], false, false, 9, true, 0⟩] }
     let p := s.parts[(0 : Fin 4)]
     p.drain = none ∧ p.due = some [0] ∧ p.queue.any (·.tasks == [0]) = true) := by decide +kernel

/-- A start one cycle too soon; of a task, of one whose core's last task was of another context, and of a handler. -/
theorem witness_starts :
    (∀ e ∈ [(69, none), (68, none), (68, some (1, 5))],
      let k := { job with st := .running }
      let s0 := coreIn (.starting 0 e.1) Ctx.reset k
      let s : State := { s0 with cores := s0.cores.set 0 { s0.core 0 with last := e.2 } }
      (s.core 0).run = .starting 0 e.1 ∧ s.findTask 0 = some k ∧ k.pcore = 0 ∧ k.tsize ≤ 1 ∧ (e.1 + 32 ≤ s.cycle ↔ e.1 = 68) ∧
      k.image = none ∧ zstReads s 0 = false ∧ k.serves = none ∧ needsClear s k = e.2.isSome ∧ heldRanges s 0 = []) ∧
    (let k := { job with serves := some 1 }
     let u := { job with slot := 1, fault := some default }
     let s : State := { coreIn (.starting 0 68) Ctx.reset k with tasks := [k, u] }
     s.findTask 0 = some k ∧ s.findTask u.slot = some u ∧ u.slot ≠ 0 ∧ needsClear s k = false ∧ s.mem.wf = true ∧
     zstReads s 0 = false) := by decide +kernel

theorem witness_cuts_go_on :
    ∀ st ∈ [TaskSt.cutHeld, .cutStored],
      let k := { job with st := st, again := some false, fault := some default }
      let s := coreIn (.starting 0 68) regs k
      (s.core 0).run = .starting 0 68 ∧ s.findTask 0 = some k ∧ k.pcore = 0 ∧ k.tsize ≤ 1 ∧ 68 + 32 ≤ s.cycle ∧ k.image = none ∧
      zstReads s 0 = false ∧ k.lateFault = none ∧ s.ops = [] ∧ (default : FaultInfo).skip = false := by decide +kernel

/-! ## Witnesses: messages -/

/-- A notifier's event that waits, over and within its window; a hot-page event; and a notifier's entry that can be written. -/
theorem witness_messages :
    (∀ e ∈ [(0, 0x803), (2400, 0x803), (2401, 0x803 + 2 ^ 32), (0, 3)],
      let s0 := mapped regs
      let s1 := { s0 with cycle := 4800, mem := s0.mem.writeL (2 ^ 30 + 0x4000 + 0x1000) (toBytes 16 e.2) }
      let s := s1.updContext 0 0 fun _ => { open1 [] with notes := [(0, e.1, true)] }
      let r := areaRead 0 0 0x1000 16 s
      noteOf s 0 0 0 = (e.1, true) ∧ r.2 = some (toBytes 16 e.2) ∧
      (areaWrite 0 0 0x1008 (toBytes 4 1) r.1).2 = true) ∧
    (let s := base.updPort 0 fun p => { p with hnwait := true, hnvec := 0x803 }
     s.ports[(0 : Fin 2)].hnwait = true ∧ s.ports[(0 : Fin 2)].hnvec.toNat / 2048 % 2 = 1 ∧ s.ports[(0 : Fin 2)].hnlast = 0) := by
  decide +kernel

/-! ## Witnesses: replays -/

/-- The machine whose graph replays this yelm. -/
def replaying (g : Graph) (y : Yelm) (l : List Task) : State :=
  let s := coreIn .idle regs job
  ({ s with graphs := [{ g with mode := .replay y.rev }], tasks := l } : State).updPart 0 fun p => { p with yelms := [y] }

theorem witness_stalls :
    (∀ n ∈ [0, 65534, 65535],
      let g := { net with mode := .replay 0, idle := n }
      let s := replaying g { (default : Yelm) with traces := [default] } [{ job with st := .bound }]
      s.findGraph 0 = some g ∧ stalledNow s g = true) ∧
    stalledNow base net = false := by decide +kernel

/-- A traced entry whose place has come, with a good mapping and, STRICT, with another one. -/
theorem witness_traced_starts :
    ∀ b ∈ [false, true],
      let g := { net with mode := .replay 0, frame0 := some 50, firedAt := [(0, 80)] }
      let y : Yelm := { (default : Yelm) with strict := true, mapgen := if b then 1 else 0,
                                              traces := [{ (default : Trace) with start := 50, tsize := 1 }] }
      let k := { job with st := .ready }
      let s := replaying g y [k]
      let r := (tracedReady s 0 g y 0).toList
      s.cycle % 2 = 0 ∧ r.length = 1 ∧ s.findGraph 0 = some g ∧ healthFails s.parts[(0 : Fin 4)] y = b ∧
      ∀ q ∈ r, q.task = k ∧ (tracedFor s 0 (0 : Fin 640).val).isSome = true ∧
        ∀ p ∈ (tracedFor s 0 (0 : Fin 640).val), p.1 = g ∧ p.2.1 = y ∧ p.2.2.length = 1 := by decide +kernel

/-- A gang's replay that has joined its gang, in time and late, and one that was handed back; and a graph that joined none. -/
theorem witness_gangs :
    (∀ e ∈ [(GMode.replay 0, 0), (.replay 0, 1024), (.handedBack 0, 0)],
      let y : Yelm := { (default : Yelm) with nrank := 2, st := .held }
      let g := { net with joined := some 0, firedAt := [(0, 80)] }
      let k := { job with st := .ready }
      let s0 := replaying g y [k]
      let g := { g with mode := e.1 }
      let s : State := { s0 with graphs := [g], fabric := { s0.fabric with course := BitVec.ofNat 48 e.2 } }
      s.findGraph 0 = some g ∧ (replayYelm s g = some y ↔ e.1 = .replay 0) ∧ (0 + 1024 ≤ s.course ↔ e.2 = 1024) ∧
      (s.course < 0 + 4 ↔ e.2 = 0) ∧ s.findTask 0 = some k ∧ k.tsize ≤ 1 ∧ k.graph = 0 ∧
      (heldOf s.parts[Fin.ofNat 4 g.part] g.hash).find? (·.rev == 0) = some y) ∧
    net.joined = none := by decide +kernel

/-- A refinement of a held revision, of a frozen one, and of one that is no longer held. -/
theorem witness_refinements :
    (∀ b ∈ [false, true],
      let y : Yelm := { (default : Yelm) with nrank := 2, st := .held, frozen := b }
      let s := (replaying net y [job]).updPart 0 fun p => { p with refine := [(0, [])] }
      (s.parts[(0 : Fin 4)]).refine = [(0, [])] ∧
      ((s.parts[(0 : Fin 4)]).yelms.find? fun y => y.id == 0 && y.st == .held) = some y ∧
      ((s.parts[(0 : Fin 4)]).yelms.find? fun y => y.id == 1 && y.st == .held) = none ∧ y.frozen = b ∧ storeRoom s s.parts[(0 : Fin 4)] = true ∧
      1 < y.nrank) ∧
    (base.parts[(0 : Fin 4)]).refine = [] := by decide +kernel

/-! ## Witnesses: retirement -/

theorem witness_retirement :
    (let s : State := { base with tasks := [], counters := [⟨3, 0, .opened, 1, 0, 0⟩], ops := [op6 copyKind .done] }
     s.findGraph 0 = some net ∧ s.tasks = [] ∧ (∀ q ∈ s.ops, q.status.isLive = false) ∧ net.pre = .running ∧
     s.counters.Pairwise (fun a b => a.idx ≠ b.idx)) ∧
    (base.findGraph 0 = some net ∧ job.graph = 0) ∧ net.cancel ≤ 4 ∧ net.fcode < 256 := by decide +kernel

/-! ## Witnesses: the yelm store -/

/-- A command of the yelm store: while one runs, of a revision that is held and that is not, with an address that is mapped and
one that is not. -/
theorem witness_yelm_commands :
    (∀ e ∈ [((0x5000 : Nat), true), (0x80000000, false)],
      let y : Yelm := { (default : Yelm) with st := .held, rev := 3 }
      let s := (mapped regs).updPart 0 fun p => { p with yelms := [y], yregs := ⟨BitVec.ofNat 64 e.1, 0, false, 0⟩ }
      let s := s.updContext 0 0 fun _ => open1 []
      let p := s.parts[(0 : Fin 4)]
      p.yregs.busy = false ∧ s.mgmt.ready = true ∧ pickRev (heldOf p 0) 4 = none ∧ pickRev (heldOf p 0) 255 = some y ∧
      heldOf p 0 ≠ [] ∧ heldOf p 1 = [] ∧ (3 : Byte) ≠ 255 ∧ y.rev ≠ (4 : Byte).toNat ∧
      (readVa s (portCore 0) (contextRights 0 0 0 (s.ports[(0 : Fin 2)].ctx[(0 : Fin 64)]).ptroot) p.yregs.addr.toNat 256).2.toOption.isSome
        = e.2) ∧
    State.reset.mgmt.ready = false := by decide +kernel

/-- An import of a revision that is in use, into a full store, and one that is held; and one that can be read. -/
theorem witness_imports :
    (∀ e ∈ [(1, 1), (0, 256), (0, 255)],
      let y : Yelm := { (default : Yelm) with st := .held }
      let s := base.updPart 0 fun p => { p with yelms := List.replicate e.2 { y with users := e.1 } }
      let p := s.parts[(0 : Fin 4)]
      ((∃ z ∈ p.yelms, z.st = .held ∧ z.hash = y.hash ∧ z.rev = y.rev ∧ z.users ≠ 0) ↔ e.1 = 1) ∧
      (e.1 = 0 → (storeLimit s ≤ p.yelms.length ↔ e.2 = 256)) ∧ y.st = .held) ∧
    (let s := (mapped regs).updPart 0 fun p => { p with yregs := ⟨0x5000, 0, false, 0⟩ }
     let s := s.updContext 0 0 fun _ => open1 []
     let r := contextRights 0 0 0 (s.ports[(0 : Fin 2)].ctx[(0 : Fin 64)]).ptroot
     let h := readVa s (portCore 0) r 0x5000 256
     h.2.toOption = some (List.replicate 256 0) ∧ ofBytes (List.replicate 256 (0 : Byte)) / 2 ^ 416 % 2 ^ 32 ≤ 2 ^ 20 ∧
     (readVa h.1 (portCore 0) r 0x5000 0).2.toOption = some [] ∧ yelmOfBytes 0 [] = none) := by decide +kernel

/-! ## Witnesses: courses, fibres and battens -/

/-- A device of index 5 in hall 0, in course 3, where fibre 1 reaches index 38, with these battens and the slots due. -/
def hallway (out : List OutB) (held : List HeldB) (replay : List SentB) : State :=
  { base with
    cycle := 340
    fabric := { Fabric.reset with index := 5, hall := 0, course := 3, began := 100, set := true, out := out, valley := held,
                                  replay := replay } }

/-- A write of eight bytes to va of the graph of hash 9. -/
def req1 (va : Nat) : FabReq := ⟨va, 9, .write [1, 2, 3, 4, 5, 6, 7, 8], none, 1, 0⟩

/-- A batten of this device for index 38. -/
def batten1 (b : BattenBody) : Batten := ⟨⟨5, 0⟩, ⟨38, 0⟩, 0, 0, 0, 0, b⟩

def out1 (b : Batten) : OutB := ⟨0, 0, .direct, 3, b, 100, 0, false, true⟩

/-- A course that has one cycle to go, and one that is over; a frame that waits for the next course; a graph that does; and a key
to send with. -/
theorem witness_courses :
    ∀ e ∈ [(7779, false), (7780, true)],
      let s : State := { world .ctl { regs with fwait := true, fcourse := 4 } with
        cycle := e.1, graphs := [{ net with frameAt := some 4 }]
        fabric := { (hallway [] [] []).fabric with fibres := Fabric.reset.fibres.set 1 { Fabric.reset.fibres[(1 : Fin 128)] with newTx := some ⟨1, 2⟩ } } }
      (s.fabric.fibres[(1 : Fin 128)]).newTx = some ⟨1, 2⟩ ∧ (s.fabric.fibres[(1 : Fin 128)]).newRx = none ∧ (s.fabric.began + 7680 ≤ s.cycle ↔ e.2 = true) ∧ (s.ctx 0).fwait = true ∧ (s.ctx 0).fcourse.toNat ≤ 4 ∧
      s.findGraph 0 = some { net with frameAt := some 4 } := by decide +kernel

/-- A fibre that is lit, in a flashing interval, after it, and in a calibration course. -/
theorem witness_fibres :
    (∀ e ∈ [(339, true), (340, false)],
      let s := { hallway [] [] [] with cycle := e.1 }
      fibreLit s 1 = true ∧ (s.cycle - s.fabric.began < 240 ↔ e.2 = true)) ∧
    calibratesNow { base with fabric := { Fabric.reset with index := 5, hall := 0, course := 0 } } 0 = true ∧
    (5 < 2 ^ 19 ∧ 127 < 128 ∧ 31 < 32 ∧ 2047 < 2048) := by decide +kernel

/-- A course of fibre 1 toward index 38 is no calibration course when there is a device of that index. -/
theorem no_calibration (s : State) (h : partnerOf s.position (1 : Fin 128).val (coursePos s.course) = 38) (hp : s.position = 5)
    (hc : Config.present 38 = true) : calibratesNow s 1 = false := by
  simp only [calibratesNow, isCalibration, h, hc]
  rw [hp]
  decide

/-- A slot that is due on fibre 1 with a batten to send and without; one that is not due; and a calibration course. -/
theorem witness_battens_sent :
    (∀ l ∈ [[], [out1 (batten1 (.data (req1 64)))]],
      let s := hallway l [] []
      slotDue s 1 = true ∧ s.fabric.fibres[(1 : Fin 128)].hold = false ∧ pickBatten s 1 = l.head? ∧
      (Config.present 38 = true → calibratesNow s 1 = false)) ∧
    slotDue { hallway [] [] [] with cycle := 339 } 1 = false ∧
    (let s : State := { base with cycle := 240, fabric := { Fabric.reset with index := 5, hall := 0, course := 0 } }
     slotDue s 0 = true ∧ s.fabric.fibres[(0 : Fin 128)].hold = false ∧ calibratesNow s 0 = true ∧
     s.fabric.fibres[(0 : Fin 128)].ctr < 2 ^ 64) := by
  refine ⟨fun l hl => ⟨?_, ?_, ?_, no_calibration _ ?_ ?_⟩, ?_, ?_⟩
  · revert l; decide +kernel
  · revert l; decide +kernel
  · revert l; decide +kernel
  · revert l; decide +kernel
  · revert l; decide +kernel
  · decide +kernel
  · decide +kernel

/-- A held batten for index 38. -/
def held1 : HeldB := ⟨2, 2, 7, { batten1 (.data (req1 64)) with src := ⟨7, 0⟩, hop := 1 }⟩

theorem witness_battens_forwarded :
    let s := hallway [] [held1] []
    slotDue s 1 = true ∧ s.fabric.fibres[(1 : Fin 128)].hold = false ∧ (Config.present 38 = true → calibratesNow s 1 = false) ∧
    pickHeld s 1 = some held1 ∧ pickHeld s 2 = none ∧ pickHeld (hallway [] [{ held1 with since := 3 }] []) 1 = none := by
  intro s
  exact ⟨by decide +kernel, by decide +kernel, no_calibration _ (by decide +kernel) (by decide +kernel), by decide +kernel,
    by decide +kernel, by decide +kernel⟩

/-- Battens that arrive: with a bad tag, idle, for another device, held already, and for this one; and sent ones that a header
acknowledges, leaves out and does not name. -/
theorem witness_battens_received :
    (∀ e ∈ [(1, 0, true), (0, 0, false), (1, 1, false)],
      let d : SentB := ⟨1, 0, 3, out1 (batten1 .idle), false, 38, false⟩
      let s := hallway [] [] [d]
      d ∈ s.fabric.replay ∧ ((d.fibre = (1 : Fin 128).val ∧ d.course = s.course ∧ d.slot / 32 = e.2.1) ↔ e.2.1 = 0) ∧
      ((takeAcks 1 ⟨Fin.ofNat 128 e.2.1, BitVec.ofNat 32 e.1⟩ s).fabric.replay = [] ↔ e.2.2 = true)) ∧
    (let b := { batten1 (.data (req1 64)) with src := ⟨7, 0⟩ }
     b.body ≠ .idle ∧ (∀ n r, b.body ≠ .calibration n r) ∧ b.dst.pos ≠ (hallway [] [] []).position ∧
     holdsAlready (hallway [] [held1] []) b = true ∧ holdsAlready (hallway [] [] []) b = false ∧
     regionUse (hallway [] [] []) 7 < 8192) ∧
    (let b := { batten1 (.data (req1 64)) with src := ⟨38, 0⟩, dst := ⟨5, 0⟩ }
     let s := hallway [] [] []
     b.dst.pos = s.position ∧ numBefore b.cseq (sequencer s b.src b.dst.part b.cls).next = false ∧
     (sequencer s b.src b.dst.part b.cls).ops = []) := by
  refine ⟨by decide +kernel, ⟨by decide +kernel, ?_, by decide +kernel⟩, by decide +kernel⟩
  intro n r h
  cases h

/-- A source's region that is full. -/
theorem witness_full_region :
    (let s := hallway [] (List.replicate 8192 held1) []
     8192 ≤ regionUse s 7 ∧ holdsAlready s { batten1 (.data (req1 64)) with src := ⟨7, 0⟩, cseq := 1 } = false) := by
  constructor
  · have h : (List.replicate 8192 held1).countP (fun h => h.from_ == 7) = 8192 := by
      rw [List.countP_replicate]; rfl
    simp only [regionUse, hallway, h]
    omega
  · decide +kernel

/-- Battens of the replay store: one not due, one that failed, and a relayed one of two courses ago. -/
theorem witness_battens_return :
    ∀ e ∈ [((⟨1, 0, 3, out1 (batten1 .idle), false, 38, false⟩ : SentB), false), (⟨1, 0, 3, out1 (batten1 .idle), false, 38, true⟩, true),
        (⟨1, 0, 1, out1 (batten1 .idle), true, 38, false⟩, true)],
      let s := hallway [out1 { batten1 .idle with cseq := 1 }] [] [e.1]
      takeFirst (fun d => d.fibre == 1 && d.slot == 0 && (d.bad || decide (d.course + 2 ≤ s.course))) s.fabric.replay =
        if e.2 then some (e.1, []) else none := by decide +kernel

/-! ## Witnesses: commits -/

/-- A machine with a graph of hash 9 that holds FAB, whose sequencer from position 38 has these ops. -/
def receiving (l : List Pending) : State :=
  let s := mapped regs
  { s with
    graphs := [{ net with root := 65536, fab := true, hash := 9 }]
    fabric := { (hallway [] [] []).fabric with seqs := [⟨⟨38, 0⟩, 0, 0, 0, [], false, l⟩] } }

/-- COMMIT of nothing; without its graph; of a write that is performed, held and faults; and of one that is held. -/
theorem witness_commits :
    (sequencer (receiving []) ⟨38, 0⟩ 0 0).head = none ∧
    (let p : Pending := ⟨0, { req1 0x1000 with hash := 8 }, [0], none, none, none⟩
     let s := receiving [p]
     (sequencer s ⟨38, 0⟩ 0 0).head = some p ∧ remoteGraph s 0 p.req.hash = none) ∧
    (∀ e ∈ [(0x1000, 0), (0x40000000, 1), (0x80000000, 2)],
      let p : Pending := ⟨0, req1 e.1, [0], none, none, none⟩
      let s := receiving [p]
      (sequencer s ⟨38, 0⟩ 0 0).head = some p ∧ p.req.land = none ∧ (sequencer s ⟨38, 0⟩ 0 0).skips = [] ∧
      ∃ g, remoteGraph s 0 p.req.hash = some g ∧ (match (remoteAccess g p.req true s).2 with
        | .ok _ => 0
        | .error .held => 1
        | .error _ => 2) = e.2) ∧
    (let p : Pending := ⟨0, req1 0x40000000, [0], none, none, some 90⟩
     (sequencer (receiving [p]) ⟨38, 0⟩ 0 0).head = some p) := by
  refine ⟨by decide +kernel, by decide +kernel, fun e he => ⟨?_, rfl, ?_, { net with root := 65536, fab := true, hash := 9 }, ?_⟩,
    by decide +kernel⟩ <;> revert e <;> decide +kernel

/-- A performed write that waits to notify a task that is there, and one that is not; a commit that has waited just too short and
long enough. -/
theorem witness_commits_notify :
    (∀ e ∈ [(0, true), (9, false)],
      let p : Pending := ⟨0, { req1 0x1000 with land := some ⟨e.1, 64⟩ }, [0], some ([], 0), none, none⟩
      let s := receiving [p]
      (sequencer s ⟨38, 0⟩ 0 0).head = some p ∧ p.res = some ([], 0) ∧ (sequencer s ⟨38, 0⟩ 0 0).skips = [] ∧
      ((remoteGraph s 0 p.req.hash).bind fun g => taskOn s g.handle e.1) = (if e.2 then some job else none) ∧
      (notifyTask job 64 8 s).2 = none) ∧
    (∀ n ∈ [2400089, 2400090],
      let p : Pending := ⟨0, req1 0x1000, [0], none, some 90, none⟩
      let s := { receiving [p] with cycle := n }
      (sequencer s ⟨38, 0⟩ 0 0).head = some p ∧ p.since = some 90) := by decide +kernel

/-- A fabric op of the partition, with one destination. -/
def fabOp (a : FabAct) (owner : Option Nat) : Op :=
  { op6 (.fabric ⟨64, 9, a, none, 1, 0⟩ [⟨1, some ⟨38, 0⟩, 4, false, []⟩] .direct true none none 0) .running with owner := owner }

/-- What arrives at the source of an RST, and of an RLD. -/
theorem witness_answers :
    (let q := fabOp (.write [1]) (some 0)
     let s := working [q]
     fabricOps s 0 = [q] ∧ s.findOp q.oid = some q ∧ q.kind.byReply = false) ∧
    (let q := fabOp .read none
     let s := working [q]
     let b : Batten := ⟨⟨38, 0⟩, ⟨5, 0⟩, 0, 0, 0, 1, .reply 4 (List.replicate 256 1) 0⟩
     fabricOps s 0 = [q] ∧ s.findOp q.oid = some q ∧ q.kind.byReply = true ∧
     q.kind.dests = [⟨1, some ⟨38, 0⟩, 4, false, []⟩] ∧ isDest q b 4 ⟨1, some ⟨38, 0⟩, 4, false, []⟩ = true ∧ q.owner = none ∧
     q.kind.tries = 0 ∧ q.status ≠ .faulted ∧ ({ q with status := .faulted } : Op).status = .faulted ∧
     battensFor 256 = 2 ∧ ([] ++ [b.bidx]).eraseDups.length = 1 ∧ ([0] ++ [b.bidx]).eraseDups.length = 2) := by decide +kernel

/-- Numbers that are passed, next and later; and a batten of this device for itself. -/
theorem witness_skips :
    (let q := sequencer (receiving []) ⟨38, 0⟩ 0 0
     numBefore (2 ^ 28 - 1) q.next = true ∧ numBefore 0 q.next = false ∧ numBefore (2 ^ 27) q.next = false ∧ q.skips = [] ∧
     q.next ∉ q.skips ∧ 2 ^ 27 ≠ q.next) ∧
    (let b : OutB := out1 { batten1 (.data (req1 64)) with dst := ⟨5, 0⟩ }
     let s := hallway [b] [] []
     pickInternal s = some b ∧ (∀ o ∈ (hallway [] [] []).fabric.out, o.batten.dst.pos ≠ s.position) ∧
     numBefore b.batten.cseq (sequencer s b.batten.src b.batten.dst.part b.batten.cls).next = false ∧
     (sequencer s b.batten.src b.batten.dst.part b.batten.cls).ops = []) := by decide +kernel

/-- A fabric op that waits for its answer, one whose rank the table does not name, and a RRED that has waited too long and one
that has not. -/
theorem witness_unreachable :
    (∀ n ∈ [100 + 64 * 32 * 7680, 99 + 64 * 32 * 7680],
      let q := op6 (.rred default 0 0 [] .any 100) .running
      let s := { working [q] with cycle := n }
      s.findOp 3 = some q ∧ (∀ b ∈ s.fabric.out, b.oid ≠ 3) ∧ q.reply = none ∧
      (unreachable s q = some 0x11 ↔ n = 100 + 64 * 32 * 7680)) ∧
    (let q := fabOp .read none
     (working [q]).findOp 3 = some q ∧ q.kind.isFabric = true ∧ unreachable (working [q]) q = none) ∧
    (let q := { fabOp .read none with kind := .fabric default [⟨1, none, 4, false, []⟩] .direct true none none 0 }
     (working [q]).findOp 3 = some q ∧ q.kind.isFabric = true ∧ unreachable (working [q]) q = some 0x11 ∧ q.status = .running ∧
     ∃ d ∈ q.kind.dests, d.party = none) := by decide +kernel

/-- A reduction of one contribution, one of two of which one is there, and two contributions that do not agree. -/
theorem witness_reductions :
    (let m : RredMsg := ⟨9, 0, 64, 0, 0, .fadd, 1, List.replicate 256 0⟩
     let s : State := { base with fabric := { base.fabric with rreds := [(0, m, [0, 1])] } }
     rredWhole s 0 = [m] ∧ rredFails s 0 m = false ∧ rredReady s 0 m = some [m]) ∧
    (let m : RredMsg := ⟨9, 0, 64, 0, 0, .fadd, 2, List.replicate 256 0⟩
     let s : State := { base with fabric := { base.fabric with rreds := [(0, m, [0, 1])] } }
     rredWhole s 0 = [m] ∧ rredFails s 0 m = false ∧ rredReady s 0 m = none) ∧
    (let m : RredMsg := ⟨9, 0, 64, 0, 0, .fadd, 2, List.replicate 256 0⟩
     let n := { m with rank := 1, count := 3 }
     let s : State := { base with fabric := { base.fabric with rreds := [(0, m, [0, 1]), (0, n, [0, 1])] } }
     (rredWhole s 0).find? (rredFails s 0) = some m ∧ n ∈ rredGroup s 0 m ∧ n.count ≠ m.count) := by decide +kernel

/-! ## Witnesses: bring-up and service -/

/-- Registers of the fabric: a write of RSV0 that meets a bit of RSV1, and one that does not; a switch that is due. -/
theorem witness_fabric_registers :
    (let s := base.updPart 0 fun p => { p with rsv := p.rsv.set 1 4 }
     s.mgmt.ready = true ∧ (∃ m : Fin 16, m ≠ 0 ∧ (s.parts[(0 : Fin 4)]).rsv[m] &&& 6 ≠ 0) ∧
     ¬∃ m : Fin 16, m ≠ 0 ∧ (s.parts[(0 : Fin 4)]).rsv[m] &&& 3 ≠ 0) ∧
    (let s := ({ hallway [] [] [] with cycle := 100 } : State).updPart 0 fun p => { p with armed := true, swc := 3 }
     (s.parts[(0 : Fin 4)]).armed = true ∧ s.cycle = s.fabric.began ∧ (s.parts[(0 : Fin 4)]).swc ≤ s.course) ∧
    (hallway [] [] []).fabric.set = true ∧ base.fabric.set = false := by decide +kernel

/-- Each phase of bring-up; the images that verify are those that firmware's key signs. -/
theorem witness_power_on :
    (∀ n ∈ [0, 1, 2, 3, 4, 5],
      let s : State := { State.reset with mgmt := { Mgmt.reset with phase := n } }
      s.mgmt.ready = false ∧ s.mgmt.tripped = false ∧ s.mgmt.phase = n ∧ s.mgmt.fuse ≤ s.mgmt.isvn ∧ courseSource s = none ∧
      s.mgmt.pmode = 0 ∧ (s.parts[(0 : Fin 4)]).used = true) ∧
    (let s : State := { State.reset with mgmt := { Mgmt.reset with phase := 4, epoch := some (3200, 0) } }
     s.mgmt.phase = 4 ∧ (courseSource s).isSome = true) ∧
    ((0 : W32) < 1 ∧ base.mgmt.ready = true) ∧
    ((Config.signed [] = true ∨ Config.signed [] = false) ∧ (Config.hbmTrains 0 = true ∨ Config.hbmTrains 0 = false)) := by
  refine ⟨by decide +kernel, by decide +kernel, by decide +kernel, ?_, ?_⟩
  · cases Config.signed [] <;> simp
  · cases Config.hbmTrains 0 <;> simp

/-- Recovery, a stopped clock, and firmware that runs with a die being drained and with none. -/
theorem witness_restarts :
    ({ Mgmt.reset with phase := 6 } : Mgmt).phase = 6 ∧ Mgmt.reset.phase ≠ 6 ∧ Mgmt.reset.tripped = false ∧
    ({ Mgmt.reset with tripped := true } : Mgmt).tripped = true ∧ firmwareRuns State.reset = false ∧ firmwareRuns base = true ∧
    base.mgmt.updates = [] ∧ base.mgmt.draining = [] ∧ base.mgmt.fuse ≤ 0 ∧ base.cycle % 2 = 0 ∧
    ({ base.mgmt with draining := [2] } : Mgmt).draining ≠ [] ∧ (List.replicate 32 (0 : Byte)).length = 32 := by decide +kernel

/-- Registers written before READY and after it, with a fabric op live and with none. -/
theorem witness_registers :
    State.reset.mgmt.ready = false ∧ base.mgmt.ready = true ∧ fabricBusy base = false ∧
    fabricBusy (working [{ fabOp .read none with chan := 6 }]) = true ∧ 0x3FF < 0x400 ∧ 0x1000 ≤ 0x1000 := by decide +kernel

/-- Addresses of no memory, of each memory's ends, and of a poisoned word. -/
theorem witness_poison :
    (¬deviceKey 618475290624 ∧ deviceKey 618475290623 ∧ deviceKey (2 ^ 40) ∧ ¬deviceKey (2 ^ 40 + 2 ^ 30) ∧
      deviceKey (2 ^ 41 + 640 * 2 ^ 21 - 1) ∧ ¬deviceKey (2 ^ 41 + 640 * 2 ^ 21)) ∧
    (64 ∈ ({ base with poison := [64] } : State).poison ∧ 64 ∉ base.poison) := by
  unfold deviceKey
  decide +kernel

/-- Host accesses past HBM, to its reserved part, to a part of a poisoned word, and to ordinary memory. -/
theorem witness_host_memory :
    618475290624 < 618475290623 + 2 ∧ 618475290623 < 2 ^ 64 ∧
    hostMayReach base (51539607552 - 4294967296) 8 = false ∧ hostMayReach base (51539607552 - 4294967296 - 8) 8 = true ∧
    ({ base with poison := [64] } : State).partPoison 64 4 = true ∧ ({ base with poison := [64] } : State).partPoison 64 8 = false ∧
    base.partPoison 64 4 = false ∧ base.mem.wf = true ∧ State.reset.mgmt.ready = false := by decide +kernel

/-- STKRET of the last stack and of none; a device without graphs; a die that is mapped, one that is drained. -/
theorem witness_service :
    (let v : W64 := 0x800000000000000B
     v.getLsbD 63 = true ∧ v.toNat % 16 < 12 ∧ v.toNat % 16 ∉ base.mgmt.retired ∧ 12 ≤ (v + 1).toNat % 16) ∧
    (firmwareRuns { base with graphs := [] } = true ∧ base.graphs ≠ []) ∧
    (base.mgmt.drained = [] ∧ base.mgmt.draining = [] ∧
      (let s : State := { base with mgmt := { base.mgmt with drained := [3] } }
       firmwareRuns s = true ∧ (3 : Fin 4).val ∈ s.mgmt.drained ∧ (3 : Fin 4).val ∉ s.mgmt.draining)) := by decide +kernel

/-! ## Witnesses: steps -/

/-- A step of a stream's instruction of one word and of two, of a word of no instruction, of a line that is not there, of a
stream that may not issue, of an event and of nobody; and of a waiting instruction. -/
theorem witness_steps :
    (∀ e ∈ [(0x080A0002, false), (0x200001 * 2 ^ 32 + 0x240C0000, true), (0x04000000, false)],
      let s := State.reset.withFetchWord 64 e.1
      let q := (s.ctx 0).strm .ctl
      s.agenda = [.stream 0 .ctl] ∧ hasTurn s 0 .ctl = true ∧ q.taken = false ∧ inImage q q.pc.toNat = true ∧
      (∀ l ∈ heldLine s 0 .ctl (lineOf q.pc.toNat), l.bad q.pc.toNat = false ∧ l.word q.pc.toNat = BitVec.ofNat 32 e.1 ∧
        isLong .ctl (l.word q.pc.toNat).toNat = e.2 ∧ inImage q (q.pc.toNat + 4) = true ∧ l.bad (q.pc.toNat + 4) = false) ∧
      (heldLine s 0 .ctl (lineOf q.pc.toNat)).isSome = true ∧ (heldLine s 0 .ctl (lineOf (q.pc.toNat + 4))).isSome = true) ∧
    (decode .ctl 0x080A0002 0).toOption = some (.addi o 5 0 2) ∧
    (∃ st ∈ allStreams, let s := State.reset.withFetchWord 64 0x0400001F
      s.agenda = [.stream 0 st] ∧ hasTurn s 0 st = true ∧ (decode st 0x0400001F 0).toOption = none) ∧
    (let s : State := { base with agenda := [.stream 0 .ctl] }
     hasTurn s 0 .ctl = true ∧ ((s.ctx 0).strm .ctl).miss = none ∧ heldLine s 0 .ctl 0x1000 = none ∧
     inImage ((s.ctx 0).strm .ctl) 0x1000 = true) ∧
    hasTurn State.reset 0 .ctl = false ∧ State.reset.agenda = [] ∧
    (let s := world .ctl { regs with str := regs.str.set 0 { strm0 with taken := true, words := (0x080A0002, 0) } }
     hasTurn s 0 .ctl = true ∧ ((s.ctx 0).strm .ctl).taken = true) := by decide +kernel

theorem witness_placed : decodeTableWord 32 0x080A0002 = some (.addi o 5 0 2) := by decide +kernel

/-- A machine in which a step goes on, with its memory in the canonical form. -/
theorem witness_invariants : State.reset.MemGood ∧ ∃ t, step State.reset = .next t :=
  ⟨rfl, _, rfl⟩

/-- A task fits on core 0 at its base, and its channels are free there. -/
theorem witness_channels :
    fitBase (coreIn .idle regs job) 0 job = some 0 ∧ (coreIn .idle regs job).ops = [] ∧
    channelFree (working (List.replicate 8 (op6 copyKind .queued))) 0 0 0 = false := by decide +kernel

/-- A leaf of HBM that names a frame below the reserved ones, and one that names a reserved frame. -/
theorem witness_frames_reserved :
    (∀ e ∈ [(47 * 2 ^ 30 + 7 - 2 ^ 30 * 4, false), (47 * 2 ^ 30 + 7, true)],
      e.1 / 16 % 2 = 0 ∧ e.1 / 4096 * 4096 % 2 ^ 30 = 0 ∧
      e.1 / 4096 * 4096 + 5 % 2 ^ 30 < 12 * (48 * 2 ^ 30) ∧ reservedHbm (e.1 / 4096 * 4096 + 5 % 2 ^ 30) = e.2) ∧
    base.onRetired (43 * 2 ^ 30 + 5) = false := by decide +kernel

/-! ## Terms that stand for no instruction -/

/-- One ill-formed term for each condition of the entries (R136, R179 to R279). -/
theorem test_ill_formed :
    (Instr.alu o .clz 1 2 3).WellFormed = false ∧ (Instr.alu o .popc 1 2 1).WellFormed = false ∧
    (Instr.ldu o .b8 1 2 0 0).WellFormed = false ∧
    (Instr.amo o .add 1 2 3 0 .b1 0 .core .rlx).WellFormed = false ∧ (Instr.amo o .fadd 1 2 3 0 .b8 0 .core .rlx).WellFormed = false ∧
    (Instr.amo o .add 1 2 3 4 .b4 0 .core .rlx).WellFormed = false ∧ (Instr.amo o .add 1 2 3 0 .b4 0 .gang .rlx).WellFormed = false ∧
    (Instr.loopControl o 0 1 0).WellFormed = false ∧ (Instr.loopiControl o 0 1 0).WellFormed = false ∧
    (Instr.loopLoadStore o 0 1 0).WellFormed = false ∧ (Instr.loopiLoadStore o 0 1 0).WellFormed = false ∧
    (Instr.loopMath o 0 (.v 1) 0).WellFormed = false ∧ (Instr.loopiMath o 0 1 0).WellFormed = false ∧
    (Instr.rot o false 1 0).WellFormed = false ∧ (Instr.fmt o 0 1 0).WellFormed = false ∧ (Instr.fmt o 31 1 2).WellFormed = false ∧
    (Instr.tokwControl o false 0).WellFormed = false ∧ (Instr.tokpControl o false 0).WellFormed = false ∧
    (Instr.tokwLoadStore o false 0).WellFormed = false ∧ (Instr.tokpLoadStore o false 0).WellFormed = false ∧
    (Instr.tokwMath o false 0).WellFormed = false ∧ (Instr.tokpMath o false 0).WellFormed = false := by decide +kernel

theorem test_ill_formed_ops :
    (let w : OpWord := ⟨0, 0, 0, false, false⟩
     (Instr.gath o ⟨1, 0, 0, 0, true, false⟩ w).WellFormed = false ∧ (Instr.gath o ⟨1, 1, 0, 0, false, false⟩ w).WellFormed = false ∧
     (Instr.scat o ⟨0, 0, 0, 0, true, false⟩ w).WellFormed = false ∧ (Instr.scat o ⟨1, 1, 0, 0, false, false⟩ w).WellFormed = false ∧
     (Instr.gred o ⟨1, 0, 0, 0, true, false⟩ w).WellFormed = false ∧ (Instr.gred o ⟨1, 1, 0, 0, false, false⟩ w).WellFormed = false) ∧
    (Instr.rld o 0 15 0).WellFormed = false ∧ (Instr.rst o 0 15 0).WellFormed = false ∧ (Instr.mcst o 0 15 0).WellFormed = false ∧
    (Instr.rred o 0 15 .fadd).WellFormed = false ∧ (Instr.ramo o .add 1 15 2 false true).WellFormed = false ∧
    (Instr.ramo o .cas 1 2 15 false true).WellFormed = false ∧ (Instr.ramo o .fmin 1 2 3 true true).WellFormed = false ∧
    (Instr.ramo o .add 1 2 3 false false).WellFormed = false ∧
    (Instr.mmas o ⟨0, 0, 0, 0, false, false, true, false, 0⟩ 0).WellFormed = false ∧
    (Instr.zdrn o 0 0 0 61 0).WellFormed = false := by decide +kernel

theorem test_ill_formed_vectors :
    (let m : CvtCtl := ⟨.rne, false, false, false, 0⟩
     (Instr.cvt o .bf16_f32 (.v 0) (.v 1) (.v 2) { m with q := 1 }).WellFormed = false ∧
     (Instr.cvt o .f32_bf16 (.v 0) (.v 1) (.v 0) { m with sat := true }).WellFormed = false ∧
     (Instr.cvt o .f32_int32 (.v 0) (.v 1) (.v 0) { m with fzi := true }).WellFormed = false ∧
     (Instr.cvt o .int32_f32 (.v 0) (.v 1) (.v 0) { m with fzo := true }).WellFormed = false ∧
     (Instr.cvt o .f32_bf16 (.v 0) (.v 1) (.v 2) m).WellFormed = false ∧
     (Instr.cvt o .fp8e4_f32 (.oq 0) (.v 1) (.v 0) m).WellFormed = false) ∧
    (Instr.redadd o (.v 0) (.v 1) .int32 .rtz false false).WellFormed = false ∧
    (Instr.redmax o (.v 0) (.v 1) .int32 true).WellFormed = false ∧ (Instr.redmin o (.v 0) (.v 1) .int32 true).WellFormed = false ∧
    (Instr.scanadd o (.v 0) (.v 1) .int32 .rne false true).WellFormed = false ∧
    (Instr.mov o (.v 0) (.v 1) true).WellFormed = false := by decide +kernel

/-! ## Single steps -/

/-- The state a step goes on to. -/
def after : Out → State
  | .next t => t
  | _ => State.reset

/-- The control stream with g1 and g2. -/
def with2 (a b : W64) : State := world .ctl { regs with g := (regs.g.set 1 a).set 2 b }

/-- Register d after an instruction. -/
def gAfter (i : Instr) (a b : W64) (d : GReg) : W64 := ((after (exec i (with2 a b))).ctx 0).gr d

/-- The greatest number plus 1 wraps to 0; the high half of (−1)·(−1) signed is 0 (R179). -/
theorem test_alu : gAfter (.alu o .add 5 1 2) 0xFFFFFFFFFFFFFFFF 1 5 = 0 ∧
    gAfter (.alu o .mulh 5 1 2) 0xFFFFFFFFFFFFFFFF 0xFFFFFFFFFFFFFFFF 5 = 0 := by decide +kernel

/-- A source that is the destination is read first; a write of g0 is discarded (R9, R180). -/
theorem test_addi : gAfter (.addi o 1 1 4095) 7 0 1 = 6 ∧ gAfter (.addi o 0 1 1) 7 0 0 = 0 := by decide +kernel

/-- SAR keeps the sign, SHR does not (R180). -/
theorem test_shifts : gAfter (.shi o .sar 5 1 63) 0x8000000000000000 0 5 = 0xFFFFFFFFFFFFFFFF ∧
    gAfter (.shi o .shr 5 1 63) 0x8000000000000000 0 5 = 1 := by decide +kernel

/-- −1 is below 0 signed and not below it unsigned (R180). -/
theorem test_comparisons : gAfter (.slti o 5 1 0) 0xFFFFFFFFFFFFFFFF 0 5 = 1 ∧ gAfter (.sltiu o 5 1 0) 0xFFFFFFFFFFFFFFFF 0 5 = 0 := by
  decide +kernel

/-- The control stream's pc after an instruction at 0x1000. -/
def pcAfter (i : Instr) (a b : W64) : W64 := (((after (exec i (with2 a b))).ctx 0).strm .ctl).pc

/-- A branch taken one word back, and one not taken (R185). -/
theorem test_branches : pcAfter (.blt o 1 2 4095) 0xFFFFFFFFFFFFFFFF 0 = 0xFFC ∧ pcAfter (.bltu o 1 2 4095) 0xFFFFFFFFFFFFFFFF 0 = 0x1004 := by
  decide +kernel

/-- JAL links the address after it; JALR reads its base before it links (R186). -/
theorem test_jumps : gAfter (.jal o 5 4) 0 0 5 = 0x1004 ∧ pcAfter (.jal o 5 4) 0 0 = 0x1010 ∧ pcAfter (.jalr o 1 1 2) 0x2000 0 = 0x2008 := by
  decide +kernel

/-- The code of the fault that the task takes. -/
def codeAfter (i : Instr) (s : State) : Option Nat := (((after (exec i s)).findTask 0).bind (·.fault)).map (·.code)

/-- TRAP is USER_TRAP; a misaligned word is ALIGN; a JALR to an odd address is ALIGN (R182, R186, R192, R322). -/
theorem test_faults : codeAfter (.trap o 99) base = some 0x0F ∧ codeAfter (.ld o .b4 5 1 0 0) (with2 (sp 2) 0) = some 0x07 ∧
    codeAfter (.jalr o 5 1 0) (with2 1 0) = some 0x07 := by decide +kernel

/-- The math stream with v1, v2 and v3 the same number in every lane. -/
def lanes (a b c : W32) : State :=
  world .math { regs with v := ((regs.v.set 1 (Vector.replicate 64 a)).set 2 (Vector.replicate 64 b)).set 3 (Vector.replicate 64 c) }

/-- Lane 0 of the result that an instruction has pending. -/
def pendAfter (i : Instr) (s : State) : Option W32 :=
  ((((after (exec i s)).ctx 0).pend[0]?).bind (·.value)).map fun v => v[0]

/-- 1 + 2^-24 is a tie, which rounds to even; toward +∞ it rounds up (R50, R254). -/
theorem test_fadd_rounds :
    pendAfter (.fadd o (.v 0) (.v 1) (.v 2) ⟨.f32, .rne, false, false⟩) (lanes 0x3F800000 0x33800000 0) = some 0x3F800000 ∧
    pendAfter (.fadd o (.v 0) (.v 1) (.v 2) ⟨.f32, .rup, false, false⟩) (lanes 0x3F800000 0x33800000 0) = some 0x3F800001 := by
  decide +kernel

/-- A fused product is not rounded before the sum: (1 + 2^-12)² − (1 + 2^-11) is 2^-24 (R257). -/
theorem test_fma_is_fused :
    ((((after (exec (.fma o 3 (.v 1) (.v 2) ⟨.f32, .rne, false, false⟩) (lanes 0x3F800800 0x3F800800 0xBF801000))).ctx 0).pend[0]?).bind
      (·.value)).map (fun v => v[0]) = some 0x33800000 := by decide +kernel

/-- An 8-bit sum wraps within its byte (R258). -/
theorem test_iop_bytes : pendAfter (.iop o .w8 .add (.v 0) (.v 1) (.v 2)) (lanes 0x7FFF00FF 0x01010101 0) = some 0x80000100 := by
  decide +kernel

/-- Placed for the next step, ADDI g5, g0, 2 writes g5 (R180). -/
theorem test_step_addi : ((after (step (State.reset.withFetchWord 32 0x080A0002))).ctx 0).gr 5 = 2 := by decide +kernel

/-! ## Witnesses: system registers, checks and rights -/

/-- Two live ops of one channel whose numbers wrap, and the matrix ops that ZRP is read of. -/
theorem witness_op_registers :
    let a := { mma1 65536 with seq := 5 }
    let b := { mma1 65536 with oid := 4, seq := 2 ^ 40 - 1, status := .faulted }
    let s := working [a, b]
    let r := rightsOf s 0
    regs.chuse.getLsbD 4 = true ∧ ({ regs with chuse := 0xEF } : Ctx).chuse.getLsbD 4 = false ∧ base.ops = [] ∧
    (∀ p ∈ s.ops, p.status.isLive = true ∧ p.rights.port = r.port ∧ p.rights.ctx = r.ctx ∧ p.rights.lcore = r.lcore ∧
      p.chan.val = 4 ∧ p.rights.slot = r.slot ∧ p.gen = (s.ctx 0).task.toNat % 65536) ∧
    (1 ≤ (a.seq + 2 ^ 40 - b.seq % 2 ^ 40) % 2 ^ 40 ∧ (a.seq + 2 ^ 40 - b.seq % 2 ^ 40) % 2 ^ 40 < 2 ^ 39) ∧
    a.kind.isMma = true ∧ b.status = .faulted ∧ a.status = .queued ∧ (a.kind.acc?).isSome = true := by decide +kernel

/-- LOFTACC that fails each check in turn: both addresses misaligned, each outside its space, a count of no 16 bytes, past the end
of the Loft, and a source out of the range. -/
theorem witness_loft_checks :
    ∀ e ∈ [(3 * 2 ^ 56 + 8, (sp 4096).toNat, 16, 1), (3 * 2 ^ 56, (sp 4104).toNat, 16, 2), (2 ^ 57, (sp 4096).toNat, 16, 3),
        (3 * 2 ^ 56, 3 * 2 ^ 56, 16, 4), (3 * 2 ^ 56, (sp 4096).toNat, 8, 5), (3 * 2 ^ 56 + 2 ^ 28 - 16, (sp 4096).toNat, 32, 6),
        (3 * 2 ^ 56, (sp 65536).toNat, 16, 7)],
      let s := world .store { regs with
        aS := ((regs.aS.set 1 (BitVec.ofNat 64 e.1)).set 2 (BitVec.ofNat 64 e.2.1)).set 3 (BitVec.ofNat 64 e.2.2.1) }
      let dst := s.fctx.ar .store 1
      let src := s.fctx.ar .store 2
      let n := (s.fctx.ar .store 3).toNat
      let v := s.entered o 0 0
      let off := dst.toNat % 2 ^ 28
      let why := e.2.2.2
      readyB o [1, 2, 3] 0 0 0 0 s = true ∧ (dst.toNat % 16 = 0 ↔ why ≠ 1) ∧ (src.toNat % 16 = 0 ↔ why ≠ 2) ∧
      ((tagOf dst = 3 ∧ placeOf dst.toNat ≠ none) ↔ why ≠ 3) ∧
      (((tagOf src = 1 ∨ tagOf src = 2) ∧ placeOf src.toNat ≠ none) ↔ why ≠ 4) ∧
      ((n % 16 = 0 ∧ 16 ≤ n ∧ n ≤ 1048576) ↔ why ≠ 5) ∧
      ((off + n ≤ 2 ^ 28 ∧ s.inAlias (rightsOf v 0).part off n = false) ↔ why ≠ 6) ∧
      (why = 7 → checkIs (checkPieces 0 (rightsOf v 0) false true true v [⟨src.toNat, 4 * (n / 4), 0⟩] [] none false) = 2) := by
  decide +kernel

/-- The address of a landing word: misaligned, in another space, spilling out of its space from a load stream, past the range, in
another holder's buffer, poisoned, and good. -/
theorem witness_landing_words :
    (sp 65).toNat % 16 ≠ 0 ∧ (sp 64).toNat % 16 = 0 ∧ placeOf 0x2000 = some (.dv 0x2000) ∧
    placeOf (sp 64).toNat = some (.own 64) ∧ Stream.load ≠ .ctl ∧ addrSpills (-16) 0 = true ∧ addrSpills (sp 0) (sp 64) = false ∧
    (let r := rightsOf base 0
     ¬(r.base ≤ 65536 ∧ 65536 + 16 ≤ r.base + r.size) ∧ (r.base ≤ 65520 ∧ 65520 + 16 ≤ r.base + r.size) ∧
     inForeign base r r.lcore 64 16 = false ∧ base.poisoned (spadKey r.pcore 64) 16 = false ∧
     ({ base with poison := [spadKey 0 72] } : State).poisoned (spadKey r.pcore 64) 16 = true) ∧
    (let r := rightsOf foreign 0
     inForeign foreign r r.lcore 64 16 = true) := by decide +kernel

/-- A poisoned entry as the first and as the second source of an instruction, and popped by MVQ. -/
theorem witness_poisoned_entries :
    let p := { entry1 with poison := true }
    let s := world .math { regs with iq := Vector.replicate 8 [p], oq := Vector.replicate 8 [entry1] }
    readyB o [] 0 0 0 0 s = true ∧ oldest s.fctx.iq[(7 : QNum)] s.cycle = some p ∧ p.poison = true ∧
    (srcValue s (.v 23)).isSome = true := by decide +kernel

/-- An op that no task owns, and one whose owner is live. -/
theorem witness_op_rights :
    ({ op6 copyKind .running with owner := none } : Op).owner = none ∧
    ((op6 copyKind .running).owner = some 0 ∧ base.findTask 0 = some job) := by decide +kernel

/-! ## Witnesses: collectives -/

/-- A collective of a set of two, of four bytes. -/
def coll2 (k : CollKind) (m : Nat) : CollMsg := ⟨9, 0, 2, 1, 0, m, k, 0, 4, 0, 0, [], 0⟩

/-- What a member of each kind has to send. -/
theorem witness_coll_shares :
    ∀ e ∈ [(CollKind.allgather, 0, 4), (.redscat, 1, 8), (.allred, 0, 4), (.bcast, 0, 4), (.bcast, 1, 0), (.barrier, 0, 0)],
      let c := coll2 e.1 e.2.1
      (List.replicate e.2.2 (7 : Byte)).length = (match c.kind with
        | .allgather | .allred => c.bytes
        | .redscat => c.count * c.bytes
        | .bcast => if c.member = c.root then c.bytes else 0
        | .barrier => 0) := by decide +kernel

/-- The machine whose partition's rank table, at 4,096, names rank 0 or both of two ranks. -/
def ranked (n : Nat) (l : List Op) : State :=
  let s := { working l with mem := Memory.writeL [] 4096 (toBytes 8 ((5 + 2 ^ 31) + (if n = 2 then (38 + 2 ^ 31) * 2 ^ 32 else 0))) }
  s.updPart 0 fun p => { p with rtbase := 4096, nrank := 2 }

/-- A reduction and an ALLRED that begin: with their ranks named and not, with a source that can be read and not; and one whose turn it is not. -/
theorem witness_collectives_begin :
    (∀ e ∈ [(1, 65536, true), (0, 65536, false), (1, 0, true)],
      let m : RredMsg := ⟨9, e.1, 64, 0, 0, .fadd, 1, []⟩
      let a := { op6 (.rred m 7 0 [] .any 0) .queued with chan := 7, rights := { (op6 copyKind .queued).rights with size := e.2.1 } }
      let s := ranked 2 [a]
      let b := { s with free := s.free + 1 }
      s.findOp 3 = some a ∧ a.cancel = false ∧ a.pausing = false ∧ a.begun = false ∧ a.reply = none ∧
      (collPick s (a.rights.pcore / 160)).map (·.oid) = some 3 ∧
      ((rankParty b 0 (if e.2.2 then m.point else 2)).isSome = e.2.2)) ∧
    (∀ e ∈ [(2, true), (1, false)],
      let c := coll2 .allred 0
      let a := { op6 (.coll c (sp 64) (sp 128) 0 false false) .queued with chan := 7 }
      let s := ranked e.1 [a]
      let b := { s with free := s.free + 1 }
      s.findOp 3 = some a ∧ (collPick s (a.rights.pcore / 160)).map (·.oid) = some 3 ∧
      (readVa b 0 (a.accessRights b) (sp 64).toNat 4).2.toOption.isSome = true ∧ c.fcode = 0 ∧ collBroken b 0 c = none ∧
      ((memberParty b 0 c 1).isSome = e.2) ∧
      collBroken { b with fabric := { b.fabric with colls := [(0, { coll2 .bcast 1 with member := 1 }, [0])] } } 0 c ≠ none) ∧
    (let a := { op6 (.coll (coll2 .allred 0) (sp 64) (sp 128) 0 false false) .queued with chan := 7 }
     let b := { a with oid := 4, prio := 3 }
     let s := ranked 2 [a, b]
     s.findOp 3 = some a ∧ (collPick s (a.rights.pcore / 160)).map (·.oid) ≠ some 3) := by decide +kernel

/-- A collective whose members' data is there, into a mapped, a held and an unmapped place; one that waits for a member; and one
that has written its result. -/
theorem witness_colls_complete :
    (∀ e ∈ [((128 : Nat), 0), (0x40000000, 1), (0x80000000, 2)],
      let c := { coll2 .allred 0 with func := 1 }
      let d := fun q : Nat => toBytes 4 (5 + q)
      let dst := if e.1 = 128 then sp 128 else BitVec.ofNat 64 e.1
      let a0 := { op6 (.coll c (sp 64) dst (sp 256) true false) .running with chan := 7 }
      let a := { a0 with rights := { a0.rights with root := 65536 } }
      let s : State := { paged regs with
        ops := [a]
        fabric := { base.fabric with colls := [(0, { c with data := d 0 }, [0]), (0, { c with member := 1, data := d 1 }, [0])] } }
      s.findOp 3 = some a ∧ a.status = .running ∧ a.cancel = false ∧ a.pausing = false ∧ isSaved s a = false ∧ a.held = none ∧
      ((s.issuer a).bind (·.image)).isNone = true ∧ (∀ q < 2, collFrom s 0 c q = some (d q)) ∧
      (let b := opFlags s a (redFold c.func ([d 0, d 1].map wordsOf)).2
       let bs := ((redFold c.func ([d 0, d 1].map wordsOf)).1.map fun w => toBytes 4 w.toNat).flatten
       bs ≠ [] ∧ wroteIs (writeVa b 0 (a.accessRights b) dst.toNat bs) = e.2) ∧
      collFrom { s with fabric := { s.fabric with colls := [(0, { c with data := d 0 }, [0])] } } 0 c 1 = none) ∧
    (∀ l ∈ [[], [(⟨3, sp 64, 4⟩ : Notify)]],
      let a := { op6 (.coll (coll2 .allred 0) (sp 64) (sp 128) (sp 256) true true) .running with chan := 7 }
      let s := { working [a] with notifies := l }
      s.findOp 3 = some a ∧ isSaved s a = false ∧ ((∃ n ∈ s.notifies, n.oid = 3) ↔ l ≠ [])) := by decide +kernel

/-- A message of the set that agrees, one that gives another kind, and one of a member that has met a fault. -/
theorem witness_coll_mismatches :
    ∀ m ∈ [coll2 .allred 1, coll2 .bcast 1, { coll2 .allred 1 with fcode := 0x0D }],
      let c := coll2 .allred 0
      let a := { op6 (.coll c (sp 64) (sp 128) 0 true false) .running with chan := 7 }
      let s := working [a]
      s.findOp a.oid = some a ∧ a ∈ s.ops ∧ a.status.isLive = true ∧ a.rights.part = 0 ∧ sameColl c m = true ∧ s.ops = [a] ∧
      ((m.fcode ≠ 0 ∨ m.kind ≠ c.kind) ↔ m ≠ coll2 .allred 1) := by decide +kernel

/-! ## Witnesses: reductions of the gather and matrix engines -/

/-- The pairs of a GRED: a tie of two indices in its table, and an index past it. -/
theorem witness_gred_sums :
    ∀ e ∈ [(1, true), (16, false)],
      let hi : ShapeReg := index 1 4
      let a := op6 (.gather .gred (sp 32768) table4 hi false [] []) .queued
      let s := { working [a] with mem := Memory.writeL [] (spadKey 0 64) (toBytes 16 (e.1 + 2 ^ 32 + e.1 * 2 ^ 64 + 2 ^ 96)) }
      let rd := opRead a s (hi.row 0) (4 * hi.cols.toNat)
      rd.2.toOption.isSome = true ∧ (gredPairs (rd.2.toOption.getD [])).length = 2 ∧
      ((∀ p ∈ gredPairs (rd.2.toOption.getD []), p.1 < table4.rows.toNat) ↔ e.2 = true) ∧
      (e.2 = true → (readRows a table4 rd.1 ((gredPairs (rd.2.toOption.getD [])).map (·.1))).2.toOption.isSome = true) := by
  decide +kernel

/-- The metadata of an MMAS that keeps the first two of every four, and one that names a pair the wrong way round. -/
theorem witness_sparse_groups :
    ∀ e ∈ [(4, true), (1, false)],
      let m : ShapeReg := ⟨sp 8192, 32, 64, 64, 10, true, false, 0, 0, 0⟩
      let a := op6 (.mma .mmas 0 tileA tileB (some m) entryBf .rne false false false none) .queued
      let s := { working [a] with mem := Memory.writeL [] (spadKey 0 8192) (List.replicate 128 (BitVec.ofNat 8 (17 * e.1))) }
      let p := groupCodes a tileA true 0 s
      let r := tileRow a m s 0 0 32
      p.2.toOption.isSome = true ∧ (sparseCodes a tileB m 0 p.1 (List.range 4)).2.toOption.isSome = e.2 ∧
      r.2.toOption.isSome = true ∧
      (e.2 = true → (keptPairs a tileB 0 (List.replicate 64 4) r.1 (List.range 64)).2.toOption.isSome = true) := by
  decide +kernel

/-- A drain with an entry to push, into a queue with room and a full one. -/
theorem witness_drains_push :
    ∀ n ∈ [15, 16],
      let d := { (default : Drain) with id := 4, z := 3, rows := 0, row := 64, out := [(ones, 0x3F), (ones, 0)] }
      let s := world .math { regs with drains := [d], mq := List.replicate n entry1 }
      (s.ctx 0).drains = [d] ∧ d.clear = false ∧ zFree (s.ctx 0) d.z (.drain d.id) = false ∧ drainsMove s 0 = true ∧
      (s.ctx 0).mathEnd = false ∧ (s.ctx 0).mq.length = n := by decide +kernel

/-! ## Witnesses: rings and gangs -/

/-- A ring of two graphs: without a pointer, with one that stays, one that has dispatched its weight, and one whose graph has gone. -/
theorem witness_rings :
    ∀ e ∈ [(none, 0), (some (Machine.Ring.mk 0 0 0 0), 1), (some (Machine.Ring.mk 0 0 0 1), 2), (some (Machine.Ring.mk 0 0 7 0), 3)],
      let k := { job with st := .ready }
      let u := { k with slot := 1, graph := 1 }
      let q : QEntry := ⟨[0], false, false, 0, true, 0⟩
      let s0 := { coreIn .idle regs k with tasks := [k, u], graphs := [net, { net with handle := 1 }] }
      let s := s0.updPart 0 fun p => { p with queue := [q, { q with tasks := [1] }], rings := e.1.toList }
      ringOf (candidates s 0) 0 0 = [0, 1] ∧ ((s.parts[(0 : Fin 4)]).rings.find? fun r => r.prio == 0 && r.pcls == 0) = e.1 ∧
      s.findGraph 0 = some net ∧ (∀ r ∈ e.1, (r.graph ∈ ringOf (candidates s 0) 0 0 ↔ e.2 ≠ 3) ∧
        (r.count < max 1 net.wgt ↔ e.2 ≠ 2)) := by decide +kernel

/-- What a gang of two has said: nothing of one member, both first proposals, and both second ones. -/
theorem witness_proposals :
    let m : GangMsg := ⟨9, 2, 0, 0, false, 3, 7, false⟩
    let y : Yelm := { (default : Yelm) with nrank := 2, st := .held, hash := 9, rev := 3 }
    let g := { net with hash := 9, joined := some 5, mode := .replay 3 }
    let at_ (l : List GangMsg) : State :=
      let s := { base with graphs := [g], fabric := { base.fabric with gangs := l.map fun e => (0, e) } }
      s.updPart 0 fun p => { p with yelms := [y], nrank := 2 }
    let firsts := [m, { m with rank := 1, rev := 4, join := 9 }]
    let seconds := [{ m with second := true, join := 9, held := true }, { m with rank := 1, second := true, join := 9, held := true }]
    gangFirst (at_ [m]) 0 9 0 2 = none ∧ gangFirst (at_ firsts) 0 9 0 2 = some (3, 9) ∧ (∀ e ∈ firsts, e.rev ≤ 255) ∧
    gangGives (at_ (firsts ++ seconds)) 0 9 0 2 = some (3, 9, true) ∧ gangSize (at_ firsts) g = 2 ∧ g.joined ≠ none ∧
    ((at_ firsts).parts[(0 : Fin 4)]).ownrank = 0 ∧ gangSaid (at_ firsts) 0 9 g.gang true = [] ∧
    rankParty (ranked 2 []) 0 1 = some ⟨38, 0⟩ ∧ countOf (at_ firsts).fabric.gangN (0, 9) = 0 ∧
    countOf ([((0, 9), 1)] : List ((Nat × Nat) × Nat)) (0, 9) = 1 := by decide +kernel

/-! ## Witnesses: accesses that fail, wait and stand -/

/-- AMO misaligned, in no space, held by a leaf with WB, of an unmapped page, and on a poisoned word; ALD that spills. -/
theorem witness_amo_checks :
    (∀ e ∈ [((sp 65 : W64), 9), (2 ^ 57 + 2 ^ 24, 8), (0x40000000, 1), (0x80000000, 2), (sp 64, 0)],
      let s := paged (atAddr e.1)
      let va := s.fctx.gr 1
      readyB o [31, 1, 2, 3] 0 0 0 0 s = true ∧ (va.toNat % 8 = 0 ↔ e.2 ≠ 9) ∧ (placeOf va.toNat = none ↔ e.2 = 8) ∧
      (e.2 < 8 → checkIs (s.checked o true true [⟨va.toNat, 8, 0⟩]) = e.2)) ∧
    ({ base with poison := [spadKey 0 64] } : State).poisoned (spadKey 0 64) 8 = true ∧
    ((world .load { regs with aL := regs.aL.set 1 (-16) }).fstr ≠ .ctl ∧ addrSpills (-16) (-16 + BitVec.ofInt 64 (2 * 8)) = true) := by
  decide +kernel

/-- An access that the stream stands at, on a word that is poisoned, with TYLD in this cycle and without. -/
theorem witness_poisoned_accesses :
    ∀ b ∈ [false, true],
      let a := { access 1 (.load 5 4 true) (spadKey 0 64) with stalls := true }
      let s0 := accessing [a]
      let s : State := { s0 with
        poison := [spadKey 0 64]
        cores := if b then s0.cores.set 0 { s0.core 0 with run := .cutting 0 100 } else s0.cores
        tasks := [{ job with forced := b }] }
      a.stalls = true ∧ unitUe s a ⟨spadKey 0 64, 4, 0⟩ = true ∧ yieldedNow s 0 = b ∧ mayPerform (s.ctx 0) .ctl 0 a = true := by
  decide +kernel

/-- An entry that lands with a load before it and one after it. -/
theorem witness_entry_lands_behind :
    let a := { access 2 (.fill 2 7) 0 with units := [] }
    let b := access 1 (.load 5 4 true) (spadKey 0 64)
    let s := world .load { regs with
      str := regs.str.set 1 { strm0 with accs := [b] ++ a :: [{ a with id := 3, kind := .fill 2 8 }] }
      iq := regs.iq.set 2 [newPlace 7, newPlace 8] }
    ((s.ctx 0).strm .load).accs = [b] ++ a :: [{ a with id := 3, kind := .fill 2 8 }] ∧ b.units ≠ [] ∧
    (∀ p ∈ (s.ctx 0).iq[(2 : QNum)], ∀ r ∈ (s.ctx 0).iq[(2 : QNum)], p.id = 7 → r.id = 7 → p = r) := by decide +kernel

/-- A hot leaf whose counter crosses the threshold, with room in the queue, with none, and short of it; and a poisoned counter. -/
theorem witness_hot_notices :
    (∀ e ∈ [((5 : Nat), 0, true, false), (5, 1, true, true), (9, 0, false, false)],
      let s := base.updPort 0 fun p => { p with
        hthr := BitVec.ofNat _ e.1, hqbase := 0x200000, hqhead := BitVec.ofNat _ e.2.1, hqtail := 0 }
      let p := s.ports[(0 : Fin 2)]
      let old := s.mem.num 256 2
      let new := min 65535 (old + 6)
      s.mem.wf = true ∧ p.hthr ≠ 0 ∧ p.hqbase ≠ 0 ∧ ((old < p.hthr.toNat ∧ p.hthr.toNat ≤ new) ↔ e.2.2.1 = true) ∧
      (p.hqtail + 1 = p.hqhead ↔ e.2.2.2 = true) ∧ p.hqbase.toNat + 16 * p.hqtail.toNat + 16 ≤ 618475290624 ∧
      256 + 2 ≤ p.hqbase.toNat + 16 * p.hqtail.toNat) ∧
    (let s := mapped regs
     let r := { (rightsOf s 0) with root := 65536 }
     let l := leafOf s 0 r 0x1000
     l.2.toOption.isSome = true ∧ ∀ q ∈ l.2.toOption, foreignFrame s r (leafReach s q.1 q.2.2 0x1000 true false) = false) := by
  decide +kernel

/-- LWAIT behind a store of its own stream to the word, and at an address that fails its checks. -/
theorem witness_lwait_follows :
    let a := access 1 .store (spadKey 0 64)
    let s := { accessing [a] with mem := (landing 0 0 5).mem }
    (readyB o [4, 1] 0 0 0 0 s = true ∧ mustFollowAt (s.entered o 0 0) (sp 64) 16 = true ∧
      mustFollowAt ((landing 0 0 5).entered o 0 0) (sp 64) 16 = false ∧ s.fstrm.taken = false) ∧
    (∃ f, landKey (base.entered o 0 0) (sp 65) (landAddr (sp 65) 0) = .error f ∧ f.code ≠ 0x10) := by
  refine ⟨by decide +kernel, ⟨_, rfl, by decide +kernel⟩⟩

/-! ## Witnesses: results and heaps -/

/-- Three results pending: one that must be written before an older one that may be, one that is superseded, and none due. -/
theorem witness_pending_results :
    (∀ e ∈ [(100, 100), (100, 200), (101, 200)],
      let p : PendRes := ⟨5, .v 23, 0, some ones, 0x3F, e.1, e.2⟩
      let q : PendRes := ⟨4, .v 23, 0, some ones, 0, e.1, 200⟩
      let r : PendRes := ⟨3, .v 7, 0, none, 1, 101, 200⟩
      let s := world .math { regs with pend := [r] ++ p :: [q] }
      (s.ctx 0).pend = [r] ++ p :: [q] ∧ (∀ e ∈ [r] ++ [q], e.id ≠ p.id) ∧ p.value = some ones ∧
      (e = (101, 200) → ∀ e ∈ (s.ctx 0).pend, s.cycle < e.first ∧ s.cycle < e.bound) ∧
      (e = (100, 100) → p.bound ≤ s.cycle ∧ ∀ e ∈ [r], s.cycle < e.bound) ∧
      (e = (100, 200) → (∀ e ∈ (s.ctx 0).pend, s.cycle < e.bound) ∧ p.first ≤ s.cycle ∧ ∀ e ∈ [r], s.cycle < e.first)) ∧
    (let r : PendRes := ⟨3, .v 7, 0, none, 1, 100, 200⟩
     ((world .math { regs with pend := [r] }).ctx 0).pend = [] ++ r :: [] ∧ r.value = none) := by decide +kernel

/-- A full heap of three, and lanes that are worse than its root, equal to it and better, by value and by number. -/
theorem witness_heap_lanes :
    (let e : List HEntry := [(0x3F800000, 9), (0x40400000, 5), (0x40400000, 4)]
     isHeap e = true ∧ e.length ≤ 3 ∧
     (∀ k ∈ List.range 3,
       let x := [((0x3F000000, 1) : HEntry), (0x3F800000, 9), (0x40A00000, 5)].getD k (0, 0)
       x.2.toNat < 0xFFFFFFFE ∧ f32 x.1 ≠ .nan ∧
       ((x.2 = (e.getD 0 (0, 0)).2 ∧ f32 (e.getD 0 (0, 0)).1 ≠ .nan ∧ cmpVal (f32 x.1) (f32 (e.getD 0 (0, 0)).1) = 0) ↔ k = 1))) ∧
    (isHeap [((0x7FC00000, 5) : HEntry)] = true ∧ f32 0x7FC00000 = .nan) := by decide +kernel

/-- A finite number, an infinity, a zero and a NaN. -/
theorem witness_special_numbers :
    (∃ n m e, f32 0x00000001 = .fin n m e) ∧ f32 0x7FC00001 = .nan ∧ Rm.rtz ≠ .dyn ∧ (0x80000000 : W32) ≠ 0 := by
  refine ⟨⟨_, _, _, rfl⟩, by decide +kernel, by decide, by decide⟩

/-! ## Witnesses: full channels -/

/-- Eight ops in each channel, for an instruction of the matrix engine, the gather engine, the fabric and the collectives. -/
theorem witness_full_channels :
    ∀ e ∈ [((4 : Fin 8), Instr.zld o 0 0 0), (5, .gath o ⟨5, 5, 15, 0, false, true⟩ ⟨0, 0, 0, false, false⟩), (6, .rst o 7 4 0),
        (7, .rred o 7 4 .fadd)],
      let s := { world .load regs with ops := List.replicate 8 { op6 copyKind .queued with chan := e.1 } }
      8 ≤ placesTaken s 0 e.1 ∧ s.fctx.chuse.getLsbD e.1.val = true ∧ (e.1.val < 6 → opChannel e.2 = some e.1) := by decide +kernel

/-- COLL whose record a store of its stream is still to reach, whose record cannot be read, and whose record is bad. -/
theorem witness_coll_records :
    (let s := { (accessing [{ access 1 .store (spadKey 0 64) with cls := 3 }]) with focus := ⟨0, .ctl, 0, 0⟩ }
     mustFollowAt (s.entered o 0 0) (sp 64) 32 = true) ∧
    ((recordBytes (base.entered o 0 0) (sp 65536) 32 32).toOption = none ∧ mustFollowAt (base.entered o 0 0) (sp 65536) 32 = false) ∧
    collBad .allred 0 0 = true := by decide +kernel

/-! ## Witnesses: drains, markers and held units -/

/-- The drain that a cut run left on a core that is held for another start; and an op whose held unit lets a marker pass. -/
theorem witness_left_drains :
    (let s := coreIn (.held 0) { regs with
        drains := [{ (default : Drain) with id := 4 }], zorder := [(0, .drain 4)], mathEnd := true } { job with again := some true }
     drainsMove s 0 = true ∧ (s.core 0).run = .held 0 ∧ zFree (s.ctx 0) 0 (.drain 4) = true) ∧
    (let q := { op6 copyKind .running with held := some ⟨90, sp 64, [1], 0⟩ }
     settled (working [q]) 3 = true ∧ settled (working [{ q with held := none }]) 3 = false) := by decide +kernel

/-- A held unit of a copy, and a held write of another rank, whose page is released, stays held and faults; and a store that faults. -/
theorem witness_held_units :
    (∀ e ∈ [((0x1000 : W64), 0), (0x40000000, 1), (0x80000000, 2)],
      let u : HeldUnit := ⟨90, e.1, [1, 2], 0⟩
      let a := { op6 copyKind .running with held := some u }
      let a := { a with rights := { a.rights with root := 65536 } }
      let s := { mapped regs with ops := [a] }
      s.findOp a.oid = some a ∧ a.status.isLive = true ∧ a.kind = copyKind ∧
      wroteIs (freshWalk 0 (fun s => writeVaAt false s 0 (a.accessRights s) u.va.toNat u.data) s) = e.2) ∧
    (∀ e ∈ [(0x1000, 0), (0x40000000, 1), (0x80000000, 2)],
      let p : Pending := ⟨0, req1 e.1, [0], none, none, some 90⟩
      let s := receiving [p]
      let q := sequencer s ⟨38, 0⟩ 0 0
      p ∈ q.ops ∧ p.num = q.next ∧ p.heldAt = some 90 ∧ p.req.land = none ∧
      (remoteGraph s q.part p.req.hash).isSome = true ∧
      ∀ g ∈ remoteGraph s q.part p.req.hash, wroteIs (freshWalk (receiverCore s q.part)
        (fun s => writeVaAt false s (receiverCore s q.part) (remoteRights g) p.req.va [1, 2, 3, 4, 5, 6, 7, 8]) s) = e.2) ∧
    (let a := { heldStore with all := [⟨2 ^ 31, 4, 0⟩] }
     let s := paged { regs with str := regs.str.set 0 { strm0 with accs := [a] } }
     checkIs (freshWalk 0 (fun s => checkPieces 0 (rightsOf s 0) true true false s [⟨2 ^ 31, 4, 0⟩] [] none false) s) = 2 ∧
     (s.core 0).run = .running 0 ∧ (s.findTask 0).isSome = true) := by decide +kernel

/-! ## Witnesses: teams and publication -/

/-- The last member of a team of three whose others wait, with regions that agree, that do not, and with a poisoned one. -/
theorem witness_rot_of_three :
    ∀ e ∈ [(RotWait.mk false 256 512 0, ([] : List Nat)), (.mk true 256 512 0, []), (.mk false 256 512 0, [spadKey 2 264])],
      let k := { job with tsize := 3, mpos := 2 }
      let u := { k with slot := 1, pcore := 1, mpos := 0 }
      let v := { k with slot := 2, pcore := 2, mpos := 1 }
      let r : RotWait := ⟨false, 1024, 512, 0⟩
      let s0 := pair .ctl (atAddr (sp 65024)) { regs with rot := some r } k u
      let s : State := { s0 with
        cores := s0.cores.set 2 { Core.reset with ctx := { regs with rot := some e.1 }, run := .running 2 }
        tasks := [k, u, v], poison := e.2 }
      let l := [(0, (1 : CoreId), r), (1, 2, e.1)]
      s.mytask = some k ∧ readyB o [1] 0 0 0 0 s = true ∧ releasePending (s.entered o 0 0).fctx .ctl = false ∧
      (rotRegion s (s.fctx.gr 1) 512).toOption = some 65024 ∧ rotOthers s k = some l ∧ s.mem.wf = true ∧
      ((k.mpos :: l.map (·.1)).Nodup ∧ (s.fcore :: l.map (·.2.1)).Nodup) ∧ 65024 + 512 ≤ 2 ^ 21 ∧
      (∀ x ∈ l, ∃ slot ∈ [1, 2], ∃ t ∈ s.tasks, (s.core x.2.1).run = .running slot ∧ s.findTask slot = some t ∧ t.mpos = x.1) ∧
      ((∀ x ∈ l, rotPoisoned s x.2.1 x.2.2 = false) ↔ e.2 = []) ∧ ((∀ x ∈ l, x.2.2.prev = false) ↔ e.1.prev = false) := by
  decide +kernel

/-- A member that is there and one that has ended; and TNEW to a counter whose bank serves another first. -/
theorem witness_team_and_bank :
    (let k := { job with tsize := 2 }
     let u := { k with slot := 1, mpos := 1 }
     (∃ t ∈ teamOf { base with tasks := [k, u] } k, t.mpos = 1) ∧ ¬∃ t ∈ teamOf { base with tasks := [k] } k, t.mpos = 1) ∧
    (let s := publishing 0x1000 (taskRec 1 0 0) [⟨0, 0, .opened, 5, 0, 101⟩] []
     pubIs (publish 0 { net with root := 65536 } (some 0) (s.fctx.gr 1).toNat none (s.entered o 0 0)) = 8) := by decide +kernel

/-! ## Witnesses: cuts, ops and graphs -/

/-- A held WRQ that is withdrawn; an op in the range of a task that is cut by force; and an MMA op of another core's engine. -/
theorem witness_cut_ops :
    (let a := { access 1 (.drain 2) (2 ^ 30) with heldAt := some 90, stalls := true, took := (1, 1) }
     let s := coreIn (.cutting 0 99) { regs with str := regs.str.set 3 { strm0 with accs := [a] } } job
     ((s.ctx 0).strm .store).accs = [a] ∧ a.heldAt = some 90 ∧ a.stalls = true ∧ ((s.ctx 0).strm .store).taken = false) ∧
    (let k := { job with forced := true }
     let q := { op6 copyKind .running with owner := none, flying := true, rights := { (op6 copyKind .running).rights with live := false } }
     forcedNow k = true ∧ touchesRange k q = true ∧ q.inFlight = true ∧ q.runsThrough = false) ∧
    (let q := { op6 (.mma .mma 3 tileA tileB none entryBf .rne false false false (some (1, Acc.zero))) .queued with chan := 4 }
     let s := working [q]
     s.findOp q.oid = some q ∧ q.inFlight = false ∧ q.runsThrough = false ∧ q.kind.isAway = true ∧ (s.homeCtx q).isSome = true ∧
     ownerRuns s q = true) := by decide +kernel

/-- Cuts that stay: with a buffer that a running mate holds, and with a detached op in the range that runs. -/
theorem witness_cuts_stay :
    (let k := { job with st := .cutHeld, slot := 0 }
     let u := { job with slot := 1, pcore := 1 }
     let s := { coreIn (.held 0) regs k with tasks := [k, u], buffers := [{ (default : Buffer) with live := true, holder := some 1 }] }
     let s : State := { s with cores := s.cores.set 1 { Core.reset with run := .running 1 } }
     lentOut s k = true ∧ s.findTask 0 = some k ∧ (s.core k.pcore).run = .held 0 ∧ cutRoom s k.size = true ∧
     lentOut { s with buffers := [] } k = false) ∧
    (let k := { job with st := .cutHeld }
     let q := { op6 copyKind .running with owner := none }
     touchesRange k q = true ∧ ¬(opStopped q = true ∧ q.kind.runsOn = false) ∧
     (opStopped { q with status := .paused } = true ∧ ({ q with status := .paused } : Op).kind.runsOn = false)) := by decide +kernel

/-- A graph whose last task ends in its grace period; an evicted core whose grace is over; and a core's walk-fault cut. -/
theorem witness_cuts_of_graphs :
    (let g := { net with pre := .preempting 100 }
     let s : State := { base with graphs := [g], tasks := [] }
     (∀ k ∈ s.tasks, k.graph ≠ g.handle) ∧ s.ops = [] ∧ s.graphs.filter (fun h => h.pre != .running) = [g] ∧ s.evict = [] ∧
     s.saves = [] ∧ heldSlots s g.handle = []) ∧
    (let q := { op6 copyKind .running with owner := none }
     let s : State := { working [q] with evict := [(0, 100)], graphs := [], cycle := 480100 }
     s.evict = [(0, 100)] ∧ s.saves = [] ∧ (s.core 0).run = .running 0 ∧ s.findTask 0 = some job ∧ 100 + 480000 ≤ s.cycle ∧
     cutRoom s job.size = true ∧ q.rights.pcore = 0 ∧ q.runsThrough = false ∧ q.inFlight = false ∧ q.kind.isAway = false) ∧
    (let k := { job with st := .walkFault, again := some false, fault := some { (default : FaultInfo) with walk := true } }
     let s := coreIn (.starting 0 68) regs k
     s.findTask 0 = some k ∧ zstReads s 0 = false ∧ k.image = none ∧ k.tsize ≤ 1) := by decide +kernel

/-- Handlers that dispose while a stream of theirs runs; tasks of a cancelled graph, one of which was never dispatched. -/
theorem witness_handlers_wait :
    (let x := { ending with g := ending.g.set 1 65538, str := ending.str.set 1 strm0 }
     let s := { serving .cutHeld 65538 none with cores := (serving .cutHeld 65538 none).cores.set 0 { Core.reset with ctx := x, run := .running 0 } }
     s.fctx.tendAt = 0 ∧ (s.fctx.strm .load).ended = false ∧ s.fstrm.taken = false ∧ readyB o [1] 0 0 0 0 s = true) ∧
    (([0, 1, 2] : List Nat).Nodup ∧ net.nkill < 2 ^ 32) := by decide +kernel

/-! ## Witnesses: dispatch, gangs and retirement -/

/-- The second entry of the ready order is dispatched past a first one that fits nowhere. -/
theorem witness_passed_entries :
    let k := { job with st := .ready }
    let u := { job with st := .ready, slot := 1, prio := 0 }
    let q : QEntry := ⟨[0], false, true, 0, true, 0⟩
    let r : QEntry := ⟨[1], false, false, 0, true, 0⟩
    let s0 := { coreIn .idle regs k with tasks := [{ k with prio := 7, lcore := 9 }, u], evict := [(9, 0)] }
    let s := tidyRings 0 (s0.updPart 0 fun p => { p with queue := [q, r] })
    let s2 := startDrain 0 q s
    (readyOrder s 0).map (·.1.tasks) = [[0], [1]] ∧ entrySpots s2 0 q = none ∧ (entrySpots s2 0 r).isSome = true ∧
    q.tasks ≠ r.tasks ∧ q.pass < (s.parts[(0 : Fin 4)]).age := by decide +kernel

/-- Graphs whose retirement is under way, of each mode. -/
theorem witness_retiring :
    ∀ m ∈ [GMode.dynamic, .recording false, .replay 3, .handedBack 3],
      let g := { net with mode := m, ended := some (99, 7) }
      let s : State := { base with graphs := [g], tasks := [] }
      s.findGraph 0 = some g ∧ g.ended ≠ none ∧ mayRetire s { g with ended := none } = true := by decide +kernel

/-- The agreement of a gang of one other member, whose proposals are all there, in time. -/
theorem witness_agreements :
    let m : GangMsg := ⟨9, 2, 0, 0, true, 3, 7, true⟩
    let y : Yelm := { (default : Yelm) with nrank := 2, st := .held, hash := 9, rev := 3 }
    let g := { net with hash := 9, joined := some 0, mode := .replay 3 }
    let l := [{ m with second := false }, { m with second := false, rank := 1 }, m, { m with rank := 1 }]
    let s0 : State := { base with graphs := [g], fabric := { base.fabric with gangs := l.map fun e => (0, e) } }
    let s := s0.updPart 0 fun p => { p with yelms := [y] }
    gangGave s g = some (3, 7, true) ∧ replayYelm s g = some y ∧ (heldOf s.parts[(0 : Fin 4)] 9).find? (·.rev == 3) = some y ∧
    ¬(0 + 1024 ≤ s.course) := by decide +kernel

/-! ## Witnesses: bring-up and fetch faults -/

/-- A device and its partitions that are ready; a partition of fewer than ten clusters; a die that bring-up found bad. -/
theorem witness_ready :
    deviceReady base = true ∧ (∀ q : Fin 4, partReady base q = true ↔ (base.parts[q]).used = true) ∧
    partReady (base.updPart 0 fun p => { p with map := List.range 9 }) 0 = false ∧
    partReady (base.updPart 0 fun p => { p with short := true }) 0 = false ∧ (base.parts[(0 : Fin 4)]).short = false ∧
    (let s : State := { State.reset with mgmt := { Mgmt.reset with phase := 4, epoch := some (3200, 0), badDies := [0, 1, 2, 3] } }
     (courseSource s).isSome = true ∧ (usableMap s 0).length < 10) ∧
    fibreLit base 0 = true ∧ fibreLit (base.updFibre 0 fun q => { q with dark := true }) 0 = false := by decide +kernel

/-- A stream whose next word stands past its image, on a poisoned word, and in a line that could not be fetched. -/
theorem witness_fetch_faults :
    (let s := world .ctl { regs with str := regs.str.set 0 { strm0 with pc := 0x1080 } }
     let q := (s.ctx 0).strm .ctl
     hasTurn s 0 .ctl = true ∧ q.taken = false ∧ inImage q q.pc.toNat = false ∧ (s.core 0).run = .running 0 ∧
     s.findTask 0 = some job) ∧
    (let s : State := { base with agenda := [.stream 0 .ctl] }
     let s := s.setCtx 0 { regs with str := regs.str.set 0 { strm0 with miss := some 0x1000, missCode := 0x0D } }
     heldLine s 0 .ctl 0x1000 = none ∧ ((s.ctx 0).strm .ctl).miss = some 0x1000 ∧ ((s.ctx 0).strm .ctl).missCode ≠ 0) ∧
    ({ wanted with ue := [0] } : ILine).bad 0x1000 = true := by decide +kernel

end Sys2Proof.Tests
end

section
/-!
When an op channel is available to a task, and what that says about the base at which the task fits on a core (R87).
-/
namespace Sys2Proof.Machine

/-- The live ops of a channel of a physical core, which R87 counts. -/
def liveOpsOn (s : State) (c : CoreId) (n : Fin 8) : List Op :=
  s.ops.filter fun o => o.status.isLive && o.rights.pcore == c.val && o.chan == n

/-- The two conditions of R87 on one channel. -/
theorem channelFree_iff {s : State} {c : CoreId} {graph : Nat} {n : Fin 8} :
    channelFree s c graph n = true ↔
      (∀ o ∈ liveOpsOn s c n, o.graph = graph) ∧ (liveOpsOn s c n).length < 8 := by
  change ((liveOpsOn s c n).all (·.graph == graph) && decide ((liveOpsOn s c n).length < 8)) = true ↔ _
  simp only [Bool.and_eq_true, List.all_eq_true, beq_iff_eq, decide_eq_true_eq]

/-- Only the channels that CHUSE names count. -/
theorem channelsFree_iff {s : State} {c : CoreId} {graph : Nat} {chuse : BitVec 8} :
    channelsFree s c graph chuse = true ↔
      ∀ n : Fin 8, chuse.getLsbD n.val = true → channelFree s c graph n = true := by
  simp only [channelsFree, List.all_eq_true, List.mem_finRange, true_imp_iff, Bool.or_eq_true, Bool.not_eq_true',
    ← Bool.not_eq_true, ← Decidable.imp_iff_not_or]

/-- A task that fits has its channels available. -/
theorem channelsFree_of_fitBase_eq_some {s : State} {c : CoreId} {t : Task} {b : Nat} (h : fitBase s c t = some b) :
    channelsFree s c t.graph t.chuse = true :=
  (Option.ite_none_right_eq_some.mp h).1

/-- With its channels available, only the held ranges decide where a task fits (R86). -/
theorem fitBase_of_channelsFree {s : State} {c : CoreId} {t : Task} (h : channelsFree s c t.graph t.chuse = true) :
    fitBase s c t = lowestBase (heldRanges s c.val) t.size :=
  if_pos h

/-- Settles O54: both parts on fit read CHUSE channel by channel, and each channel by its live ops. -/
theorem channelsAvailable : Obligations.ChannelsAvailable := by
  intro s c k
  refine ⟨fun n => channelFree_iff, fun b hfit n hn => ?_, fun hfree => ?_⟩
  · have hall := channelsFree_iff.mp (channelsFree_of_fitBase_eq_some hfit)
    exact channelFree_iff.mp (hall n hn)
  · have hall := channelsFree_iff.mpr fun n hn => channelFree_iff.mpr (hfree n hn)
    exact fitBase_of_channelsFree hall

end Sys2Proof.Machine
end

section
/-!
The campus calendar: the partner of a campus fibre, and the courses and the fibre that meet a partner hall (R293). For an
offset x of the halls, the courses that meet it are eight in a row of the round, counted around its end.
-/
namespace Sys2Proof.Machine

@[simp] theorem hallOf_position {H i : Nat} (hi : i < 2048) : hallOf (H * 2048 + i) = H := by
  simp only [hallOf]; omega

@[simp] theorem indexOf_position {H i : Nat} (hi : i < 2048) : indexOf (H * 2048 + i) = i := by
  simp only [indexOf]; omega

/-- A campus fibre changes the hall and keeps the index. -/
theorem partnerOf_campusFibre (pos g c : Nat) :
    partnerOf pos (64 + g) c = (hallOf pos ^^^ ((g + 8 * c) % 256)) * 2048 + indexOf pos := by
  have campus : ¬64 + g < 64 := by omega
  rw [partnerOf, if_neg campus, Nat.add_sub_cancel_left]

/-- The courses in which some campus fibre meets the hall at offset x are the eight up to x / 8, modulo 32. -/
theorem exists_campusFibre_iff {x c : Nat} (hx : x < 256) (hc : c < 32) :
    (∃ g < 64, (g + 8 * c) % 256 = x) ↔ (39 - x / 8 + c) % 32 < 8 := by
  constructor
  · rintro ⟨g, hg, rfl⟩; omega
  · intro h
    exact ⟨(x + 256 - 8 * c) % 256, by omega, by omega⟩

/-- A list of numbers from 0 up, counted in two parts. -/
theorem countP_range_add (p : Nat → Bool) (m n : Nat) :
    (List.range (m + n)).countP p = (List.range m).countP p + (List.range n).countP fun c => p (m + c) := by
  rw [List.range_add, List.countP_append, List.countP_map, Function.comp_def]

/-- Of 32 numbers in a row, from whichever the row begins, 8 are below 8 modulo 32. -/
theorem countP_below_eight_mod (k : Nat) : ((List.range 32).countP fun c => (k + c) % 32 < 8) = 8 := by
  have first := countP_range_add (fun n => n % 32 < 8) k 32
  have last := countP_range_add (fun n => n % 32 < 8) 32 k
  have round : ((List.range 32).countP fun n => n % 32 < 8) = 8 := by decide
  simp only [Nat.add_mod_left] at last
  rw [Nat.add_comm 32 k] at last
  omega

/-- Each offset of the halls comes in 8 courses of a round. -/
theorem length_campusCourses {x : Nat} (hx : x < 256) :
    ((List.range 32).filter fun c => (List.range 64).any fun g => (g + 8 * c) % 256 == x).length = 8 := by
  have window : ∀ c ∈ List.range 32, ((List.range 64).any fun g => (g + 8 * c) % 256 == x) =
      decide ((39 - x / 8 + c) % 32 < 8) := by
    intro c hc
    rw [Bool.eq_iff_iff, decide_eq_true_iff, ← exists_campusFibre_iff hx (List.mem_range.mp hc)]
    simp only [List.any_eq_true, List.mem_range, beq_iff_eq]
  rw [List.filter_congr window, ← List.countP_eq_length_filter]
  exact countP_below_eight_mod _

/-- In one course no two campus fibres have the same offset. -/
theorem campusFibre_unique {g k c : Nat} (hg : g < 64) (hk : k < 64) (h : (g + 8 * c) % 256 = (k + 8 * c) % 256) :
    g = k := by
  omega

/-- Settles O53: the partner by the equation of a campus fibre, and the courses of an offset by counting its window. -/
theorem campusCalendar : Obligations.CampusCalendar := by
  refine ⟨fun H i g c _ hi _ _ => ?_, fun x hx => ⟨length_campusCourses hx, fun c g k _ hg hk hgx hkx => ?_⟩⟩
  · rw [partnerOf_campusFibre, hallOf_position hi, indexOf_position hi]
  · exact campusFibre_unique hg hk (hgx.trans hkx.symm)

end Sys2Proof.Machine
end
